-- ==== Sys2Proof/Word.lean ====
section
/-!
DEFINITION. The words of the hardware: a byte, a compressed block, the format select.
Rules R14 and R30 of spec/00_scope.md and spec/10_state.md.
-/

namespace Sys2Proof

/-- One byte. -/
abbrev Byte := BitVec 8

/-- The 128-bit block port `BLK` (R30): bit `k` of the block is bit `k` of the vector (R14). -/
abbrev Block := BitVec 128

/-- The 4-bit format select `FMT` (R30, R130). -/
abbrev FmtCode := BitVec 4

/-- What the host presents for one operation: the format select and the block (R30). -/
structure Word where
  fmt : FmtCode
  blk : Block
  deriving DecidableEq, Repr

end Sys2Proof
end

