-- ==== Sys2Proof/Syntax.lean ====
section
/-!
DEFINITION. The instructions: one constructor per row of spec/opcode_table.json. An operation is applied to one
block, and the block is both its encoding and its data (R77, R152), so the operands of a row are the fields of its
block layout (R133 to R149); their widths are the widths of the layout.
-/

namespace Sys2Proof

/-- The BC6H profile (R40). -/
inductive Profile | unsigned | signed
  deriving DecidableEq, Repr

/-- The ten formats (R4, R130): "an enumerated type with ten constructors". -/
inductive Fmt | bc1 | bc2 | bc3 | bc4u | bc4s | bc5u | bc5s | bc6hu | bc6hs | bc7
  deriving DecidableEq, Repr

/-- Layout `COLOR` (R133): two raw 5:6:5 colours and sixteen 2-bit indices. -/
structure ColorFields where
  c0 : BitVec 16
  c1 : BitVec 16
  sel : BitVec 32
  deriving DecidableEq, Repr

/-- Layout `GRAD` (R136): two endpoint bytes and sixteen 3-bit indices. -/
structure GradFields where
  e0 : Byte
  e1 : Byte
  gsel : BitVec 48
  deriving DecidableEq, Repr

/-- The fields of a two-region BC6H mode (R138, R142): base endpoints `W` of `w` bits, the other endpoints
`X`, `Y`, `Z` of `r`, `g`, `b` bits, the 5-bit shape `D`, and the 46 index bits. -/
structure Bc6Two (w r g b : Nat) where
  rW : BitVec w
  gW : BitVec w
  bW : BitVec w
  rX : BitVec r
  gX : BitVec g
  bX : BitVec b
  rY : BitVec r
  gY : BitVec g
  bY : BitVec b
  rZ : BitVec r
  gZ : BitVec g
  bZ : BitVec b
  d : BitVec 5
  idx : BitVec 46
  deriving DecidableEq, Repr

/-- The fields of a one-region BC6H mode (R138, R142): `W` of `w` bits, `X` of `x` bits, and the 63 index bits. -/
structure Bc6One (w x : Nat) where
  rW : BitVec w
  gW : BitVec w
  bW : BitVec w
  rX : BitVec x
  gX : BitVec x
  bX : BitVec x
  idx : BitVec 63
  deriving DecidableEq, Repr

/-- The fields of a BC7 mode (R144, R145). A width of 0 is an absent field. `r`, `g`, `b`, `a` hold the endpoint
channels back to back, endpoint 0 lowest. -/
structure Bc7Fields (sb rb ib ch al np i1 i2 : Nat) where
  shape : BitVec sb
  rot : BitVec rb
  isel : BitVec ib
  r : BitVec ch
  g : BitVec ch
  b : BitVec ch
  a : BitVec al
  p : BitVec np
  idx1 : BitVec i1
  idx2 : BitVec i2
  deriving DecidableEq, Repr

/-- The instructions. `hi` of an 8-byte format is `BLK[127:64]`, present on the port and ignored (R31, R150). -/
inductive Instr
  | decBC1 (col : ColorFields) (hi : BitVec 64)
  | decBC2 (a4 : BitVec 64) (col : ColorFields)
  | decBC3 (al : GradFields) (col : ColorFields)
  | decBC4U (gr : GradFields) (hi : BitVec 64)
  | decBC4S (gr : GradFields) (hi : BitVec 64)
  | decBC5U (g0 : GradFields) (g1 : GradFields)
  | decBC5S (g0 : GradFields) (g1 : GradFields)
  | decBC6HU (blk : Block)
  | decBC6HS (blk : Block)
  | decBC7 (blk : Block)
  /-- `FMT` 10 or 11 (R149): the low bit of `FMT` and the block, of which nothing is read. -/
  | unsupportedFmt10_11 (f : BitVec 1) (blk : Block)
  /-- `FMT` 12 to 15 (R149): the low two bits of `FMT` and the block, of which nothing is read. -/
  | unsupportedFmt12_15 (f : BitVec 2) (blk : Block)
  | bc6hMode0 (p : Profile) (f : Bc6Two 10 5 5 5)
  | bc6hMode1 (p : Profile) (f : Bc6Two 7 6 6 6)
  | bc6hMode2 (p : Profile) (f : Bc6Two 11 5 4 4)
  | bc6hMode3 (p : Profile) (f : Bc6Two 11 4 5 4)
  | bc6hMode4 (p : Profile) (f : Bc6Two 11 4 4 5)
  | bc6hMode5 (p : Profile) (f : Bc6Two 9 5 5 5)
  | bc6hMode6 (p : Profile) (f : Bc6Two 8 6 5 5)
  | bc6hMode7 (p : Profile) (f : Bc6Two 8 5 6 5)
  | bc6hMode8 (p : Profile) (f : Bc6Two 8 5 5 6)
  | bc6hMode9 (p : Profile) (f : Bc6Two 6 6 6 6)
  | bc6hMode10 (p : Profile) (f : Bc6One 10 10)
  | bc6hMode11 (p : Profile) (f : Bc6One 11 9)
  | bc6hMode12 (p : Profile) (f : Bc6One 12 8)
  | bc6hMode13 (p : Profile) (f : Bc6One 16 4)
  /-- Reserved codes 0x13, 0x17, 0x1B, 0x1F (R140): bits 3:2 of the code, and the ignored bits 127:5. -/
  | bc6hReserved (p : Profile) (k : BitVec 2) (rest : BitVec 123)
  | bc7Mode0 (f : Bc7Fields 4 0 0 24 0 6 45 0)
  | bc7Mode1 (f : Bc7Fields 6 0 0 24 0 2 46 0)
  | bc7Mode2 (f : Bc7Fields 6 0 0 30 0 0 29 0)
  | bc7Mode3 (f : Bc7Fields 6 0 0 28 0 4 30 0)
  | bc7Mode4 (f : Bc7Fields 0 2 1 10 12 0 31 47)
  | bc7Mode5 (f : Bc7Fields 0 2 0 14 16 0 31 31)
  | bc7Mode6 (f : Bc7Fields 0 0 0 14 14 2 63 0)
  | bc7Mode7 (f : Bc7Fields 6 0 0 20 20 4 30 0)
  /-- Reserved mode 8 (R143): the ignored bits 127:8. -/
  | bc7Mode8 (rest : BitVec 120)
  /-- `RDBITS(n)` (R200); the contract allows 0 to 8. -/
  | rdbits (n : Nat)
  | rdbit
  deriving DecidableEq, Repr

end Sys2Proof
end

