-- ==== Sys2Proof/WellFormed.lean ====
section
/-!
DEFINITION. Which instruction terms are well-formed. The operand types of Syntax.lean already have the widths of
the layouts (R133 to R149), so every decode operation is well-formed ("every other bit pattern of every layout is a
valid block", R149). The one operand whose range is narrower than its type is the width of a cursor read (R200).
-/

namespace Sys2Proof

/-- The contract of `RDBITS(n)`: "0 ≤ n ≤ 8" (R200). -/
def Instr.wellFormed : Instr → Bool
  | .rdbits n => decide (n ≤ 8)
  | .decBC1 .. | .decBC2 .. | .decBC3 .. | .decBC4U .. | .decBC4S .. | .decBC5U .. | .decBC5S ..
  | .decBC6HU .. | .decBC6HS .. | .decBC7 .. | .unsupportedFmt10_11 .. | .unsupportedFmt12_15 ..
  | .bc6hMode0 .. | .bc6hMode1 .. | .bc6hMode2 .. | .bc6hMode3 .. | .bc6hMode4 .. | .bc6hMode5 ..
  | .bc6hMode6 .. | .bc6hMode7 .. | .bc6hMode8 .. | .bc6hMode9 .. | .bc6hMode10 .. | .bc6hMode11 ..
  | .bc6hMode12 .. | .bc6hMode13 .. | .bc6hReserved ..
  | .bc7Mode0 .. | .bc7Mode1 .. | .bc7Mode2 .. | .bc7Mode3 .. | .bc7Mode4 .. | .bc7Mode5 ..
  | .bc7Mode6 .. | .bc7Mode7 .. | .bc7Mode8 .. | .rdbit => true

end Sys2Proof
end

