-- ==== Sys2Proof/Decode.lean ====
section
/-!
DEFINITION. The block read of R71, the decoder and the encoder. A presented word is the format select and the 128-bit
block (R30). The first level is selected by FMT (R130, R152); the block's own mode selector is a second level (R140,
R143). Field positions are those of R133 to R149 and the gather forms of R181 to R194.
-/

namespace Sys2Proof

/-- `MemRead(pos, n) = (BLK >> pos) & (2^n - 1)` (R71). -/
def memRead (blk : Block) (pos n : Nat) : Nat := (blk.toNat >>> pos) % 2 ^ n

/-- The block integer of a byte sequence in stream order, `Σ B[j]·2^(8j)` (R14). -/
def blockNat : List Byte → Nat
  | [] => 0
  | b :: bs => b.toNat + 256 * blockNat bs

/-- The block of a byte sequence in stream order (R14); missing bytes read as 0. -/
def blockOfBytes (bs : List Byte) : Block := BitVec.ofNat 128 (blockNat bs)

/-- Byte `B[j]` of a block (R14). -/
def blockByte (blk : Block) (j : Nat) : Byte := blk.extractLsb' (8 * j) 8

/-! ### Format select (R130, R131) -/

/-- The code point of a format (R130). -/
def fmtCode : Fmt → FmtCode
  | .bc1 => 0#4
  | .bc2 => 1#4
  | .bc3 => 2#4
  | .bc4u => 3#4
  | .bc4s => 4#4
  | .bc5u => 5#4
  | .bc5s => 6#4
  | .bc6hu => 7#4
  | .bc6hs => 8#4
  | .bc7 => 9#4

/-- The format that a format select names; codes 10 to 15 name none (R130). -/
def fmtOfCode (f : FmtCode) : Option Fmt :=
  match f.toNat with
  | 0 => some .bc1
  | 1 => some .bc2
  | 2 => some .bc3
  | 3 => some .bc4u
  | 4 => some .bc4s
  | 5 => some .bc5u
  | 6 => some .bc5s
  | 7 => some .bc6hu
  | 8 => some .bc6hs
  | 9 => some .bc7
  | _ => none

/-- `BLOCK_BYTES` (R10, R131). -/
def fmtBlockBytes : Fmt → Nat
  | .bc1 | .bc4u | .bc4s => 8
  | .bc2 | .bc3 | .bc5u | .bc5s | .bc6hu | .bc6hs | .bc7 => 16

/-- `LEN` in bits (R131): 64 or 128. A format select with no operation has no block of which a bit could be read
(R414), so its length is 0 (log entry 13). -/
def lenBits (f : FmtCode) : Nat :=
  match fmtOfCode f with
  | some k => 8 * fmtBlockBytes k
  | none => 0

/-! ### Fixed layouts (R133 to R137) -/

/-- Layout `COLOR` raised by `base` (R133): `C0` = 15:0, `C1` = 31:16, `SEL` = 63:32. -/
def readColor (blk : Block) (base : Nat) : ColorFields :=
  ⟨blk.extractLsb' base 16, blk.extractLsb' (base + 16) 16, blk.extractLsb' (base + 32) 32⟩

/-- Layout `GRAD` raised by `base` (R136): `E0` = 7:0, `E1` = 15:8, `GSEL` = 63:16. -/
def readGrad (blk : Block) (base : Nat) : GradFields :=
  ⟨blk.extractLsb' base 8, blk.extractLsb' (base + 8) 8, blk.extractLsb' (base + 16) 48⟩

/-- The 64 bits of layout `COLOR` (R133). -/
def colorBits (f : ColorFields) : BitVec 64 := f.sel ++ f.c1 ++ f.c0

/-- The 64 bits of layout `GRAD` (R136). -/
def gradBits (f : GradFields) : BitVec 64 := f.gsel ++ f.e1 ++ f.e0

/-! ### BC6H header placement (R142, R181 to R194) -/

/-- Gather form (R180): the unsigned integer whose bit `n` is block bit `ps[n]`. -/
def gather (blk : Block) : List Nat → Nat
  | [] => 0
  | p :: ps => (blk.getLsbD p).toNat + 2 * gather blk ps

/-- The inverse placement: bit `n` of `v` at block bit `ps[n]`. -/
def scatter (v : Nat) : List Nat → Nat
  | [] => 0
  | p :: ps => (v % 2) <<< p ||| scatter (v / 2) ps

/-- Bit positions of the accumulators of a two-region mode, bit 0 first (R180). -/
structure TwoLayout where
  rW : List Nat
  gW : List Nat
  bW : List Nat
  rX : List Nat
  gX : List Nat
  bX : List Nat
  rY : List Nat
  gY : List Nat
  bY : List Nat
  rZ : List Nat
  gZ : List Nat
  bZ : List Nat
  d : List Nat
  deriving DecidableEq, Repr

/-- Bit positions of the accumulators of a one-region mode, bit 0 first (R180). -/
structure OneLayout where
  rW : List Nat
  gW : List Nat
  bW : List Nat
  rX : List Nat
  gX : List Nat
  bX : List Nat
  deriving DecidableEq, Repr

/-- Gather form of mode index 0 (R181). -/
def layout6Mode0 : TwoLayout where
  rW := [5, 6, 7, 8, 9, 10, 11, 12, 13, 14]
  gW := [15, 16, 17, 18, 19, 20, 21, 22, 23, 24]
  bW := [25, 26, 27, 28, 29, 30, 31, 32, 33, 34]
  rX := [35, 36, 37, 38, 39]
  gX := [45, 46, 47, 48, 49]
  bX := [55, 56, 57, 58, 59]
  rY := [65, 66, 67, 68, 69]
  gY := [41, 42, 43, 44, 2]
  bY := [61, 62, 63, 64, 3]
  rZ := [71, 72, 73, 74, 75]
  gZ := [51, 52, 53, 54, 40]
  bZ := [50, 60, 70, 76, 4]
  d := [77, 78, 79, 80, 81]

/-- Gather form of mode index 1 (R182). -/
def layout6Mode1 : TwoLayout where
  rW := [5, 6, 7, 8, 9, 10, 11]
  gW := [15, 16, 17, 18, 19, 20, 21]
  bW := [25, 26, 27, 28, 29, 30, 31]
  rX := [35, 36, 37, 38, 39, 40]
  gX := [45, 46, 47, 48, 49, 50]
  bX := [55, 56, 57, 58, 59, 60]
  rY := [65, 66, 67, 68, 69, 70]
  gY := [41, 42, 43, 44, 24, 2]
  bY := [61, 62, 63, 64, 14, 22]
  rZ := [71, 72, 73, 74, 75, 76]
  gZ := [51, 52, 53, 54, 3, 4]
  bZ := [12, 13, 23, 32, 34, 33]
  d := [77, 78, 79, 80, 81]

/-- Gather form of mode index 2 (R183). -/
def layout6Mode2 : TwoLayout where
  rW := [5, 6, 7, 8, 9, 10, 11, 12, 13, 14, 40]
  gW := [15, 16, 17, 18, 19, 20, 21, 22, 23, 24, 49]
  bW := [25, 26, 27, 28, 29, 30, 31, 32, 33, 34, 59]
  rX := [35, 36, 37, 38, 39]
  gX := [45, 46, 47, 48]
  bX := [55, 56, 57, 58]
  rY := [65, 66, 67, 68, 69]
  gY := [41, 42, 43, 44]
  bY := [61, 62, 63, 64]
  rZ := [71, 72, 73, 74, 75]
  gZ := [51, 52, 53, 54]
  bZ := [50, 60, 70, 76]
  d := [77, 78, 79, 80, 81]

/-- Gather form of mode index 3 (R184). -/
def layout6Mode3 : TwoLayout where
  rW := [5, 6, 7, 8, 9, 10, 11, 12, 13, 14, 39]
  gW := [15, 16, 17, 18, 19, 20, 21, 22, 23, 24, 50]
  bW := [25, 26, 27, 28, 29, 30, 31, 32, 33, 34, 59]
  rX := [35, 36, 37, 38]
  gX := [45, 46, 47, 48, 49]
  bX := [55, 56, 57, 58]
  rY := [65, 66, 67, 68]
  gY := [41, 42, 43, 44, 75]
  bY := [61, 62, 63, 64]
  rZ := [71, 72, 73, 74]
  gZ := [51, 52, 53, 54, 40]
  bZ := [69, 60, 70, 76]
  d := [77, 78, 79, 80, 81]

/-- Gather form of mode index 4 (R185). -/
def layout6Mode4 : TwoLayout where
  rW := [5, 6, 7, 8, 9, 10, 11, 12, 13, 14, 39]
  gW := [15, 16, 17, 18, 19, 20, 21, 22, 23, 24, 49]
  bW := [25, 26, 27, 28, 29, 30, 31, 32, 33, 34, 60]
  rX := [35, 36, 37, 38]
  gX := [45, 46, 47, 48]
  bX := [55, 56, 57, 58, 59]
  rY := [65, 66, 67, 68]
  gY := [41, 42, 43, 44]
  bY := [61, 62, 63, 64, 40]
  rZ := [71, 72, 73, 74]
  gZ := [51, 52, 53, 54]
  bZ := [50, 69, 70, 76, 75]
  d := [77, 78, 79, 80, 81]

/-- Gather form of mode index 5 (R186). -/
def layout6Mode5 : TwoLayout where
  rW := [5, 6, 7, 8, 9, 10, 11, 12, 13]
  gW := [15, 16, 17, 18, 19, 20, 21, 22, 23]
  bW := [25, 26, 27, 28, 29, 30, 31, 32, 33]
  rX := [35, 36, 37, 38, 39]
  gX := [45, 46, 47, 48, 49]
  bX := [55, 56, 57, 58, 59]
  rY := [65, 66, 67, 68, 69]
  gY := [41, 42, 43, 44, 24]
  bY := [61, 62, 63, 64, 14]
  rZ := [71, 72, 73, 74, 75]
  gZ := [51, 52, 53, 54, 40]
  bZ := [50, 60, 70, 76, 34]
  d := [77, 78, 79, 80, 81]

/-- Gather form of mode index 6 (R187). -/
def layout6Mode6 : TwoLayout where
  rW := [5, 6, 7, 8, 9, 10, 11, 12]
  gW := [15, 16, 17, 18, 19, 20, 21, 22]
  bW := [25, 26, 27, 28, 29, 30, 31, 32]
  rX := [35, 36, 37, 38, 39, 40]
  gX := [45, 46, 47, 48, 49]
  bX := [55, 56, 57, 58, 59]
  rY := [65, 66, 67, 68, 69, 70]
  gY := [41, 42, 43, 44, 24]
  bY := [61, 62, 63, 64, 14]
  rZ := [71, 72, 73, 74, 75, 76]
  gZ := [51, 52, 53, 54, 13]
  bZ := [50, 60, 23, 33, 34]
  d := [77, 78, 79, 80, 81]

/-- Gather form of mode index 7 (R188). -/
def layout6Mode7 : TwoLayout where
  rW := [5, 6, 7, 8, 9, 10, 11, 12]
  gW := [15, 16, 17, 18, 19, 20, 21, 22]
  bW := [25, 26, 27, 28, 29, 30, 31, 32]
  rX := [35, 36, 37, 38, 39]
  gX := [45, 46, 47, 48, 49, 50]
  bX := [55, 56, 57, 58, 59]
  rY := [65, 66, 67, 68, 69]
  gY := [41, 42, 43, 44, 24, 23]
  bY := [61, 62, 63, 64, 14]
  rZ := [71, 72, 73, 74, 75]
  gZ := [51, 52, 53, 54, 40, 33]
  bZ := [13, 60, 70, 76, 34]
  d := [77, 78, 79, 80, 81]

/-- Gather form of mode index 8 (R189). -/
def layout6Mode8 : TwoLayout where
  rW := [5, 6, 7, 8, 9, 10, 11, 12]
  gW := [15, 16, 17, 18, 19, 20, 21, 22]
  bW := [25, 26, 27, 28, 29, 30, 31, 32]
  rX := [35, 36, 37, 38, 39]
  gX := [45, 46, 47, 48, 49]
  bX := [55, 56, 57, 58, 59, 60]
  rY := [65, 66, 67, 68, 69]
  gY := [41, 42, 43, 44, 24]
  bY := [61, 62, 63, 64, 14, 23]
  rZ := [71, 72, 73, 74, 75]
  gZ := [51, 52, 53, 54, 40]
  bZ := [50, 13, 70, 76, 34, 33]
  d := [77, 78, 79, 80, 81]

/-- Gather form of mode index 9 (R190). -/
def layout6Mode9 : TwoLayout where
  rW := [5, 6, 7, 8, 9, 10]
  gW := [15, 16, 17, 18, 19, 20]
  bW := [25, 26, 27, 28, 29, 30]
  rX := [35, 36, 37, 38, 39, 40]
  gX := [45, 46, 47, 48, 49, 50]
  bX := [55, 56, 57, 58, 59, 60]
  rY := [65, 66, 67, 68, 69, 70]
  gY := [41, 42, 43, 44, 24, 21]
  bY := [61, 62, 63, 64, 14, 22]
  rZ := [71, 72, 73, 74, 75, 76]
  gZ := [51, 52, 53, 54, 11, 31]
  bZ := [12, 13, 23, 32, 34, 33]
  d := [77, 78, 79, 80, 81]

/-- Gather form of mode index 10 (R191). -/
def layout6Mode10 : OneLayout where
  rW := [5, 6, 7, 8, 9, 10, 11, 12, 13, 14]
  gW := [15, 16, 17, 18, 19, 20, 21, 22, 23, 24]
  bW := [25, 26, 27, 28, 29, 30, 31, 32, 33, 34]
  rX := [35, 36, 37, 38, 39, 40, 41, 42, 43, 44]
  gX := [45, 46, 47, 48, 49, 50, 51, 52, 53, 54]
  bX := [55, 56, 57, 58, 59, 60, 61, 62, 63, 64]

/-- Gather form of mode index 11 (R192). -/
def layout6Mode11 : OneLayout where
  rW := [5, 6, 7, 8, 9, 10, 11, 12, 13, 14, 44]
  gW := [15, 16, 17, 18, 19, 20, 21, 22, 23, 24, 54]
  bW := [25, 26, 27, 28, 29, 30, 31, 32, 33, 34, 64]
  rX := [35, 36, 37, 38, 39, 40, 41, 42, 43]
  gX := [45, 46, 47, 48, 49, 50, 51, 52, 53]
  bX := [55, 56, 57, 58, 59, 60, 61, 62, 63]

/-- Gather form of mode index 12 (R193). -/
def layout6Mode12 : OneLayout where
  rW := [5, 6, 7, 8, 9, 10, 11, 12, 13, 14, 44, 43]
  gW := [15, 16, 17, 18, 19, 20, 21, 22, 23, 24, 54, 53]
  bW := [25, 26, 27, 28, 29, 30, 31, 32, 33, 34, 64, 63]
  rX := [35, 36, 37, 38, 39, 40, 41, 42]
  gX := [45, 46, 47, 48, 49, 50, 51, 52]
  bX := [55, 56, 57, 58, 59, 60, 61, 62]

/-- Gather form of mode index 13 (R194). -/
def layout6Mode13 : OneLayout where
  rW := [5, 6, 7, 8, 9, 10, 11, 12, 13, 14, 44, 43, 42, 41, 40, 39]
  gW := [15, 16, 17, 18, 19, 20, 21, 22, 23, 24, 54, 53, 52, 51, 50, 49]
  bW := [25, 26, 27, 28, 29, 30, 31, 32, 33, 34, 64, 63, 62, 61, 60, 59]
  rX := [35, 36, 37, 38]
  gX := [45, 46, 47, 48]
  bX := [55, 56, 57, 58]

/-- The fields of a two-region block: gathered accumulators, and index bits 127:82 (R138). -/
def decodeTwo (w r g b : Nat) (l : TwoLayout) (blk : Block) : Bc6Two w r g b where
  rW := BitVec.ofNat w (gather blk l.rW)
  gW := BitVec.ofNat w (gather blk l.gW)
  bW := BitVec.ofNat w (gather blk l.bW)
  rX := BitVec.ofNat r (gather blk l.rX)
  gX := BitVec.ofNat g (gather blk l.gX)
  bX := BitVec.ofNat b (gather blk l.bX)
  rY := BitVec.ofNat r (gather blk l.rY)
  gY := BitVec.ofNat g (gather blk l.gY)
  bY := BitVec.ofNat b (gather blk l.bY)
  rZ := BitVec.ofNat r (gather blk l.rZ)
  gZ := BitVec.ofNat g (gather blk l.gZ)
  bZ := BitVec.ofNat b (gather blk l.bZ)
  d := BitVec.ofNat 5 (gather blk l.d)
  idx := blk.extractLsb' 82 46

/-- The fields of a one-region block: gathered accumulators, and index bits 127:65 (R138). -/
def decodeOne (w x : Nat) (l : OneLayout) (blk : Block) : Bc6One w x where
  rW := BitVec.ofNat w (gather blk l.rW)
  gW := BitVec.ofNat w (gather blk l.gW)
  bW := BitVec.ofNat w (gather blk l.bW)
  rX := BitVec.ofNat x (gather blk l.rX)
  gX := BitVec.ofNat x (gather blk l.gX)
  bX := BitVec.ofNat x (gather blk l.bX)
  idx := blk.extractLsb' 65 63

/-- The block of a two-region mode: selector code, scattered accumulators, index bits from bit 82 (R138). -/
def encodeTwo {w r g b : Nat} (code : Nat) (l : TwoLayout) (f : Bc6Two w r g b) : Block :=
  BitVec.ofNat 128
    (code ||| scatter f.rW.toNat l.rW ||| scatter f.gW.toNat l.gW ||| scatter f.bW.toNat l.bW
      ||| scatter f.rX.toNat l.rX ||| scatter f.gX.toNat l.gX ||| scatter f.bX.toNat l.bX
      ||| scatter f.rY.toNat l.rY ||| scatter f.gY.toNat l.gY ||| scatter f.bY.toNat l.bY
      ||| scatter f.rZ.toNat l.rZ ||| scatter f.gZ.toNat l.gZ ||| scatter f.bZ.toNat l.bZ
      ||| scatter f.d.toNat l.d ||| f.idx.toNat <<< 82)

/-- The block of a one-region mode: selector code, scattered accumulators, index bits from bit 65 (R138). -/
def encodeOne {w x : Nat} (code : Nat) (l : OneLayout) (f : Bc6One w x) : Block :=
  BitVec.ofNat 128
    (code ||| scatter f.rW.toNat l.rW ||| scatter f.gW.toNat l.gW ||| scatter f.bW.toNat l.bW
      ||| scatter f.rX.toNat l.rX ||| scatter f.gX.toNat l.gX ||| scatter f.bX.toNat l.bX
      ||| f.idx.toNat <<< 65)

/-! ### Decoding -/

/-- A mask and match test over the low bits of the block (R140, R143). -/
def hits (blk : Block) (mask mat : Nat) : Bool := blk.toNat &&& mask == mat

/-- The format select of a BC6H profile (R40, R130). -/
def Profile.fmt : Profile → FmtCode
  | .unsigned => 7#4
  | .signed => 8#4

/-- Second level for `FMT` 7 and 8 (R140, R152): the 15 selector patterns. They are disjoint and cover every value
of `BLK[4:0]`, so the last one is reached exactly by the four reserved codes. -/
def decodeMode6 (p : Profile) (blk : Block) : Instr :=
  if hits blk 0x03 0x00 then .bc6hMode0 p (decodeTwo _ _ _ _ layout6Mode0 blk)
  else if hits blk 0x03 0x01 then .bc6hMode1 p (decodeTwo _ _ _ _ layout6Mode1 blk)
  else if hits blk 0x1F 0x02 then .bc6hMode2 p (decodeTwo _ _ _ _ layout6Mode2 blk)
  else if hits blk 0x1F 0x06 then .bc6hMode3 p (decodeTwo _ _ _ _ layout6Mode3 blk)
  else if hits blk 0x1F 0x0A then .bc6hMode4 p (decodeTwo _ _ _ _ layout6Mode4 blk)
  else if hits blk 0x1F 0x0E then .bc6hMode5 p (decodeTwo _ _ _ _ layout6Mode5 blk)
  else if hits blk 0x1F 0x12 then .bc6hMode6 p (decodeTwo _ _ _ _ layout6Mode6 blk)
  else if hits blk 0x1F 0x16 then .bc6hMode7 p (decodeTwo _ _ _ _ layout6Mode7 blk)
  else if hits blk 0x1F 0x1A then .bc6hMode8 p (decodeTwo _ _ _ _ layout6Mode8 blk)
  else if hits blk 0x1F 0x1E then .bc6hMode9 p (decodeTwo _ _ _ _ layout6Mode9 blk)
  else if hits blk 0x1F 0x03 then .bc6hMode10 p (decodeOne _ _ layout6Mode10 blk)
  else if hits blk 0x1F 0x07 then .bc6hMode11 p (decodeOne _ _ layout6Mode11 blk)
  else if hits blk 0x1F 0x0B then .bc6hMode12 p (decodeOne _ _ layout6Mode12 blk)
  else if hits blk 0x1F 0x0F then .bc6hMode13 p (decodeOne _ _ layout6Mode13 blk)
  else .bc6hReserved p (blk.extractLsb' 2 2) (blk.extractLsb' 5 123)

/-- Second level for `FMT` 9 (R143, R145, R152): the unary selector patterns and the field positions. -/
def decodeMode7 (blk : Block) : Instr :=
  if hits blk 0x01 0x01 then
    .bc7Mode0
      ⟨blk.extractLsb' 1 4, 0#0, 0#0, blk.extractLsb' 5 24, blk.extractLsb' 29 24, blk.extractLsb' 53 24, 0#0, blk.extractLsb' 77 6, blk.extractLsb' 83 45, 0#0⟩
  else if hits blk 0x03 0x02 then
    .bc7Mode1
      ⟨blk.extractLsb' 2 6, 0#0, 0#0, blk.extractLsb' 8 24, blk.extractLsb' 32 24, blk.extractLsb' 56 24, 0#0, blk.extractLsb' 80 2, blk.extractLsb' 82 46, 0#0⟩
  else if hits blk 0x07 0x04 then
    .bc7Mode2
      ⟨blk.extractLsb' 3 6, 0#0, 0#0, blk.extractLsb' 9 30, blk.extractLsb' 39 30, blk.extractLsb' 69 30, 0#0, 0#0, blk.extractLsb' 99 29, 0#0⟩
  else if hits blk 0x0F 0x08 then
    .bc7Mode3
      ⟨blk.extractLsb' 4 6, 0#0, 0#0, blk.extractLsb' 10 28, blk.extractLsb' 38 28, blk.extractLsb' 66 28, 0#0, blk.extractLsb' 94 4, blk.extractLsb' 98 30, 0#0⟩
  else if hits blk 0x1F 0x10 then
    .bc7Mode4
      ⟨0#0, blk.extractLsb' 5 2, blk.extractLsb' 7 1, blk.extractLsb' 8 10, blk.extractLsb' 18 10, blk.extractLsb' 28 10, blk.extractLsb' 38 12, 0#0, blk.extractLsb' 50 31, blk.extractLsb' 81 47⟩
  else if hits blk 0x3F 0x20 then
    .bc7Mode5
      ⟨0#0, blk.extractLsb' 6 2, 0#0, blk.extractLsb' 8 14, blk.extractLsb' 22 14, blk.extractLsb' 36 14, blk.extractLsb' 50 16, 0#0, blk.extractLsb' 66 31, blk.extractLsb' 97 31⟩
  else if hits blk 0x7F 0x40 then
    .bc7Mode6
      ⟨0#0, 0#0, 0#0, blk.extractLsb' 7 14, blk.extractLsb' 21 14, blk.extractLsb' 35 14, blk.extractLsb' 49 14, blk.extractLsb' 63 2, blk.extractLsb' 65 63, 0#0⟩
  else if hits blk 0xFF 0x80 then
    .bc7Mode7
      ⟨blk.extractLsb' 8 6, 0#0, 0#0, blk.extractLsb' 14 20, blk.extractLsb' 34 20, blk.extractLsb' 54 20, blk.extractLsb' 74 20, blk.extractLsb' 94 4, blk.extractLsb' 98 30, 0#0⟩
  else .bc7Mode8 (blk.extractLsb' 8 120)

/-- First level (R130, R152): the operation that `FMT` selects, with the fields of its layout. -/
def decode (w : Word) : Instr :=
  match w.fmt.toNat with
  | 0 => .decBC1 (readColor w.blk 0) (w.blk.extractLsb' 64 64)
  | 1 => .decBC2 (w.blk.extractLsb' 0 64) (readColor w.blk 64)
  | 2 => .decBC3 (readGrad w.blk 0) (readColor w.blk 64)
  | 3 => .decBC4U (readGrad w.blk 0) (w.blk.extractLsb' 64 64)
  | 4 => .decBC4S (readGrad w.blk 0) (w.blk.extractLsb' 64 64)
  | 5 => .decBC5U (readGrad w.blk 0) (readGrad w.blk 64)
  | 6 => .decBC5S (readGrad w.blk 0) (readGrad w.blk 64)
  | 7 => .decBC6HU w.blk
  | 8 => .decBC6HS w.blk
  | 9 => .decBC7 w.blk
  | 10 => .unsupportedFmt10_11 0#1 w.blk
  | 11 => .unsupportedFmt10_11 1#1 w.blk
  | _ => .unsupportedFmt12_15 (w.fmt.extractLsb' 0 2) w.blk

/-- Both levels (R152): the row of the opcode table that a presented word finally selects. -/
def decodeForm (w : Word) : Instr :=
  match w.fmt.toNat with
  | 7 => decodeMode6 .unsigned w.blk
  | 8 => decodeMode6 .signed w.blk
  | 9 => decodeMode7 w.blk
  | _ => decode w

/-- Why a byte sequence is no operation: refused by name. The sequence with a leading format byte, and so these four reasons,
are the model's own (DESIGN CHOICE, log entry 21). -/
inductive DecodeError
  /-- The sequence is empty. -/
  | noFormat
  /-- The first byte is no 4-bit format select (R130). -/
  | formatTooWide
  /-- Fewer bytes than the format's block (R131, R390: a partial block is never started). -/
  | shortBlock
  /-- More bytes than the format's block (R131). -/
  | longBlock
  deriving DecidableEq, Repr

/-- A byte form of an operation: the format select as a leading byte, then the block. That the block's bytes stand in stream
order is R153's, whose notation names the operation by a mnemonic; the leading byte, its four refusals, and that a refused
format select takes any block (R414 reads no bit of it) are the model's own (DESIGN CHOICE, log entry 21). -/
def decodeBytes : List Byte → Except DecodeError Instr
  | [] => .error .noFormat
  | f :: bs =>
    if 16 ≤ f.toNat then .error .formatTooWide
    else
      match fmtOfCode (f.setWidth 4) with
      | none => .ok (decode ⟨f.setWidth 4, blockOfBytes bs⟩)
      | some k =>
        if bs.length < fmtBlockBytes k then .error .shortBlock
        else if fmtBlockBytes k < bs.length then .error .longBlock
        else .ok (decode ⟨f.setWidth 4, blockOfBytes bs⟩)

/-! ### Encoding -/

/-- The block of BC7 mode 0 (R145), highest field first. -/
def bc7Block0 (f : Bc7Fields 4 0 0 24 0 6 45 0) : Block :=
  f.idx1 ++ f.p ++ f.b ++ f.g ++ f.r ++ f.shape ++ 1#1

/-- The block of BC7 mode 1 (R145), highest field first. -/
def bc7Block1 (f : Bc7Fields 6 0 0 24 0 2 46 0) : Block :=
  f.idx1 ++ f.p ++ f.b ++ f.g ++ f.r ++ f.shape ++ 2#2

/-- The block of BC7 mode 2 (R145), highest field first. -/
def bc7Block2 (f : Bc7Fields 6 0 0 30 0 0 29 0) : Block :=
  f.idx1 ++ f.b ++ f.g ++ f.r ++ f.shape ++ 4#3

/-- The block of BC7 mode 3 (R145), highest field first. -/
def bc7Block3 (f : Bc7Fields 6 0 0 28 0 4 30 0) : Block :=
  f.idx1 ++ f.p ++ f.b ++ f.g ++ f.r ++ f.shape ++ 8#4

/-- The block of BC7 mode 4 (R145), highest field first. -/
def bc7Block4 (f : Bc7Fields 0 2 1 10 12 0 31 47) : Block :=
  f.idx2 ++ f.idx1 ++ f.a ++ f.b ++ f.g ++ f.r ++ f.isel ++ f.rot ++ 16#5

/-- The block of BC7 mode 5 (R145), highest field first. -/
def bc7Block5 (f : Bc7Fields 0 2 0 14 16 0 31 31) : Block :=
  f.idx2 ++ f.idx1 ++ f.a ++ f.b ++ f.g ++ f.r ++ f.rot ++ 32#6

/-- The block of BC7 mode 6 (R145), highest field first. -/
def bc7Block6 (f : Bc7Fields 0 0 0 14 14 2 63 0) : Block :=
  f.idx1 ++ f.p ++ f.a ++ f.b ++ f.g ++ f.r ++ 64#7

/-- The block of BC7 mode 7 (R145), highest field first. -/
def bc7Block7 (f : Bc7Fields 6 0 0 20 20 4 30 0) : Block :=
  f.idx1 ++ f.p ++ f.a ++ f.b ++ f.g ++ f.r ++ f.shape ++ 128#8

/-- The block of a reserved BC6H code (R140): `BLK[4:0] & 0x13 = 0x13`. -/
def bc6hReservedBlock (k : BitVec 2) (rest : BitVec 123) : Block := rest ++ 1#1 ++ k ++ 3#2

/-- The block of BC7 mode 8 (R143): `B[0] = 0`. -/
def bc7Block8 (rest : BitVec 120) : Block := rest ++ 0#8

/-- The word of an instruction (R133 to R149); the two cursor micro-operations have none (R152, R200). -/
def encode : Instr → Option Word
  | .decBC1 c hi => some ⟨0#4, hi ++ colorBits c⟩
  | .decBC2 a4 c => some ⟨1#4, colorBits c ++ a4⟩
  | .decBC3 al c => some ⟨2#4, colorBits c ++ gradBits al⟩
  | .decBC4U g hi => some ⟨3#4, hi ++ gradBits g⟩
  | .decBC4S g hi => some ⟨4#4, hi ++ gradBits g⟩
  | .decBC5U g0 g1 => some ⟨5#4, gradBits g1 ++ gradBits g0⟩
  | .decBC5S g0 g1 => some ⟨6#4, gradBits g1 ++ gradBits g0⟩
  | .decBC6HU blk => some ⟨7#4, blk⟩
  | .decBC6HS blk => some ⟨8#4, blk⟩
  | .decBC7 blk => some ⟨9#4, blk⟩
  | .unsupportedFmt10_11 f blk => some ⟨5#3 ++ f, blk⟩
  | .unsupportedFmt12_15 f blk => some ⟨3#2 ++ f, blk⟩
  | .bc6hMode0 p f => some ⟨p.fmt, encodeTwo 0x00 layout6Mode0 f⟩
  | .bc6hMode1 p f => some ⟨p.fmt, encodeTwo 0x01 layout6Mode1 f⟩
  | .bc6hMode2 p f => some ⟨p.fmt, encodeTwo 0x02 layout6Mode2 f⟩
  | .bc6hMode3 p f => some ⟨p.fmt, encodeTwo 0x06 layout6Mode3 f⟩
  | .bc6hMode4 p f => some ⟨p.fmt, encodeTwo 0x0A layout6Mode4 f⟩
  | .bc6hMode5 p f => some ⟨p.fmt, encodeTwo 0x0E layout6Mode5 f⟩
  | .bc6hMode6 p f => some ⟨p.fmt, encodeTwo 0x12 layout6Mode6 f⟩
  | .bc6hMode7 p f => some ⟨p.fmt, encodeTwo 0x16 layout6Mode7 f⟩
  | .bc6hMode8 p f => some ⟨p.fmt, encodeTwo 0x1A layout6Mode8 f⟩
  | .bc6hMode9 p f => some ⟨p.fmt, encodeTwo 0x1E layout6Mode9 f⟩
  | .bc6hMode10 p f => some ⟨p.fmt, encodeOne 0x03 layout6Mode10 f⟩
  | .bc6hMode11 p f => some ⟨p.fmt, encodeOne 0x07 layout6Mode11 f⟩
  | .bc6hMode12 p f => some ⟨p.fmt, encodeOne 0x0B layout6Mode12 f⟩
  | .bc6hMode13 p f => some ⟨p.fmt, encodeOne 0x0F layout6Mode13 f⟩
  | .bc6hReserved p k rest => some ⟨p.fmt, bc6hReservedBlock k rest⟩
  | .bc7Mode0 f => some ⟨9#4, bc7Block0 f⟩
  | .bc7Mode1 f => some ⟨9#4, bc7Block1 f⟩
  | .bc7Mode2 f => some ⟨9#4, bc7Block2 f⟩
  | .bc7Mode3 f => some ⟨9#4, bc7Block3 f⟩
  | .bc7Mode4 f => some ⟨9#4, bc7Block4 f⟩
  | .bc7Mode5 f => some ⟨9#4, bc7Block5 f⟩
  | .bc7Mode6 f => some ⟨9#4, bc7Block6 f⟩
  | .bc7Mode7 f => some ⟨9#4, bc7Block7 f⟩
  | .bc7Mode8 rest => some ⟨9#4, bc7Block8 rest⟩
  | .rdbits _ => none
  | .rdbit => none

/-! ### The host's numbering of table words -/

/-- The word that a number stands for. The opcode table numbers a first-level row over `FMT[3:0]` and a mode row over
the low bits of `BLK`, so a number below 16 is a format select (with the block all zero) and a larger one is a block:
one with a 5-bit BC6H selector (`BLK[1:0]` = 2 or 3) under `DEC.BC6HU`, any other under `DEC.BC7` (log entry 12). -/
def tableWord (w : Nat) : Word :=
  if w < 16 then ⟨BitVec.ofNat 4 w, 0⟩
  else if 2 ≤ w % 4 then ⟨7#4, BitVec.ofNat 128 w⟩
  else ⟨9#4, BitVec.ofNat 128 w⟩

/-- The instruction that the decoder reads from a table word: the first level for a format select, both levels for a
block. -/
def decodeTableWord (nbits w : Nat) : Option Instr :=
  if nbits = 0 ∨ 2 ^ nbits ≤ w then none
  else if w < 16 then some (decode (tableWord w))
  else some (decodeForm (tableWord w))

end Sys2Proof
end

