-- ==== Sys2Proof/Config.lean ====
section
/-!
DEFINITION. What an implementation fixes: the configuration record of rule R11 (rounding, 6-bit expansion,
error fill, byte order, look-up ROM), with the types of the ROM's tables (R100 to R109, R180), and the free
values the spec leaves open. The default contents stand in Sys2Proof/Machine/Rom.lean.
-/

namespace Sys2Proof

/-- The four named channels of a texel (R32). -/
inductive Channel | R | G | B | A
  deriving DecidableEq, Repr

/-- `ROUND_MODE` (R10, R16). -/
inductive RoundMode | nearest | truncate
  deriving DecidableEq, Repr

/-- `EXP6_SHIFT` (R10, R221): 3 is the source's formula, 4 is true bit replication. -/
inductive Exp6Shift | three | four
  deriving DecidableEq, Repr

/-- Four 8-bit channels, all with a value: a fill texel (R10 `ERROR_FILL`, R413) or an interpolated pixel. -/
structure Rgba where
  r : Byte
  g : Byte
  b : Byte
  a : Byte
  deriving DecidableEq, Repr

/-- Three precisions, one per colour channel (R109). -/
structure Prec3 where
  r : Nat
  g : Nat
  b : Nat
  deriving DecidableEq, Repr

/-- Four precisions, one per channel (R106). -/
structure Prec4 where
  r : Nat
  g : Nat
  b : Nat
  a : Nat
  deriving DecidableEq, Repr

/-- A BC7 mode record (R106), short names of the rule. -/
structure Bc7Mode where
  pc : Nat
  pb : Nat
  npb : Nat
  rb : Nat
  isb : Nat
  ip1 : Nat
  ip2 : Nat
  prec : Prec4
  precp : Prec4
  deriving DecidableEq, Repr

/-- The endpoint letters of BC6H (R43): `W = EP[0][A]`, `X = EP[0][B]`, `Y = EP[1][A]`, `Z = EP[1][B]`. -/
inductive Letter | W | X | Y | Z
  deriving DecidableEq, Repr

/-- The three colour channels that an endpoint letter carries (R180). -/
inductive Rgb3 | R | G | B
  deriving DecidableEq, Repr

/-- A BC6H mode record (R109): `w x y z` are `prec[0][A]`, `prec[0][B]`, `prec[1][A]`, `prec[1][B]`. -/
structure Bc6Mode where
  code : Nat
  pc : Nat
  tr : Bool
  ip : Nat
  w : Prec3
  x : Prec3
  y : Prec3
  z : Prec3
  deriving DecidableEq, Repr

/-- An entry of `ROM.BC6MAP` (R107). -/
inductive Bc6MapEntry
  | mode (mi : Nat)
  | reserved
  | invalid
  deriving DecidableEq, Repr

/-- The tag of a header field-placement entry (R180). `other` is a tag the format does not know
(the "defensive case" of R296). -/
inductive Tag
  | M
  | D
  | acc (c : Rgb3) (l : Letter)
  | NA
  | other
  deriving DecidableEq, Repr

/-- A header field-placement entry (R180): tag and bit number. -/
structure Desc where
  tag : Tag
  n : Nat
  deriving DecidableEq, Repr

/-- The look-up ROM (R100). `part[pc][shape][i]` (R101 to R103), `fix[pc][shape]` (R104),
weights (R105), BC7 mode records (R106), BC6H mode map (R107), BC6H mode records (R109), BC6H header
field placement (R180). -/
structure Rom where
  part : List (List (List Nat))
  fix : List (List (List Nat))
  w2 : List Nat
  w3 : List Nat
  w4 : List Nat
  bc7mode : List Bc7Mode
  bc6map : List Bc6MapEntry
  bc6mode : List Bc6Mode
  bc6desc : List (List Desc)
  deriving DecidableEq, Repr

/-- The configuration record of rule R11. It is fixed when the hardware is built (R39). -/
structure Config where
  roundMode : RoundMode
  exp6Shift : Exp6Shift
  errorFill : Rgba
  byteOrder : List Channel
  rom : Rom
  deriving DecidableEq, Repr

/-- Free value, unconstrained (log entry 5): the byte `H2B` gives for a NaN half pattern. R308 and R312 leave it
unspecified; no block reaches it with a ROM that keeps R108 (R312). -/
opaque Config.h2bNaN : BitVec 16 → Byte

/-- Free value, unconstrained (log entry 6): whether `mip_count` counts the base level. R387 does not decide it. -/
opaque Config.mipCountIncludesBase : Bool

/-- Free value, unconstrained (log entry 17): the shape after a set header bit whose entry is `D` with a bit number of 5 or
more, from the shape before it and the number. R180 has no such bit of the 5-bit shape; only a configured ROM that breaks
R108 item 6 has such an entry. -/
opaque Config.shapeBeyond : BitVec 5 → Nat → BitVec 5

/-- Free value, unconstrained (log entry 18): the half pattern of a finished value outside the range that R306 gives
patterns for, from the profile (true for signed) and the value. Only a configured ROM that breaks R108 item 6 leads there. -/
opaque Config.halfBeyond : Bool → Int → BitVec 16

/-- Free value, unconstrained (log entry 19): the expansion of a BC7 endpoint channel to 8 bits from a precision outside 4 to
8, for which R347 gives none, from the value and the precision. Only a configured ROM has such a precision. -/
opaque Config.unq7Beyond : Byte → Nat → Byte

end Sys2Proof
end

