-- ==== Sys2Proof/Machine/RomHeaders.lean ====
section
/-!
DEFINITION. Default contents of `ROM.BC6DESC` (R180 to R194 of spec/31_bc6h_field_table.md), the header
field-placement table, one row per mode index, eight positions a line as the spec's expanded tables have them.
-/

namespace Sys2Proof.Machine

/-- A mode-selector entry. -/
def dM (n : Nat) : Desc := ⟨.M, n⟩
/-- A shape entry. -/
def dD (n : Nat) : Desc := ⟨.D, n⟩
/-- Padding of a one-region mode (R180): entries 65 to 81, never read. -/
def dNA : Desc := ⟨.NA, 0⟩
/-- An entry of accumulator `RW`. -/
def dRW (n : Nat) : Desc := ⟨.acc .R .W, n⟩
/-- An entry of accumulator `RX`. -/
def dRX (n : Nat) : Desc := ⟨.acc .R .X, n⟩
/-- An entry of accumulator `RY`. -/
def dRY (n : Nat) : Desc := ⟨.acc .R .Y, n⟩
/-- An entry of accumulator `RZ`. -/
def dRZ (n : Nat) : Desc := ⟨.acc .R .Z, n⟩
/-- An entry of accumulator `GW`. -/
def dGW (n : Nat) : Desc := ⟨.acc .G .W, n⟩
/-- An entry of accumulator `GX`. -/
def dGX (n : Nat) : Desc := ⟨.acc .G .X, n⟩
/-- An entry of accumulator `GY`. -/
def dGY (n : Nat) : Desc := ⟨.acc .G .Y, n⟩
/-- An entry of accumulator `GZ`. -/
def dGZ (n : Nat) : Desc := ⟨.acc .G .Z, n⟩
/-- An entry of accumulator `BW`. -/
def dBW (n : Nat) : Desc := ⟨.acc .B .W, n⟩
/-- An entry of accumulator `BX`. -/
def dBX (n : Nat) : Desc := ⟨.acc .B .X, n⟩
/-- An entry of accumulator `BY`. -/
def dBY (n : Nat) : Desc := ⟨.acc .B .Y, n⟩
/-- An entry of accumulator `BZ`. -/
def dBZ (n : Nat) : Desc := ⟨.acc .B .Z, n⟩

/-- Mode index 0 (R181). -/
def bc6desc0 : List Desc :=
  [dM 0, dM 1, dGY 4, dBY 4, dBZ 4, dRW 0, dRW 1, dRW 2] ++
  [dRW 3, dRW 4, dRW 5, dRW 6, dRW 7, dRW 8, dRW 9, dGW 0] ++
  [dGW 1, dGW 2, dGW 3, dGW 4, dGW 5, dGW 6, dGW 7, dGW 8] ++
  [dGW 9, dBW 0, dBW 1, dBW 2, dBW 3, dBW 4, dBW 5, dBW 6] ++
  [dBW 7, dBW 8, dBW 9, dRX 0, dRX 1, dRX 2, dRX 3, dRX 4] ++
  [dGZ 4, dGY 0, dGY 1, dGY 2, dGY 3, dGX 0, dGX 1, dGX 2] ++
  [dGX 3, dGX 4, dBZ 0, dGZ 0, dGZ 1, dGZ 2, dGZ 3, dBX 0] ++
  [dBX 1, dBX 2, dBX 3, dBX 4, dBZ 1, dBY 0, dBY 1, dBY 2] ++
  [dBY 3, dRY 0, dRY 1, dRY 2, dRY 3, dRY 4, dBZ 2, dRZ 0] ++
  [dRZ 1, dRZ 2, dRZ 3, dRZ 4, dBZ 3, dD 0, dD 1, dD 2] ++
  [dD 3, dD 4]

/-- Mode index 1 (R182). -/
def bc6desc1 : List Desc :=
  [dM 0, dM 1, dGY 5, dGZ 4, dGZ 5, dRW 0, dRW 1, dRW 2] ++
  [dRW 3, dRW 4, dRW 5, dRW 6, dBZ 0, dBZ 1, dBY 4, dGW 0] ++
  [dGW 1, dGW 2, dGW 3, dGW 4, dGW 5, dGW 6, dBY 5, dBZ 2] ++
  [dGY 4, dBW 0, dBW 1, dBW 2, dBW 3, dBW 4, dBW 5, dBW 6] ++
  [dBZ 3, dBZ 5, dBZ 4, dRX 0, dRX 1, dRX 2, dRX 3, dRX 4] ++
  [dRX 5, dGY 0, dGY 1, dGY 2, dGY 3, dGX 0, dGX 1, dGX 2] ++
  [dGX 3, dGX 4, dGX 5, dGZ 0, dGZ 1, dGZ 2, dGZ 3, dBX 0] ++
  [dBX 1, dBX 2, dBX 3, dBX 4, dBX 5, dBY 0, dBY 1, dBY 2] ++
  [dBY 3, dRY 0, dRY 1, dRY 2, dRY 3, dRY 4, dRY 5, dRZ 0] ++
  [dRZ 1, dRZ 2, dRZ 3, dRZ 4, dRZ 5, dD 0, dD 1, dD 2] ++
  [dD 3, dD 4]

/-- Mode index 2 (R183). -/
def bc6desc2 : List Desc :=
  [dM 0, dM 1, dM 2, dM 3, dM 4, dRW 0, dRW 1, dRW 2] ++
  [dRW 3, dRW 4, dRW 5, dRW 6, dRW 7, dRW 8, dRW 9, dGW 0] ++
  [dGW 1, dGW 2, dGW 3, dGW 4, dGW 5, dGW 6, dGW 7, dGW 8] ++
  [dGW 9, dBW 0, dBW 1, dBW 2, dBW 3, dBW 4, dBW 5, dBW 6] ++
  [dBW 7, dBW 8, dBW 9, dRX 0, dRX 1, dRX 2, dRX 3, dRX 4] ++
  [dRW 10, dGY 0, dGY 1, dGY 2, dGY 3, dGX 0, dGX 1, dGX 2] ++
  [dGX 3, dGW 10, dBZ 0, dGZ 0, dGZ 1, dGZ 2, dGZ 3, dBX 0] ++
  [dBX 1, dBX 2, dBX 3, dBW 10, dBZ 1, dBY 0, dBY 1, dBY 2] ++
  [dBY 3, dRY 0, dRY 1, dRY 2, dRY 3, dRY 4, dBZ 2, dRZ 0] ++
  [dRZ 1, dRZ 2, dRZ 3, dRZ 4, dBZ 3, dD 0, dD 1, dD 2] ++
  [dD 3, dD 4]

/-- Mode index 3 (R184). -/
def bc6desc3 : List Desc :=
  [dM 0, dM 1, dM 2, dM 3, dM 4, dRW 0, dRW 1, dRW 2] ++
  [dRW 3, dRW 4, dRW 5, dRW 6, dRW 7, dRW 8, dRW 9, dGW 0] ++
  [dGW 1, dGW 2, dGW 3, dGW 4, dGW 5, dGW 6, dGW 7, dGW 8] ++
  [dGW 9, dBW 0, dBW 1, dBW 2, dBW 3, dBW 4, dBW 5, dBW 6] ++
  [dBW 7, dBW 8, dBW 9, dRX 0, dRX 1, dRX 2, dRX 3, dRW 10] ++
  [dGZ 4, dGY 0, dGY 1, dGY 2, dGY 3, dGX 0, dGX 1, dGX 2] ++
  [dGX 3, dGX 4, dGW 10, dGZ 0, dGZ 1, dGZ 2, dGZ 3, dBX 0] ++
  [dBX 1, dBX 2, dBX 3, dBW 10, dBZ 1, dBY 0, dBY 1, dBY 2] ++
  [dBY 3, dRY 0, dRY 1, dRY 2, dRY 3, dBZ 0, dBZ 2, dRZ 0] ++
  [dRZ 1, dRZ 2, dRZ 3, dGY 4, dBZ 3, dD 0, dD 1, dD 2] ++
  [dD 3, dD 4]

/-- Mode index 4 (R185). -/
def bc6desc4 : List Desc :=
  [dM 0, dM 1, dM 2, dM 3, dM 4, dRW 0, dRW 1, dRW 2] ++
  [dRW 3, dRW 4, dRW 5, dRW 6, dRW 7, dRW 8, dRW 9, dGW 0] ++
  [dGW 1, dGW 2, dGW 3, dGW 4, dGW 5, dGW 6, dGW 7, dGW 8] ++
  [dGW 9, dBW 0, dBW 1, dBW 2, dBW 3, dBW 4, dBW 5, dBW 6] ++
  [dBW 7, dBW 8, dBW 9, dRX 0, dRX 1, dRX 2, dRX 3, dRW 10] ++
  [dBY 4, dGY 0, dGY 1, dGY 2, dGY 3, dGX 0, dGX 1, dGX 2] ++
  [dGX 3, dGW 10, dBZ 0, dGZ 0, dGZ 1, dGZ 2, dGZ 3, dBX 0] ++
  [dBX 1, dBX 2, dBX 3, dBX 4, dBW 10, dBY 0, dBY 1, dBY 2] ++
  [dBY 3, dRY 0, dRY 1, dRY 2, dRY 3, dBZ 1, dBZ 2, dRZ 0] ++
  [dRZ 1, dRZ 2, dRZ 3, dBZ 4, dBZ 3, dD 0, dD 1, dD 2] ++
  [dD 3, dD 4]

/-- Mode index 5 (R186). -/
def bc6desc5 : List Desc :=
  [dM 0, dM 1, dM 2, dM 3, dM 4, dRW 0, dRW 1, dRW 2] ++
  [dRW 3, dRW 4, dRW 5, dRW 6, dRW 7, dRW 8, dBY 4, dGW 0] ++
  [dGW 1, dGW 2, dGW 3, dGW 4, dGW 5, dGW 6, dGW 7, dGW 8] ++
  [dGY 4, dBW 0, dBW 1, dBW 2, dBW 3, dBW 4, dBW 5, dBW 6] ++
  [dBW 7, dBW 8, dBZ 4, dRX 0, dRX 1, dRX 2, dRX 3, dRX 4] ++
  [dGZ 4, dGY 0, dGY 1, dGY 2, dGY 3, dGX 0, dGX 1, dGX 2] ++
  [dGX 3, dGX 4, dBZ 0, dGZ 0, dGZ 1, dGZ 2, dGZ 3, dBX 0] ++
  [dBX 1, dBX 2, dBX 3, dBX 4, dBZ 1, dBY 0, dBY 1, dBY 2] ++
  [dBY 3, dRY 0, dRY 1, dRY 2, dRY 3, dRY 4, dBZ 2, dRZ 0] ++
  [dRZ 1, dRZ 2, dRZ 3, dRZ 4, dBZ 3, dD 0, dD 1, dD 2] ++
  [dD 3, dD 4]

/-- Mode index 6 (R187). -/
def bc6desc6 : List Desc :=
  [dM 0, dM 1, dM 2, dM 3, dM 4, dRW 0, dRW 1, dRW 2] ++
  [dRW 3, dRW 4, dRW 5, dRW 6, dRW 7, dGZ 4, dBY 4, dGW 0] ++
  [dGW 1, dGW 2, dGW 3, dGW 4, dGW 5, dGW 6, dGW 7, dBZ 2] ++
  [dGY 4, dBW 0, dBW 1, dBW 2, dBW 3, dBW 4, dBW 5, dBW 6] ++
  [dBW 7, dBZ 3, dBZ 4, dRX 0, dRX 1, dRX 2, dRX 3, dRX 4] ++
  [dRX 5, dGY 0, dGY 1, dGY 2, dGY 3, dGX 0, dGX 1, dGX 2] ++
  [dGX 3, dGX 4, dBZ 0, dGZ 0, dGZ 1, dGZ 2, dGZ 3, dBX 0] ++
  [dBX 1, dBX 2, dBX 3, dBX 4, dBZ 1, dBY 0, dBY 1, dBY 2] ++
  [dBY 3, dRY 0, dRY 1, dRY 2, dRY 3, dRY 4, dRY 5, dRZ 0] ++
  [dRZ 1, dRZ 2, dRZ 3, dRZ 4, dRZ 5, dD 0, dD 1, dD 2] ++
  [dD 3, dD 4]

/-- Mode index 7 (R188). -/
def bc6desc7 : List Desc :=
  [dM 0, dM 1, dM 2, dM 3, dM 4, dRW 0, dRW 1, dRW 2] ++
  [dRW 3, dRW 4, dRW 5, dRW 6, dRW 7, dBZ 0, dBY 4, dGW 0] ++
  [dGW 1, dGW 2, dGW 3, dGW 4, dGW 5, dGW 6, dGW 7, dGY 5] ++
  [dGY 4, dBW 0, dBW 1, dBW 2, dBW 3, dBW 4, dBW 5, dBW 6] ++
  [dBW 7, dGZ 5, dBZ 4, dRX 0, dRX 1, dRX 2, dRX 3, dRX 4] ++
  [dGZ 4, dGY 0, dGY 1, dGY 2, dGY 3, dGX 0, dGX 1, dGX 2] ++
  [dGX 3, dGX 4, dGX 5, dGZ 0, dGZ 1, dGZ 2, dGZ 3, dBX 0] ++
  [dBX 1, dBX 2, dBX 3, dBX 4, dBZ 1, dBY 0, dBY 1, dBY 2] ++
  [dBY 3, dRY 0, dRY 1, dRY 2, dRY 3, dRY 4, dBZ 2, dRZ 0] ++
  [dRZ 1, dRZ 2, dRZ 3, dRZ 4, dBZ 3, dD 0, dD 1, dD 2] ++
  [dD 3, dD 4]

/-- Mode index 8 (R189). -/
def bc6desc8 : List Desc :=
  [dM 0, dM 1, dM 2, dM 3, dM 4, dRW 0, dRW 1, dRW 2] ++
  [dRW 3, dRW 4, dRW 5, dRW 6, dRW 7, dBZ 1, dBY 4, dGW 0] ++
  [dGW 1, dGW 2, dGW 3, dGW 4, dGW 5, dGW 6, dGW 7, dBY 5] ++
  [dGY 4, dBW 0, dBW 1, dBW 2, dBW 3, dBW 4, dBW 5, dBW 6] ++
  [dBW 7, dBZ 5, dBZ 4, dRX 0, dRX 1, dRX 2, dRX 3, dRX 4] ++
  [dGZ 4, dGY 0, dGY 1, dGY 2, dGY 3, dGX 0, dGX 1, dGX 2] ++
  [dGX 3, dGX 4, dBZ 0, dGZ 0, dGZ 1, dGZ 2, dGZ 3, dBX 0] ++
  [dBX 1, dBX 2, dBX 3, dBX 4, dBX 5, dBY 0, dBY 1, dBY 2] ++
  [dBY 3, dRY 0, dRY 1, dRY 2, dRY 3, dRY 4, dBZ 2, dRZ 0] ++
  [dRZ 1, dRZ 2, dRZ 3, dRZ 4, dBZ 3, dD 0, dD 1, dD 2] ++
  [dD 3, dD 4]

/-- Mode index 9 (R190). -/
def bc6desc9 : List Desc :=
  [dM 0, dM 1, dM 2, dM 3, dM 4, dRW 0, dRW 1, dRW 2] ++
  [dRW 3, dRW 4, dRW 5, dGZ 4, dBZ 0, dBZ 1, dBY 4, dGW 0] ++
  [dGW 1, dGW 2, dGW 3, dGW 4, dGW 5, dGY 5, dBY 5, dBZ 2] ++
  [dGY 4, dBW 0, dBW 1, dBW 2, dBW 3, dBW 4, dBW 5, dGZ 5] ++
  [dBZ 3, dBZ 5, dBZ 4, dRX 0, dRX 1, dRX 2, dRX 3, dRX 4] ++
  [dRX 5, dGY 0, dGY 1, dGY 2, dGY 3, dGX 0, dGX 1, dGX 2] ++
  [dGX 3, dGX 4, dGX 5, dGZ 0, dGZ 1, dGZ 2, dGZ 3, dBX 0] ++
  [dBX 1, dBX 2, dBX 3, dBX 4, dBX 5, dBY 0, dBY 1, dBY 2] ++
  [dBY 3, dRY 0, dRY 1, dRY 2, dRY 3, dRY 4, dRY 5, dRZ 0] ++
  [dRZ 1, dRZ 2, dRZ 3, dRZ 4, dRZ 5, dD 0, dD 1, dD 2] ++
  [dD 3, dD 4]

/-- Mode index 10 (R191). -/
def bc6desc10 : List Desc :=
  [dM 0, dM 1, dM 2, dM 3, dM 4, dRW 0, dRW 1, dRW 2] ++
  [dRW 3, dRW 4, dRW 5, dRW 6, dRW 7, dRW 8, dRW 9, dGW 0] ++
  [dGW 1, dGW 2, dGW 3, dGW 4, dGW 5, dGW 6, dGW 7, dGW 8] ++
  [dGW 9, dBW 0, dBW 1, dBW 2, dBW 3, dBW 4, dBW 5, dBW 6] ++
  [dBW 7, dBW 8, dBW 9, dRX 0, dRX 1, dRX 2, dRX 3, dRX 4] ++
  [dRX 5, dRX 6, dRX 7, dRX 8, dRX 9, dGX 0, dGX 1, dGX 2] ++
  [dGX 3, dGX 4, dGX 5, dGX 6, dGX 7, dGX 8, dGX 9, dBX 0] ++
  [dBX 1, dBX 2, dBX 3, dBX 4, dBX 5, dBX 6, dBX 7, dBX 8] ++
  [dBX 9, dNA, dNA, dNA, dNA, dNA, dNA, dNA] ++
  [dNA, dNA, dNA, dNA, dNA, dNA, dNA, dNA] ++
  [dNA, dNA]

/-- Mode index 11 (R192). -/
def bc6desc11 : List Desc :=
  [dM 0, dM 1, dM 2, dM 3, dM 4, dRW 0, dRW 1, dRW 2] ++
  [dRW 3, dRW 4, dRW 5, dRW 6, dRW 7, dRW 8, dRW 9, dGW 0] ++
  [dGW 1, dGW 2, dGW 3, dGW 4, dGW 5, dGW 6, dGW 7, dGW 8] ++
  [dGW 9, dBW 0, dBW 1, dBW 2, dBW 3, dBW 4, dBW 5, dBW 6] ++
  [dBW 7, dBW 8, dBW 9, dRX 0, dRX 1, dRX 2, dRX 3, dRX 4] ++
  [dRX 5, dRX 6, dRX 7, dRX 8, dRW 10, dGX 0, dGX 1, dGX 2] ++
  [dGX 3, dGX 4, dGX 5, dGX 6, dGX 7, dGX 8, dGW 10, dBX 0] ++
  [dBX 1, dBX 2, dBX 3, dBX 4, dBX 5, dBX 6, dBX 7, dBX 8] ++
  [dBW 10, dNA, dNA, dNA, dNA, dNA, dNA, dNA] ++
  [dNA, dNA, dNA, dNA, dNA, dNA, dNA, dNA] ++
  [dNA, dNA]

/-- Mode index 12 (R193). -/
def bc6desc12 : List Desc :=
  [dM 0, dM 1, dM 2, dM 3, dM 4, dRW 0, dRW 1, dRW 2] ++
  [dRW 3, dRW 4, dRW 5, dRW 6, dRW 7, dRW 8, dRW 9, dGW 0] ++
  [dGW 1, dGW 2, dGW 3, dGW 4, dGW 5, dGW 6, dGW 7, dGW 8] ++
  [dGW 9, dBW 0, dBW 1, dBW 2, dBW 3, dBW 4, dBW 5, dBW 6] ++
  [dBW 7, dBW 8, dBW 9, dRX 0, dRX 1, dRX 2, dRX 3, dRX 4] ++
  [dRX 5, dRX 6, dRX 7, dRW 11, dRW 10, dGX 0, dGX 1, dGX 2] ++
  [dGX 3, dGX 4, dGX 5, dGX 6, dGX 7, dGW 11, dGW 10, dBX 0] ++
  [dBX 1, dBX 2, dBX 3, dBX 4, dBX 5, dBX 6, dBX 7, dBW 11] ++
  [dBW 10, dNA, dNA, dNA, dNA, dNA, dNA, dNA] ++
  [dNA, dNA, dNA, dNA, dNA, dNA, dNA, dNA] ++
  [dNA, dNA]

/-- Mode index 13 (R194). -/
def bc6desc13 : List Desc :=
  [dM 0, dM 1, dM 2, dM 3, dM 4, dRW 0, dRW 1, dRW 2] ++
  [dRW 3, dRW 4, dRW 5, dRW 6, dRW 7, dRW 8, dRW 9, dGW 0] ++
  [dGW 1, dGW 2, dGW 3, dGW 4, dGW 5, dGW 6, dGW 7, dGW 8] ++
  [dGW 9, dBW 0, dBW 1, dBW 2, dBW 3, dBW 4, dBW 5, dBW 6] ++
  [dBW 7, dBW 8, dBW 9, dRX 0, dRX 1, dRX 2, dRX 3, dRW 15] ++
  [dRW 14, dRW 13, dRW 12, dRW 11, dRW 10, dGX 0, dGX 1, dGX 2] ++
  [dGX 3, dGW 15, dGW 14, dGW 13, dGW 12, dGW 11, dGW 10, dBX 0] ++
  [dBX 1, dBX 2, dBX 3, dBW 15, dBW 14, dBW 13, dBW 12, dBW 11] ++
  [dBW 10, dNA, dNA, dNA, dNA, dNA, dNA, dNA] ++
  [dNA, dNA, dNA, dNA, dNA, dNA, dNA, dNA] ++
  [dNA, dNA]

/-- `ROM.BC6DESC` (R180). -/
def romBc6desc : List (List Desc) :=
  [bc6desc0, bc6desc1, bc6desc2, bc6desc3, bc6desc4, bc6desc5, bc6desc6, bc6desc7, bc6desc8, bc6desc9,
   bc6desc10, bc6desc11, bc6desc12, bc6desc13]

end Sys2Proof.Machine
end

