-- ==== Sys2Proof/Machine/Rom.lean ====
section
/-!
DEFINITION. Default contents of the look-up ROM (R105 to R109), the default configuration (R10, R11), and which ROMs
the spec admits (93 U20) and which keep its invariants (R108).
-/

namespace Sys2Proof.Machine

/-- `ROM.W2` (R105). -/
def romW2 : List Nat := [0, 21, 43, 64]
/-- `ROM.W3` (R105). -/
def romW3 : List Nat := [0, 9, 18, 27, 37, 46, 55, 64]
/-- `ROM.W4` (R105). -/
def romW4 : List Nat := [0, 4, 9, 13, 17, 21, 26, 30, 34, 38, 43, 47, 51, 55, 60, 64]

/-- `ROM.BC7MODE` (R106): `pc pb npb rb isb ip1 ip2 prec precp`. -/
def romBc7mode : List Bc7Mode :=
  [⟨2, 4, 6, 0, 0, 3, 0, ⟨4, 4, 4, 0⟩, ⟨5, 5, 5, 0⟩⟩,
   ⟨1, 6, 2, 0, 0, 3, 0, ⟨6, 6, 6, 0⟩, ⟨7, 7, 7, 0⟩⟩,
   ⟨2, 6, 0, 0, 0, 2, 0, ⟨5, 5, 5, 0⟩, ⟨5, 5, 5, 0⟩⟩,
   ⟨1, 6, 4, 0, 0, 2, 0, ⟨7, 7, 7, 0⟩, ⟨8, 8, 8, 0⟩⟩,
   ⟨0, 0, 0, 2, 1, 2, 3, ⟨5, 5, 5, 6⟩, ⟨5, 5, 5, 6⟩⟩,
   ⟨0, 0, 0, 2, 0, 2, 2, ⟨7, 7, 7, 8⟩, ⟨7, 7, 7, 8⟩⟩,
   ⟨0, 0, 2, 0, 0, 4, 0, ⟨7, 7, 7, 7⟩, ⟨8, 8, 8, 8⟩⟩,
   ⟨1, 6, 4, 0, 0, 2, 0, ⟨5, 5, 5, 5⟩, ⟨6, 6, 6, 6⟩⟩]

/-- `ROM.BC6MAP` (R107), codes 0x00 to 0x1F. -/
def romBc6map : List Bc6MapEntry :=
  [.mode 0, .mode 1, .mode 2, .mode 10, .invalid, .invalid, .mode 3, .mode 11,
   .invalid, .invalid, .mode 4, .mode 12, .invalid, .invalid, .mode 5, .mode 13,
   .invalid, .invalid, .mode 6, .reserved, .invalid, .invalid, .mode 7, .reserved,
   .invalid, .invalid, .mode 8, .reserved, .invalid, .invalid, .mode 9, .reserved]

/-- `ROM.BC6MODE` (R109): `code pc tr ip` and the precisions of `W`, `X`, `Y`, `Z` (0 where unused). -/
def romBc6mode : List Bc6Mode :=
  [⟨0x00, 1, true, 3, ⟨10, 10, 10⟩, ⟨5, 5, 5⟩, ⟨5, 5, 5⟩, ⟨5, 5, 5⟩⟩,
   ⟨0x01, 1, true, 3, ⟨7, 7, 7⟩, ⟨6, 6, 6⟩, ⟨6, 6, 6⟩, ⟨6, 6, 6⟩⟩,
   ⟨0x02, 1, true, 3, ⟨11, 11, 11⟩, ⟨5, 4, 4⟩, ⟨5, 4, 4⟩, ⟨5, 4, 4⟩⟩,
   ⟨0x06, 1, true, 3, ⟨11, 11, 11⟩, ⟨4, 5, 4⟩, ⟨4, 5, 4⟩, ⟨4, 5, 4⟩⟩,
   ⟨0x0A, 1, true, 3, ⟨11, 11, 11⟩, ⟨4, 4, 5⟩, ⟨4, 4, 5⟩, ⟨4, 4, 5⟩⟩,
   ⟨0x0E, 1, true, 3, ⟨9, 9, 9⟩, ⟨5, 5, 5⟩, ⟨5, 5, 5⟩, ⟨5, 5, 5⟩⟩,
   ⟨0x12, 1, true, 3, ⟨8, 8, 8⟩, ⟨6, 5, 5⟩, ⟨6, 5, 5⟩, ⟨6, 5, 5⟩⟩,
   ⟨0x16, 1, true, 3, ⟨8, 8, 8⟩, ⟨5, 6, 5⟩, ⟨5, 6, 5⟩, ⟨5, 6, 5⟩⟩,
   ⟨0x1A, 1, true, 3, ⟨8, 8, 8⟩, ⟨5, 5, 6⟩, ⟨5, 5, 6⟩, ⟨5, 5, 6⟩⟩,
   ⟨0x1E, 1, false, 3, ⟨6, 6, 6⟩, ⟨6, 6, 6⟩, ⟨6, 6, 6⟩, ⟨6, 6, 6⟩⟩,
   ⟨0x03, 0, false, 4, ⟨10, 10, 10⟩, ⟨10, 10, 10⟩, ⟨0, 0, 0⟩, ⟨0, 0, 0⟩⟩,
   ⟨0x07, 0, true, 4, ⟨11, 11, 11⟩, ⟨9, 9, 9⟩, ⟨0, 0, 0⟩, ⟨0, 0, 0⟩⟩,
   ⟨0x0B, 0, true, 4, ⟨12, 12, 12⟩, ⟨8, 8, 8⟩, ⟨0, 0, 0⟩, ⟨0, 0, 0⟩⟩,
   ⟨0x0F, 0, true, 4, ⟨16, 16, 16⟩, ⟨4, 4, 4⟩, ⟨0, 0, 0⟩, ⟨0, 0, 0⟩⟩]

/-- The default ROM (R11, R100). -/
def romDefault : Rom where
  part := [romPart0, romPart1, romPart2]
  fix := romFix
  w2 := romW2
  w3 := romW3
  w4 := romW4
  bc7mode := romBc7mode
  bc6map := romBc6map
  bc6mode := romBc6mode
  bc6desc := romBc6desc

/-- The default configuration (R10, R11). -/
def configDefault : Config where
  roundMode := .nearest
  exp6Shift := .three
  errorFill := ⟨0, 0, 0, 255⟩
  byteOrder := [.B, .G, .R, .A]
  rom := romDefault

/-! ### Look-up (R100). A key with no entry gives `none`. -/

/-- `ROM.PART[pc][shape][i]` (R101 to R103). -/
def romRegion (rom : Rom) (pc shape i : Nat) : Option Nat :=
  (rom.part[pc]?).bind fun t => (t[shape]?).bind fun r => r[i]?

/-- `ROM.FIX[pc][shape]` (R104). -/
def romAnchors (rom : Rom) (pc shape : Nat) : Option (List Nat) :=
  (rom.fix[pc]?).bind fun t => t[shape]?

/-- `ROM.W(p)[ix]` for `p` = 2, 3, 4 (R105). -/
def romWeight (rom : Rom) (p ix : Nat) : Option Nat :=
  match p with
  | 2 => rom.w2[ix]?
  | 3 => rom.w3[ix]?
  | 4 => rom.w4[ix]?
  | _ => none

/-- `ROM.BC6DESC[mi][k]` (R180). -/
def romDesc (rom : Rom) (mi k : Nat) : Option Desc :=
  (rom.bc6desc[mi]?).bind fun t => t[k]?

/-! ### Precisions by channel -/

/-- The precision of a colour channel (R109). -/
def precOf (p : Prec3) : Rgb3 → Nat
  | .R => p.r
  | .G => p.g
  | .B => p.b

/-- `prec[p][e][c]` by endpoint letter (R43, R109). -/
def prec6 (m : Bc6Mode) : Letter → Rgb3 → Nat
  | .W => precOf m.w
  | .X => precOf m.x
  | .Y => precOf m.y
  | .Z => precOf m.z

/-- `prec[ch]` or `precp[ch]` of a BC7 mode (R106). -/
def prec7 (p : Prec4) : Channel → Nat
  | .R => p.r
  | .G => p.g
  | .B => p.b
  | .A => p.a

/-! ### Which ROMs the spec admits (93 U20) -/

/-- The shapes and the region ids of one partition table: 64 rows of 16 entries, none above `pc`. -/
def partTableOk (pc : Nat) (t : List (List Nat)) : Bool :=
  t.length == 64 && t.all fun r => r.length == 16 && r.all (· ≤ pc)

/-- One anchor table: 64 sets of texel numbers below 16. R100 and R104 give a set one texel per region, and 93 U20 does not
say what a configured ROM with fewer or more in a row is: it is admitted, and `IsFix` is membership in the row as it stands
(DESIGN CHOICE, log entry 20). -/
def fixTableOk (t : List (List Nat)) : Bool :=
  t.length == 64 && t.all fun r => r.all (· < 16)

/-- A BC7 channel's two precisions: absent, or a width up to 8 with at most one P bit below it (DESIGN CHOICE, log entry 16).
Widths below 4, for which R347 gives no expansion, are admitted; the expanded value is then free (log entry 19). -/
def prec7Ok (v vp : Nat) : Bool :=
  (v == 0 && vp == 0) || (1 ≤ v && vp ≤ 8 && (vp == v || vp == v + 1))

/-- A BC7 record the arithmetic can hold: region count, field widths, index widths with a weight table (2, 3, 4),
P bits for at most six endpoints. The four precisions of R, G, B are present. -/
def bc7ModeOk (m : Bc7Mode) : Bool :=
  m.pc ≤ 2 && m.pb ≤ 6 && m.npb ≤ 6 && m.rb ≤ 2 && m.isb ≤ 1 &&
  (m.ip1 == 2 || m.ip1 == 3 || m.ip1 == 4) && (m.ip2 == 0 || m.ip2 == 2 || m.ip2 == 3 || m.ip2 == 4) &&
  1 ≤ m.prec.r && 1 ≤ m.prec.g && 1 ≤ m.prec.b &&
  prec7Ok m.prec.r m.precp.r && prec7Ok m.prec.g m.precp.g && prec7Ok m.prec.b m.precp.b &&
  prec7Ok m.prec.a m.precp.a

/-- Three precisions between 1 and a bound. -/
def prec3Ok (p q : Prec3) : Bool :=
  1 ≤ p.r && p.r ≤ q.r && 1 ≤ p.g && p.g ≤ q.g && 1 ≤ p.b && p.b ≤ q.b

/-- A BC6H record the arithmetic can hold: one or two regions, index widths with a weight table's length, base
precisions up to 16, the others no wider than the base. -/
def bc6ModeOk (m : Bc6Mode) : Bool :=
  m.pc ≤ 1 && 1 ≤ m.ip && m.ip ≤ 8 && prec3Ok m.w ⟨16, 16, 16⟩ && prec3Ok m.x m.w &&
  (m.pc == 0 || (prec3Ok m.y m.w && prec3Ok m.z m.w))

/-- A mode-map entry names one of the 14 records (R107). -/
def mapEntryOk : Bc6MapEntry → Bool
  | .mode mi => mi < 14
  | .reserved => true
  | .invalid => true

/-- The ROMs inside the spec (93 U20): every key of R100 has an entry, no region id is above `pc`, every anchor is a
texel, every precision is one the arithmetic holds. It may break R108 items 2 to 7; with items 4 to 6 broken the events of
R411 become reachable (DESIGN CHOICE for the bounds, log entry 16). -/
def romAdmissible (rom : Rom) : Bool :=
  rom.part.length == 3 && rom.part.zipIdx.all (fun tp => partTableOk tp.2 tp.1) &&
  rom.fix.length == 3 && rom.fix.all fixTableOk &&
  rom.w2.length == 4 && rom.w3.length == 8 && rom.w4.length == 16 &&
  (rom.w2 ++ rom.w3 ++ rom.w4).all (· ≤ 64) &&
  rom.bc7mode.length == 8 && rom.bc7mode.all bc7ModeOk &&
  rom.bc6map.length == 32 && rom.bc6map.all mapEntryOk &&
  rom.bc6mode.length == 14 && rom.bc6mode.all bc6ModeOk &&
  rom.bc6desc.length == 14 && rom.bc6desc.all (·.length == 82)

/-! ### The invariants of the default ROM (R108) -/

/-- R108 items 1 and 2 for one table: region ids, region 0 at texel 0, every region present, shapes distinct. -/
def partInvariant (pc : Nat) (t : List (List Nat)) : Bool :=
  partTableOk pc t && t.all (fun r => r[0]? == some 0 && (List.range (pc + 1)).all (r.contains ·)) &&
  (pc == 0 || decide t.Nodup)

/-- R104 and R108 item 3 for the tables of one partition count: every row has an anchor for each region, texel 0 is the one
of region 0, and anchor `k` of a shape lies in region `k`. -/
def anchorInvariant (pc : Nat) (t : List (List Nat)) (f : List (List Nat)) : Bool :=
  (t.zip f).all fun tf =>
    tf.2.length == pc + 1 && tf.2[0]? == some 0 && tf.2.zipIdx.all fun ak => tf.1[ak.1]? == some ak.2

/-- The number of bits of BC7 mode `m` (R108 item 4). -/
def bc7Bits (m : Nat) (i : Bc7Mode) : Nat :=
  (m + 1) + i.pb + i.rb + i.isb + 2 * (i.pc + 1) * (i.prec.r + i.prec.g + i.prec.b + i.prec.a) + i.npb +
    (16 * i.ip1 - (i.pc + 1)) + (if i.ip2 = 0 then 0 else 16 * i.ip2 - 1)

/-- Header length of a BC6H mode: 82 with two regions, 65 with one (R109). -/
def headerBits (m : Bc6Mode) : Nat := if m.pc = 1 then 82 else 65

/-- Number of selector bits of a BC6H code (R139). -/
def selectorBits (code : Nat) : Nat := if code < 2 then 2 else 5

/-- R108 item 6 for one mode: the first entries are `M`, the bit numbers of each accumulator are 0 up to its
precision, each once, `D` gets bits 0 to 4 with two regions and none with one, entries after the header are `NA`, and no
other tag occurs. -/
def descInvariant (m : Bc6Mode) (t : List Desc) : Bool :=
  (t.take (selectorBits m.code)).all (·.tag == .M) &&
  (t.drop (headerBits m)).all (·.tag == .NA) &&
  (((t.take (headerBits m)).drop (selectorBits m.code)).all fun e =>
    match e.tag with
    | .acc .. => true
    | .D => m.pc == 1
    | _ => false) &&
  (decide (((t.filter (·.tag == .D)).map (·.n)).Perm (List.range (if m.pc = 1 then 5 else 0)))) &&
  ([Rgb3.R, .G, .B].all fun c => [Letter.W, .X, .Y, .Z].all fun l =>
    decide (((t.filter (·.tag == .acc c l)).map (·.n)).Perm (List.range (prec6 m l c))))

/-- R108 item 7 for one table. -/
def weightInvariant (w : List Nat) : Bool :=
  w[0]? == some 0 && w.getLast? == some 64 && (w.zip w.tail).all (fun ab => ab.1 < ab.2) &&
  (w.zip w.reverse).all (fun ab => ab.1 + ab.2 == 64)

/-- The invariants of R108, items 1 to 7, with the anchor sets of R104. -/
def romInvariant (rom : Rom) : Bool :=
  romAdmissible rom &&
  rom.part.zipIdx.all (fun tp => partInvariant tp.2 tp.1) &&
  (rom.part.zip rom.fix).zipIdx.all (fun tf => anchorInvariant tf.2 tf.1.1 tf.1.2) &&
  rom.bc7mode.zipIdx.all (fun im => bc7Bits im.2 im.1 == 128) &&
  rom.bc6mode.all (fun m => headerBits m + 16 * m.ip - (m.pc + 1) == 128) &&
  (rom.bc6mode.zip rom.bc6desc).all (fun mt => descInvariant mt.1 mt.2) &&
  weightInvariant rom.w2 && weightInvariant rom.w3 && weightInvariant rom.w4

end Sys2Proof.Machine
end

