-- ==== Sys2Proof/Machine/State.lean ====
section
/-!
DEFINITION. The state of the machine as plain data: ports, latches and outputs of the block (R30 to R37), the bit
cursor (R34), the working registers of the decode in progress (R41 to R44), the configuration (R11, R39), and the
host's record (spec/50_host_interface.md); the reasons a step can stop; and the state after reset (R48, R450).
-/

namespace Sys2Proof.Machine

/-- `STATUS` (R37): the nine codes in use. Codes 9 to 15 are never set. -/
inductive Status
  | idle
  | ok
  | bc6hReserved
  | bc6hInvalid
  | bc7Reserved
  | errBits
  | errIndex
  | errTag
  | unsupported
  deriving DecidableEq, Repr

/-- The events of R411. Taking one is a next state (Machine/Ops.lean), never a stop. -/
inductive Event
  | unsupported
  | reserved6
  | invalid6
  | reserved7
  | bitOverflow
  | badIndex
  | badTag
  deriving DecidableEq, Repr

/-- Why the machine stops with a fault. -/
inductive Fault
  /-- A working register is read before the decode in progress has written it. Raised by the register reads of the
  decoders (R47, 93 U19: "fault of the model"). Safe: no value is invented. -/
  | unwrittenRegister (name : String)
  /-- A ROM key without an entry is looked up. Raised by the decoders, only with a ROM that 93 U20 puts outside the
  spec. Safe: no value is invented. -/
  | romHole
  /-- The host stores a byte outside its allocated buffer, an address that does not exist (R386, R388). Raised by the
  host's tile store. Safe: no such store lands. -/
  | outsideBuffer
  /-- The host reads a channel that holds no value (R381 "must not", R457). Raised by the host's tile store. Safe: no
  value is invented. -/
  | noValue
  deriving DecidableEq, Repr

/-- Why the model refuses. -/
inductive Refusal
  /-- An instruction that has no meaning in the model. Raised by no arm. Safe: the machine stops. -/
  | notModelled (mnemonic : String)
  /-- A configuration whose ROM the spec excludes. Raised when the machine is configured (93 U20: "refuse at
  configuration time"). Safe: no run starts. -/
  | romOutsideSpec
  /-- A cursor read wider than 8 bits, outside the contract of `RDBITS` (R200). Raised by the cursor read of an
  ill-formed `RDBITS` or of a ROM that 93 U20 puts outside the spec. Safe: the machine stops. -/
  | readWidth
  deriving DecidableEq, Repr

/-- A texel (R32): four named channels. A channel that the format does not write has no value. -/
structure Texel where
  r : Option Byte
  g : Option Byte
  b : Option Byte
  a : Option Byte
  deriving DecidableEq, Repr

/-- A tile: 16 texels, row-major (R19, R32). -/
abbrev Tile := Vector Texel 16

/-- A texel with no value in any channel. -/
def Texel.noValue : Texel := ⟨none, none, none, none⟩

/-- A tile with no value (R32, R414, R456). -/
def Tile.noValue : Tile := Vector.replicate 16 Texel.noValue

/-- A colour with a value in each of R, G, B. -/
structure Rgb where
  r : Byte
  g : Byte
  b : Byte
  deriving DecidableEq, Repr

/-- Colour-block working set (R41). `none` is the unwritten state of R47. -/
structure ColorRegs where
  c0 : Option (BitVec 16)
  c1 : Option (BitVec 16)
  pal : Vector (Option Rgb) 4
  sel : Vector (Option (BitVec 2)) 16
  deriving DecidableEq, Repr

/-- Gradient working set (R42). `E0`, `E1` are integers: unsigned bytes or clamped signed ones. -/
structure GradRegs where
  e0 : Option Int
  e1 : Option Int
  grad : Vector (Option Byte) 8
  gsel : Vector (Option (BitVec 3)) 16
  deriving DecidableEq, Repr

/-- BC6H working set (R43), with the accumulators of R294. `acc` and `ep` hold the twelve endpoint channels in the
order of `slot6`. -/
structure Bc6Regs where
  m6 : Option (BitVec 5)
  mi : Option Nat
  shape : Option (BitVec 5)
  acc : Vector (Option Nat) 12
  ep : Vector (Option Int) 12
  ix : Option (BitVec 4)
  deriving DecidableEq, Repr

/-- BC7 working set (R44). `c` holds `C[e][ch]` at index `4*e + ch`. -/
structure Bc7Regs where
  m7 : Option Nat
  shape7 : Option (BitVec 6)
  rot : Option (BitVec 2)
  isel : Option (BitVec 1)
  c : Vector (Option Byte) 24
  p : Vector (Option (BitVec 1)) 6
  w1 : Vector (Option (BitVec 4)) 16
  w2 : Vector (Option (BitVec 4)) 16
  deriving DecidableEq, Repr

/-- All working registers (R41 to R44), two gradient sets for BC5. -/
structure Work where
  col : ColorRegs
  gradA : GradRegs
  gradB : GradRegs
  bc6 : Bc6Regs
  bc7 : Bc7Regs
  deriving DecidableEq, Repr

/-- Every colour register unwritten. -/
def ColorRegs.unwritten : ColorRegs := ⟨none, none, Vector.replicate 4 none, Vector.replicate 16 none⟩
/-- Every gradient register unwritten. -/
def GradRegs.unwritten : GradRegs := ⟨none, none, Vector.replicate 8 none, Vector.replicate 16 none⟩
/-- Every BC6H register unwritten. -/
def Bc6Regs.unwritten : Bc6Regs :=
  ⟨none, none, none, Vector.replicate 12 none, Vector.replicate 12 none, none⟩
/-- Every BC7 register unwritten. -/
def Bc7Regs.unwritten : Bc7Regs :=
  ⟨none, none, none, none, Vector.replicate 24 none, Vector.replicate 6 none, Vector.replicate 16 none,
   Vector.replicate 16 none⟩

/-- Every working register unwritten (R47, R48). -/
def Work.unwritten : Work :=
  ⟨ColorRegs.unwritten, GradRegs.unwritten, GradRegs.unwritten, Bc6Regs.unwritten, Bc7Regs.unwritten⟩

/-- The input ports (R30), driven by the host, and the model's own reset request (R450). -/
structure Ports where
  fmt : FmtCode
  blk : Block
  start : Bool
  rst : Bool
  deriving DecidableEq, Repr

/-! ### The host's record -/

/-- The host's output buffer as byte-addressed memory: addresses below `size` exist (R386, R388); `cells` lists the
bytes that have been stored, addresses strictly rising. A byte that is not listed has no value (93 U22). -/
structure Memory where
  size : Nat
  cells : List Host.Cell
  deriving DecidableEq, Repr

/-- A container format code (R382): a FourCC, four ASCII characters in stream order (the first is the lowest byte), or
a DX10-extended DXGI number. -/
inductive FormatCode
  | fourCC (c : BitVec 32)
  | dxgi (n : BitVec 32)
  deriving DecidableEq, Repr

/-- What the container header gives (R392): geometry and format code. -/
structure ImageRequest where
  code : FormatCode
  width : BitVec 32
  height : BitVec 32
  mipCount : BitVec 32
  deriving DecidableEq, Repr

/-- A structural error (R391): the host's hard failure. -/
inductive StructuralError
  /-- The stream ended before the header and geometry bytes. -/
  | truncatedHeader
  /-- A rejected or unknown format code (R383), identified. -/
  | unsupportedFormat (c : FormatCode)
  /-- Width or height is not positive. -/
  | nonPositiveSize
  deriving DecidableEq, Repr

/-- Where the host stands in its work on one image (R380, R381). -/
inductive HostPhase
  /-- No image has been submitted. -/
  | idle
  /-- An image was submitted; the structural checks are next (R452). -/
  | submitted
  /-- The host may present the next block. -/
  | ready
  /-- A decode was started; the host waits for `DONE`. -/
  | waiting
  /-- All levels are filled or the stream is exhausted (R390). -/
  | finished
  /-- A structural error; no block is read. -/
  | failed (e : StructuralError)
  deriving DecidableEq, Repr

/-- A level descriptor (R387), with the block counts of R386. `width` and `height` are the declared values; the padded
ones are `4 * blocksPerRow` and `4 * blocksPerCol` (91 N12: "a host model should carry both"). -/
structure LevelDesc where
  width : Nat
  height : Nat
  blocksPerRow : Nat
  blocksPerCol : Nat
  strideBytes : Nat
  dataOffset : Nat
  dataLength : Nat
  deriving DecidableEq, Repr

/-- The channel layout tag (R33, R392). -/
inductive LayoutTag | rgb24 | rgba32 | single8
  deriving DecidableEq, Repr

/-- The output of an image (R392): the level descriptors, which place each level's pixels in the buffer, the layout tag, and
the buffer. -/
structure OutputImage where
  layout : LayoutTag
  levels : List LevelDesc
  buffer : Memory
  deriving DecidableEq, Repr

/-- The host's record. `stream`, `window` and `buffer` are held while one image is decoded (R394); `output` is what was
handed out when its decode returned (R392; log entry 7); `delivered` collects the (tile, `STATUS`) pairs of R460, oldest
first. -/
structure HostRec where
  phase : HostPhase
  request : Option ImageRequest
  fmt : FmtCode
  levels : List LevelDesc
  level : Nat
  index : Nat
  stream : List Byte
  window : List Byte
  buffer : Memory
  output : Option OutputImage
  delivered : List (Tile × Status)
  deriving DecidableEq, Repr

/-- No image submitted (log entry 2). -/
def HostRec.none : HostRec :=
  ⟨.idle, Option.none, 0, [], 0, 0, [], [], ⟨0, []⟩, Option.none, []⟩

/-- The machine's state. `cfg` is the build-time configuration (R39, R48; log entry 1), changed by no step. `port`
are the input ports; `fmt` and `blk` the latches of R31; `tile`, `status`, `done` the outputs of R30; `pos` the bit
cursor (R34); `rd` the model's own result of a cursor micro-operation run by itself (log entry 4); `work` the working
registers; `host` the host's record. -/
structure State where
  cfg : Config
  port : Ports
  fmt : FmtCode
  blk : Block
  tile : Tile
  status : Status
  done : Bool
  pos : BitVec 8
  rd : Byte
  work : Work
  host : HostRec
  deriving DecidableEq, Repr

/-- The machine right after reset (R48, R450): `STATUS` = IDLE, `DONE` = 0, `POS` = 0, `TILE` without value, every
working register unwritten, ROM and configuration at their build-time values. The ports and latches, which R48 leaves
unspecified, are 0 and no image is submitted (DESIGN CHOICE, log entry 2). -/
def State.reset : State where
  cfg := configDefault
  port := ⟨0, 0, false, false⟩
  fmt := 0
  blk := 0
  tile := Tile.noValue
  status := .idle
  done := false
  pos := 0
  rd := 0
  work := Work.unwritten
  host := HostRec.none

end Sys2Proof.Machine
end

