-- ==== Sys2Proof/Machine/Flags.lean ====
section
/-!
DEFINITION. The status side band. The hardware has no condition codes (R38); its one flag register is `STATUS` (R37),
written once per decode. This file holds its code points and the code that each event delivers (R411).
-/

namespace Sys2Proof.Machine

/-- The code point of a status (R37, decision D3). -/
def statusCode : Status → BitVec 4
  | .idle => 0#4
  | .ok => 1#4
  | .bc6hReserved => 2#4
  | .bc6hInvalid => 3#4
  | .bc7Reserved => 4#4
  | .errBits => 5#4
  | .errIndex => 6#4
  | .errTag => 7#4
  | .unsupported => 8#4

/-- The `STATUS` that an event delivers (R411). -/
def eventStatus : Event → Status
  | .unsupported => .unsupported
  | .reserved6 => .bc6hReserved
  | .invalid6 => .bc6hInvalid
  | .reserved7 => .bc7Reserved
  | .bitOverflow => .errBits
  | .badIndex => .errIndex
  | .badTag => .errTag

end Sys2Proof.Machine
end

