-- ==== Sys2Proof/Machine/Ops.lean ====
section
/-!
DEFINITION. The named operations over the state: the updates of a decode, the decoding monad, register and ROM reads,
the bit cursor (R200 to R204), taking an event (R412 to R414), running a decode, and the host's byte memory. There is no
return operation (R417).
-/

namespace Sys2Proof.Machine

/-! ### Fixed-size tables -/

/-- The vector whose entry `i` is `f i`. -/
def tab4 {α : Type} (f : Fin 4 → α) : Vector α 4 := #v[f 0, f 1, f 2, f 3]

/-- The vector whose entry `i` is `f i`. -/
def tab8 {α : Type} (f : Fin 8 → α) : Vector α 8 := #v[f 0, f 1, f 2, f 3, f 4, f 5, f 6, f 7]

/-- The vector whose entry `i` is `f i`. -/
def tab16 {α : Type} (f : Fin 16 → α) : Vector α 16 :=
  #v[f 0, f 1, f 2, f 3, f 4, f 5, f 6, f 7, f 8, f 9, f 10, f 11, f 12, f 13, f 14, f 15]

/-- The texel numbers 0 to 15 in order (R19). -/
def texels : List (Fin 16) := [0, 1, 2, 3, 4, 5, 6, 7, 8, 9, 10, 11, 12, 13, 14, 15]

/-! ### Updates of the state -/

/-- `START` samples `FMT` and `BLK` (R31): the latches are loaded, `POS` is 0 (R34), `DONE` is 0 (R381), `TILE` has no
value (R456) and every working register is unwritten (R47). -/
def State.latch (s : State) (w : Word) : State :=
  { s with fmt := w.fmt, blk := w.blk, pos := 0, done := false, tile := Tile.noValue, work := Work.unwritten }

/-- Set the cursor. -/
def State.setPos (s : State) (p : BitVec 8) : State := { s with pos := p }

/-- Set the working registers. -/
def State.setWork (s : State) (w : Work) : State := { s with work := w }

/-- Set the result of a cursor micro-operation run by itself (log entry 4). -/
def State.setRd (s : State) (v : Byte) : State := { s with rd := v }

/-- Completion (R84, R86): tile and status are committed together, `DONE` is 1. -/
def State.deliver (s : State) (t : Tile) (st : Status) : State :=
  { s with tile := t, status := st, done := true }

/-- Drive the input ports. -/
def State.setPort (s : State) (p : Ports) : State := { s with port := p }

/-- Set the host's record. -/
def State.setHost (s : State) (h : HostRec) : State := { s with host := h }

/-- Reset of the block (R450): `STATUS`, `DONE`, `POS`, `TILE`, latches and working registers as after reset; a decode
that was started is abandoned; configuration and host are untouched (log entry 8). -/
def State.resetBlock (s : State) : State :=
  { State.reset with cfg := s.cfg, host := s.host, port := { s.port with start := false, rst := false } }

/-- Building the machine with a configuration: refused when the spec excludes its ROM or its byte order
(93 U20: "refuse at configuration time"). -/
def configure (c : Config) : Host.Outcome State Fault Refusal :=
  if romAdmissible c.rom && decide (c.byteOrder.Perm [.R, .G, .B, .A]) then
    .next { State.reset with cfg := c }
  else .refused .romOutsideSpec

/-! ### The decoding monad -/

/-- What ends a decode before its last step. -/
inductive Stop
  | event (e : Event)
  | fault (f : Fault)
  | refused (r : Refusal)
  deriving DecidableEq, Repr

/-- A piece of a decode: it reads and changes the state, and may stop. -/
abbrev Dec := EStateM Stop State

/-- `raise E` (R18). -/
def raise {α : Type} (e : Event) : Dec α := fun s => .error (.event e) s

/-- Stop with a fault. -/
def stopFault {α : Type} (f : Fault) : Dec α := fun s => .error (.fault f) s

/-- Read a working register; an unwritten one is a fault of the model (R47). -/
def register {α : Type} (name : String) (f : Work → Option α) : Dec α := fun s =>
  match f s.work with
  | some a => .ok a s
  | none => .error (.fault (.unwrittenRegister name)) s

/-- Write working registers. -/
def writeWork (g : Work → Work) : Dec Unit := fun s => .ok () (s.setWork (g s.work))

/-- Read the ROM (R18 `ROM.T[a][b]`); a key without an entry is a fault. -/
def romGet {α : Type} (f : Rom → Option α) : Dec α := fun s =>
  match f s.cfg.rom with
  | some a => .ok a s
  | none => .error (.fault .romHole) s

/-- The configuration. -/
def config : Dec Config := fun s => .ok s.cfg s

/-- Compute the 16 texels in order 0 to 15. -/
def emit16 {α : Type} (f : Fin 16 → Dec α) : Dec (Vector α 16) := do
  let x0 ← f 0
  let x1 ← f 1
  let x2 ← f 2
  let x3 ← f 3
  let x4 ← f 4
  let x5 ← f 5
  let x6 ← f 6
  let x7 ← f 7
  let x8 ← f 8
  let x9 ← f 9
  let x10 ← f 10
  let x11 ← f 11
  let x12 ← f 12
  let x13 ← f 13
  let x14 ← f 14
  let x15 ← f 15
  pure #v[x0, x1, x2, x3, x4, x5, x6, x7, x8, x9, x10, x11, x12, x13, x14, x15]

/-! ### The bit cursor -/

/-- `RDBITS(n)` (R200): overflow is checked before anything is read and consumes nothing (R202); a zero-width read
gives 0 (R204); otherwise `MemRead(POS, n)`, and `POS` advances by `n`. A width above 8 is outside the contract. -/
def rdBits (n : Nat) : Dec Nat := fun s =>
  if 8 < n then .error (.refused .readWidth) s
  else if lenBits s.fmt < s.pos.toNat + n then .error (.event .bitOverflow) s
  else if n = 0 then .ok 0 s
  else .ok (memRead s.blk s.pos.toNat n) (s.setPos (BitVec.ofNat 8 (s.pos.toNat + n)))

/-- `RDBIT()` (R201): "Identical to `RDBITS(1)`". -/
def rdBit : Dec Nat := rdBits 1

/-! ### Taking an event -/

/-- The tile with every texel equal to a fill (`Fill` of R290). -/
def fillTile (p : Rgba) : Tile :=
  Vector.replicate 16 ⟨some p.r, some p.g, some p.b, some p.a⟩

/-- The tile an event delivers (R411): `ERROR_FILL` for corruption (R412), the format's own fill for a reserved mode,
independent of `ERROR_FILL` (R413), no value for a refused format (R414). -/
def eventTile (c : Config) : Event → Tile
  | .bitOverflow => fillTile c.errorFill
  | .badIndex => fillTile c.errorFill
  | .badTag => fillTile c.errorFill
  | .reserved6 => fillTile ⟨0, 0, 0, 255⟩
  | .invalid6 => fillTile ⟨0, 0, 0, 255⟩
  | .reserved7 => fillTile ⟨0, 0, 0, 0⟩
  | .unsupported => Tile.noValue

/-- Taking an event (R412 to R414): the decode is abandoned, the event's tile replaces anything computed, the event's
code goes to `STATUS`, the working registers are discarded and `DONE` is 1. Nothing is saved and there is no handler.
`POS` is left where the decode stopped (V-C.8, V-7.1; log entry 11): no later decode sees it. -/
def takeEvent (e : Event) (s : State) : State :=
  (s.setWork Work.unwritten).deliver (eventTile s.cfg e) (eventStatus e)

/-- Run a decode to its completion (R86): the tile with `STATUS` = OK, or the event it met. -/
def runDecode (p : Dec Tile) (s : State) : Host.Outcome State Fault Refusal :=
  match p s with
  | .ok t s' => .next (s'.deliver t .ok)
  | .error (.event e) s' => .next (takeEvent e s')
  | .error (.fault f) _ => .fault f
  | .error (.refused r) _ => .refused r

/-- Run a cursor micro-operation by itself: its result goes to `rd` (log entry 4). -/
def runMicro (p : Dec Nat) (s : State) : Host.Outcome State Fault Refusal :=
  match p s with
  | .ok v s' => .next (s'.setRd (BitVec.ofNat 8 v))
  | .error (.event e) s' => .next (takeEvent e s')
  | .error (.fault f) _ => .fault f
  | .error (.refused r) _ => .refused r

/-! ### The host's byte memory -/

/-- The canonical form: addresses strictly rising and inside the buffer. An unlisted address has no value, so no
entry can equal what an unlisted address reads as. -/
abbrev Memory.wf (m : Memory) : Prop :=
  m.cells.Pairwise (fun a b => a.1 < b.1) ∧ ∀ c ∈ m.cells, c.1 < m.size

/-- The byte at an address: `none` when nothing has been stored there (93 U22). -/
def Memory.read (m : Memory) (a : Nat) : Option Byte := m.cells.lookup a

/-- Insert or replace a cell, keeping the addresses rising. -/
def insertCell (a : Nat) (b : Byte) : List Host.Cell → List Host.Cell
  | [] => [(a, b)]
  | c :: cs =>
    if a < c.1 then (a, b) :: c :: cs
    else if a = c.1 then (a, b) :: cs
    else c :: insertCell a b cs

/-- Store one byte; `none` when the address is outside the buffer. -/
def Memory.write (m : Memory) (a : Nat) (b : Byte) : Option Memory :=
  if a < m.size then some { m with cells := insertCell a b m.cells } else none

end Sys2Proof.Machine
end

