-- ==== Sys2Proof/Machine/Operands.lean ====
section
/-!
DEFINITION. Operand forms: how a stored field becomes a value. Channel expansion of 5:6:5 colours (R220 to R222), 4-bit
alpha (R242), index words (R133, R134, R136), sign extension (R17), signed endpoints (R262), BC7 P bits and expansion
(R346, R347), BC6H unquantization (R303).
-/

namespace Sys2Proof.Machine

/-- `Exp5(v) = (v << 3) | (v >> 2)` (R220). -/
def exp5 (v : Nat) : Nat := v <<< 3 ||| v >>> 2

/-- The shift amount of `EXP6_SHIFT` (R10). -/
def exp6Amount : Exp6Shift → Nat
  | .three => 3
  | .four => 4

/-- `Exp6(v) = (v << 2) | (v >> EXP6_SHIFT)` (R221). -/
def exp6 (e : Exp6Shift) (v : Nat) : Nat := v <<< 2 ||| v >>> exp6Amount e

/-- `Rgb565(C)` (R222): red = 15:11, green = 10:5, blue = 4:0 (R133). -/
def rgb565 (e : Exp6Shift) (c : BitVec 16) : Rgb where
  r := BitVec.ofNat 8 (exp5 (c.extractLsb' 11 5).toNat)
  g := BitVec.ofNat 8 (exp6 e (c.extractLsb' 5 6).toNat)
  b := BitVec.ofNat 8 (exp5 (c.extractLsb' 0 5).toNat)

/-- `Alpha4(v) = 17·v` (R242). -/
def alpha4 (v : Nat) : Nat := 17 * v

/-- `SEL[i]`, bits `2i+1:2i` of the colour index word (R133). -/
def selAt (sel : BitVec 32) (i : Fin 16) : BitVec 2 := sel.extractLsb' (2 * i.val) 2

/-- `GSEL[i]`, bits `3i+2:3i` of the gradient index word (R136). -/
def gselAt (gsel : BitVec 48) (i : Fin 16) : BitVec 3 := gsel.extractLsb' (3 * i.val) 3

/-- `A4[i]`, bits `4i+3:4i` of the alpha word (R134). -/
def a4At (a4 : BitVec 64) (i : Fin 16) : BitVec 4 := a4.extractLsb' (4 * i.val) 4

/-- `sext_N(v)` (R17): the low `n` bits as a two's-complement number. -/
def sext (n : Nat) (v : Int) : Int :=
  if 2 ^ (n - 1) ≤ v % 2 ^ n then v % 2 ^ n - 2 ^ n else v % 2 ^ n

/-- `SEndpoint(b) = max(sext_8(b), -127)` (R262). -/
def sEndpoint (b : Byte) : Int := max (sext 8 b.toNat) (-127)

/-- Append a P bit below a stored channel (R346). -/
def withPBit (c : Byte) (p : BitVec 1) : Byte := c <<< 1 ||| p.setWidth 8

/-- The P bit of endpoint `e`, `floor(e·npb/ne)` (R346). -/
def pBitIndex (e npb ne : Nat) : Nat := e * npb / ne

/-- `Unq7(v, p)` (R347): `t | (t >> p)` with `t = (v << (8-p)) & 0xFF`, for `p` from 4 to 8. The rule gives no expansion for
another `p`, which only a configured ROM can have: a free value (DESIGN CHOICE, log entry 19). -/
def unq7 (v : Byte) (p : Nat) : Byte :=
  if 4 ≤ p ∧ p ≤ 8 then (v <<< (8 - p)) ||| ((v <<< (8 - p)) >>> p) else Config.unq7Beyond v p

/-- `Unq6(c, p, false)` (R303). -/
def unq6Unsigned (c : Int) (p : Nat) : Int :=
  if 15 ≤ p then c
  else if c = 0 then 0
  else if c = 2 ^ p - 1 then 0xFFFF
  else (c * 65536 + 0x8000) / 2 ^ p

/-- The magnitude part of `Unq6(c, p, true)` (R303): `m = |c|`. -/
def unq6Magnitude (m : Int) (p : Nat) : Int :=
  if m = 0 then 0
  else if 2 ^ (p - 1) - 1 ≤ m then 0x7FFF
  else (m * 32768 + 0x4000) / 2 ^ (p - 1)

/-- `Unq6(c, p, true)` (R303). -/
def unq6Signed (c : Int) (p : Nat) : Int :=
  if 16 ≤ p then c
  else if c < 0 then -unq6Magnitude (-c) p
  else unq6Magnitude c p

/-- `Unq6(c, p, signed)` (R303). -/
def unq6 (signed : Bool) (c : Int) (p : Nat) : Int :=
  if signed then unq6Signed c p else unq6Unsigned c p

end Sys2Proof.Machine
end

