-- ==== Sys2Proof/Machine/Interp.lean ====
section
/-!
DEFINITION. The interpolation engine and the last stage of BC6H: rounding division (R16), colour palettes (R223),
gradients (R260 to R264), the 64-weight lerp (R304, R353), scaling and half-float to byte (R305 to R308).
-/

namespace Sys2Proof.Machine

/-- `rdiv(num, den)` (R16). For `den > 0`, `/` on integers is the floor of the quotient (R15). -/
def rdiv (m : RoundMode) (num den : Int) : Int :=
  match m with
  | .nearest => (2 * num + den) / (2 * den)
  | .truncate => num.tdiv den

/-- One channel of a blend `rdiv(x·a + y·b, den)` (R223). -/
def blend (m : RoundMode) (x y den : Int) (a b : Byte) : Byte :=
  BitVec.ofInt 8 (rdiv m (x * a.toNat + y * b.toNat) den)

/-- A blend of two colours, channel by channel (R223). -/
def blendRgb (m : RoundMode) (x y den : Int) (a b : Rgb) : Rgb :=
  ⟨blend m x y den a.r b.r, blend m x y den a.g b.g, blend m x y den a.b b.b⟩

/-- `PAL[0..3]` (R223): four colours when forced or when `C0 > C1` as raw 16-bit values, else three and black. -/
def palette (c : Config) (four : Bool) (c0 c1 : BitVec 16) : Vector Rgb 4 :=
  let p0 := rgb565 c.exp6Shift c0
  let p1 := rgb565 c.exp6Shift c1
  if four || decide (c1.toNat < c0.toNat) then
    #v[p0, p1, blendRgb c.roundMode 2 1 3 p0 p1, blendRgb c.roundMode 1 2 3 p0 p1]
  else
    #v[p0, p1, blendRgb c.roundMode 1 1 2 p0 p1, ⟨0, 0, 0⟩]

/-- A gradient (R260): the 7-step ramp when `e0 > e1`, else the 5-step ramp with terminators `lo` and `hi`. -/
def ramp (m : RoundMode) (lo hi e0 e1 : Int) : Vector Int 8 :=
  if e1 < e0 then
    #v[e0, e1, rdiv m (6 * e0 + 1 * e1) 7, rdiv m (5 * e0 + 2 * e1) 7, rdiv m (4 * e0 + 3 * e1) 7,
       rdiv m (3 * e0 + 4 * e1) 7, rdiv m (2 * e0 + 5 * e1) 7, rdiv m (1 * e0 + 6 * e1) 7]
  else
    #v[e0, e1, rdiv m (4 * e0 + 1 * e1) 5, rdiv m (3 * e0 + 2 * e1) 5, rdiv m (2 * e0 + 3 * e1) 5,
       rdiv m (1 * e0 + 4 * e1) 5, lo, hi]

/-- `GradientU(e0, e1)` (R261). -/
def gradientU (m : RoundMode) (e0 e1 : Int) : Vector Int 8 := ramp m 0 255 e0 e1

/-- `GradientS(e0, e1)` (R263). -/
def gradientS (m : RoundMode) (e0 e1 : Int) : Vector Int 8 := ramp m (-127) 127 e0 e1

/-- `RemapS(v)` (R264), the integer form `floor((510·(v + 127) + 254) / 508)`. -/
def remapS (v : Int) : Int := (510 * (v + 127) + 254) / 508

/-- The 64-weight interpolation `(a·(64 - w) + b·w + 32) >> 6` (R304, R353). -/
def lerp64 (a b w : Int) : Int := (a * (64 - w) + b * w + 32) / 64

/-- `Lerp7(a, b, w)` on bytes (R353). -/
def lerp7 (a b : Byte) (w : Nat) : Byte := BitVec.ofInt 8 (lerp64 a.toNat b.toNat w)

/-- `Finish6(v, signed)` (R305): the signed form scales the magnitude and restores the sign. -/
def finish6 (signed : Bool) (v : Int) : Int :=
  if signed then
    if v < 0 then -((-v * 31) / 32) else (v * 31) / 32
  else (v * 31) / 64

/-- The values that `Finish6` gives (R305), for which R306 gives a pattern. -/
def finished (signed : Bool) (f : Int) : Bool :=
  if signed then decide (-0x7C00 ≤ f ∧ f ≤ 0x7C00) else decide (0 ≤ f ∧ f ≤ 0x7BFF)

/-- `HalfBits(f, signed)` (R306): sign and magnitude in 16 bits. Outside the range of the rule, which only a configured ROM
can leave, R306 gives no pattern: a free value (DESIGN CHOICE, log entry 18). -/
def halfBits (signed : Bool) (f : Int) : BitVec 16 :=
  if finished signed f then
    if signed && decide (f < 0) then 0x8000#16 ||| BitVec.ofInt 16 (-f) else BitVec.ofInt 16 f
  else Config.halfBeyond signed f

/-- The exponent field of a half pattern (R307). -/
def halfExp (h : BitVec 16) : Nat := (h.extractLsb' 10 5).toNat

/-- The mantissa field of a half pattern (R307). -/
def halfMant (h : BitVec 16) : Nat := (h.extractLsb' 0 10).toNat

/-- `M·2^E` of a finite half pattern below 1.0, with `val = M·2^(E-25)` (R308). -/
def halfScaled (h : BitVec 16) : Nat :=
  if 1 ≤ halfExp h then (1024 + halfMant h) * 2 ^ halfExp h else halfMant h * 2

/-- `H2B(h)` (R308). The byte of a NaN pattern is a free value (R312; log entry 5). -/
def h2b (h : BitVec 16) : Byte :=
  if halfExp h = 31 ∧ halfMant h ≠ 0 then Config.h2bNaN h
  else if h.getLsbD 15 then 0
  else if 0x3C00 ≤ h.toNat then 255
  else BitVec.ofNat 8 ((255 * halfScaled h + 2 ^ 24) / 2 ^ 25)

end Sys2Proof.Machine
end

