-- ==== Sys2Proof/Machine/ColorBlocks.lean ====
section
/-!
DEFINITION. The shared block decodes of the fixed layouts: the colour block (R223) and the gradient block (R265), with
their working registers (R41, R42), and the tile writes of BC1 to BC5 (R33, R79).
-/

namespace Sys2Proof.Machine

/-- `ColorBlock` (R223) on the fields of layout `COLOR`: `C0`, `C1`, the palette, the 16 indices, the 16 colours. -/
def colorBlock (f : ColorFields) (four : Bool) : Dec (Vector Rgb 16) := do
  writeWork fun w => { w with col := { w.col with c0 := some f.c0, c1 := some f.c1 } }
  let c0 ← register "C0" fun w => w.col.c0
  let c1 ← register "C1" fun w => w.col.c1
  let cfg ← config
  writeWork fun w =>
    { w with col := { w.col with pal := tab4 fun k => some ((palette cfg four c0 c1).get k) } }
  writeWork fun w => { w with col := { w.col with sel := tab16 fun i => some (selAt f.sel i) } }
  emit16 fun i => do
    let k ← register "SEL" fun w => w.col.sel.get i
    register "PAL" fun w => w.col.pal.get k.toFin

/-- Which of the two gradient working sets (R42: "two copies for BC5"). -/
inductive GradSet | first | second
  deriving DecidableEq, Repr

/-- A gradient working set. -/
def gradRegs (k : GradSet) (w : Work) : GradRegs :=
  match k with
  | .first => w.gradA
  | .second => w.gradB

/-- Replace a gradient working set. -/
def setGradRegs (k : GradSet) (g : GradRegs) (w : Work) : Work :=
  match k with
  | .first => { w with gradA := g }
  | .second => { w with gradB := g }

/-- The common part of `GradBlockU` and `GradBlockS` (R265): endpoints, gradient as bytes, indices, values. -/
def gradBlock (k : GradSet) (gsel : BitVec 48) (e0 e1 : Int) (grad : RoundMode → Int → Int → Fin 8 → Int) :
    Dec (Vector Byte 16) := do
  writeWork fun w => setGradRegs k { gradRegs k w with e0 := some e0, e1 := some e1 } w
  let x0 ← register "E0" fun w => (gradRegs k w).e0
  let x1 ← register "E1" fun w => (gradRegs k w).e1
  let cfg ← config
  writeWork fun w =>
    setGradRegs k
      { gradRegs k w with grad := tab8 fun j => some (BitVec.ofInt 8 (grad cfg.roundMode x0 x1 j)) } w
  writeWork fun w => setGradRegs k { gradRegs k w with gsel := tab16 fun i => some (gselAt gsel i) } w
  emit16 fun i => do
    let j ← register "GSEL" fun w => (gradRegs k w).gsel.get i
    register "GRAD" fun w => (gradRegs k w).grad.get j.toFin

/-- `GradBlockU` (R265): unsigned endpoints. -/
def gradBlockU (k : GradSet) (f : GradFields) : Dec (Vector Byte 16) :=
  gradBlock k f.gsel f.e0.toNat f.e1.toNat fun m e0 e1 j => (gradientU m e0 e1).get j

/-- `GradBlockS` (R265): clamped signed endpoints (R262), every entry remapped (R264). -/
def gradBlockS (k : GradSet) (f : GradFields) : Dec (Vector Byte 16) :=
  gradBlock k f.gsel (sEndpoint f.e0) (sEndpoint f.e1) fun m e0 e1 j => remapS ((gradientS m e0 e1).get j)

/-- The tile of `DEC.BC1` (R224): R, G, B of each texel; A has no value. -/
def tileRgb (col : Vector Rgb 16) : Tile :=
  tab16 fun i => ⟨some (col.get i).r, some (col.get i).g, some (col.get i).b, none⟩

/-- The tile of `DEC.BC2` and `DEC.BC3` (R241, R243): R, G, B and A of each texel. -/
def tileRgba (col : Vector Rgb 16) (al : Vector Byte 16) : Tile :=
  tab16 fun i => ⟨some (col.get i).r, some (col.get i).g, some (col.get i).b, some (al.get i)⟩

/-- The tile of `DEC.BC4U` and `DEC.BC4S` (R266, R267): R of each texel; the others have no value. -/
def tileR (r : Vector Byte 16) : Tile :=
  tab16 fun i => ⟨some (r.get i), none, none, none⟩

/-- The tile of `DEC.BC5U` and `DEC.BC5S` (R268, R269): R, G and B = 0 of each texel; A has no value. -/
def tileRg (r g : Vector Byte 16) : Tile :=
  tab16 fun i => ⟨some (r.get i), some (g.get i), some 0, none⟩

end Sys2Proof.Machine
end

