-- ==== Sys2Proof/Machine/Bc123.lean ====
section
/-!
DEFINITION. `DEC.BC1` (R224), `DEC.BC2` (R241), `DEC.BC3` (R243). Each samples its word (R31) and runs its decode.
-/

namespace Sys2Proof.Machine

/-- `DEC.BC1` (R224): the colour block with the branch on `C0 > C1`. -/
def execDecBC1 (col : ColorFields) (hi : BitVec 64) (s : State) : Host.Outcome State Fault Refusal :=
  runDecode (do
    let out ← colorBlock col false
    pure (tileRgb out)) (s.latch ⟨0#4, hi ++ colorBits col⟩)

/-- `DEC.BC2` (R241): four colours forced (R240), explicit 4-bit alpha (R242). -/
def execDecBC2 (a4 : BitVec 64) (col : ColorFields) (s : State) : Host.Outcome State Fault Refusal :=
  runDecode (do
    let out ← colorBlock col true
    pure (tileRgba out (tab16 fun i => BitVec.ofNat 8 (alpha4 (a4At a4 i).toNat))))
    (s.latch ⟨1#4, colorBits col ++ a4⟩)

/-- `DEC.BC3` (R243): unsigned gradient alpha, four colours forced (R240). -/
def execDecBC3 (al : GradFields) (col : ColorFields) (s : State) : Host.Outcome State Fault Refusal :=
  runDecode (do
    let a ← gradBlockU .first al
    let out ← colorBlock col true
    pure (tileRgba out a)) (s.latch ⟨2#4, colorBits col ++ gradBits al⟩)

end Sys2Proof.Machine
end

