-- ==== Sys2Proof/Machine/Bc45.lean ====
section
/-!
DEFINITION. `DEC.BC4U` (R266), `DEC.BC4S` (R267), `DEC.BC5U` (R268), `DEC.BC5S` (R269).
-/

namespace Sys2Proof.Machine

/-- `DEC.BC4U` (R266). -/
def execDecBC4U (gr : GradFields) (hi : BitVec 64) (s : State) : Host.Outcome State Fault Refusal :=
  runDecode (do
    let r ← gradBlockU .first gr
    pure (tileR r)) (s.latch ⟨3#4, hi ++ gradBits gr⟩)

/-- `DEC.BC4S` (R267): signed endpoints, unsigned output. -/
def execDecBC4S (gr : GradFields) (hi : BitVec 64) (s : State) : Host.Outcome State Fault Refusal :=
  runDecode (do
    let r ← gradBlockS .first gr
    pure (tileR r)) (s.latch ⟨4#4, hi ++ gradBits gr⟩)

/-- `DEC.BC5U` (R268): first half to R, second half to G, B = 0. -/
def execDecBC5U (g0 g1 : GradFields) (s : State) : Host.Outcome State Fault Refusal :=
  runDecode (do
    let r ← gradBlockU .first g0
    let g ← gradBlockU .second g1
    pure (tileRg r g)) (s.latch ⟨5#4, gradBits g1 ++ gradBits g0⟩)

/-- `DEC.BC5S` (R269): as `DEC.BC5U` with signed gradients; B is the constant 0. -/
def execDecBC5S (g0 g1 : GradFields) (s : State) : Host.Outcome State Fault Refusal :=
  runDecode (do
    let r ← gradBlockS .first g0
    let g ← gradBlockS .second g1
    pure (tileRg r g)) (s.latch ⟨6#4, gradBits g1 ++ gradBits g0⟩)

end Sys2Proof.Machine
end

