-- ==== Sys2Proof/Machine/Bc6h.lean ====
section
/-!
DEFINITION. `DEC.BC6HU` and `DEC.BC6HS` (R290 to R312), and the in-block forms `DEC.BC6H.MODE0..13` and
`DEC.BC6H.RESERVED` (R140, R149): an in-block form is the operation applied to a block that has the form's pattern.
-/

namespace Sys2Proof.Machine

/-- The place of an endpoint channel in `acc` and `ep` (R43). -/
def slot6 : Letter → Rgb3 → Fin 12
  | .W, .R => 0
  | .W, .G => 1
  | .W, .B => 2
  | .X, .R => 3
  | .X, .G => 4
  | .X, .B => 5
  | .Y, .R => 6
  | .Y, .G => 7
  | .Y, .B => 8
  | .Z, .R => 9
  | .Z, .G => 10
  | .Z, .B => 11

/-- The three channels in the order R, G, B. -/
def forRgb (f : Rgb3 → Dec Unit) : Dec Unit := do
  f .R
  f .G
  f .B

/-- `ReadMode6()` (R291). -/
def readMode6 : Dec Nat := do
  let lo ← rdBits 2
  if lo = 0 ∨ lo = 1 then pure lo
  else do
    let hi ← rdBits 3
    pure (hi <<< 2 ||| lo)

/-- `ClearAccumulators()` (R294). -/
def clearAccumulators : Dec Unit :=
  writeWork fun w =>
    { w with bc6 := { w.bc6 with shape := some 0, acc := Vector.replicate 12 (some 0) } }

/-- Set bit `n` of the 5-bit shape (R180). A configured ROM may name a bit the shape does not have, and the spec gives no
result there: a free value (DESIGN CHOICE, log entry 17). -/
def setShapeBit (sh : BitVec 5) (n : Nat) : BitVec 5 :=
  if n < 5 then sh ||| 1#5 <<< n else Config.shapeBeyond sh n

/-- Add the set bit of one header entry to its accumulator, or raise `BadTag` (R295, R296). An endpoint accumulator holds
the exact number, also where a configured ROM names a bit above the declared precision (DESIGN CHOICE, log entry 18). -/
def placeBit (d : Desc) : Dec Unit :=
  match d.tag with
  | .D => do
    let sh ← register "SHAPE" fun w => w.bc6.shape
    writeWork fun w => { w with bc6 := { w.bc6 with shape := some (setShapeBit sh d.n) } }
  | .acc c l => do
    let a ← register "ACC" fun w => w.bc6.acc.get (slot6 l c)
    writeWork fun w =>
      { w with bc6 := { w.bc6 with acc := w.bc6.acc.set (slot6 l c) (some (a ||| 1 <<< d.n)) } }
  | .M => raise .badTag
  | .NA => raise .badTag
  | .other => raise .badTag

/-- The header loop of `ReadHeader` (R295), run while `POS < HB`. The first argument bounds the number of turns; each
turn reads one bit, so `HB` turns are enough. -/
def readHeader (mi hb : Nat) : Nat → Dec Unit
  | 0 => pure ()
  | fuel + 1 => do
    let k := (← get).pos.toNat
    if k < hb then do
      let b ← rdBit
      if b = 1 then do
        let d ← romGet fun r => romDesc r mi k
        placeBit d
      readHeader mi hb fuel
    else pure ()

/-- `EP[..][c] <- v` (R43). -/
def setEp (l : Letter) (c : Rgb3) (v : Int) : Dec Unit :=
  writeWork fun w => { w with bc6 := { w.bc6 with ep := w.bc6.ep.set (slot6 l c) (some v) } }

/-- Read an endpoint channel. -/
def getEp (l : Letter) (c : Rgb3) : Dec Int := register "EP" fun w => w.bc6.ep.get (slot6 l c)

/-- `AssembleEndpoints()` (R297) for one letter and channel. -/
def assembleOne (l : Letter) (c : Rgb3) : Dec Unit := do
  let a ← register "ACC" fun w => w.bc6.acc.get (slot6 l c)
  setEp l c a

/-- `AssembleEndpoints()` (R297). -/
def assembleEndpoints : Dec Unit := do
  forRgb (assembleOne .W)
  forRgb (assembleOne .X)
  forRgb (assembleOne .Y)
  forRgb (assembleOne .Z)

/-- Sign-extend one endpoint channel from its own width (R298). -/
def extendOne (m : Bc6Mode) (l : Letter) (c : Rgb3) : Dec Unit := do
  let v ← getEp l c
  setEp l c (sext (prec6 m l c) v)

/-- `SignExtend(info, signed)` (R298): the base only in the signed profile, the others when signed or transformed. -/
def signExtend (m : Bc6Mode) (signed : Bool) : Dec Unit := do
  if signed then forRgb (extendOne m .W)
  if signed || m.tr then
    forRgb (extendOne m .X)
    if m.pc ≠ 0 then
      forRgb (extendOne m .Y)
      forRgb (extendOne m .Z)

/-- Add the region-0 base to one delta channel, masked to the base precision, and sign-extend it again in the signed
profile (R299). -/
def transformOne (m : Bc6Mode) (signed : Bool) (l : Letter) (c : Rgb3) : Dec Unit := do
  let base ← getEp .W c
  let v ← getEp l c
  let t := (v + base) % 2 ^ prec6 m .W c
  setEp l c (if signed then sext (prec6 m .W c) t else t)

/-- `InverseTransform(info, signed)` (R299). -/
def inverseTransform (m : Bc6Mode) (signed : Bool) : Dec Unit := do
  forRgb (transformOne m signed .X)
  if m.pc = 1 then
    forRgb (transformOne m signed .Y)
    forRgb (transformOne m signed .Z)

/-- `nb` of `ReadIndex6`: one bit fewer at an anchor (R300). -/
def indexBits (ip : Nat) (anchors : List Nat) (i : Fin 16) : Nat :=
  if anchors.contains i.val then ip - 1 else ip

/-- The number of index values that are valid (R301). -/
def indexLimit (pc : Nat) : Nat := if 0 < pc then 8 else 16

/-- `ReadIndex6(i, info)` (R300, R301): bounds check, read, validation. The index goes to `IX`. -/
def readIndex6 (m : Bc6Mode) (i : Fin 16) : Dec Nat := do
  let sh ← register "SHAPE" fun w => w.bc6.shape
  let anchors ← romGet fun r => romAnchors r m.pc sh.toNat
  let nb := indexBits m.ip anchors i
  if 128 < (← get).pos.toNat + nb then raise .bitOverflow
  let ix ← rdBits nb
  if indexLimit m.pc ≤ ix then raise .badIndex
  writeWork fun w => { w with bc6 := { w.bc6 with ix := some (BitVec.ofNat 4 ix) } }
  pure ix

/-- The endpoint pair of a region (R302): `EP[r][A]`, `EP[r][B]`. The block has two regions at most. -/
def regionPair (r : Nat) : Option (Letter × Letter) :=
  match r with
  | 0 => some (.W, .X)
  | 1 => some (.Y, .Z)
  | _ => none

/-- One channel of a texel (R303 to R308), from its two endpoints, precision and weight. -/
def channel6 (signed : Bool) (p : Nat) (a b w : Int) : Byte :=
  h2b (halfBits signed (finish6 signed (lerp64 (unq6 signed a p) (unq6 signed b p) w)))

/-- Step 5 for one texel (R300 to R309). -/
def texel6 (m : Bc6Mode) (signed : Bool) (i : Fin 16) : Dec Texel := do
  let ix ← readIndex6 m i
  let sh ← register "SHAPE" fun w => w.bc6.shape
  let r ← romGet fun rom => romRegion rom m.pc sh.toNat i.val
  let pair ← romGet fun _ => regionPair r
  let w ← romGet fun rom => romWeight rom (if m.pc = 1 then 3 else 4) ix
  let ar ← getEp pair.1 .R
  let br ← getEp pair.2 .R
  let ag ← getEp pair.1 .G
  let bg ← getEp pair.2 .G
  let ab ← getEp pair.1 .B
  let bb ← getEp pair.2 .B
  pure ⟨some (channel6 signed m.w.r ar br w), some (channel6 signed m.w.g ag bg w),
    some (channel6 signed m.w.b ab bb w), some 255⟩

/-- Steps 2 to 5 of R290, for the mode record of index `mi`. -/
def body6 (signed : Bool) (mi : Nat) : Dec Tile := do
  writeWork fun w => { w with bc6 := { w.bc6 with mi := some mi } }
  let m ← romGet fun r => r.bc6mode[mi]?
  clearAccumulators
  readHeader mi (headerBits m) (headerBits m)
  assembleEndpoints
  signExtend m signed
  if m.tr then inverseTransform m signed
  emit16 (texel6 m signed)

/-- `DEC.BC6H(signed)` (R290): the mode, the reserved and invalid fills (R292, R293), then the body. -/
def decodeBc6 (signed : Bool) : Dec Tile := do
  let m6 ← readMode6
  writeWork fun w => { w with bc6 := { w.bc6 with m6 := some (BitVec.ofNat 5 m6) } }
  let e ← romGet fun r => r.bc6map[m6]?
  match e with
  | .reserved => raise .reserved6
  | .invalid => raise .invalid6
  | .mode mi => body6 signed mi

/-- The signedness of a profile (R40). -/
def isSigned : Profile → Bool
  | .unsigned => false
  | .signed => true

/-- The operation of a profile on a block: sample it (R31) and decode. -/
def runBc6 (p : Profile) (blk : Block) (s : State) : Host.Outcome State Fault Refusal :=
  runDecode (decodeBc6 (isSigned p)) (s.latch ⟨p.fmt, blk⟩)

/-- `DEC.BC6HU` (R290). -/
def execDecBC6HU (blk : Block) (s : State) : Host.Outcome State Fault Refusal :=
  runBc6 .unsigned blk s

/-- `DEC.BC6HS` (R290). -/
def execDecBC6HS (blk : Block) (s : State) : Host.Outcome State Fault Refusal :=
  runBc6 .signed blk s

/-- `DEC.BC6H.MODE0` (R140, R181, R290). -/
def execBc6hMode0 (p : Profile) (f : Bc6Two 10 5 5 5) (s : State) :
    Host.Outcome State Fault Refusal :=
  runBc6 p (encodeTwo 0x00 layout6Mode0 f) s

/-- `DEC.BC6H.MODE1` (R140, R182, R290). -/
def execBc6hMode1 (p : Profile) (f : Bc6Two 7 6 6 6) (s : State) :
    Host.Outcome State Fault Refusal :=
  runBc6 p (encodeTwo 0x01 layout6Mode1 f) s

/-- `DEC.BC6H.MODE2` (R140, R183, R290). -/
def execBc6hMode2 (p : Profile) (f : Bc6Two 11 5 4 4) (s : State) :
    Host.Outcome State Fault Refusal :=
  runBc6 p (encodeTwo 0x02 layout6Mode2 f) s

/-- `DEC.BC6H.MODE3` (R140, R184, R290). -/
def execBc6hMode3 (p : Profile) (f : Bc6Two 11 4 5 4) (s : State) :
    Host.Outcome State Fault Refusal :=
  runBc6 p (encodeTwo 0x06 layout6Mode3 f) s

/-- `DEC.BC6H.MODE4` (R140, R185, R290). -/
def execBc6hMode4 (p : Profile) (f : Bc6Two 11 4 4 5) (s : State) :
    Host.Outcome State Fault Refusal :=
  runBc6 p (encodeTwo 0x0A layout6Mode4 f) s

/-- `DEC.BC6H.MODE5` (R140, R186, R290). -/
def execBc6hMode5 (p : Profile) (f : Bc6Two 9 5 5 5) (s : State) :
    Host.Outcome State Fault Refusal :=
  runBc6 p (encodeTwo 0x0E layout6Mode5 f) s

/-- `DEC.BC6H.MODE6` (R140, R187, R290). -/
def execBc6hMode6 (p : Profile) (f : Bc6Two 8 6 5 5) (s : State) :
    Host.Outcome State Fault Refusal :=
  runBc6 p (encodeTwo 0x12 layout6Mode6 f) s

/-- `DEC.BC6H.MODE7` (R140, R188, R290). -/
def execBc6hMode7 (p : Profile) (f : Bc6Two 8 5 6 5) (s : State) :
    Host.Outcome State Fault Refusal :=
  runBc6 p (encodeTwo 0x16 layout6Mode7 f) s

/-- `DEC.BC6H.MODE8` (R140, R189, R290). -/
def execBc6hMode8 (p : Profile) (f : Bc6Two 8 5 5 6) (s : State) :
    Host.Outcome State Fault Refusal :=
  runBc6 p (encodeTwo 0x1A layout6Mode8 f) s

/-- `DEC.BC6H.MODE9` (R140, R190, R290). -/
def execBc6hMode9 (p : Profile) (f : Bc6Two 6 6 6 6) (s : State) :
    Host.Outcome State Fault Refusal :=
  runBc6 p (encodeTwo 0x1E layout6Mode9 f) s

/-- `DEC.BC6H.MODE10` (R140, R191, R290). -/
def execBc6hMode10 (p : Profile) (f : Bc6One 10 10) (s : State) :
    Host.Outcome State Fault Refusal :=
  runBc6 p (encodeOne 0x03 layout6Mode10 f) s

/-- `DEC.BC6H.MODE11` (R140, R192, R290). -/
def execBc6hMode11 (p : Profile) (f : Bc6One 11 9) (s : State) :
    Host.Outcome State Fault Refusal :=
  runBc6 p (encodeOne 0x07 layout6Mode11 f) s

/-- `DEC.BC6H.MODE12` (R140, R193, R290). -/
def execBc6hMode12 (p : Profile) (f : Bc6One 12 8) (s : State) :
    Host.Outcome State Fault Refusal :=
  runBc6 p (encodeOne 0x0B layout6Mode12 f) s

/-- `DEC.BC6H.MODE13` (R140, R194, R290). -/
def execBc6hMode13 (p : Profile) (f : Bc6One 16 4) (s : State) :
    Host.Outcome State Fault Refusal :=
  runBc6 p (encodeOne 0x0F layout6Mode13 f) s

/-- `DEC.BC6H.RESERVED` (R140, R292). -/
def execBc6hReserved (p : Profile) (k : BitVec 2) (rest : BitVec 123) (s : State) :
    Host.Outcome State Fault Refusal :=
  runBc6 p (bc6hReservedBlock k rest) s

end Sys2Proof.Machine
end

