-- ==== Sys2Proof/Machine/Bc7.lean ====
section
/-!
DEFINITION. `DEC.BC7` (R340 to R358), and the in-block forms `DEC.BC7.MODE0..8` (R143, R149): an in-block form is the
operation applied to a block that has the form's pattern.
-/

namespace Sys2Proof.Machine

/-- The position of a channel within an endpoint of `C` (R44). -/
def chIndex : Channel → Nat
  | .R => 0
  | .G => 1
  | .B => 2
  | .A => 3

theorem chIndex_lt (ch : Channel) : chIndex ch < 4 := by cases ch <;> decide

/-- The place of `C[e][ch]` (R44). -/
def slot7 (e : Fin 6) (ch : Channel) : Fin 24 :=
  ⟨4 * e.val + chIndex ch, by have := chIndex_lt ch; omega⟩

/-- Endpoint numbers 0 to 5. -/
def endpoints6 : List (Fin 6) := [0, 1, 2, 3, 4, 5]

/-- The channels in storage order (R344). -/
def channels7 : List Channel := [.R, .G, .B, .A]

/-- The number of endpoints, `2·(pc+1)` (R340). -/
def endpointCount (m : Bc7Mode) : Nat := 2 * (m.pc + 1)

/-- `C[e][ch] <- v` (R44). -/
def setC (e : Fin 6) (ch : Channel) (v : Byte) : Dec Unit :=
  writeWork fun w => { w with bc7 := { w.bc7 with c := w.bc7.c.set (slot7 e ch) (some v) } }

/-- Read an endpoint channel. -/
def getC (e : Fin 6) (ch : Channel) : Dec Byte := register "C" fun w => w.bc7.c.get (slot7 e ch)

/-- `ReadMode7()` (R341): count zero bits, at most eight. -/
def readMode7 : Nat → Nat → Dec Nat
  | 0, m => pure m
  | fuel + 1, m => do
    let b ← rdBit
    if b = 0 then readMode7 fuel (m + 1) else pure m

/-- `ReadSelectors(info)` (R343). -/
def readSelectors (m : Bc7Mode) : Dec Unit := do
  let sh ← rdBits m.pb
  writeWork fun w => { w with bc7 := { w.bc7 with shape7 := some (BitVec.ofNat 6 sh) } }
  let ro ← rdBits m.rb
  writeWork fun w => { w with bc7 := { w.bc7 with rot := some (BitVec.ofNat 2 ro) } }
  let is ← rdBits m.isb
  writeWork fun w => { w with bc7 := { w.bc7 with isel := some (BitVec.ofNat 1 is) } }

/-- The callers' bounds check before a read of `n` bits (R344, R345, R348, R350). -/
def checkRoom (n : Nat) : Dec Unit := fun s =>
  if 128 < s.pos.toNat + n then .error (.event .bitOverflow) s else .ok () s

/-- One endpoint channel of `ReadEndpoints` (R344). -/
def readEndpoint (m : Bc7Mode) (ch : Channel) (e : Fin 6) : Dec Unit :=
  if prec7 m.prec ch = 0 then setC e ch 255
  else do
    checkRoom (prec7 m.prec ch)
    let v ← rdBits (prec7 m.prec ch)
    setC e ch (BitVec.ofNat 8 v)

/-- `ReadEndpoints(info, ne)` (R344): channel-major, endpoint-minor. -/
def readEndpoints (m : Bc7Mode) : Dec Unit :=
  channels7.forM fun ch => (endpoints6.take (endpointCount m)).forM fun e => readEndpoint m ch e

/-- `ReadPBits(info)` (R345). -/
def readPBits (m : Bc7Mode) : Dec Unit :=
  (endpoints6.take m.npb).forM fun j => do
    checkRoom 1
    let v ← rdBit
    writeWork fun w => { w with bc7 := { w.bc7 with p := w.bc7.p.set j (some (BitVec.ofNat 1 v)) } }

/-- One endpoint channel of `ApplyPBits` (R346). -/
def applyPBit (m : Bc7Mode) (e : Fin 6) (ch : Channel) : Dec Unit :=
  if prec7 m.precp ch ≠ prec7 m.prec ch then do
    let p ← register "P" fun w => (w.bc7.p[pBitIndex e.val m.npb (endpointCount m)]?).join
    let v ← getC e ch
    setC e ch (withPBit v p)
  else pure ()

/-- `ApplyPBits(info, ne)` (R346). -/
def applyPBits (m : Bc7Mode) : Dec Unit :=
  if 0 < m.npb then
    (endpoints6.take (endpointCount m)).forM fun e => channels7.forM fun ch => applyPBit m e ch
  else pure ()

/-- One endpoint channel of `UnquantizeEndpoints` (R347). -/
def unquantizeOne (m : Bc7Mode) (e : Fin 6) (ch : Channel) : Dec Unit :=
  if 0 < prec7 m.precp ch then do
    let v ← getC e ch
    setC e ch (unq7 v (prec7 m.precp ch))
  else setC e ch 255

/-- `UnquantizeEndpoints(info, ne)` (R347). -/
def unquantizeEndpoints (m : Bc7Mode) : Dec Unit :=
  (endpoints6.take (endpointCount m)).forM fun e => channels7.forM fun ch => unquantizeOne m e ch

/-- `ClearIndices()` (R349). -/
def clearIndices : Dec Unit :=
  writeWork fun w =>
    { w with bc7 := { w.bc7 with w1 := Vector.replicate 16 (some 0), w2 := Vector.replicate 16 (some 0) } }

/-- `ReadPrimaryIndices(info)` (R348). -/
def readPrimaryIndices (m : Bc7Mode) : Dec Unit :=
  texels.forM fun i => do
    let sh ← register "SHAPE7" fun w => w.bc7.shape7
    let anchors ← romGet fun r => romAnchors r m.pc sh.toNat
    checkRoom (indexBits m.ip1 anchors i)
    let v ← rdBits (indexBits m.ip1 anchors i)
    writeWork fun w => { w with bc7 := { w.bc7 with w1 := w.bc7.w1.set i (some (BitVec.ofNat 4 v)) } }

/-- `ReadSecondaryIndices(info)` (R350): texel 0 always has one bit fewer. -/
def readSecondaryIndices (m : Bc7Mode) : Dec Unit :=
  if m.ip2 ≠ 0 then
    texels.forM fun i => do
      checkRoom (indexBits m.ip2 [0] i)
      let v ← rdBits (indexBits m.ip2 [0] i)
      writeWork fun w => { w with bc7 := { w.bc7 with w2 := w.bc7.w2.set i (some (BitVec.ofNat 4 v)) } }
  else pure ()

/-- The tracks of one texel (R352): colour index and width, alpha index and width. -/
structure Tracks where
  wc : Nat
  pcw : Nat
  wa : Nat
  paw : Nat
  deriving DecidableEq, Repr

/-- The choice of R352, given both index registers and the selector. -/
def pickTracks (m : Bc7Mode) (isel : BitVec 1) (w1 w2 : BitVec 4) : Tracks :=
  if m.ip2 = 0 then ⟨w1.toNat, m.ip1, w1.toNat, m.ip1⟩
  else if isel = 0 then ⟨w1.toNat, m.ip1, w2.toNat, m.ip2⟩
  else ⟨w2.toNat, m.ip2, w1.toNat, m.ip1⟩

/-- `SelectTracks(info, i)` (R352). -/
def selectTracks (m : Bc7Mode) (i : Fin 16) : Dec Tracks := do
  let isel ← register "ISEL" fun w => w.bc7.isel
  let w1 ← register "W1" fun w => w.bc7.w1.get i
  let w2 ← register "W2" fun w => w.bc7.w2.get i
  pure (pickTracks m isel w1 w2)

/-- `Rotate(px, ROT)` (R354). -/
def rotate (px : Rgba) (rot : BitVec 2) : Rgba :=
  match rot.toNat with
  | 1 => ⟨px.a, px.g, px.b, px.r⟩
  | 2 => ⟨px.r, px.a, px.b, px.g⟩
  | 3 => ⟨px.r, px.g, px.a, px.b⟩
  | _ => px

/-- The endpoint pair of a region (R351): endpoints `2r` and `2r+1`. The block has three regions at most. -/
def regionEnds (r : Nat) : Option (Fin 6 × Fin 6) :=
  match r with
  | 0 => some (0, 1)
  | 1 => some (2, 3)
  | 2 => some (4, 5)
  | _ => none

/-- One texel of R340: region, tracks, interpolation, rotation, write (R351 to R355). -/
def texel7 (m : Bc7Mode) (i : Fin 16) : Dec Texel := do
  let sh ← register "SHAPE7" fun w => w.bc7.shape7
  let r ← romGet fun rom => romRegion rom m.pc sh.toNat i.val
  let ends ← romGet fun _ => regionEnds r
  let t ← selectTracks m i
  let wc ← romGet fun rom => romWeight rom t.pcw t.wc
  let wa ← romGet fun rom => romWeight rom t.paw t.wa
  let ar ← getC ends.1 .R
  let br ← getC ends.2 .R
  let ag ← getC ends.1 .G
  let bg ← getC ends.2 .G
  let ab ← getC ends.1 .B
  let bb ← getC ends.2 .B
  let aa ← getC ends.1 .A
  let ba ← getC ends.2 .A
  let rot ← register "ROT" fun w => w.bc7.rot
  let px := rotate ⟨lerp7 ar br wc, lerp7 ag bg wc, lerp7 ab bb wc, lerp7 aa ba wa⟩ rot
  pure ⟨some px.r, some px.g, some px.b, some px.a⟩

/-- Steps 2 to 6 of R340 for a mode record. -/
def body7 (m : Bc7Mode) : Dec Tile := do
  readSelectors m
  readEndpoints m
  readPBits m
  applyPBits m
  unquantizeEndpoints m
  clearIndices
  readPrimaryIndices m
  readSecondaryIndices m
  emit16 (texel7 m)

/-- `DEC.BC7` (R340): the mode, the reserved fill (R342), then the body. -/
def decodeBc7 : Dec Tile := do
  let m7 ← readMode7 8 0
  writeWork fun w => { w with bc7 := { w.bc7 with m7 := some m7 } }
  if m7 = 8 then raise .reserved7
  else do
    let m ← romGet fun r => r.bc7mode[m7]?
    body7 m

/-- The operation on a block: sample it (R31) and decode. -/
def runBc7 (blk : Block) (s : State) : Host.Outcome State Fault Refusal :=
  runDecode decodeBc7 (s.latch ⟨9#4, blk⟩)

/-- `DEC.BC7` (R340). -/
def execDecBC7 (blk : Block) (s : State) : Host.Outcome State Fault Refusal := runBc7 blk s

/-- `DEC.BC7.MODE0` (R143, R145, R340). -/
def execBc7Mode0 (f : Bc7Fields 4 0 0 24 0 6 45 0) (s : State) : Host.Outcome State Fault Refusal :=
  runBc7 (bc7Block0 f) s

/-- `DEC.BC7.MODE1` (R143, R145, R340). -/
def execBc7Mode1 (f : Bc7Fields 6 0 0 24 0 2 46 0) (s : State) : Host.Outcome State Fault Refusal :=
  runBc7 (bc7Block1 f) s

/-- `DEC.BC7.MODE2` (R143, R145, R340). -/
def execBc7Mode2 (f : Bc7Fields 6 0 0 30 0 0 29 0) (s : State) : Host.Outcome State Fault Refusal :=
  runBc7 (bc7Block2 f) s

/-- `DEC.BC7.MODE3` (R143, R145, R340). -/
def execBc7Mode3 (f : Bc7Fields 6 0 0 28 0 4 30 0) (s : State) : Host.Outcome State Fault Refusal :=
  runBc7 (bc7Block3 f) s

/-- `DEC.BC7.MODE4` (R143, R145, R340). -/
def execBc7Mode4 (f : Bc7Fields 0 2 1 10 12 0 31 47) (s : State) : Host.Outcome State Fault Refusal :=
  runBc7 (bc7Block4 f) s

/-- `DEC.BC7.MODE5` (R143, R145, R340). -/
def execBc7Mode5 (f : Bc7Fields 0 2 0 14 16 0 31 31) (s : State) : Host.Outcome State Fault Refusal :=
  runBc7 (bc7Block5 f) s

/-- `DEC.BC7.MODE6` (R143, R145, R340). -/
def execBc7Mode6 (f : Bc7Fields 0 0 0 14 14 2 63 0) (s : State) : Host.Outcome State Fault Refusal :=
  runBc7 (bc7Block6 f) s

/-- `DEC.BC7.MODE7` (R143, R145, R340). -/
def execBc7Mode7 (f : Bc7Fields 6 0 0 20 20 4 30 0) (s : State) : Host.Outcome State Fault Refusal :=
  runBc7 (bc7Block7 f) s

/-- `DEC.BC7.MODE8` (R143, R342). -/
def execBc7Mode8 (rest : BitVec 120) (s : State) : Host.Outcome State Fault Refusal :=
  runBc7 (bc7Block8 rest) s

end Sys2Proof.Machine
end

