-- ==== Sys2Proof/Machine/Micro.lean ====
section
/-!
DEFINITION. The refused format selects (R149, R414) and the two cursor micro-operations run by themselves (R200, R201).
-/

namespace Sys2Proof.Machine

/-- `UNSUPPORTED.FMT10_11` (R414): the word is sampled, no block bit is read, the format is refused. -/
def execUnsupportedFmt10_11 (f : BitVec 1) (blk : Block) (s : State) : Host.Outcome State Fault Refusal :=
  runDecode (raise .unsupported) (s.latch ⟨5#3 ++ f, blk⟩)

/-- `UNSUPPORTED.FMT12_15` (R414). -/
def execUnsupportedFmt12_15 (f : BitVec 2) (blk : Block) (s : State) : Host.Outcome State Fault Refusal :=
  runDecode (raise .unsupported) (s.latch ⟨3#2 ++ f, blk⟩)

/-- `RDBITS(n)` (R200) on the latched block, at the cursor. -/
def execRdbits (n : Nat) (s : State) : Host.Outcome State Fault Refusal := runMicro (rdBits n) s

/-- `RDBIT()` (R201) on the latched block, at the cursor. -/
def execRdbit (s : State) : Host.Outcome State Fault Refusal := runMicro rdBit s

end Sys2Proof.Machine
end

