-- ==== Sys2Proof/Machine/Dispatch.lean ====
section
/-!
DEFINITION. The meaning of every instruction, by name.
-/

namespace Sys2Proof.Machine

/-- One arm per row of spec/opcode_table.json. -/
def exec (i : Instr) (s : State) : Host.Outcome State Fault Refusal :=
  match i with
  | .decBC1 col hi => Sys2Proof.Machine.execDecBC1 col hi s
  | .decBC2 a4 col => Sys2Proof.Machine.execDecBC2 a4 col s
  | .decBC3 al col => Sys2Proof.Machine.execDecBC3 al col s
  | .decBC4U gr hi => Sys2Proof.Machine.execDecBC4U gr hi s
  | .decBC4S gr hi => Sys2Proof.Machine.execDecBC4S gr hi s
  | .decBC5U g0 g1 => Sys2Proof.Machine.execDecBC5U g0 g1 s
  | .decBC5S g0 g1 => Sys2Proof.Machine.execDecBC5S g0 g1 s
  | .decBC6HU blk => Sys2Proof.Machine.execDecBC6HU blk s
  | .decBC6HS blk => Sys2Proof.Machine.execDecBC6HS blk s
  | .decBC7 blk => Sys2Proof.Machine.execDecBC7 blk s
  | .unsupportedFmt10_11 f blk => Sys2Proof.Machine.execUnsupportedFmt10_11 f blk s
  | .unsupportedFmt12_15 f blk => Sys2Proof.Machine.execUnsupportedFmt12_15 f blk s
  | .bc6hMode0 p f => Sys2Proof.Machine.execBc6hMode0 p f s
  | .bc6hMode1 p f => Sys2Proof.Machine.execBc6hMode1 p f s
  | .bc6hMode2 p f => Sys2Proof.Machine.execBc6hMode2 p f s
  | .bc6hMode3 p f => Sys2Proof.Machine.execBc6hMode3 p f s
  | .bc6hMode4 p f => Sys2Proof.Machine.execBc6hMode4 p f s
  | .bc6hMode5 p f => Sys2Proof.Machine.execBc6hMode5 p f s
  | .bc6hMode6 p f => Sys2Proof.Machine.execBc6hMode6 p f s
  | .bc6hMode7 p f => Sys2Proof.Machine.execBc6hMode7 p f s
  | .bc6hMode8 p f => Sys2Proof.Machine.execBc6hMode8 p f s
  | .bc6hMode9 p f => Sys2Proof.Machine.execBc6hMode9 p f s
  | .bc6hMode10 p f => Sys2Proof.Machine.execBc6hMode10 p f s
  | .bc6hMode11 p f => Sys2Proof.Machine.execBc6hMode11 p f s
  | .bc6hMode12 p f => Sys2Proof.Machine.execBc6hMode12 p f s
  | .bc6hMode13 p f => Sys2Proof.Machine.execBc6hMode13 p f s
  | .bc6hReserved p k rest => Sys2Proof.Machine.execBc6hReserved p k rest s
  | .bc7Mode0 f => Sys2Proof.Machine.execBc7Mode0 f s
  | .bc7Mode1 f => Sys2Proof.Machine.execBc7Mode1 f s
  | .bc7Mode2 f => Sys2Proof.Machine.execBc7Mode2 f s
  | .bc7Mode3 f => Sys2Proof.Machine.execBc7Mode3 f s
  | .bc7Mode4 f => Sys2Proof.Machine.execBc7Mode4 f s
  | .bc7Mode5 f => Sys2Proof.Machine.execBc7Mode5 f s
  | .bc7Mode6 f => Sys2Proof.Machine.execBc7Mode6 f s
  | .bc7Mode7 f => Sys2Proof.Machine.execBc7Mode7 f s
  | .bc7Mode8 rest => Sys2Proof.Machine.execBc7Mode8 rest s
  | .rdbits n => Sys2Proof.Machine.execRdbits n s
  | .rdbit => Sys2Proof.Machine.execRdbit s

end Sys2Proof.Machine
end

