-- ==== Sys2Proof/Machine/Geometry.lean ====
section
/-!
DEFINITION. The host's arithmetic: the per-format descriptor (R33), the dispatcher's map (R382, R383), block counts and
level descriptors (R386, R387), and the place of a texel in the output buffer (R79, R389).
-/

namespace Sys2Proof.Machine

/-! ### The format descriptor -/

/-- The per-format descriptor (R33). -/
structure FmtDesc where
  blockByteLength : Nat
  pixelDepthBytes : Nat
  channels : List Channel
  layout : LayoutTag
  deriving DecidableEq, Repr

/-- The descriptor of each format (R33). -/
def fmtDesc : Fmt → FmtDesc
  | .bc1 => ⟨8, 3, [.R, .G, .B], .rgb24⟩
  | .bc2 => ⟨16, 4, [.R, .G, .B, .A], .rgba32⟩
  | .bc3 => ⟨16, 4, [.R, .G, .B, .A], .rgba32⟩
  | .bc4u => ⟨8, 1, [.R], .single8⟩
  | .bc4s => ⟨8, 1, [.R], .single8⟩
  | .bc5u => ⟨16, 3, [.R, .G, .B], .rgb24⟩
  | .bc5s => ⟨16, 3, [.R, .G, .B], .rgb24⟩
  | .bc6hu => ⟨16, 4, [.R, .G, .B, .A], .rgba32⟩
  | .bc6hs => ⟨16, 4, [.R, .G, .B, .A], .rgba32⟩
  | .bc7 => ⟨16, 4, [.R, .G, .B, .A], .rgba32⟩

/-- A channel of a texel (R32). -/
def Texel.channel (t : Texel) : Channel → Option Byte
  | .R => t.r
  | .G => t.g
  | .B => t.b
  | .A => t.a

/-! ### The dispatcher -/

/-- A FourCC from its four characters in stream order (R382). -/
def fourCC (a b c d : Char) : BitVec 32 :=
  BitVec.ofNat 8 d.toNat ++ BitVec.ofNat 8 c.toNat ++ BitVec.ofNat 8 b.toNat ++ BitVec.ofNat 8 a.toNat

/-- The FourCC rows of R382. `DXT2` and `DXT4` are rejected with every other code (R383). -/
def dispatchFourCC (c : BitVec 32) : Option Fmt :=
  if c = fourCC 'D' 'X' 'T' '1' then some .bc1
  else if c = fourCC 'D' 'X' 'T' '3' then some .bc2
  else if c = fourCC 'D' 'X' 'T' '5' then some .bc3
  else if c = fourCC 'A' 'T' 'I' '1' then some .bc4u
  else if c = fourCC 'B' 'C' '4' 'U' then some .bc4u
  else if c = fourCC 'B' 'C' '4' 'S' then some .bc4s
  else if c = fourCC 'A' 'T' 'I' '2' then some .bc5u
  else if c = fourCC 'B' 'C' '5' 'U' then some .bc5u
  else if c = fourCC 'B' 'C' '5' 'S' then some .bc5s
  else none

/-- The DXGI rows of R382, with the numbers that rule gives. -/
def dispatchDxgi (n : BitVec 32) : Option Fmt :=
  match n.toNat with
  | 70 | 71 | 72 => some .bc1
  | 73 | 74 | 75 => some .bc2
  | 76 | 77 | 78 => some .bc3
  | 79 | 80 => some .bc4u
  | 81 => some .bc4s
  | 82 | 83 => some .bc5u
  | 84 => some .bc5s
  | 94 | 95 => some .bc6hu
  | 96 => some .bc6hs
  | 97 | 98 | 99 => some .bc7
  | _ => none

/-- The dispatcher (R382); `none` is a rejected or unknown code (R383). -/
def dispatch : FormatCode → Option Fmt
  | .fourCC c => dispatchFourCC c
  | .dxgi n => dispatchDxgi n

/-! ### Levels -/

/-- `CalcBlocks(n) = (n + 3) >> 2` (R386). -/
def calcBlocks (n : Nat) : Nat := (n + 3) >>> 2

/-- The number of blocks of a level (R386). -/
def LevelDesc.blockCount (l : LevelDesc) : Nat := l.blocksPerRow * l.blocksPerCol

/-- The descriptor of a level of the given size, at a place in the output buffer (R386, R387). -/
def levelDesc (f : Fmt) (width height offset : Nat) : LevelDesc where
  width := width
  height := height
  blocksPerRow := calcBlocks width
  blocksPerCol := calcBlocks height
  strideBytes := calcBlocks width * 4 * (fmtDesc f).pixelDepthBytes
  dataOffset := offset
  dataLength := calcBlocks width * 4 * (fmtDesc f).pixelDepthBytes * calcBlocks height * 4

/-- `n` levels from level `k` on, stored one after the other (R387). A level's size is halved with a floor of 1. -/
def levelsFrom (f : Fmt) (width height : Nat) : Nat → Nat → Nat → List LevelDesc
  | 0, _, _ => []
  | n + 1, k, offset =>
    let l := levelDesc f (max 1 (width >>> k)) (max 1 (height >>> k)) offset
    l :: levelsFrom f width height n (k + 1) (offset + l.dataLength)

/-- The number of levels: the base, and the further ones that `mip_count` gives (R387). Whether `mip_count` counts the
base is a free value (log entry 6); the base is there in either reading. -/
def levelCount (mipCount : Nat) : Nat :=
  if Config.mipCountIncludesBase then max 1 mipCount else mipCount + 1

/-- The level descriptors of an image, "computed once per image" (R387). -/
def imageLevels (f : Fmt) (r : ImageRequest) : List LevelDesc :=
  levelsFrom f r.width.toNat r.height.toNat (levelCount r.mipCount.toNat) 0 0

/-- The output buffer's size, "the sum of all mip byte lengths" (R388). -/
def bufferSize (ls : List LevelDesc) : Nat := (ls.map (·.dataLength)).sum

/-! ### Storing a tile -/

/-- The pixel of texel `i` of block `k` of a level (R385, R389). -/
def texelPixel (l : LevelDesc) (k : Nat) (i : Fin 16) : Nat × Nat :=
  (4 * (k % l.blocksPerRow) + i.val % 4, 4 * (k / l.blocksPerRow) + i.val / 4)

/-- The address of the first byte of that pixel (R389). -/
def texelAddr (l : LevelDesc) (depth k : Nat) (i : Fin 16) : Nat :=
  l.dataOffset + (texelPixel l k i).2 * l.strideBytes + (texelPixel l k i).1 * depth

/-- The channels of a format in the host's byte order (R79, D5). -/
def orderedChannels (order : List Channel) (f : Fmt) : List Channel :=
  order.filter fun c => (fmtDesc f).channels.contains c

/-- The bytes of one texel, with their addresses. -/
def texelBytes (order : List Channel) (f : Fmt) (l : LevelDesc) (k : Nat) (t : Tile) (i : Fin 16) :
    List (Nat × Option Byte) :=
  (orderedChannels order f).zipIdx.map fun cj =>
    (texelAddr l (fmtDesc f).pixelDepthBytes k i + cj.2, (t.get i).channel cj.1)

/-- The bytes of a tile, texels in order (R389). -/
def tileBytes (order : List Channel) (f : Fmt) (l : LevelDesc) (k : Nat) (t : Tile) : List (Nat × Option Byte) :=
  texels.flatMap fun i => texelBytes order f l k t i

/-- Store bytes into the buffer. A channel without a value may not be read (R381, R457), and an address outside the
buffer does not exist (R388). -/
def storeBytes : List (Nat × Option Byte) → Memory → Except Fault Memory
  | [], m => .ok m
  | (_, none) :: _, _ => .error .noValue
  | (a, some b) :: rest, m =>
    match m.write a b with
    | none => .error .outsideBuffer
    | some m' => storeBytes rest m'

/-- Store a tile into the sub-rectangle that its block owns (R389). -/
def storeTile (order : List Channel) (f : Fmt) (l : LevelDesc) (k : Nat) (t : Tile) (m : Memory) :
    Except Fault Memory :=
  storeBytes (tileBytes order f l k t) m

end Sys2Proof.Machine
end

