-- ==== Sys2Proof/Machine/HostAgent.lean ====
section
/-!
DEFINITION. The host as the second agent: its moves at the ports (R380, R381), one per step, as log entry 7 schedules
them, and the submission of an image from outside (R392, R452).
-/

namespace Sys2Proof.Machine

/-- An image is handed to the host (R392): what its header gives (`none` when the stream ends inside the header, R391)
and its compressed payload. An image-decode call begins; whatever an earlier call left is dropped. -/
def State.submit (s : State) (request : Option ImageRequest) (stream : List Byte) : State :=
  s.setHost { HostRec.none with phase := .submitted, request := request, stream := stream }

/-- The structural checks (R391, R452) and the dispatcher (R382): the format, or the hard failure. -/
def checkRequest : Option ImageRequest → Except StructuralError (Fmt × ImageRequest)
  | none => .error .truncatedHeader
  | some r =>
    match dispatch r.code with
    | none => .error (.unsupportedFormat r.code)
    | some f => if r.width = 0 ∨ r.height = 0 then .error .nonPositiveSize else .ok (f, r)

/-- Give up the input buffers and the output buffer of the image-decode call (R394). -/
def releaseBuffers (h : HostRec) : HostRec := { h with stream := [], window := [], buffer := ⟨0, []⟩ }

/-- The image-decode call fails (R391): there is no output, and its buffers are released (R394). -/
def failImage (e : StructuralError) (h : HostRec) : HostRec :=
  { releaseBuffers h with phase := .failed e, output := none }

/-- The image-decode call returns (R390): its output is handed to the caller (R392), and its buffers are released (R394). -/
def finishImage (h : HostRec) : HostRec :=
  { releaseBuffers h with
    phase := .finished
    output := (fmtOfCode h.fmt).map fun f => ⟨(fmtDesc f).layout, h.levels, h.buffer⟩ }

/-- Steps (2) to (5) of R452: checks, dispatch, level descriptors, buffer allocation (R387, R388). -/
def openImage (h : HostRec) : HostRec :=
  match checkRequest h.request with
  | .error e => failImage e h
  | .ok (f, r) =>
    { h with
      phase := .ready
      fmt := fmtCode f
      levels := imageLevels f r
      level := 0
      index := 0
      window := []
      buffer := ⟨bufferSize (imageLevels f r), []⟩ }

/-- Refill the window when it holds no whole block: up to one row of blocks from the stream (R388). That the window holds no
more than one row, where R388 says "at least", is the model's choice (log entry 7). -/
def refill (blockBytes rowBytes : Nat) (h : HostRec) : HostRec :=
  if h.window.length < blockBytes then
    { h with
      window := h.window ++ h.stream.take (rowBytes - h.window.length)
      stream := h.stream.drop (rowBytes - h.window.length) }
  else h

/-- Present the next block and give `START` (R381, R384). A partial block is never started (R390, R458). R381 has `DONE` go to 0
at `START`, and R456 gives the outputs no value from then on: in the model that is the step that samples `START`, and in the
state between, `DONE`, `TILE` and `STATUS` still hold what the previous decode gave (DESIGN CHOICE, log entry 7). -/
def present (s : State) (f : Fmt) (l : LevelDesc) : State :=
  let n := fmtBlockBytes f
  let h := refill n (l.blocksPerRow * n) s.host
  if h.window.length < n then s.setHost (finishImage h)
  else
    (s.setHost { h with phase := .waiting, window := h.window.drop n }).setPort
      { s.port with fmt := h.fmt, blk := blockOfBytes (h.window.take n), start := true }

/-- Move to the next block, and to the next level when this one is filled (R385). -/
def advance (l : LevelDesc) (h : HostRec) : HostRec :=
  if h.index + 1 < l.blockCount then { h with index := h.index + 1 }
  else { h with index := 0, level := h.level + 1 }

/-- Collect a completed decode (R381): store the tile whatever `STATUS` says (R393), but for `UNSUPPORTED`, where there
is no tile; record the pair (R460); move on. -/
def collect (s : State) (f : Fmt) (l : LevelDesc) : Host.Outcome State Fault Refusal :=
  let done (m : Memory) : State :=
    s.setHost
      (advance l { s.host with phase := .ready, buffer := m, delivered := s.host.delivered ++ [(s.tile, s.status)] })
  if s.status = .unsupported then .next (done s.host.buffer)
  else
    match storeTile s.cfg.byteOrder f l s.host.index s.tile s.host.buffer with
    | .ok m => .next (done m)
    | .error e => .fault e

/-- The host's move when no level is left, or when it holds no format: its work on the image is over (R390). -/
def closeImage (s : State) : State := s.setHost (finishImage s.host)

/-- The host has the turn in phase `ready`. -/
def hostReady (s : State) : State :=
  match fmtOfCode s.host.fmt, s.host.levels[s.host.level]? with
  | some f, some l => present s f l
  | _, _ => closeImage s

/-- The host has the turn in phase `waiting`: nothing but `DONE` ends the wait (R381). -/
def hostWaiting (s : State) : Host.Outcome State Fault Refusal :=
  if s.done then
    match fmtOfCode s.host.fmt, s.host.levels[s.host.level]? with
    | some f, some l => collect s f l
    | _, _ => .next (closeImage s)
  else .next s

/-- One move of the host. Before an image is submitted, and after its work on one, nothing happens (R451). -/
def hostStep (s : State) : Host.Outcome State Fault Refusal :=
  match s.host.phase with
  | .idle => .next s
  | .submitted => .next (s.setHost (openImage s.host))
  | .ready => .next (hostReady s)
  | .waiting => hostWaiting s
  | .finished => .next s
  | .failed _ => .next s

end Sys2Proof.Machine
end

