-- ==== Sys2Proof/Machine/Step.lean ====
section
/-!
DEFINITION. One step of the machine, and how the host places a word where the next step takes it.
-/

namespace Sys2Proof.Machine

/-- The word on the input ports: what a `START` samples (R31). -/
def portWord (s : State) : Word := ⟨s.port.fmt, s.port.blk⟩

/-- One step (log entry 7). A reset request is served first (R450). Else a `START` is consumed and the decoder runs the
operation on the ports, as one atomic step (R459); until that step the outputs hold what the previous decode gave (log entry 7). Else the host has the turn. -/
def step (s : State) : Host.Outcome State Fault Refusal :=
  if s.port.rst then .next s.resetBlock
  else if s.port.start then exec (decode (portWord s)) (s.setPort { s.port with start := false })
  else hostStep s

/-- The word on the ports with `START` given, so that the next step runs exactly it. -/
def State.withFetchWord (s : State) (_nbits w : Nat) : State :=
  s.setPort ⟨(tableWord w).fmt, (tableWord w).blk, true, false⟩

end Sys2Proof.Machine
end

