-- ==== Sys2Proof/Safety.lean ====
section
/-!
DEFINITION. What counts as a safe run, in the terms that statements use: which outcomes are safe, which channels a tile
carries, which status a format can deliver (R422), the frame of a decode, and the invariant of the machine.
-/

namespace Sys2Proof.Machine

/-- The outcome is a next state with a property. -/
def RunsTo (o : Host.Outcome State Fault Refusal) (P : State → Prop) : Prop := ∃ t, o = .next t ∧ P t

/-- A step is safe when it neither faults nor is refused. -/
def Safe (o : Host.Outcome State Fault Refusal) : Prop := RunsTo o fun _ => True

/-- A tile holds a value in exactly the channels of a format, in every texel (R32, R33, R457). -/
def CarriesChannels (f : Fmt) (t : Tile) : Prop :=
  ∀ i : Fin 16, ∀ c : Channel, ((t.get i).channel c).isSome = (fmtDesc f).channels.contains c

/-- The status values that a format select can deliver with the default ROM (R422). -/
def deliverable (f : FmtCode) : List Status :=
  match fmtOfCode f with
  | some .bc6hu => [.ok, .bc6hReserved]
  | some .bc6hs => [.ok, .bc6hReserved]
  | some .bc7 => [.ok, .bc7Reserved]
  | some _ => [.ok]
  | none => [.unsupported]

/-- What a decode of the word `w` leaves as it was, and what it latches: configuration, ports, the model's read result and
the host's record are unchanged, every byte of the host's buffer with them; the latches hold the word (R31). -/
def DecodeFrame (w : Word) (s t : State) : Prop :=
  t.cfg = s.cfg ∧ t.port = s.port ∧ t.rd = s.rd ∧ t.host = s.host ∧
    (∀ a, t.host.buffer.read a = s.host.buffer.read a) ∧ t.fmt = w.fmt ∧ t.blk = w.blk ∧ t.done = true

/-- What holds of the outputs (R37, R84, R86, R456, R457): before a completion the tile has no value; at `DONE` a refused
format has no tile, and any other has exactly its channels, with a status that says so. -/
def OutputInv (s : State) : Prop :=
  (s.done = false → s.tile = Tile.noValue) ∧
  (s.done = true →
    match fmtOfCode s.fmt with
    | none => s.tile = Tile.noValue ∧ s.status = .unsupported
    | some f => CarriesChannels f s.tile ∧ s.status ≠ .unsupported ∧ s.status ≠ .idle)

/-- A level of the host's plan lies inside the buffer and has the shape that R386 gives it. -/
def LevelInv (f : Fmt) (size : Nat) (l : LevelDesc) : Prop :=
  l.strideBytes = l.blocksPerRow * 4 * (fmtDesc f).pixelDepthBytes ∧
  l.dataLength = l.strideBytes * l.blocksPerCol * 4 ∧ l.dataOffset + l.dataLength ≤ size

/-- What holds of the host's record and of the word it has on the ports (R384 to R394): the memory of the call in progress
and of the output handed out keep their canonical form, no buffer is held after the call (R394), and while the call runs
its plan lies inside the buffer. -/
def HostInv (s : State) : Prop :=
  s.host.buffer.wf ∧
  (∀ o, s.host.output = some o → o.buffer.wf) ∧
  (∀ e, s.host.phase = .finished ∨ s.host.phase = .failed e →
    s.host.stream = [] ∧ s.host.window = [] ∧ s.host.buffer = ⟨0, []⟩) ∧
  (s.host.phase = .ready ∨ s.host.phase = .waiting →
    ∃ f, fmtOfCode s.host.fmt = some f ∧
      (∀ l ∈ s.host.levels, LevelInv f s.host.buffer.size l ∧ 0 < l.blockCount) ∧
      (∀ l, s.host.levels[s.host.level]? = some l → s.host.index < l.blockCount)) ∧
  (s.host.phase = .waiting →
    (s.port.start = true → s.port.fmt = s.host.fmt) ∧
    (s.port.start = false → s.done = true → s.fmt = s.host.fmt))

/-- The configuration is one the machine may be built with (93 U20): an admissible ROM, and a byte order that names each
channel once. -/
def ConfigInv (c : Config) : Prop := romAdmissible c.rom = true ∧ c.byteOrder.Perm [.R, .G, .B, .A]

/-- The cursor is inside the block (R34, R203). -/
def CursorInv (s : State) : Prop := s.pos.toNat ≤ lenBits s.fmt

/-- The machine's invariant. -/
def Inv (s : State) : Prop := ConfigInv s.cfg ∧ CursorInv s ∧ OutputInv s ∧ HostInv s

end Sys2Proof.Machine
end

