-- ==== Sys2Proof/Reference.lean ====
section
/-!
DEFINITION. What a block decodes to, said on the fields of its layout and not on the cursor and the working registers:
each operand stands at the place that the encoding rules give it (R133 to R137, R141, R144 to R147), and each texel is
one formula of its fields (R223, R261 to R265, R297 to R309, R344 to R355). Statements compare the machine's step by step
decode with it. Nothing in the machine uses this file.
-/

namespace Sys2Proof.Reference

open Sys2Proof.Machine

/-- The `w` bits of a field from bit `pos` of the field on (R71). -/
def bitsOf {n : Nat} (v : BitVec n) (pos w : Nat) : Nat := v.toNat / 2 ^ pos % 2 ^ w

/-- The anchors of a shape in the default ROM (R104). -/
def anchorsOf (pc shape : Nat) : List Nat := (romAnchors romDefault pc shape).getD []

/-- The region of a texel in the default ROM (R101 to R103). -/
def regionOf (pc shape i : Nat) : Nat := (romRegion romDefault pc shape i).getD 0

/-- A weight of the default ROM (R105). -/
def weightOf (p ix : Nat) : Nat := (romWeight romDefault p ix).getD 0

/-- The index of texel `i` in an index field: it starts after `ip` bits for each earlier texel, less one for each earlier
anchor, and an anchor has one bit fewer (R141, R146). -/
def indexOf {n : Nat} (v : BitVec n) (ip : Nat) (anchors : List Nat) (i : Nat) : Nat :=
  bitsOf v (ip * i - anchors.countP (· < i)) (if i ∈ anchors then ip - 1 else ip)

/-- `(a·(64 - w) + b·w + 32) >> 6` (R304, R353). -/
def mix (a b w : Int) : Int := (a * (64 - w) + b * w + 32).fdiv 64

/-! ### BC1 to BC5 -/

/-- A channel of a blend, `rdiv(x·a + y·b, den)` (R223). -/
def blendOf (c : Config) (x y den : Int) (a b : Byte) : Byte :=
  BitVec.ofInt 8 (rdiv c.roundMode (x * a.toNat + y * b.toNat) den)

/-- The colour of index `k` of a colour block (R223): the two expanded endpoints, then two thirds in the four-colour
branch, or the half and black in the other. The branch is forced, or taken on the raw values. -/
def colorOf (c : Config) (four : Bool) (f : ColorFields) (k : Nat) : Rgb :=
  let p := rgb565 c.exp6Shift f.c0
  let q := rgb565 c.exp6Shift f.c1
  if k = 0 then p
  else if k = 1 then q
  else if four = true ∨ f.c1.toNat < f.c0.toNat then
    if k = 2 then ⟨blendOf c 2 1 3 p.r q.r, blendOf c 2 1 3 p.g q.g, blendOf c 2 1 3 p.b q.b⟩
    else ⟨blendOf c 1 2 3 p.r q.r, blendOf c 1 2 3 p.g q.g, blendOf c 1 2 3 p.b q.b⟩
  else if k = 2 then ⟨blendOf c 1 1 2 p.r q.r, blendOf c 1 1 2 p.g q.g, blendOf c 1 1 2 p.b q.b⟩
  else ⟨0, 0, 0⟩

/-- Entry `k` of a gradient (R261, R263): the endpoints, then `((8-k)·e0 + (k-1)·e1)/7` when `e0 > e1`, else
`((6-k)·e0 + (k-1)·e1)/5` up to index 5 and the two terminators. -/
def rampOf (c : Config) (lo hi e0 e1 : Int) (k : Nat) : Int :=
  if k = 0 then e0
  else if k = 1 then e1
  else if e1 < e0 then rdiv c.roundMode ((8 - k) * e0 + (k - 1) * e1) 7
  else if k < 6 then rdiv c.roundMode ((6 - k) * e0 + (k - 1) * e1) 5
  else if k = 6 then lo
  else hi

/-- Texel `i` of an unsigned gradient block (R265). -/
def unsignedOf (c : Config) (f : GradFields) (i : Fin 16) : Byte :=
  BitVec.ofInt 8 (rampOf c 0 255 f.e0.toNat f.e1.toNat (bitsOf f.gsel (3 * i.val) 3))

/-- A signed endpoint (R262). -/
def signedEnd (b : Byte) : Int := if b = 0x80#8 then -127 else b.toInt

/-- Texel `i` of a signed gradient block (R265), remapped by the closed form of R264. -/
def signedGradOf (c : Config) (f : GradFields) (i : Fin 16) : Byte :=
  let v := rampOf c (-127) 127 (signedEnd f.e0) (signedEnd f.e1) (bitsOf f.gsel (3 * i.val) 3)
  BitVec.ofInt 8 (v + 127 + if 0 ≤ v then 1 else 0)

/-- A texel of a colour and an alpha value. -/
def texelOf (x : Rgb) (a : Option Byte) : Texel := ⟨some x.r, some x.g, some x.b, a⟩

/-- Texel `i` of a colour block. -/
def colorAt (c : Config) (four : Bool) (f : ColorFields) (i : Fin 16) : Rgb :=
  colorOf c four f (bitsOf f.sel (2 * i.val) 2)

/-! ### BC7 -/

/-- The channel field of a layout. -/
def channelBits {sb rb ib ch al np i1 i2 : Nat} (f : Bc7Fields sb rb ib ch al np i1 i2) (c : Channel) (pos w : Nat) :
    Nat :=
  match c with
  | .R => bitsOf f.r pos w
  | .G => bitsOf f.g pos w
  | .B => bitsOf f.b pos w
  | .A => bitsOf f.a pos w

/-- Endpoint `e` of a channel as 8 bits (R145, R147): the stored bits, with a P bit below them when the mode has one for
this channel, replicated to 8 bits; an absent channel is 255. -/
def endpointOf7 {sb rb ib ch al np i1 i2 : Nat} (m : Bc7Mode) (f : Bc7Fields sb rb ib ch al np i1 i2) (e : Nat)
    (c : Channel) : Nat :=
  let p := prec7 m.prec c
  let q := prec7 m.precp c
  if p = 0 then 255
  else
    let stored := channelBits f c (p * e) p
    let v := if q = p then stored else 2 * stored + bitsOf f.p (e * m.npb / (2 * (m.pc + 1))) 1
    v * 2 ^ (8 - q) + v * 2 ^ (8 - q) / 2 ^ q

/-- One channel of a texel between the two endpoints of its region (R351, R353). -/
def channelOf7 {sb rb ib ch al np i1 i2 : Nat} (m : Bc7Mode) (f : Bc7Fields sb rb ib ch al np i1 i2) (r w : Nat)
    (c : Channel) : Byte :=
  BitVec.ofInt 8 (mix (endpointOf7 m f (2 * r) c) (endpointOf7 m f (2 * r + 1) c) w)

/-- Texel `i` of a BC7 block of mode record `m`: region, index tracks, interpolation, rotation (R351 to R354). -/
def texelOf7 {sb rb ib ch al np i1 i2 : Nat} (m : Bc7Mode) (f : Bc7Fields sb rb ib ch al np i1 i2) (i : Fin 16) : Rgba :=
  let shape := f.shape.toNat
  let r := regionOf m.pc shape i.val
  let one := weightOf m.ip1 (indexOf f.idx1 m.ip1 (anchorsOf m.pc shape) i.val)
  let two := weightOf m.ip2 (indexOf f.idx2 m.ip2 [0] i.val)
  let color := if m.ip2 = 0 ∨ f.isel.toNat = 0 then one else two
  let alpha := if m.ip2 = 0 ∨ f.isel.toNat = 1 then one else two
  let red := channelOf7 m f r color .R
  let green := channelOf7 m f r color .G
  let blue := channelOf7 m f r color .B
  let a := channelOf7 m f r alpha .A
  if f.rot.toNat = 1 then ⟨a, green, blue, red⟩
  else if f.rot.toNat = 2 then ⟨red, a, blue, green⟩
  else if f.rot.toNat = 3 then ⟨red, green, a, blue⟩
  else ⟨red, green, blue, a⟩

/-- The tile of a BC7 block (R355). -/
def tileOf7 {sb rb ib ch al np i1 i2 : Nat} (k : Nat) (f : Bc7Fields sb rb ib ch al np i1 i2) : Tile :=
  match romBc7mode[k]? with
  | none => Tile.noValue
  | some m => Vector.ofFn fun i =>
    ⟨some (texelOf7 m f i).r, some (texelOf7 m f i).g, some (texelOf7 m f i).b, some (texelOf7 m f i).a⟩

/-! ### BC6H -/

/-- A number of `p` bits read as two's complement (R17). -/
def signedOf (p : Nat) (v : Int) : Int := (BitVec.ofInt p v).toInt

/-- An endpoint channel after sign extension and inverse transform (R298, R299), from the raw accumulators. -/
def endpointOf6 (m : Bc6Mode) (signed : Bool) (raw : Letter → Rgb3 → Nat) (l : Letter) (c : Rgb3) : Int :=
  let bp := prec6 m .W c
  let base : Int := if signed then signedOf bp (raw .W c) else raw .W c
  match l with
  | .W => base
  | _ =>
    let d : Int := if signed || m.tr then signedOf (prec6 m l c) (raw l c) else raw l c
    if m.tr then
      if signed then signedOf bp (base + d) else (base + d).emod (2 ^ bp)
    else d

/-- One colour channel of a texel as a byte (R303 to R308). -/
def channelOf6 (m : Bc6Mode) (signed : Bool) (raw : Letter → Rgb3 → Nat) (first second : Letter) (w : Nat) (c : Rgb3) :
    Byte :=
  let p := prec6 m .W c
  h2b (halfBits signed (finish6 signed
    (mix (unq6 signed (endpointOf6 m signed raw first c) p) (unq6 signed (endpointOf6 m signed raw second c) p) w)))

/-- Texel `i` of a BC6H block: region by the shape table, weight by the index (R300 to R309). -/
def texelOf6 {n : Nat} (m : Bc6Mode) (signed : Bool) (raw : Letter → Rgb3 → Nat) (shape : Nat) (idx : BitVec n)
    (i : Fin 16) : Texel :=
  let w := weightOf (if m.pc = 1 then 3 else 4) (indexOf idx m.ip (anchorsOf m.pc shape) i.val)
  let first := if regionOf m.pc shape i.val = 0 then Letter.W else .Y
  let second := if regionOf m.pc shape i.val = 0 then Letter.X else .Z
  ⟨some (channelOf6 m signed raw first second w .R), some (channelOf6 m signed raw first second w .G),
    some (channelOf6 m signed raw first second w .B), some 255⟩

/-- The accumulators of a two-region block (R142). -/
def rawTwo {w r g b : Nat} (f : Bc6Two w r g b) : Letter → Rgb3 → Nat
  | .W, .R => f.rW.toNat
  | .W, .G => f.gW.toNat
  | .W, .B => f.bW.toNat
  | .X, .R => f.rX.toNat
  | .X, .G => f.gX.toNat
  | .X, .B => f.bX.toNat
  | .Y, .R => f.rY.toNat
  | .Y, .G => f.gY.toNat
  | .Y, .B => f.bY.toNat
  | .Z, .R => f.rZ.toNat
  | .Z, .G => f.gZ.toNat
  | .Z, .B => f.bZ.toNat

/-- The accumulators of a one-region block (R142); `Y` and `Z` stay 0 (R294). -/
def rawOne {w x : Nat} (f : Bc6One w x) : Letter → Rgb3 → Nat
  | .W, .R => f.rW.toNat
  | .W, .G => f.gW.toNat
  | .W, .B => f.bW.toNat
  | .X, .R => f.rX.toNat
  | .X, .G => f.gX.toNat
  | .X, .B => f.bX.toNat
  | .Y, _ => 0
  | .Z, _ => 0

/-- The tile of a two-region BC6H block of mode index `mi`. -/
def tileTwoOf6 {w r g b : Nat} (mi : Nat) (p : Profile) (f : Bc6Two w r g b) : Tile :=
  match romBc6mode[mi]? with
  | none => Tile.noValue
  | some m => Vector.ofFn fun i => texelOf6 m (isSigned p) (rawTwo f) f.d.toNat f.idx i

/-- The tile of a one-region BC6H block of mode index `mi`. -/
def tileOneOf6 {w x : Nat} (mi : Nat) (p : Profile) (f : Bc6One w x) : Tile :=
  match romBc6mode[mi]? with
  | none => Tile.noValue
  | some m => Vector.ofFn fun i => texelOf6 m (isSigned p) (rawOne f) 0 f.idx i

end Sys2Proof.Reference
end

