-- ==== Sys2Proof/Certificates/Slice0/Obligations.lean ====
section
/-!
DEFINITION. The statements for the provers. Each docstring names the rule of spec/ it formalises, or says that it states a
choice of the model and names the log entry.
-/

open Sys2Proof Sys2Proof.Machine Sys2Proof.Reference

/-! ### Encoding -/

/-- Words written out from the layouts decode to the operation and the fields they stand for (V-S1 and R133; R136; R143,
R145; R140; R149). -/
def Obligations.SpecWordsDecode : Prop :=
  decode ⟨0#4, blockOfBytes [0x00, 0xF8, 0xE0, 0x07, 0xE4, 0xE4, 0x1B, 0xFF]⟩ =
    .decBC1 ⟨0xF800#16, 0x07E0#16, 0xFF1BE4E4#32⟩ 0#64 ∧
  decode ⟨4#4, blockOfBytes [0x40, 0xC0, 0x88, 0xC6, 0xFA, 0x88, 0xC6, 0xFA]⟩ =
    .decBC4S ⟨0x40#8, 0xC0#8, 0xFAC688FAC688#48⟩ 0#64 ∧
  decode ⟨13#4, 0#128⟩ = .unsupportedFmt12_15 1#2 0#128 ∧
  decodeForm ⟨7#4, blockOfBytes [0x03, 0x00, 0x00, 0x00, 0x78, 0x0F, 0x1F, 0x3E, 0xF0, 0x21, 0x43, 0x65, 0x87, 0xA9,
      0xCB, 0xED]⟩ =
    .bc6hMode10 .unsigned ⟨0#10, 0#10, 0#10, 495#10, 248#10, 124#10, 0x76E5D4C3B2A190F8#63⟩ ∧
  decodeForm ⟨9#4, 0x80#128⟩ = .bc7Mode7 ⟨0#6, 0#0, 0#0, 0#20, 0#20, 0#20, 0#20, 0#4, 0#30, 0#0⟩

/-- The first level of the encoding: for every operation that `FMT` selects, with every operand value, decoding the word
that encodes it gives it back (R130, R133 to R137, R149). -/
def Obligations.FirstLevelRoundTrip : Prop :=
  (∀ col hi w, encode (.decBC1 col hi) = some w → decode w = .decBC1 col hi) ∧
  (∀ a4 col w, encode (.decBC2 a4 col) = some w → decode w = .decBC2 a4 col) ∧
  (∀ al col w, encode (.decBC3 al col) = some w → decode w = .decBC3 al col) ∧
  (∀ g hi w, encode (.decBC4U g hi) = some w → decode w = .decBC4U g hi) ∧
  (∀ g hi w, encode (.decBC4S g hi) = some w → decode w = .decBC4S g hi) ∧
  (∀ g h w, encode (.decBC5U g h) = some w → decode w = .decBC5U g h) ∧
  (∀ g h w, encode (.decBC5S g h) = some w → decode w = .decBC5S g h) ∧
  (∀ blk w, encode (.decBC6HU blk) = some w → decode w = .decBC6HU blk) ∧
  (∀ blk w, encode (.decBC6HS blk) = some w → decode w = .decBC6HS blk) ∧
  (∀ blk w, encode (.decBC7 blk) = some w → decode w = .decBC7 blk) ∧
  (∀ f blk w, encode (.unsupportedFmt10_11 f blk) = some w → decode w = .unsupportedFmt10_11 f blk) ∧
  (∀ f blk w, encode (.unsupportedFmt12_15 f blk) = some w → decode w = .unsupportedFmt12_15 f blk)

/-- The BC6H forms: for every mode and the reserved form, each profile and every field value, decoding the word that
encodes the form gives it back. No bit of a scattered header is dropped (R140, R142, R181 to R194). -/
def Obligations.Bc6hFormsRoundTrip : Prop :=
  ∀ p : Profile,
  (∀ f, decodeForm ⟨p.fmt, encodeTwo 0x00 layout6Mode0 f⟩ = .bc6hMode0 p f) ∧
  (∀ f, decodeForm ⟨p.fmt, encodeTwo 0x01 layout6Mode1 f⟩ = .bc6hMode1 p f) ∧
  (∀ f, decodeForm ⟨p.fmt, encodeTwo 0x02 layout6Mode2 f⟩ = .bc6hMode2 p f) ∧
  (∀ f, decodeForm ⟨p.fmt, encodeTwo 0x06 layout6Mode3 f⟩ = .bc6hMode3 p f) ∧
  (∀ f, decodeForm ⟨p.fmt, encodeTwo 0x0A layout6Mode4 f⟩ = .bc6hMode4 p f) ∧
  (∀ f, decodeForm ⟨p.fmt, encodeTwo 0x0E layout6Mode5 f⟩ = .bc6hMode5 p f) ∧
  (∀ f, decodeForm ⟨p.fmt, encodeTwo 0x12 layout6Mode6 f⟩ = .bc6hMode6 p f) ∧
  (∀ f, decodeForm ⟨p.fmt, encodeTwo 0x16 layout6Mode7 f⟩ = .bc6hMode7 p f) ∧
  (∀ f, decodeForm ⟨p.fmt, encodeTwo 0x1A layout6Mode8 f⟩ = .bc6hMode8 p f) ∧
  (∀ f, decodeForm ⟨p.fmt, encodeTwo 0x1E layout6Mode9 f⟩ = .bc6hMode9 p f) ∧
  (∀ f, decodeForm ⟨p.fmt, encodeOne 0x03 layout6Mode10 f⟩ = .bc6hMode10 p f) ∧
  (∀ f, decodeForm ⟨p.fmt, encodeOne 0x07 layout6Mode11 f⟩ = .bc6hMode11 p f) ∧
  (∀ f, decodeForm ⟨p.fmt, encodeOne 0x0B layout6Mode12 f⟩ = .bc6hMode12 p f) ∧
  (∀ f, decodeForm ⟨p.fmt, encodeOne 0x0F layout6Mode13 f⟩ = .bc6hMode13 p f) ∧
  (∀ k rest, decodeForm ⟨p.fmt, bc6hReservedBlock k rest⟩ = .bc6hReserved p k rest)

/-- The BC7 forms: for every mode, the reserved one included, and every field value, decoding the word that encodes the
form gives it back (R143, R145). -/
def Obligations.Bc7FormsRoundTrip : Prop :=
  (∀ f w, encode (.bc7Mode0 f) = some w → decodeForm w = .bc7Mode0 f) ∧
  (∀ f w, encode (.bc7Mode1 f) = some w → decodeForm w = .bc7Mode1 f) ∧
  (∀ f w, encode (.bc7Mode2 f) = some w → decodeForm w = .bc7Mode2 f) ∧
  (∀ f w, encode (.bc7Mode3 f) = some w → decodeForm w = .bc7Mode3 f) ∧
  (∀ f w, encode (.bc7Mode4 f) = some w → decodeForm w = .bc7Mode4 f) ∧
  (∀ f w, encode (.bc7Mode5 f) = some w → decodeForm w = .bc7Mode5 f) ∧
  (∀ f w, encode (.bc7Mode6 f) = some w → decodeForm w = .bc7Mode6 f) ∧
  (∀ f w, encode (.bc7Mode7 f) = some w → decodeForm w = .bc7Mode7 f) ∧
  (∀ r w, encode (.bc7Mode8 r) = some w → decodeForm w = .bc7Mode8 r)

/-- Every presented word is some operation and some form, and each encodes back to exactly that word: the layouts leave no
bit out (R149, R150, R152). -/
def Obligations.EveryWordReencodes : Prop :=
  ∀ w : Word, encode (decode w) = some w ∧ encode (decodeForm w) = some w

/-- `LEN` by format select (R131). -/
def Obligations.BlockLength : Prop :=
  (∀ f : FmtCode, f.toNat ∈ [0, 3, 4] → lenBits f = 64) ∧
  (∀ f : FmtCode, f.toNat ∈ [1, 2, 5, 6, 7, 8, 9] → lenBits f = 128)

/-! ### Stepping -/

/-- A step runs the decoded instruction: when no reset is asked for and `START` is given, the decoded instruction is
well-formed and the step is its meaning, on the state with `START` consumed (R31; the consumption is the model's, log
entry 7). -/
def Obligations.StepRunsDecoded : Prop :=
  ∀ (s : State) (i : Instr), s.port.rst = false → s.port.start = true → decode ⟨s.port.fmt, s.port.blk⟩ = i →
    i.wellFormed = true ∧ step s = exec i (s.setPort ⟨s.port.fmt, s.port.blk, false, false⟩)

/-- The in-block form that a word selects means what its first-level operation means (R140, R143, R152): the two levels of
the decoder never disagree about a block. -/
def Obligations.FormsMeanOperation : Prop :=
  ∀ (w : Word) (s : State), exec (decodeForm w) s = exec (decode w) s

/-- A decode depends on nothing but the word and the configuration (R46, R82): whatever two states of one configuration
hold, the same word completes in both with the same tile and status, the same cursor and working registers, or stops in
both. -/
def Obligations.HistoryIndependence : Prop :=
  ∀ (w : Word) (s u : State), s.cfg = u.cfg →
    match exec (decode w) s, exec (decode w) u with
    | .next s', .next u' =>
      s'.tile = u'.tile ∧ s'.status = u'.status ∧ s'.pos = u'.pos ∧ s'.work = u'.work ∧ s'.done = u'.done
    | .fault a, .fault b => a = b
    | .refused a, .refused b => a = b
    | _, _ => False

/-- The frame of every operation that has a word, in both levels: configuration, ports, the host's record and every byte of
its memory are unchanged; the latches hold the word; `DONE` is 1 (R31, R84, R206). -/
def Obligations.DecodeOperationsFrame : Prop :=
  ∀ (i : Instr) (w : Word) (s t : State), encode i = some w → exec i s = .next t → DecodeFrame w s t

/-- Reset: the values of R48 in the state after reset; a reset of a running machine gives them whatever the block was doing,
abandons a `START` that has not been served, and leaves the configuration and the host's record alone (R450); then nothing
happens until a `START` or an image (R451). The ports, the latches and the host's record after reset, which R48 leaves open,
and the reset request are the model's choice (log entries 2 and 8). -/
def Obligations.ResetBehaviour : Prop :=
  (State.reset.status = .idle ∧ statusCode State.reset.status = 0#4 ∧ State.reset.done = false ∧
    State.reset.pos = 0#8 ∧ State.reset.tile = Tile.noValue ∧ State.reset.work = Work.unwritten ∧
    State.reset.cfg = configDefault) ∧
  (∀ s : State, s.port.rst = true →
    ∃ t, step s = .next t ∧ t.status = .idle ∧ t.done = false ∧ t.pos = 0#8 ∧ t.tile = Tile.noValue ∧
      t.work = Work.unwritten ∧ t.cfg = s.cfg ∧ t.host = s.host ∧ t.port = ⟨s.port.fmt, s.port.blk, false, false⟩) ∧
  (∀ s : State, s.port.rst = false → s.port.start = false → s.host.phase = .idle → step s = .next s)

/-! ### Colours -/

/-- Channel expansion: `Exp5` (R220), `Exp6` with both values of `EXP6_SHIFT` (R221), with the tables of both rules; `Rgb565`
with red in bits 15:11, green in 10:5, blue in 4:0 (R222), `Alpha4` (R242). -/
def Obligations.ChannelExpansion : Prop :=
  ((List.range 32).map exp5 =
      [0, 8, 16, 24, 33, 41, 49, 57, 66, 74, 82, 90, 99, 107, 115, 123, 132, 140, 148, 156, 165, 173, 181, 189, 198,
        206, 214, 222, 231, 239, 247, 255] ∧
    (∀ v, v < 32 → exp5 v = (v * 8 ||| v / 4) ∧ exp5 v / 8 = v) ∧ (∀ v w, v < w → w < 32 → exp5 v < exp5 w)) ∧
  ((List.range 64).map (exp6 .three) =
      [0, 4, 8, 12, 16, 20, 24, 28, 33, 37, 41, 45, 49, 53, 57, 61, 66, 70, 74, 78, 82, 86, 90, 94, 99, 103, 107, 111, 115,
        119, 123, 127, 132, 132, 140, 140, 148, 148, 156, 156, 165, 165, 173, 173, 181, 181, 189, 189, 198, 198, 206, 206,
        214, 214, 222, 222, 231, 231, 239, 239, 247, 247, 255, 255] ∧
    (List.range 64).map (exp6 .four) =
      [0, 4, 8, 12, 16, 20, 24, 28, 32, 36, 40, 44, 48, 52, 56, 60, 65, 69, 73, 77, 81, 85, 89, 93, 97, 101, 105, 109, 113,
        117, 121, 125, 130, 134, 138, 142, 146, 150, 154, 158, 162, 166, 170, 174, 178, 182, 186, 190, 195, 199, 203, 207,
        211, 215, 219, 223, 227, 231, 235, 239, 243, 247, 251, 255] ∧
    (∀ v, v < 64 → exp6 .three v = (v * 4 ||| v / 8) ∧ exp6 .four v = (v * 4 ||| v / 16) ∧ exp6 .three v ≤ 255) ∧
    exp6 .three 0 = 0 ∧ exp6 .three 63 = 255 ∧ exp6 .three 32 = 132 ∧ exp6 .three 33 = 132 ∧
    (∀ v w, v ≤ w → w < 64 → exp6 .three v ≤ exp6 .three w) ∧
    (∀ v, v < 64 → (exp6 .three v / 4 = v ↔ ¬ (v % 2 = 0 ∧ 32 ≤ v))) ∧
    (∀ v, v < 64 → (exp6 .three v = exp6 .four v ↔ v < 8 ∨ v = 57 ∨ v = 59 ∨ v = 61 ∨ v = 63))) ∧
  (∀ (e : Exp6Shift) (r : BitVec 5) (g : BitVec 6) (b : BitVec 5),
    rgb565 e (r ++ g ++ b) =
      ⟨BitVec.ofNat 8 (exp5 r.toNat), BitVec.ofNat 8 (exp6 e g.toNat), BitVec.ofNat 8 (exp5 b.toNat)⟩) ∧
  (∀ v, v < 16 → alpha4 v = 17 * v ∧ alpha4 v = (v * 16 ||| v))

/-- `rdiv` (R16): both formulas, and that `nearest` is the nearest integer, a tie (possible only for 2) going up. -/
def Obligations.RoundingDivision : Prop :=
  ∀ (num : Int) (den : Int), den = 2 ∨ den = 3 ∨ den = 5 ∨ den = 7 →
    rdiv .nearest num den = (2 * num + den).fdiv (2 * den) ∧ rdiv .truncate num den = num.tdiv den ∧
    2 * (den * rdiv .nearest num den - num) ≤ den ∧ 2 * (num - den * rdiv .nearest num den) < den ∧
    (2 * (den * rdiv .nearest num den - num) = den → den = 2)

/-- `DEC.BC1` on every block in every state (R224): it completes with `OK`; each texel is the colour that R223 gives its
2-bit index, with the branch on the raw `C0 > C1`; A has no value; only the colour registers are written. -/
def Obligations.Bc1Result : Prop :=
  ∀ (col : ColorFields) (hi : BitVec 64) (s : State),
    ∃ t, exec (.decBC1 col hi) s = .next t ∧ DecodeFrame ⟨0#4, hi ++ colorBits col⟩ s t ∧ t.status = .ok ∧
      t.pos = 0#8 ∧ t.work = { Work.unwritten with col := t.work.col } ∧
      t.tile = Vector.ofFn fun i => texelOf (colorAt s.cfg false col i) none

/-- The properties of R225 on the machine: index 0 and 1 give the endpoints exactly, indices 2 and 3 the blends or the half
and black, and sixteen indices of 0 give sixteen equal texels, in every configuration. And where the two rounding modes
differ, by how much, with the examples (R226). Both rules are inferences that the spec marks as its own. -/
def Obligations.Bc1Properties : Prop :=
  (∀ (col : ColorFields) (hi : BitVec 64) (s : State) (i : Fin 16),
    ∃ t, exec (.decBC1 col hi) s = .next t ∧
      (selAt col.sel i = 0#2 → t.tile.get i = texelOf (rgb565 s.cfg.exp6Shift col.c0) none) ∧
      (selAt col.sel i = 1#2 → t.tile.get i = texelOf (rgb565 s.cfg.exp6Shift col.c1) none) ∧
      (selAt col.sel i = 2#2 → col.c1.toNat < col.c0.toNat →
        t.tile.get i = texelOf (blendRgb s.cfg.roundMode 2 1 3 (rgb565 s.cfg.exp6Shift col.c0)
          (rgb565 s.cfg.exp6Shift col.c1)) none) ∧
      (selAt col.sel i = 3#2 → col.c1.toNat < col.c0.toNat →
        t.tile.get i = texelOf (blendRgb s.cfg.roundMode 1 2 3 (rgb565 s.cfg.exp6Shift col.c0)
          (rgb565 s.cfg.exp6Shift col.c1)) none) ∧
      (selAt col.sel i = 2#2 → col.c0.toNat ≤ col.c1.toNat →
        t.tile.get i = texelOf (blendRgb s.cfg.roundMode 1 1 2 (rgb565 s.cfg.exp6Shift col.c0)
          (rgb565 s.cfg.exp6Shift col.c1)) none) ∧
      (selAt col.sel i = 3#2 → col.c0.toNat ≤ col.c1.toNat → t.tile.get i = texelOf ⟨0, 0, 0⟩ none) ∧
      (col.sel = 0#32 → t.tile = Vector.replicate 16 (texelOf (rgb565 s.cfg.exp6Shift col.c0) none))) ∧
  (∀ n : Nat, (n % 3 = 2 → rdiv .nearest n 3 = rdiv .truncate n 3 + 1) ∧
    (n % 3 ≠ 2 → rdiv .nearest n 3 = rdiv .truncate n 3)) ∧
  (∀ n : Nat, (n % 2 = 1 → rdiv .nearest n 2 = rdiv .truncate n 2 + 1) ∧
    (n % 2 ≠ 1 → rdiv .nearest n 2 = rdiv .truncate n 2)) ∧
  blend .nearest 1 1 2 255 0 = 128 ∧ blend .truncate 1 1 2 255 0 = 127 ∧
  (∀ m, blend m 2 1 3 255 0 = 170 ∧ blend m 1 2 3 255 0 = 85)

/-- `DEC.BC2` on every block in every state (R240, R241, R242): four colours whatever the order of `C0` and `C1`, alpha 17
times the stored nibble. -/
def Obligations.Bc2Result : Prop :=
  ∀ (a4 : BitVec 64) (col : ColorFields) (s : State),
    ∃ t, exec (.decBC2 a4 col) s = .next t ∧ DecodeFrame ⟨1#4, colorBits col ++ a4⟩ s t ∧ t.status = .ok ∧
      t.pos = 0#8 ∧ t.work = { Work.unwritten with col := t.work.col } ∧
      t.tile = Vector.ofFn fun i =>
        texelOf (colorAt s.cfg true col i) (some (BitVec.ofNat 8 (17 * bitsOf a4 (4 * i.val) 4)))

/-- `DEC.BC3` on every block in every state (R240, R243): four colours, alpha from the unsigned gradient. -/
def Obligations.Bc3Result : Prop :=
  ∀ (al : GradFields) (col : ColorFields) (s : State),
    ∃ t, exec (.decBC3 al col) s = .next t ∧ DecodeFrame ⟨2#4, colorBits col ++ gradBits al⟩ s t ∧ t.status = .ok ∧
      t.pos = 0#8 ∧ t.work = { Work.unwritten with col := t.work.col, gradA := t.work.gradA } ∧
      t.tile = Vector.ofFn fun i => texelOf (colorAt s.cfg true col i) (some (unsignedOf s.cfg al i))

/-- R244: in BC2 and BC3 colour depends on the upper half of the block only and alpha on the lower half only; the alpha of
BC3 is the R of `DEC.BC4U` on the same 8 bytes; index 0 and 1 of the alpha gradient give `E0` and `E1` exactly. -/
def Obligations.Bc2Bc3Independence : Prop :=
  ∀ (a b : BitVec 64) (al be : GradFields) (c d : ColorFields) (hi : BitVec 64) (s : State) (i : Fin 16),
    ∃ t u v w x, exec (.decBC2 a c) s = .next t ∧ exec (.decBC3 al c) s = .next u ∧
      exec (.decBC4U al hi) s = .next v ∧ exec (.decBC2 a d) s = .next w ∧ exec (.decBC3 al d) s = .next x ∧
      (∃ t', exec (.decBC2 b c) s = .next t' ∧ (t'.tile.get i).r = (t.tile.get i).r ∧
        (t'.tile.get i).g = (t.tile.get i).g ∧ (t'.tile.get i).b = (t.tile.get i).b) ∧
      (∃ u', exec (.decBC3 be c) s = .next u' ∧ (u'.tile.get i).r = (u.tile.get i).r ∧
        (u'.tile.get i).g = (u.tile.get i).g ∧ (u'.tile.get i).b = (u.tile.get i).b) ∧
      (w.tile.get i).a = (t.tile.get i).a ∧ (x.tile.get i).a = (u.tile.get i).a ∧
      (u.tile.get i).a = (v.tile.get i).r ∧
      (gselAt al.gsel i = 0#3 → (u.tile.get i).a = some al.e0) ∧
      (gselAt al.gsel i = 1#3 → (u.tile.get i).a = some al.e1)

/-! ### Gradients -/

/-- `SEndpoint` (R262) for all 256 bytes, with the equal endpoints of 0x80 and 0x81 in the 5-step branch; `RemapS` (R264) on its
whole range: the three forms agree, it is strictly increasing, never 127, and has the values that the rule lists. -/
def Obligations.SignedEndpointAndRemap : Prop :=
  ((∀ b : Byte, sEndpoint b = max b.toInt (-127)) ∧ sEndpoint 0x80#8 = -127 ∧ sEndpoint 0x81#8 = -127 ∧
    ∀ m, gradientS m (sEndpoint 0x80#8) (sEndpoint 0x81#8) = #v[-127, -127, -127, -127, -127, -127, -127, 127]) ∧
  (∀ v : Int, -127 ≤ v → v ≤ 127 →
    remapS v = ⌊((v : ℚ) + 127) * 255 / 254 + 1 / 2⌋ ∧ remapS v = (510 * (v + 127) + 254).fdiv 508 ∧ remapS v = v + 127 + (if 0 ≤ v then 1 else 0) ∧ remapS v ≠ 127) ∧
  (∀ v w : Int, -127 ≤ v → v < w → w ≤ 127 → remapS v < remapS w) ∧
  remapS (-127) = 0 ∧ remapS (-126) = 1 ∧ remapS (-1) = 126 ∧ remapS 0 = 128 ∧ remapS 1 = 129 ∧ remapS 126 = 254 ∧
  remapS 127 = 255

/-- `GradientU` and `GradientS` (R261, R263): the entries by the rules' weights, and every entry inside its range. -/
def Obligations.GradientEntries : Prop :=
  (∀ (c : Config) (e0 e1 : Byte) (k : Fin 8),
    (gradientU c.roundMode e0.toNat e1.toNat).get k = rampOf c 0 255 e0.toNat e1.toNat k.val ∧
    0 ≤ rampOf c 0 255 e0.toNat e1.toNat k.val ∧ rampOf c 0 255 e0.toNat e1.toNat k.val ≤ 255) ∧
  (∀ (c : Config) (e0 e1 : Int) (k : Fin 8), -127 ≤ e0 → e0 ≤ 127 → -127 ≤ e1 → e1 ≤ 127 →
    (gradientS c.roundMode e0 e1).get k = rampOf c (-127) 127 e0 e1 k.val ∧
    -127 ≤ rampOf c (-127) 127 e0 e1 k.val ∧ rampOf c (-127) 127 e0 e1 k.val ≤ 127)

/-- `DEC.BC4U` and `DEC.BC4S` on every block in every state (R266, R267): R only, from the unsigned gradient, or from the
signed one after the remap. -/
def Obligations.Bc4Result : Prop :=
  ∀ (g : GradFields) (hi : BitVec 64) (s : State),
    (∃ t, exec (.decBC4U g hi) s = .next t ∧ DecodeFrame ⟨3#4, hi ++ gradBits g⟩ s t ∧ t.status = .ok ∧ t.pos = 0#8 ∧
      t.work = { Work.unwritten with gradA := t.work.gradA } ∧
      t.tile = Vector.ofFn fun i => ⟨some (unsignedOf s.cfg g i), none, none, none⟩) ∧
    (∃ t, exec (.decBC4S g hi) s = .next t ∧ DecodeFrame ⟨4#4, hi ++ gradBits g⟩ s t ∧ t.status = .ok ∧ t.pos = 0#8 ∧
      t.work = { Work.unwritten with gradA := t.work.gradA } ∧
      t.tile = Vector.ofFn fun i => ⟨some (signedGradOf s.cfg g i), none, none, none⟩)

/-- `DEC.BC5U` and `DEC.BC5S` on every block in every state (R268, R269): first half to R, second half to G, B the constant
0, A without value. -/
def Obligations.Bc5Result : Prop :=
  ∀ (g h : GradFields) (s : State),
    (∃ t, exec (.decBC5U g h) s = .next t ∧ DecodeFrame ⟨5#4, gradBits h ++ gradBits g⟩ s t ∧ t.status = .ok ∧
      t.pos = 0#8 ∧ t.work = { Work.unwritten with gradA := t.work.gradA, gradB := t.work.gradB } ∧
      t.tile = Vector.ofFn fun i => ⟨some (unsignedOf s.cfg g i), some (unsignedOf s.cfg h i), some 0, none⟩) ∧
    (∃ t, exec (.decBC5S g h) s = .next t ∧ DecodeFrame ⟨6#4, gradBits h ++ gradBits g⟩ s t ∧ t.status = .ok ∧
      t.pos = 0#8 ∧ t.work = { Work.unwritten with gradA := t.work.gradA, gradB := t.work.gradB } ∧
      t.tile = Vector.ofFn fun i => ⟨some (signedGradOf s.cfg g i), some (signedGradOf s.cfg h i), some 0, none⟩)

/-- R270: decoding index 0 gives `E0` and index 1 gives `E1` exactly in `DEC.BC4U`, and the remapped clamped endpoint in
`DEC.BC4S`; the interpolated entries lie between the endpoints; the 7-step ramp does not increase from `g[0]` through
`g[2..7]` to `g[1]`. -/
def Obligations.Bc4Properties : Prop :=
  (∀ (g : GradFields) (hi : BitVec 64) (s : State) (i : Fin 16),
    ∃ t u, exec (.decBC4U g hi) s = .next t ∧ exec (.decBC4S g hi) s = .next u ∧
      (gselAt g.gsel i = 0#3 → (t.tile.get i).r = some g.e0 ∧
        (u.tile.get i).r = some (BitVec.ofInt 8 (remapS (sEndpoint g.e0)))) ∧
      (gselAt g.gsel i = 1#3 → (t.tile.get i).r = some g.e1 ∧
        (u.tile.get i).r = some (BitVec.ofInt 8 (remapS (sEndpoint g.e1))))) ∧
  (∀ (m : RoundMode) (lo hi e0 e1 : Int) (k : Fin 8), e1 < e0 ∨ k.val < 6 →
    min e0 e1 ≤ (ramp m lo hi e0 e1).get k ∧ (ramp m lo hi e0 e1).get k ≤ max e0 e1) ∧
  (∀ (m : RoundMode) (lo hi e0 e1 : Int) (k l : Fin 8), e1 < e0 → 2 ≤ k.val → k.val < l.val →
    (ramp m lo hi e0 e1).get l ≤ (ramp m lo hi e0 e1).get k)

/-! ### The bit cursor -/

/-- A cursor read that fits (R200, R204): the result is the `n` bits of the block at the cursor, lowest position least
significant, the cursor advances by `n`, and nothing else changes. That the result goes to `rd` when the read is run by
itself is the model's choice (log entry 4). -/
def Obligations.CursorRead : Prop :=
  ∀ (n : Nat) (s : State), n ≤ 8 → s.pos.toNat + n ≤ lenBits s.fmt →
    exec (.rdbits n) s =
      .next { s with pos := s.pos + BitVec.ofNat 8 n, rd := BitVec.ofNat 8 (s.blk.toNat / 2 ^ s.pos.toNat % 2 ^ n) }

/-- A cursor read that does not fit consumes nothing and takes the error-fill entry (R202, R412): every texel is
`ERROR_FILL`, `STATUS` is `ERR_BITS`, the working registers are discarded, `DONE` is 1; cursor, latches, configuration,
ports and host are unchanged. That a read run by itself does this too is the model's choice (log entries 4 and 11). -/
def Obligations.CursorOverflow : Prop :=
  ∀ (n : Nat) (s : State), n ≤ 8 → lenBits s.fmt < s.pos.toNat + n →
    exec (.rdbits n) s =
      .next { s with
        tile := Vector.replicate 16
          ⟨some s.cfg.errorFill.r, some s.cfg.errorFill.g, some s.cfg.errorFill.b, some s.cfg.errorFill.a⟩
        status := .errBits
        work := Work.unwritten
        done := true }

/-- `RDBIT` (R201): identical to `RDBITS(1)`; inside the block the bit is `(B[POS >> 3] >> (POS & 7)) & 1` and the cursor
advances by 1; at the end of the block it overflows; the rule's example. That the result goes to `rd`, and that an overflow of
`RDBIT` run by itself takes the error-fill entry and keeps the cursor, is the model's choice (log entries 4 and 11). -/
def Obligations.CursorBit : Prop :=
  (∀ s, exec .rdbit s = exec (.rdbits 1) s) ∧
  (∀ s, s.pos.toNat < lenBits s.fmt →
    exec .rdbit s = .next { s with
      pos := s.pos + 1
      rd := (blockByte s.blk (s.pos.toNat / 8) >>> (s.pos.toNat % 8)) &&& 1 }) ∧
  (∀ s, s.pos.toNat = lenBits s.fmt → ∃ t, exec .rdbit s = .next t ∧ t.status = .errBits ∧ t.pos = s.pos) ∧
  (∀ s, s.fmt = 9#4 → s.pos = 6#8 → blockByte s.blk 0 = 0x40#8 →
    ∃ t, exec .rdbit s = .next t ∧ t.rd = 1#8 ∧ t.pos = 7#8)

/-- The cursor law (R205): a read of `n` and then of `m` bits gives the low and the high part of one read of `n + m` bits,
and leaves the same state; and `n` single-bit reads, the first as bit 0, give one read of `n` bits. -/
def Obligations.CursorLaw : Prop :=
  (∀ (n m : Nat) (s : State), n + m ≤ 8 → s.pos.toNat + n + m ≤ lenBits s.fmt →
    ∃ lo t hi u v, rdBits n s = .ok lo t ∧ rdBits m t = .ok hi u ∧ rdBits (n + m) s = .ok v u ∧
      v = (lo ||| hi * 2 ^ n)) ∧
  (∀ (n : Nat) (s : State), n ≤ 8 → s.pos.toNat + n ≤ lenBits s.fmt →
    ∃ (bs : List Nat) (v : Nat) (t : State), rdBits n s = .ok v t ∧
      (List.range n).mapM (fun _ => rdBit) s = .ok bs t ∧
      bs.length = n ∧ v = bs.foldr (fun b acc => b + 2 * acc) 0)

/-- Bits and bytes: bit `k` of a block is bit `k & 7` of byte `k >> 3` (R14, R70); a block read is the sum of its bits (R71);
a read that crosses a byte boundary is the high bits of one byte with the low bits of the next above them (R72). -/
def Obligations.BlockReads : Prop :=
  (∀ (bs : List Byte) (k : Nat), bs.length = 16 → k < 128 →
    (blockOfBytes bs).getLsbD k = (bs.getD (k / 8) 0).getLsbD (k % 8)) ∧
  (∀ (blk : Block) (pos n : Nat),
    memRead blk pos n = ((List.range n).map fun j => (blk.getLsbD (pos + j)).toNat * 2 ^ j).sum ∧
    memRead blk pos n = blk.toNat / 2 ^ pos % 2 ^ n) ∧
  (∀ (blk : Block) (k : Nat), k < 128 → (blk.getLsbD k).toNat = (blockByte blk (k / 8)).toNat / 2 ^ (k % 8) % 2) ∧
  (∀ (blk : Block) (pos n : Nat), pos + n ≤ 128 → 8 < pos % 8 + n → pos % 8 + n ≤ 16 →
    memRead blk pos n =
      ((blockByte blk (pos / 8)).toNat / 2 ^ (pos % 8) |||
        ((blockByte blk (pos / 8 + 1)).toNat % 2 ^ (n - (8 - pos % 8))) * 2 ^ (8 - pos % 8)))

/-! ### BC6H -/

/-- The mode selectors, read from the start of a block. BC6H (R139, R291): the low two bits when they are 0 or 1, with the cursor
at 2, else the low five bits, with the cursor at 5. BC7 (R143, R341): the count of leading zero bits, with the cursor one past
the first one bit; eight zero bits give mode 8 with the cursor at 8, whatever follows. -/
def Obligations.ModeSelectors : Prop :=
  (∀ (s : State) (p : Profile), s.fmt = p.fmt → s.pos = 0#8 →
    (s.blk.toNat % 4 < 2 → readMode6 s = .ok (s.blk.toNat % 4) (s.setPos 2#8)) ∧
    (2 ≤ s.blk.toNat % 4 → readMode6 s = .ok (s.blk.toNat % 32) (s.setPos 5#8))) ∧
  (∀ s : State, s.fmt = 9#4 → s.pos = 0#8 →
    (∀ m, m < 8 → s.blk.toNat % 2 ^ (m + 1) = 2 ^ m →
      readMode7 8 0 s = .ok m (s.setPos (BitVec.ofNat 8 (m + 1)))) ∧
    (s.blk.toNat % 256 = 0 → readMode7 8 0 s = .ok 8 (s.setPos 8#8)))

/-- The form that the decoder picks is the mode that the machine's own mode map gives (R107, R140): decoding a block under
a BC6H format select gives mode `mi` exactly when `ROM.BC6MAP` maps its code to `mi`, and the reserved form exactly for the
four reserved codes. -/
def Obligations.Bc6hFormIsMode : Prop :=
  ∀ (p : Profile) (blk : Block),
    let code := if blk.toNat % 4 < 2 then blk.toNat % 4 else blk.toNat % 32
    match decodeForm ⟨p.fmt, blk⟩ with
    | .bc6hMode0 q _ => q = p ∧ romBc6map[code]? = some (.mode 0)
    | .bc6hMode1 q _ => q = p ∧ romBc6map[code]? = some (.mode 1)
    | .bc6hMode2 q _ => q = p ∧ romBc6map[code]? = some (.mode 2)
    | .bc6hMode3 q _ => q = p ∧ romBc6map[code]? = some (.mode 3)
    | .bc6hMode4 q _ => q = p ∧ romBc6map[code]? = some (.mode 4)
    | .bc6hMode5 q _ => q = p ∧ romBc6map[code]? = some (.mode 5)
    | .bc6hMode6 q _ => q = p ∧ romBc6map[code]? = some (.mode 6)
    | .bc6hMode7 q _ => q = p ∧ romBc6map[code]? = some (.mode 7)
    | .bc6hMode8 q _ => q = p ∧ romBc6map[code]? = some (.mode 8)
    | .bc6hMode9 q _ => q = p ∧ romBc6map[code]? = some (.mode 9)
    | .bc6hMode10 q _ => q = p ∧ romBc6map[code]? = some (.mode 10)
    | .bc6hMode11 q _ => q = p ∧ romBc6map[code]? = some (.mode 11)
    | .bc6hMode12 q _ => q = p ∧ romBc6map[code]? = some (.mode 12)
    | .bc6hMode13 q _ => q = p ∧ romBc6map[code]? = some (.mode 13)
    | .bc6hReserved q _ _ => q = p ∧ romBc6map[code]? = some .reserved
    | _ => False

/-- What a completed BC6H decode of a valid mode leaves: `OK`, the given tile, the cursor at 128, and no working register
written but those of BC6H. -/
def bc6hDone (p : Profile) (blk : Block) (x : Tile) (s t : State) : Prop :=
  DecodeFrame ⟨p.fmt, blk⟩ s t ∧ t.status = .ok ∧ t.tile = x ∧ t.pos = 128#8 ∧
    t.work = { Work.unwritten with bc6 := t.work.bc6 }

/-- The one-region BC6H forms on every field value, in both profiles, in every state with the default ROM (R191 to R194,
R290 to R309): they complete with `OK`, the cursor at 128, and the tile that the fields give. -/
def Obligations.Bc6hOneRegionResult : Prop :=
  ∀ (p : Profile) (s : State), s.cfg.rom = romDefault →
    (∀ f, ∃ t, exec (.bc6hMode10 p f) s = .next t ∧
      bc6hDone p (encodeOne 0x03 layout6Mode10 f) (tileOneOf6 10 p f) s t) ∧
    (∀ f, ∃ t, exec (.bc6hMode11 p f) s = .next t ∧
      bc6hDone p (encodeOne 0x07 layout6Mode11 f) (tileOneOf6 11 p f) s t) ∧
    (∀ f, ∃ t, exec (.bc6hMode12 p f) s = .next t ∧
      bc6hDone p (encodeOne 0x0B layout6Mode12 f) (tileOneOf6 12 p f) s t) ∧
    (∀ f, ∃ t, exec (.bc6hMode13 p f) s = .next t ∧
      bc6hDone p (encodeOne 0x0F layout6Mode13 f) (tileOneOf6 13 p f) s t)

/-- The two-region BC6H forms 0 to 4, in the same terms (R181 to R185, R290 to R309). -/
def Obligations.Bc6hTwoRegionResultA : Prop :=
  ∀ (p : Profile) (s : State), s.cfg.rom = romDefault →
    (∀ f, ∃ t, exec (.bc6hMode0 p f) s = .next t ∧
      bc6hDone p (encodeTwo 0x00 layout6Mode0 f) (tileTwoOf6 0 p f) s t) ∧
    (∀ f, ∃ t, exec (.bc6hMode1 p f) s = .next t ∧
      bc6hDone p (encodeTwo 0x01 layout6Mode1 f) (tileTwoOf6 1 p f) s t) ∧
    (∀ f, ∃ t, exec (.bc6hMode2 p f) s = .next t ∧
      bc6hDone p (encodeTwo 0x02 layout6Mode2 f) (tileTwoOf6 2 p f) s t) ∧
    (∀ f, ∃ t, exec (.bc6hMode3 p f) s = .next t ∧
      bc6hDone p (encodeTwo 0x06 layout6Mode3 f) (tileTwoOf6 3 p f) s t) ∧
    (∀ f, ∃ t, exec (.bc6hMode4 p f) s = .next t ∧
      bc6hDone p (encodeTwo 0x0A layout6Mode4 f) (tileTwoOf6 4 p f) s t)

/-- The two-region BC6H forms 5 to 9, in the same terms (R186 to R190, R290 to R309). -/
def Obligations.Bc6hTwoRegionResultB : Prop :=
  ∀ (p : Profile) (s : State), s.cfg.rom = romDefault →
    (∀ f, ∃ t, exec (.bc6hMode5 p f) s = .next t ∧
      bc6hDone p (encodeTwo 0x0E layout6Mode5 f) (tileTwoOf6 5 p f) s t) ∧
    (∀ f, ∃ t, exec (.bc6hMode6 p f) s = .next t ∧
      bc6hDone p (encodeTwo 0x12 layout6Mode6 f) (tileTwoOf6 6 p f) s t) ∧
    (∀ f, ∃ t, exec (.bc6hMode7 p f) s = .next t ∧
      bc6hDone p (encodeTwo 0x16 layout6Mode7 f) (tileTwoOf6 7 p f) s t) ∧
    (∀ f, ∃ t, exec (.bc6hMode8 p f) s = .next t ∧
      bc6hDone p (encodeTwo 0x1A layout6Mode8 f) (tileTwoOf6 8 p f) s t) ∧
    (∀ f, ∃ t, exec (.bc6hMode9 p f) s = .next t ∧
      bc6hDone p (encodeTwo 0x1E layout6Mode9 f) (tileTwoOf6 9 p f) s t)

/-- `DEC.BC6HU` and `DEC.BC6HS` on every block that has no reserved code, in every state with the default ROM: they complete
with `OK`, the cursor at 128, a value in all four channels of every texel and A = 255 (R206, R309, R311). -/
def Obligations.Bc6hCompletes : Prop :=
  ∀ (blk : Block) (s : State), s.cfg.rom = romDefault → blk.toNat &&& 0x13 ≠ 0x13 →
    (∃ t, exec (.decBC6HU blk) s = .next t ∧ DecodeFrame ⟨7#4, blk⟩ s t ∧ t.status = .ok ∧ t.pos = 128#8 ∧
      CarriesChannels .bc6hu t.tile ∧ ∀ i, (t.tile.get i).a = some 255) ∧
    (∃ t, exec (.decBC6HS blk) s = .next t ∧ DecodeFrame ⟨8#4, blk⟩ s t ∧ t.status = .ok ∧ t.pos = 128#8 ∧
      CarriesChannels .bc6hs t.tile ∧ ∀ i, (t.tile.get i).a = some 255)

/-- A reserved BC6H code (R292, R413), met by the in-block form and by `DEC.BC6HU` and `DEC.BC6HS`: the tile is opaque black
in both profiles, whatever `ERROR_FILL` is and whatever follows the code; `STATUS` is `BC6H_RESERVED`, `DONE` is 1, the working
registers are unwritten. Nothing after bit 4 is read: that the cursor is left at 5 is the model's reading (log entry 11). The
mode map is the default one. -/
def Obligations.Bc6hReservedFill : Prop :=
  ∀ (s : State), s.cfg.rom.bc6map = romBc6map →
    (∀ (p : Profile) (k : BitVec 2) (rest : BitVec 123),
      ∃ t, exec (.bc6hReserved p k rest) s = .next t ∧ DecodeFrame ⟨p.fmt, bc6hReservedBlock k rest⟩ s t ∧
        t.status = .bc6hReserved ∧ t.pos = 5#8 ∧ t.work = Work.unwritten ∧
        t.tile = Vector.replicate 16 ⟨some 0, some 0, some 0, some 255⟩) ∧
    (∀ blk : Block, blk.toNat % 32 ∈ [0x13, 0x17, 0x1B, 0x1F] →
      (∃ t, exec (.decBC6HU blk) s = .next t ∧ DecodeFrame ⟨7#4, blk⟩ s t ∧
        t.status = .bc6hReserved ∧ t.pos = 5#8 ∧ t.work = Work.unwritten ∧
        t.tile = Vector.replicate 16 ⟨some 0, some 0, some 0, some 255⟩) ∧
      (∃ t, exec (.decBC6HS blk) s = .next t ∧ DecodeFrame ⟨8#4, blk⟩ s t ∧
        t.status = .bc6hReserved ∧ t.pos = 5#8 ∧ t.work = Work.unwritten ∧
        t.tile = Vector.replicate 16 ⟨some 0, some 0, some 0, some 255⟩))

/-- An invalid BC6H code, which a configured map can reach (R293, R413): the same opaque-black tile, `BC6H_INVALID`; and with
the default map no block reaches it. -/
def Obligations.Bc6hInvalidFill : Prop :=
  (∀ (blk : Block) (s : State),
    s.cfg.rom.bc6map[if blk.toNat % 4 < 2 then blk.toNat % 4 else blk.toNat % 32]? = some .invalid →
    (∃ t, exec (.decBC6HU blk) s = .next t ∧ t.status = .bc6hInvalid ∧
      t.tile = Vector.replicate 16 ⟨some 0, some 0, some 0, some 255⟩) ∧
    (∃ t, exec (.decBC6HS blk) s = .next t ∧ t.status = .bc6hInvalid ∧
      t.tile = Vector.replicate 16 ⟨some 0, some 0, some 0, some 255⟩)) ∧
  (∀ blk : Block, romBc6map[if blk.toNat % 4 < 2 then blk.toNat % 4 else blk.toNat % 32]? ≠ some .invalid)

/-- The arithmetic of a BC6H texel, each formula in its own terms on the whole range of its rule, with the rules' examples and
ranges: unquantizing (R303), the lerp (R304), finishing with truncation toward zero in the signed form (R305), and the half
pattern as sign and magnitude (R306). The lerp gives its endpoints at weights 0 and 64 and stays between them; the
finished half pattern is finite, but for minus infinity at -32768, never negative zero and never a NaN (R310, R312). -/
def Obligations.Bc6hRanges : Prop :=
  (∀ a b w : Int, 0 ≤ w → w ≤ 64 → lerp64 a b w = (a * (64 - w) + b * w + 32).fdiv 64 ∧
    min a b ≤ lerp64 a b w ∧ lerp64 a b w ≤ max a b ∧ lerp64 a b 0 = a ∧ lerp64 a b 64 = b) ∧
  (∀ (c : Int) (p : Nat), 1 ≤ p → p ≤ 16 → 0 ≤ c → c < 2 ^ p →
    unq6 false c p =
      (if 15 ≤ p then c else if c = 0 then 0 else if c = 2 ^ p - 1 then 65535
        else (c * 65536 + 32768).fdiv (2 ^ p)) ∧
    0 ≤ unq6 false c p ∧ unq6 false c p ≤ 0xFFFF) ∧
  (∀ (c : Int) (p : Nat), 1 ≤ p → p < 16 → -2 ^ (p - 1) ≤ c → c < 2 ^ (p - 1) →
    unq6 true c p =
      c.sign * ((if 2 ^ (p - 1) ≤ c.natAbs + 1 then 32767
        else (c.natAbs * 32768 + 16384) / 2 ^ (p - 1) : Nat) : Int) ∧
    -0x7FFF ≤ unq6 true c p ∧ unq6 true c p ≤ 0x7FFF) ∧
  (∀ c : Int, -32768 ≤ c → c ≤ 32767 → unq6 true c 16 = c) ∧
  [unq6 false 495 10, unq6 false 1023 10, unq6 false 512 10, unq6 true (-512) 10, unq6 true (-1) 10, unq6 true 300 10] =
    [31712, 65535, 32800, -32767, -96, 19232] ∧
  (∀ v : Int, 0 ≤ v → v ≤ 0xFFFF →
    finish6 false v = (31 * v).fdiv 64 ∧ 0 ≤ finish6 false v ∧ finish6 false v ≤ 0x7BFF) ∧
  (∀ v : Int, -32768 ≤ v → v ≤ 32767 →
    finish6 true v = (31 * v).tdiv 32 ∧ (finish6 true v).natAbs ≤ 0x7C00) ∧
  [finish6 false 65535, finish6 true 32767, finish6 true (-32768)] = [31743, 31743, -31744] ∧
  (∀ f : Int, 0 ≤ f → f ≤ 0x7BFF → ((halfBits false f).toNat : Int) = f) ∧
  (∀ f : Int, -0x7C00 ≤ f → f ≤ 0x7C00 → (halfBits true f).toNat = f.natAbs + if f < 0 then 0x8000 else 0) ∧
  (∀ v : Int, 0 ≤ v → v ≤ 0xFFFF → (halfBits false (finish6 false v)).toNat ≤ 0x7BFF) ∧
  (∀ v : Int, -32768 ≤ v → v ≤ 32767 →
    halfBits true (finish6 true v) ≠ 0x8000#16 ∧
    (halfExp (halfBits true (finish6 true v)) = 31 ↔ v = -32768) ∧
    (v = -32768 → halfBits true (finish6 true v) = 0xFC00#16))

/-- `H2B` (R307, R308, R312) on every half pattern that is no NaN, both infinities included: 0 for a set sign; otherwise 255
times the value clamped to 1, to the nearest integer, the value being `M·2^E / 2^25` with `E` and `M` from bits 14:10 and 9:0; it
does not decrease with the pattern up to plus infinity; and the sample values of R308. -/
def Obligations.HalfToByte : Prop :=
  (∀ h : BitVec 16, h.toNat % 0x8000 ≤ 0x7C00 → 0x8000 ≤ h.toNat → h2b h = 0#8) ∧
  (∀ h : BitVec 16, h.toNat ≤ 0x7C00 →
    let e := h.toNat / 1024
    let m := h.toNat % 1024
    let scaled := if e = 0 then 2 * m else (1024 + m) * 2 ^ e
    (h2b h).toNat = (2 * 255 * min scaled (2 ^ 25) + 2 ^ 25) / 2 ^ 26) ∧
  (∀ g h : BitVec 16, g.toNat ≤ h.toNat → h.toNat ≤ 0x7C00 → (h2b g).toNat ≤ (h2b h).toNat) ∧
  h2b 0x7C00#16 = 255#8 ∧
  [0x0000#16, 0x1C20#16, 0x2FD0#16, 0x3390#16, 0x3800#16, 0x3840#16, 0x3BFF#16, 0x3C00#16, 0x7BFF#16, 0x8001#16,
      0xFC00#16].map (fun h => (h2b h).toNat) =
    [0, 1, 31, 60, 128, 135, 255, 255, 255, 0, 0]

/-! ### BC7 -/

/-- What a completed BC7 decode of a valid mode leaves. -/
def bc7Done (blk : Block) (x : Tile) (s t : State) : Prop :=
  DecodeFrame ⟨9#4, blk⟩ s t ∧ t.status = .ok ∧ t.tile = x ∧ t.pos = 128#8 ∧
    t.work = { Work.unwritten with bc7 := t.work.bc7 }

/-- The one-region BC7 forms on every field value, in every state with the default ROM (R145, R340 to R355): they complete
with `OK`, the cursor at 128, and the tile that the fields give, with both index tracks, the index selector and the
rotation of modes 4 and 5. -/
def Obligations.Bc7OneRegionResult : Prop :=
  ∀ s : State, s.cfg.rom = romDefault →
    (∀ f, ∃ t, exec (.bc7Mode4 f) s = .next t ∧ bc7Done (bc7Block4 f) (tileOf7 4 f) s t) ∧
    (∀ f, ∃ t, exec (.bc7Mode5 f) s = .next t ∧ bc7Done (bc7Block5 f) (tileOf7 5 f) s t) ∧
    (∀ f, ∃ t, exec (.bc7Mode6 f) s = .next t ∧ bc7Done (bc7Block6 f) (tileOf7 6 f) s t)

/-- The two-region BC7 forms, in the same terms, with the shared and the separate P bits. -/
def Obligations.Bc7TwoRegionResult : Prop :=
  ∀ s : State, s.cfg.rom = romDefault →
    (∀ f, ∃ t, exec (.bc7Mode1 f) s = .next t ∧ bc7Done (bc7Block1 f) (tileOf7 1 f) s t) ∧
    (∀ f, ∃ t, exec (.bc7Mode3 f) s = .next t ∧ bc7Done (bc7Block3 f) (tileOf7 3 f) s t) ∧
    (∀ f, ∃ t, exec (.bc7Mode7 f) s = .next t ∧ bc7Done (bc7Block7 f) (tileOf7 7 f) s t)

/-- The three-region BC7 forms, in the same terms. -/
def Obligations.Bc7ThreeRegionResult : Prop :=
  ∀ s : State, s.cfg.rom = romDefault →
    (∀ f, ∃ t, exec (.bc7Mode0 f) s = .next t ∧ bc7Done (bc7Block0 f) (tileOf7 0 f) s t) ∧
    (∀ f, ∃ t, exec (.bc7Mode2 f) s = .next t ∧ bc7Done (bc7Block2 f) (tileOf7 2 f) s t)

/-- `DEC.BC7` on every block whose first byte is not 0, in every state with the default ROM: it completes with `OK`, the
cursor at 128 and a value in all four channels of every texel (R206, R357). -/
def Obligations.Bc7Completes : Prop :=
  ∀ (blk : Block) (s : State), s.cfg.rom = romDefault → blk.toNat % 256 ≠ 0 →
    ∃ t, exec (.decBC7 blk) s = .next t ∧ DecodeFrame ⟨9#4, blk⟩ s t ∧ t.status = .ok ∧ t.pos = 128#8 ∧
      CarriesChannels .bc7 t.tile

/-- BC7 mode 8 (R342): a first byte of 0 gives the transparent-black tile and `BC7_RESERVED`, in every configuration
and whatever follows; nothing after bit 7 is read, and the working registers are discarded (R413). That the cursor, which R412
discards too, is left at 8, as vector V-7.1 lists it, is the model's reading (log entry 11). -/
def Obligations.Bc7ReservedFill : Prop :=
  (∀ (rest : BitVec 120) (s : State),
    ∃ t, exec (.bc7Mode8 rest) s = .next t ∧ DecodeFrame ⟨9#4, bc7Block8 rest⟩ s t ∧ t.status = .bc7Reserved ∧
      t.pos = 8#8 ∧ t.work = Work.unwritten ∧ t.tile = Vector.replicate 16 ⟨some 0, some 0, some 0, some 0⟩) ∧
  (∀ (blk : Block) (s : State), blk.toNat % 256 = 0 →
    ∃ t, exec (.decBC7 blk) s = .next t ∧ t.status = .bc7Reserved ∧ t.pos = 8#8 ∧
      t.tile = Vector.replicate 16 ⟨some 0, some 0, some 0, some 0⟩)

/-- `Unq7` and `Lerp7` (R347, R353): the expansion is the bit replication of the rule on every value of 4 to 8 bits; the
lerp gives its endpoints at weights 0 and 64 and lies between them. -/
def Obligations.Bc7Arithmetic : Prop :=
  (∀ (v : Byte) (p : Nat), 4 ≤ p → p ≤ 8 → v.toNat < 2 ^ p →
    (unq7 v p).toNat = v.toNat * 2 ^ (8 - p) + v.toNat * 2 ^ (8 - p) / 2 ^ p) ∧
  (∀ v : Byte, unq7 v 8 = v) ∧
  (∀ p, 4 ≤ p → p ≤ 8 → unq7 0 p = 0 ∧ unq7 (BitVec.ofNat 8 (2 ^ p - 1)) p = 255) ∧
  unq7 0x1F 5 = 255 ∧ unq7 0x10 5 = 132 ∧ unq7 127 7 = 255 ∧ unq7 64 7 = 129 ∧ unq7 0x3F 6 = 255 ∧ unq7 5 5 = 41 ∧
  (∀ (a b : Byte) (w : Nat), w ≤ 64 → lerp7 a b 0 = a ∧ lerp7 a b 64 = b ∧
    min a.toNat b.toNat ≤ (lerp7 a b w).toNat ∧ (lerp7 a b w).toNat ≤ max a.toNat b.toNat)

/-! ### Events -/

/-- A refused format select (R414): `TILE` has no value, `STATUS` is `UNSUPPORTED`, `DONE` is 1, no block bit is read,
whatever the block is: two blocks give states that differ in the latched block only. -/
def Obligations.UnsupportedRefused : Prop :=
  ∀ (blk : Block) (s : State),
    (∀ f : BitVec 1, ∃ t, exec (.unsupportedFmt10_11 f blk) s = .next t ∧ DecodeFrame ⟨5#3 ++ f, blk⟩ s t ∧
      t.tile = Tile.noValue ∧ t.status = .unsupported ∧
      ∀ blk', exec (.unsupportedFmt10_11 f blk') s = .next { t with blk := blk' }) ∧
    (∀ f : BitVec 2, ∃ t, exec (.unsupportedFmt12_15 f blk) s = .next t ∧ DecodeFrame ⟨3#2 ++ f, blk⟩ s t ∧
      t.tile = Tile.noValue ∧ t.status = .unsupported ∧
      ∀ blk', exec (.unsupportedFmt12_15 f blk') s = .next { t with blk := blk' })

/-- The event table (R411 to R414): the code that each event delivers, its tile, and what taking it does to the rest: the
working registers are discarded, `DONE` is 1, and nothing outside the block's outputs changes. -/
def Obligations.EventTable : Prop :=
  ∀ s : State,
    (∀ e ∈ [Event.bitOverflow, .badIndex, .badTag], (takeEvent e s).tile = Vector.replicate 16
      ⟨some s.cfg.errorFill.r, some s.cfg.errorFill.g, some s.cfg.errorFill.b, some s.cfg.errorFill.a⟩) ∧
    (∀ e ∈ [Event.reserved6, .invalid6],
      (takeEvent e s).tile = Vector.replicate 16 ⟨some 0, some 0, some 0, some 255⟩) ∧
    (takeEvent .reserved7 s).tile = Vector.replicate 16 ⟨some 0, some 0, some 0, some 0⟩ ∧
    (takeEvent .unsupported s).tile = Tile.noValue ∧
    [Event.unsupported, .reserved6, .invalid6, .reserved7, .bitOverflow, .badIndex, .badTag].map
        (fun e => statusCode (takeEvent e s).status) = [8#4, 2#4, 3#4, 4#4, 5#4, 6#4, 7#4] ∧
    ∀ e, (takeEvent e s).done = true ∧ (takeEvent e s).work = Work.unwritten ∧
      (takeEvent e s).cfg = s.cfg ∧ (takeEvent e s).blk = s.blk ∧ (takeEvent e s).fmt = s.fmt ∧
      (takeEvent e s).port = s.port ∧ (takeEvent e s).host = s.host

/-- No hard failure (R415): with every ROM that the spec admits, every word in every state completes with `DONE` = 1; it
never faults and is never refused, and what it delivers is a whole tile of the format or, for a refused format, none. -/
def Obligations.NoHardFailure : Prop :=
  ∀ (w : Word) (s : State), romAdmissible s.cfg.rom = true →
    ∃ t, exec (decode w) s = .next t ∧ t.done = true ∧ OutputInv t

/-- What can be delivered with the default ROM (R422): `OK` for the formats 0 to 6; for BC6H the reserved code exactly when
`BLK[4:0]` is one of the four; for BC7 exactly when `BLK[7:0]` is 0; `UNSUPPORTED` for 10 to 15. -/
def Obligations.DeliveredStatus : Prop :=
  ∀ (w : Word) (s : State), s.cfg.rom = romDefault →
    ∃ t, exec (decode w) s = .next t ∧ t.status ∈ deliverable w.fmt ∧
      (t.status = .unsupported ↔ 10 ≤ w.fmt.toNat) ∧
      (t.status = .bc6hReserved ↔
        (w.fmt = 7#4 ∨ w.fmt = 8#4) ∧ w.blk.toNat % 32 ∈ [0x13, 0x17, 0x1B, 0x1F]) ∧
      (t.status = .bc7Reserved ↔ w.fmt = 9#4 ∧ w.blk.toNat % 256 = 0)

/-! ### The ROM -/

/-- The default ROM satisfies R108 and has one anchor per region (R104); the default configuration is one the machine may be
built with; a ROM with a region id above `pc` is refused when the machine is configured (93 U20). -/
def Obligations.DefaultRomInvariants : Prop :=
  romInvariant romDefault = true ∧ configure configDefault = .next State.reset ∧
  configure { configDefault with rom := { romDefault with
    part := [romPart0, romPart1, List.replicate 64 (List.replicate 16 3)] } } = .refused .romOutsideSpec

/-! ### The host -/

/-- The dispatcher's map (R382) and its rejections (R383), with the DXGI numbers that R382 gives. -/
def Obligations.DispatcherMap : Prop :=
  [fourCC 'D' 'X' 'T' '1', fourCC 'D' 'X' 'T' '3', fourCC 'D' 'X' 'T' '5', fourCC 'A' 'T' 'I' '1',
      fourCC 'B' 'C' '4' 'U', fourCC 'B' 'C' '4' 'S', fourCC 'A' 'T' 'I' '2', fourCC 'B' 'C' '5' 'U',
      fourCC 'B' 'C' '5' 'S', fourCC 'D' 'X' 'T' '2', fourCC 'D' 'X' 'T' '4'].map (fun c => dispatch (.fourCC c)) =
    [some .bc1, some .bc2, some .bc3, some .bc4u, some .bc4u, some .bc4s, some .bc5u, some .bc5u, some .bc5s, none,
      none] ∧
  (List.range 30).map (fun k => dispatch (.dxgi (BitVec.ofNat 32 (70 + k)))) =
    [some .bc1, some .bc1, some .bc1, some .bc2, some .bc2, some .bc2, some .bc3, some .bc3, some .bc3,
      some .bc4u, some .bc4u, some .bc4s, some .bc5u, some .bc5u, some .bc5s,
      none, none, none, none, none, none, none, none, none,
      some .bc6hu, some .bc6hu, some .bc6hs, some .bc7, some .bc7, some .bc7] ∧
  (∀ n : BitVec 32, n.toNat < 70 ∨ 99 < n.toNat → dispatch (.dxgi n) = none) ∧
  ∀ c : BitVec 32, c ∉ [fourCC 'D' 'X' 'T' '1', fourCC 'D' 'X' 'T' '3', fourCC 'D' 'X' 'T' '5', fourCC 'A' 'T' 'I' '1',
      fourCC 'B' 'C' '4' 'U', fourCC 'B' 'C' '4' 'S', fourCC 'A' 'T' 'I' '2', fourCC 'B' 'C' '5' 'U',
      fourCC 'B' 'C' '5' 'S'] → dispatch (.fourCC c) = none

/-- The worked geometry of R395: a BC1 image of 10 by 10. -/
def Obligations.WorkedGeometry : Prop :=
  let l := levelDesc .bc1 10 10 0
  calcBlocks 10 = 3 ∧ l.blocksPerRow = 3 ∧ l.blocksPerCol = 3 ∧ l.blockCount = 9 ∧
    l.blockCount * fmtBlockBytes .bc1 = 72 ∧ l.strideBytes = 36 ∧ l.dataLength = 432 ∧ l.dataLength = 3 * 4 * (3 * 4) * 3 ∧
    5 % l.blocksPerRow = 2 ∧ 5 / l.blocksPerRow = 1 ∧ texelPixel l 5 6 = (10, 5) ∧ texelAddr l 3 5 6 = 210 ∧
    ∀ t : Tile, texelBytes [.B, .G, .R, .A] .bc1 l 5 t 6 =
      [(210, (t.get 6).b), (211, (t.get 6).g), (212, (t.get 6).r)]

/-- The levels of an image lie one after the other and fill the buffer (R387, R388): level `k` starts at the sum of the
lengths of the earlier ones, and the buffer is the sum of all. The number of levels is a free value (log entry 6) and the
halving of a level is the spec's general knowledge (R387); the statement rests on neither value. -/
def Obligations.LevelsAreSequential : Prop :=
  ∀ (f : Fmt) (r : ImageRequest) (k : Nat) (l : LevelDesc), (imageLevels f r)[k]? = some l →
    l.dataOffset = (((imageLevels f r).take k).map (·.dataLength)).sum ∧
    l.dataOffset + l.dataLength ≤ bufferSize (imageLevels f r) ∧
    LevelInv f (bufferSize (imageLevels f r)) l ∧ 4 * (l.blocksPerRow - 1) < l.width ∧ l.width ≤ 4 * l.blocksPerRow ∧
    4 * (l.blocksPerCol - 1) < l.height ∧ l.height ≤ 4 * l.blocksPerCol

/-- Storing a tile (R79, R389): every channel of the format of every texel is stored at its address, in the byte order of
the configuration, and every other byte of the buffer is as it was. Nothing is clipped. -/
def Obligations.TileStored : Prop :=
  ∀ (order : List Channel) (f : Fmt) (l : LevelDesc) (k : Nat) (x : Tile) (m : Memory),
    order.Perm [.R, .G, .B, .A] → m.wf → LevelInv f m.size l → k < l.blockCount → CarriesChannels f x →
    ∃ m', storeTile order f l k x m = .ok m' ∧ m'.wf ∧ m'.size = m.size ∧
      (∀ (i : Fin 16) (j : Nat) (c : Channel), (orderedChannels order f)[j]? = some c →
        m'.read (texelAddr l (fmtDesc f).pixelDepthBytes k i + j) = (x.get i).channel c) ∧
      (∀ a, (∀ (i : Fin 16) (j : Nat), j < (fmtDesc f).pixelDepthBytes →
        a ≠ texelAddr l (fmtDesc f).pixelDepthBytes k i + j) → m'.read a = m.read a)

/-- Two blocks of a level never share a byte (R83, R389): each owns a disjoint sub-rectangle. -/
def Obligations.TilesDisjoint : Prop :=
  ∀ (order : List Channel) (f : Fmt) (size : Nat) (l : LevelDesc) (k k' : Nat) (x y : Tile) (a b : Nat × Option Byte),
    order.Perm [.R, .G, .B, .A] → LevelInv f size l → k < l.blockCount → k' < l.blockCount → k ≠ k' →
    a ∈ tileBytes order f l k x → b ∈ tileBytes order f l k' y → a.1 ≠ b.1

/-- The structural checks. A structural error (R391, R383, R452): the host fails, identifying the code, releases its buffers
(R394), and stays failed; no `START` is given and the block is untouched. An image that passes: the host takes the
dispatcher's format (R382) and the level descriptors (R387), allocates the output buffer with the size of all levels (R388),
and is ready to present block 0 of level 0. The order of the checks, and that they are one step, is the model's (log
entry 7). -/
def Obligations.StructuralErrors : Prop :=
  ∀ (s : State) (r : ImageRequest), s.port.rst = false → s.port.start = false → s.host.phase = .submitted →
    let failed (e : StructuralError) : HostRec :=
      { s.host with phase := .failed e, stream := [], window := [], buffer := ⟨0, []⟩, output := none }
    (s.host.request = none → step s = .next (s.setHost (failed .truncatedHeader))) ∧
    (s.host.request = some r → dispatch r.code = none →
      step s = .next (s.setHost (failed (.unsupportedFormat r.code)))) ∧
    (s.host.request = some r → dispatch r.code ≠ none → r.width = 0 ∨ r.height = 0 →
      step s = .next (s.setHost (failed .nonPositiveSize))) ∧
    (∀ e, step (s.setHost (failed e)) = .next (s.setHost (failed e))) ∧
    (∀ f, s.host.request = some r → dispatch r.code = some f → r.width ≠ 0 → r.height ≠ 0 →
      step s = .next (s.setHost { s.host with
        phase := .ready
        fmt := fmtCode f
        levels := imageLevels f r
        level := 0
        index := 0
        window := []
        buffer := ⟨((imageLevels f r).map (·.dataLength)).sum, []⟩ }))

/-- The host in phase `ready`. It presents the next whole block (R381, R384, R390): the block's bytes in stream order go to `BLK`
with the image's format select and `START`; of the host's record only the phase and the consumed bytes change, and the window
has held at most one row of blocks. With fewer bytes left than a block, or with no level left (R385), the image ends and no
`START` is given: its output is handed over with the layout tag and the level descriptors (R392), and the host's buffers are
released (R394). The rest of the machine is unchanged. That a move is one step, that the window holds no more than a row where
R388 says "at least", where the output is held, and that the outputs of the previous decode stand until `START` is sampled, is
the model's choice (log entry 7). -/
def Obligations.HostPresents : Prop :=
  ∀ (s : State) (f : Fmt), s.port.rst = false → s.port.start = false → s.host.phase = .ready →
    fmtOfCode s.host.fmt = some f →
    let ended : HostRec :=
      { s.host with
        phase := .finished
        stream := []
        window := []
        buffer := ⟨0, []⟩
        output := some ⟨(fmtDesc f).layout, s.host.levels, s.host.buffer⟩ }
    (∀ l, s.host.levels[s.host.level]? = some l → 0 < l.blocksPerRow →
      (fmtBlockBytes f ≤ (s.host.window ++ s.host.stream).length →
        ∃ h, step s = .next ((s.setHost h).setPort { s.port with
            fmt := s.host.fmt
            blk := blockOfBytes ((s.host.window ++ s.host.stream).take (fmtBlockBytes f))
            start := true }) ∧
          h = { s.host with phase := .waiting, window := h.window, stream := h.stream } ∧
          h.window ++ h.stream = (s.host.window ++ s.host.stream).drop (fmtBlockBytes f) ∧
          (s.host.window.length ≤ l.blocksPerRow * fmtBlockBytes f →
            h.window.length + fmtBlockBytes f ≤ l.blocksPerRow * fmtBlockBytes f)) ∧
      ((s.host.window ++ s.host.stream).length < fmtBlockBytes f → step s = .next (s.setHost ended))) ∧
    (s.host.levels[s.host.level]? = none → step s = .next (s.setHost ended))

/-- The host collects a completed block (R381, R385, R393, R460): it stores the tile unless the format was refused, records
the pair, and goes to the next block of the level or to the next level; while `DONE` is 0 it waits. -/
def Obligations.HostCollects : Prop :=
  ∀ (s : State) (f : Fmt) (l : LevelDesc), s.port.rst = false → s.port.start = false → s.host.phase = .waiting →
    fmtOfCode s.host.fmt = some f → s.host.levels[s.host.level]? = some l →
    (s.done = false → step s = .next s) ∧
    (∀ m, s.done = true →
      (if s.status = .unsupported then m = s.host.buffer
        else storeTile s.cfg.byteOrder f l s.host.index s.tile s.host.buffer = .ok m) →
      step s = .next (s.setHost { s.host with
        phase := .ready
        buffer := m
        delivered := s.host.delivered ++ [(s.tile, s.status)]
        index := if s.host.index + 1 < l.blockCount then s.host.index + 1 else 0
        level := if s.host.index + 1 < l.blockCount then s.host.level else s.host.level + 1 }))

/-! ### The machine -/

/-- The invariant holds after reset (R48), and an image submitted from outside keeps it (R392, R394), so that every run from
reset that is fed images stays inside it. -/
def Obligations.InvariantStarts : Prop :=
  Inv State.reset ∧ ∀ (s : State) (r : Option ImageRequest) (bs : List Byte), Inv s → Inv (s.submit r bs)

/-- Every step keeps the invariant: the configuration stays one the spec admits, the cursor stays inside the block (R34,
R203), the outputs stay what R37, R456 and R457 allow, the host's memories keep their canonical form, no buffer is held after
an image has ended (R394), and the host's plan stays inside its buffer. -/
def Obligations.StepKeepsInvariant : Prop :=
  ∀ s t : State, Inv s → step s = .next t → Inv t

/-- The machine never stops: from every state that meets the invariant a step answers a next state. No block faults (R415),
and the host never stores outside its buffer and never reads a channel without a value (R381, R389). -/
def Obligations.StepNeverStops : Prop :=
  ∀ s : State, Inv s → ∃ t, step s = .next t
end

