-- ==== Sys2Proof/Laws/State.lean ====
section
/-!
SUPPORT. One lemma per field per update of the state, so that no proof unfolds a record update.
-/

namespace Sys2Proof.Machine

/-! ### `State.latch` -/

@[simp] theorem State.latch_cfg (s : State) (w : Word) : (s.latch w).cfg = s.cfg := rfl
@[simp] theorem State.latch_port (s : State) (w : Word) : (s.latch w).port = s.port := rfl
@[simp] theorem State.latch_fmt (s : State) (w : Word) : (s.latch w).fmt = w.fmt := rfl
@[simp] theorem State.latch_blk (s : State) (w : Word) : (s.latch w).blk = w.blk := rfl
@[simp] theorem State.latch_tile (s : State) (w : Word) : (s.latch w).tile = Tile.noValue := rfl
@[simp] theorem State.latch_status (s : State) (w : Word) : (s.latch w).status = s.status := rfl
@[simp] theorem State.latch_done (s : State) (w : Word) : (s.latch w).done = false := rfl
@[simp] theorem State.latch_pos (s : State) (w : Word) : (s.latch w).pos = 0 := rfl
@[simp] theorem State.latch_rd (s : State) (w : Word) : (s.latch w).rd = s.rd := rfl
@[simp] theorem State.latch_work (s : State) (w : Word) : (s.latch w).work = Work.unwritten := rfl
@[simp] theorem State.latch_host (s : State) (w : Word) : (s.latch w).host = s.host := rfl

/-! ### `State.setPos` -/

@[simp] theorem State.setPos_cfg (s : State) (p : BitVec 8) : (s.setPos p).cfg = s.cfg := rfl
@[simp] theorem State.setPos_port (s : State) (p : BitVec 8) : (s.setPos p).port = s.port := rfl
@[simp] theorem State.setPos_fmt (s : State) (p : BitVec 8) : (s.setPos p).fmt = s.fmt := rfl
@[simp] theorem State.setPos_blk (s : State) (p : BitVec 8) : (s.setPos p).blk = s.blk := rfl
@[simp] theorem State.setPos_tile (s : State) (p : BitVec 8) : (s.setPos p).tile = s.tile := rfl
@[simp] theorem State.setPos_status (s : State) (p : BitVec 8) : (s.setPos p).status = s.status := rfl
@[simp] theorem State.setPos_done (s : State) (p : BitVec 8) : (s.setPos p).done = s.done := rfl
@[simp] theorem State.setPos_pos (s : State) (p : BitVec 8) : (s.setPos p).pos = p := rfl
@[simp] theorem State.setPos_rd (s : State) (p : BitVec 8) : (s.setPos p).rd = s.rd := rfl
@[simp] theorem State.setPos_work (s : State) (p : BitVec 8) : (s.setPos p).work = s.work := rfl
@[simp] theorem State.setPos_host (s : State) (p : BitVec 8) : (s.setPos p).host = s.host := rfl

/-! ### `State.setWork` -/

@[simp] theorem State.setWork_cfg (s : State) (w : Work) : (s.setWork w).cfg = s.cfg := rfl
@[simp] theorem State.setWork_port (s : State) (w : Work) : (s.setWork w).port = s.port := rfl
@[simp] theorem State.setWork_fmt (s : State) (w : Work) : (s.setWork w).fmt = s.fmt := rfl
@[simp] theorem State.setWork_blk (s : State) (w : Work) : (s.setWork w).blk = s.blk := rfl
@[simp] theorem State.setWork_tile (s : State) (w : Work) : (s.setWork w).tile = s.tile := rfl
@[simp] theorem State.setWork_status (s : State) (w : Work) : (s.setWork w).status = s.status := rfl
@[simp] theorem State.setWork_done (s : State) (w : Work) : (s.setWork w).done = s.done := rfl
@[simp] theorem State.setWork_pos (s : State) (w : Work) : (s.setWork w).pos = s.pos := rfl
@[simp] theorem State.setWork_rd (s : State) (w : Work) : (s.setWork w).rd = s.rd := rfl
@[simp] theorem State.setWork_work (s : State) (w : Work) : (s.setWork w).work = w := rfl
@[simp] theorem State.setWork_host (s : State) (w : Work) : (s.setWork w).host = s.host := rfl

/-! ### `State.setRd` -/

@[simp] theorem State.setRd_cfg (s : State) (v : Byte) : (s.setRd v).cfg = s.cfg := rfl
@[simp] theorem State.setRd_port (s : State) (v : Byte) : (s.setRd v).port = s.port := rfl
@[simp] theorem State.setRd_fmt (s : State) (v : Byte) : (s.setRd v).fmt = s.fmt := rfl
@[simp] theorem State.setRd_blk (s : State) (v : Byte) : (s.setRd v).blk = s.blk := rfl
@[simp] theorem State.setRd_tile (s : State) (v : Byte) : (s.setRd v).tile = s.tile := rfl
@[simp] theorem State.setRd_status (s : State) (v : Byte) : (s.setRd v).status = s.status := rfl
@[simp] theorem State.setRd_done (s : State) (v : Byte) : (s.setRd v).done = s.done := rfl
@[simp] theorem State.setRd_pos (s : State) (v : Byte) : (s.setRd v).pos = s.pos := rfl
@[simp] theorem State.setRd_rd (s : State) (v : Byte) : (s.setRd v).rd = v := rfl
@[simp] theorem State.setRd_work (s : State) (v : Byte) : (s.setRd v).work = s.work := rfl
@[simp] theorem State.setRd_host (s : State) (v : Byte) : (s.setRd v).host = s.host := rfl

/-! ### `State.deliver` -/

@[simp] theorem State.deliver_cfg (s : State) (t : Tile) (st : Status) : (s.deliver t st).cfg = s.cfg := rfl
@[simp] theorem State.deliver_port (s : State) (t : Tile) (st : Status) : (s.deliver t st).port = s.port := rfl
@[simp] theorem State.deliver_fmt (s : State) (t : Tile) (st : Status) : (s.deliver t st).fmt = s.fmt := rfl
@[simp] theorem State.deliver_blk (s : State) (t : Tile) (st : Status) : (s.deliver t st).blk = s.blk := rfl
@[simp] theorem State.deliver_tile (s : State) (t : Tile) (st : Status) : (s.deliver t st).tile = t := rfl
@[simp] theorem State.deliver_status (s : State) (t : Tile) (st : Status) : (s.deliver t st).status = st := rfl
@[simp] theorem State.deliver_done (s : State) (t : Tile) (st : Status) : (s.deliver t st).done = true := rfl
@[simp] theorem State.deliver_pos (s : State) (t : Tile) (st : Status) : (s.deliver t st).pos = s.pos := rfl
@[simp] theorem State.deliver_rd (s : State) (t : Tile) (st : Status) : (s.deliver t st).rd = s.rd := rfl
@[simp] theorem State.deliver_work (s : State) (t : Tile) (st : Status) : (s.deliver t st).work = s.work := rfl
@[simp] theorem State.deliver_host (s : State) (t : Tile) (st : Status) : (s.deliver t st).host = s.host := rfl

/-! ### `State.setPort` -/

@[simp] theorem State.setPort_cfg (s : State) (p : Ports) : (s.setPort p).cfg = s.cfg := rfl
@[simp] theorem State.setPort_port (s : State) (p : Ports) : (s.setPort p).port = p := rfl
@[simp] theorem State.setPort_fmt (s : State) (p : Ports) : (s.setPort p).fmt = s.fmt := rfl
@[simp] theorem State.setPort_blk (s : State) (p : Ports) : (s.setPort p).blk = s.blk := rfl
@[simp] theorem State.setPort_tile (s : State) (p : Ports) : (s.setPort p).tile = s.tile := rfl
@[simp] theorem State.setPort_status (s : State) (p : Ports) : (s.setPort p).status = s.status := rfl
@[simp] theorem State.setPort_done (s : State) (p : Ports) : (s.setPort p).done = s.done := rfl
@[simp] theorem State.setPort_pos (s : State) (p : Ports) : (s.setPort p).pos = s.pos := rfl
@[simp] theorem State.setPort_rd (s : State) (p : Ports) : (s.setPort p).rd = s.rd := rfl
@[simp] theorem State.setPort_work (s : State) (p : Ports) : (s.setPort p).work = s.work := rfl
@[simp] theorem State.setPort_host (s : State) (p : Ports) : (s.setPort p).host = s.host := rfl

/-! ### `State.setHost` -/

@[simp] theorem State.setHost_cfg (s : State) (h : HostRec) : (s.setHost h).cfg = s.cfg := rfl
@[simp] theorem State.setHost_port (s : State) (h : HostRec) : (s.setHost h).port = s.port := rfl
@[simp] theorem State.setHost_fmt (s : State) (h : HostRec) : (s.setHost h).fmt = s.fmt := rfl
@[simp] theorem State.setHost_blk (s : State) (h : HostRec) : (s.setHost h).blk = s.blk := rfl
@[simp] theorem State.setHost_tile (s : State) (h : HostRec) : (s.setHost h).tile = s.tile := rfl
@[simp] theorem State.setHost_status (s : State) (h : HostRec) : (s.setHost h).status = s.status := rfl
@[simp] theorem State.setHost_done (s : State) (h : HostRec) : (s.setHost h).done = s.done := rfl
@[simp] theorem State.setHost_pos (s : State) (h : HostRec) : (s.setHost h).pos = s.pos := rfl
@[simp] theorem State.setHost_rd (s : State) (h : HostRec) : (s.setHost h).rd = s.rd := rfl
@[simp] theorem State.setHost_work (s : State) (h : HostRec) : (s.setHost h).work = s.work := rfl
@[simp] theorem State.setHost_host (s : State) (h : HostRec) : (s.setHost h).host = h := rfl

/-! ### `State.resetBlock` -/

@[simp] theorem State.resetBlock_cfg (s : State) : (s.resetBlock).cfg = s.cfg := rfl
@[simp] theorem State.resetBlock_port (s : State) : (s.resetBlock).port = ⟨s.port.fmt, s.port.blk, false, false⟩ := rfl
@[simp] theorem State.resetBlock_fmt (s : State) : (s.resetBlock).fmt = 0 := rfl
@[simp] theorem State.resetBlock_blk (s : State) : (s.resetBlock).blk = 0 := rfl
@[simp] theorem State.resetBlock_tile (s : State) : (s.resetBlock).tile = Tile.noValue := rfl
@[simp] theorem State.resetBlock_status (s : State) : (s.resetBlock).status = .idle := rfl
@[simp] theorem State.resetBlock_done (s : State) : (s.resetBlock).done = false := rfl
@[simp] theorem State.resetBlock_pos (s : State) : (s.resetBlock).pos = 0 := rfl
@[simp] theorem State.resetBlock_rd (s : State) : (s.resetBlock).rd = 0 := rfl
@[simp] theorem State.resetBlock_work (s : State) : (s.resetBlock).work = Work.unwritten := rfl
@[simp] theorem State.resetBlock_host (s : State) : (s.resetBlock).host = s.host := rfl

/-! ### Repeated updates -/

@[simp] theorem State.setPos_setPos (s : State) (p q : BitVec 8) : (s.setPos p).setPos q = s.setPos q := rfl
@[simp] theorem State.setWork_setWork (s : State) (v w : Work) : (s.setWork v).setWork w = s.setWork w := rfl
@[simp] theorem State.setPort_setPort (s : State) (p q : Ports) : (s.setPort p).setPort q = s.setPort q := rfl
@[simp] theorem State.setHost_setHost (s : State) (h k : HostRec) : (s.setHost h).setHost k = s.setHost k := rfl
@[simp] theorem State.setPos_self (s : State) : s.setPos s.pos = s := rfl
@[simp] theorem State.setWork_self (s : State) : s.setWork s.work = s := rfl
@[simp] theorem State.setHost_self (s : State) : s.setHost s.host = s := rfl
@[simp] theorem State.setPort_self (s : State) : s.setPort s.port = s := rfl
@[simp] theorem State.latch_latch (s : State) (v w : Word) : (s.latch v).latch w = s.latch w := rfl

end Sys2Proof.Machine
end

