-- ==== Sys2Proof/Laws/Ops.lean ====
section
/-!
SUPPORT. What each shared operation can do, said once: tables, register and ROM reads, cursor reads, taking an event,
running a decode. Later proofs cite these and unfold nothing.
-/

namespace Sys2Proof.Machine

/-! ### Tables -/

@[simp] theorem tab4_get {α : Type} (f : Fin 4 → α) (i : Fin 4) : (tab4 f).get i = f i := by
  fin_cases i <;> rfl

@[simp] theorem tab8_get {α : Type} (f : Fin 8 → α) (i : Fin 8) : (tab8 f).get i = f i := by
  fin_cases i <;> rfl

@[simp] theorem tab16_get {α : Type} (f : Fin 16 → α) (i : Fin 16) : (tab16 f).get i = f i := by
  fin_cases i <;> rfl

theorem mem_texels (i : Fin 16) : i ∈ texels := by fin_cases i <;> decide

/-! ### The decoding monad, one equation per constructor -/

@[simp] theorem dec_pure {α : Type} (a : α) (s : State) : (pure a : Dec α) s = .ok a s := rfl

theorem dec_bind {α β : Type} (p : Dec α) (f : α → Dec β) (s : State) :
    (p >>= f) s = match p s with
      | .ok a t => f a t
      | .error e t => .error e t := by
  change EStateM.bind p f s = _
  unfold EStateM.bind
  cases p s <;> rfl

theorem dec_bind_ok {α β : Type} {p : Dec α} {f : α → Dec β} {s t : State} {a : α} (h : p s = .ok a t) :
    (p >>= f) s = f a t := by rw [dec_bind, h]

theorem dec_bind_error {α β : Type} {p : Dec α} {f : α → Dec β} {s t : State} {e : Stop} (h : p s = .error e t) :
    (p >>= f) s = .error e t := by rw [dec_bind, h]

@[simp] theorem dec_get (s : State) : (get : Dec State) s = .ok s s := rfl

@[simp] theorem raise_apply {α : Type} (e : Event) (s : State) : (raise e : Dec α) s = .error (.event e) s := rfl

@[simp] theorem config_apply (s : State) : config s = .ok s.cfg s := rfl

@[simp] theorem writeWork_apply (g : Work → Work) (s : State) : writeWork g s = .ok () (s.setWork (g s.work)) := rfl

theorem register_some {α : Type} {n : String} {f : Work → Option α} {s : State} {a : α} (h : f s.work = some a) :
    register n f s = .ok a s := by simp [register, h]

theorem register_none {α : Type} {n : String} {f : Work → Option α} {s : State} (h : f s.work = none) :
    register n f s = .error (.fault (.unwrittenRegister n)) s := by simp [register, h]

theorem romGet_some {α : Type} {f : Rom → Option α} {s : State} {a : α} (h : f s.cfg.rom = some a) :
    romGet f s = .ok a s := by simp [romGet, h]

theorem romGet_none {α : Type} {f : Rom → Option α} {s : State} (h : f s.cfg.rom = none) :
    romGet f s = .error (.fault .romHole) s := by simp [romGet, h]

/-! ### Lengths -/

theorem lenBits_le (f : FmtCode) : lenBits f ≤ 128 := by revert f; decide

theorem lenBits_profile (p : Profile) : lenBits p.fmt = 128 := by cases p <;> decide

/-! ### The bit cursor -/

/-- A read that fits (R200, R204): the bits at the cursor, and the cursor moved past them. -/
theorem rdBits_ok {n : Nat} {s : State} (hn : n ≤ 8) (h : s.pos.toNat + n ≤ lenBits s.fmt) :
    rdBits n s = .ok (memRead s.blk s.pos.toNat n) (s.setPos (BitVec.ofNat 8 (s.pos.toNat + n))) := by
  unfold rdBits
  rw [if_neg (by omega), if_neg (by omega)]
  by_cases h0 : n = 0
  · subst h0
    simp [memRead, Nat.mod_one]
  · rw [if_neg h0]

/-- A read that does not fit consumes nothing (R202). -/
theorem rdBits_overflow {n : Nat} {s : State} (hn : n ≤ 8) (h : lenBits s.fmt < s.pos.toNat + n) :
    rdBits n s = .error (.event .bitOverflow) s := by
  unfold rdBits
  rw [if_neg (by omega), if_pos h]

/-- All that a cursor read can do. -/
theorem rdBits_cases (n : Nat) (s : State) :
    (n ≤ 8 ∧ s.pos.toNat + n ≤ lenBits s.fmt ∧
      rdBits n s = .ok (memRead s.blk s.pos.toNat n) (s.setPos (BitVec.ofNat 8 (s.pos.toNat + n)))) ∨
    (n ≤ 8 ∧ lenBits s.fmt < s.pos.toNat + n ∧ rdBits n s = .error (.event .bitOverflow) s) ∨
    (8 < n ∧ rdBits n s = .error (.refused .readWidth) s) := by
  by_cases hn : n ≤ 8
  · by_cases h : s.pos.toNat + n ≤ lenBits s.fmt
    · exact .inl ⟨hn, h, rdBits_ok hn h⟩
    · exact .inr (.inl ⟨hn, by omega, rdBits_overflow hn (by omega)⟩)
  · refine .inr (.inr ⟨by omega, ?_⟩)
    unfold rdBits
    rw [if_pos (by omega)]

/-- The cursor after a read that fits: the sum does not wrap. -/
theorem pos_after {n : Nat} {s : State} (h : s.pos.toNat + n ≤ lenBits s.fmt) :
    (BitVec.ofNat 8 (s.pos.toNat + n)).toNat = s.pos.toNat + n := by
  have := lenBits_le s.fmt
  rw [BitVec.toNat_ofNat]
  omega

theorem memRead_lt (blk : Block) (pos n : Nat) : memRead blk pos n < 2 ^ n := Nat.mod_lt _ (by positivity)

/-! ### Taking an event -/

@[simp] theorem takeEvent_cfg (e : Event) (s : State) : (takeEvent e s).cfg = s.cfg := rfl
@[simp] theorem takeEvent_port (e : Event) (s : State) : (takeEvent e s).port = s.port := rfl
@[simp] theorem takeEvent_fmt (e : Event) (s : State) : (takeEvent e s).fmt = s.fmt := rfl
@[simp] theorem takeEvent_blk (e : Event) (s : State) : (takeEvent e s).blk = s.blk := rfl
@[simp] theorem takeEvent_tile (e : Event) (s : State) : (takeEvent e s).tile = eventTile s.cfg e := rfl
@[simp] theorem takeEvent_status (e : Event) (s : State) : (takeEvent e s).status = eventStatus e := rfl
@[simp] theorem takeEvent_done (e : Event) (s : State) : (takeEvent e s).done = true := rfl
@[simp] theorem takeEvent_pos (e : Event) (s : State) : (takeEvent e s).pos = s.pos := rfl
@[simp] theorem takeEvent_rd (e : Event) (s : State) : (takeEvent e s).rd = s.rd := rfl
@[simp] theorem takeEvent_work (e : Event) (s : State) : (takeEvent e s).work = Work.unwritten := rfl
@[simp] theorem takeEvent_host (e : Event) (s : State) : (takeEvent e s).host = s.host := rfl

@[simp] theorem fillTile_get (p : Rgba) (i : Fin 16) :
    (fillTile p).get i = ⟨some p.r, some p.g, some p.b, some p.a⟩ := by
  simp [fillTile, Vector.get]

@[simp] theorem noValue_get (i : Fin 16) : Tile.noValue.get i = Texel.noValue := by
  simp [Tile.noValue, Vector.get]

/-! ### Running a decode -/

theorem runDecode_ok {p : Dec Tile} {s t : State} {x : Tile} (h : p s = .ok x t) :
    runDecode p s = .next (t.deliver x .ok) := by simp [runDecode, h]

theorem runDecode_event {p : Dec Tile} {s t : State} {e : Event} (h : p s = .error (.event e) t) :
    runDecode p s = .next (takeEvent e t) := by simp [runDecode, h]

/-- All that a decode which answers a next state can have done. -/
theorem runDecode_next {p : Dec Tile} {s u : State} (h : runDecode p s = .next u) :
    (∃ x t, p s = .ok x t ∧ u = t.deliver x .ok) ∨ (∃ e t, p s = .error (.event e) t ∧ u = takeEvent e t) := by
  unfold runDecode at h
  split at h
  · rename_i x t hp
    exact .inl ⟨x, t, hp, by cases h; rfl⟩
  · rename_i e t hp
    exact .inr ⟨e, t, hp, by cases h; rfl⟩
  · cases h
  · cases h

/-- All that a cursor micro-operation which answers a next state can have done. -/
theorem runMicro_next {p : Dec Nat} {s u : State} (h : runMicro p s = .next u) :
    (∃ v t, p s = .ok v t ∧ u = t.setRd (BitVec.ofNat 8 v)) ∨
    (∃ e t, p s = .error (.event e) t ∧ u = takeEvent e t) := by
  unfold runMicro at h
  split at h
  · rename_i v t hp
    exact .inl ⟨v, t, hp, by cases h; rfl⟩
  · rename_i e t hp
    exact .inr ⟨e, t, hp, by cases h; rfl⟩
  · cases h
  · cases h

/-! ### Sixteen texels -/

/-- When every texel of a run of `emit16` is a value of the state it starts in and leaves that state alone, the result is
the table of those values. -/
theorem emit16_pure {α : Type} {f : Fin 16 → Dec α} {g : Fin 16 → α} {s : State}
    (h : ∀ i, f i s = .ok (g i) s) : emit16 f s = .ok (tab16 g) s := by
  simp only [emit16, dec_bind, h, dec_pure, tab16]

end Sys2Proof.Machine
end

