-- ==== Sys2Proof/Laws/Frame.lean ====
section
/-!
SUPPORT. The frame of a decode, said once. A piece of a decode is tame when it (1) neither reads nor changes the ports,
the outputs, the model's read result and the host's record, and (2) changes neither configuration nor latches, and keeps
the cursor inside the block. Every piece of every decoder is tame.
-/

namespace Sys2Proof.Machine

/-- The part of the state that no piece of a decode touches. -/
structure Outer where
  port : Ports
  tile : Tile
  status : Status
  done : Bool
  rd : Byte
  host : HostRec

/-- That part of a state. -/
def State.outer (s : State) : Outer := ⟨s.port, s.tile, s.status, s.done, s.rd, s.host⟩

/-- Replace that part. -/
def State.withOuter (s : State) (o : Outer) : State :=
  { s with port := o.port, tile := o.tile, status := o.status, done := o.done, rd := o.rd, host := o.host }

@[simp] theorem State.withOuter_cfg (s : State) (o : Outer) : (s.withOuter o).cfg = s.cfg := rfl
@[simp] theorem State.withOuter_fmt (s : State) (o : Outer) : (s.withOuter o).fmt = s.fmt := rfl
@[simp] theorem State.withOuter_blk (s : State) (o : Outer) : (s.withOuter o).blk = s.blk := rfl
@[simp] theorem State.withOuter_pos (s : State) (o : Outer) : (s.withOuter o).pos = s.pos := rfl
@[simp] theorem State.withOuter_work (s : State) (o : Outer) : (s.withOuter o).work = s.work := rfl
@[simp] theorem State.withOuter_port (s : State) (o : Outer) : (s.withOuter o).port = o.port := rfl
@[simp] theorem State.withOuter_rd (s : State) (o : Outer) : (s.withOuter o).rd = o.rd := rfl
@[simp] theorem State.withOuter_host (s : State) (o : Outer) : (s.withOuter o).host = o.host := rfl
@[simp] theorem State.withOuter_self (s : State) : s.withOuter s.outer = s := rfl

theorem State.withOuter_setWork (s : State) (o : Outer) (w : Work) :
    (s.withOuter o).setWork w = (s.setWork w).withOuter o := rfl
theorem State.withOuter_setPos (s : State) (o : Outer) (p : BitVec 8) :
    (s.withOuter o).setPos p = (s.setPos p).withOuter o := rfl

/-- Apply a function to the state of a result. -/
def mapState {α : Type} (f : State → State) : EStateM.Result Stop State α → EStateM.Result Stop State α
  | .ok a t => .ok a (f t)
  | .error e t => .error e (f t)

/-- The state of a result. -/
def resultState {α : Type} : EStateM.Result Stop State α → State
  | .ok _ t => t
  | .error _ t => t

/-- What a piece of a decode leaves alone, and the cursor's range. -/
def Inside (s t : State) : Prop :=
  t.cfg = s.cfg ∧ t.fmt = s.fmt ∧ t.blk = s.blk ∧ (s.pos.toNat ≤ lenBits s.fmt → t.pos.toNat ≤ lenBits t.fmt)

theorem Inside.refl (s : State) : Inside s s := ⟨rfl, rfl, rfl, id⟩

theorem Inside.trans {s t u : State} (h : Inside s t) (k : Inside t u) : Inside s u :=
  ⟨k.1.trans h.1, k.2.1.trans h.2.1, k.2.2.1.trans h.2.2.1, fun x => k.2.2.2 (h.2.2.2 x)⟩

/-- A tame piece of a decode. -/
structure Tame {α : Type} (p : Dec α) : Prop where
  outer : ∀ s o, p (s.withOuter o) = mapState (·.withOuter o) (p s)
  inside : ∀ s, Inside s (resultState (p s))

theorem Tame.pure {α : Type} (a : α) : Tame (pure a : Dec α) :=
  ⟨fun _ _ => rfl, fun s => Inside.refl s⟩

theorem Tame.bind {α β : Type} {p : Dec α} {f : α → Dec β} (hp : Tame p) (hf : ∀ a, Tame (f a)) :
    Tame (p >>= f) := by
  constructor
  · intro s o
    rw [dec_bind, dec_bind, hp.outer s o]
    cases p s with
    | ok a t => exact (hf a).outer t o
    | error e t => rfl
  · intro s
    have h := hp.inside s
    rw [dec_bind]
    cases hps : p s with
    | ok a t => rw [hps] at h; exact h.trans ((hf a).inside t)
    | error e t => rw [hps] at h; exact h

/-- Reading the state is tame when only the cursor is used. -/
theorem Tame.getPos {β : Type} {f : BitVec 8 → Dec β} (hf : ∀ p, Tame (f p)) :
    Tame ((get : Dec State) >>= fun s => f s.pos) := by
  constructor
  · intro s o
    exact (hf s.pos).outer s o
  · intro s
    exact (hf s.pos).inside s

theorem Tame.raise {α : Type} (e : Event) : Tame (raise e : Dec α) :=
  ⟨fun _ _ => rfl, fun s => Inside.refl s⟩

theorem Tame.config : Tame config := ⟨fun _ _ => rfl, fun s => Inside.refl s⟩

theorem Tame.register {α : Type} (n : String) (f : Work → Option α) : Tame (register n f) := by
  constructor
  · intro s o
    unfold Machine.register
    rw [State.withOuter_work]
    cases f s.work <;> rfl
  · intro s
    unfold Machine.register
    cases f s.work <;> exact Inside.refl s

theorem Tame.romGet {α : Type} (f : Rom → Option α) : Tame (romGet f) := by
  constructor
  · intro s o
    unfold Machine.romGet
    rw [State.withOuter_cfg]
    cases f s.cfg.rom <;> rfl
  · intro s
    unfold Machine.romGet
    cases f s.cfg.rom <;> exact Inside.refl s

theorem Tame.writeWork (g : Work → Work) : Tame (writeWork g) :=
  ⟨fun _ _ => rfl, fun _ => ⟨rfl, rfl, rfl, id⟩⟩

theorem Tame.rdBits (n : Nat) : Tame (rdBits n) := by
  constructor
  · intro s o
    rcases rdBits_cases n s with ⟨h1, h2, e⟩ | ⟨h1, h2, e⟩ | ⟨h1, e⟩
    · rw [e, rdBits_ok (s := s.withOuter o) h1 h2]; rfl
    · rw [e, rdBits_overflow (s := s.withOuter o) h1 h2]; rfl
    · rw [e]
      unfold Machine.rdBits
      rw [if_pos h1]
      rfl
  · intro s
    rcases rdBits_cases n s with ⟨_, h, e⟩ | ⟨_, _, e⟩ | ⟨_, e⟩
    · rw [e]
      exact ⟨rfl, rfl, rfl, fun _ => by
        change (BitVec.ofNat 8 (s.pos.toNat + n)).toNat ≤ _
        rw [pos_after h]
        exact h⟩
    · rw [e]; exact Inside.refl s
    · rw [e]; exact Inside.refl s

theorem Tame.rdBit : Tame rdBit := Tame.rdBits 1

theorem Tame.ite {α : Type} {c : Prop} [Decidable c] {p q : Dec α} (hp : Tame p) (hq : Tame q) :
    Tame (if c then p else q) := by
  split
  · exact hp
  · exact hq

theorem Tame.forM {α : Type} {l : List α} {f : α → Dec PUnit} (hf : ∀ a, Tame (f a)) : Tame (l.forM f) := by
  induction l with
  | nil => exact Tame.pure _
  | cons a l ih => exact (hf a).bind fun _ => ih

theorem Tame.emit16 {α : Type} {f : Fin 16 → Dec α} (hf : ∀ i, Tame (f i)) : Tame (emit16 f) := by
  unfold Machine.emit16
  repeat refine (hf _).bind fun _ => ?_
  exact Tame.pure _

/-! ### The pieces of the decoders -/

theorem Tame.colorBlock (f : ColorFields) (four : Bool) : Tame (colorBlock f four) := by
  unfold Machine.colorBlock
  refine (Tame.writeWork _).bind fun _ => (Tame.register _ _).bind fun _ => (Tame.register _ _).bind fun _ =>
    Tame.config.bind fun _ => (Tame.writeWork _).bind fun _ => (Tame.writeWork _).bind fun _ =>
    Tame.emit16 fun _ => (Tame.register _ _).bind fun _ => Tame.register _ _

theorem Tame.gradBlock (k : GradSet) (g : BitVec 48) (e0 e1 : Int) (r : RoundMode → Int → Int → Fin 8 → Int) :
    Tame (gradBlock k g e0 e1 r) := by
  unfold Machine.gradBlock
  refine (Tame.writeWork _).bind fun _ => (Tame.register _ _).bind fun _ => (Tame.register _ _).bind fun _ =>
    Tame.config.bind fun _ => (Tame.writeWork _).bind fun _ => (Tame.writeWork _).bind fun _ =>
    Tame.emit16 fun _ => (Tame.register _ _).bind fun _ => Tame.register _ _

theorem Tame.readMode6 : Tame readMode6 := by
  unfold Machine.readMode6
  exact (Tame.rdBits _).bind fun _ => Tame.ite (Tame.pure _) ((Tame.rdBits _).bind fun _ => Tame.pure _)

theorem Tame.placeBit (d : Desc) : Tame (placeBit d) := by
  unfold Machine.placeBit
  split
  · exact (Tame.register _ _).bind fun _ => Tame.writeWork _
  · exact (Tame.register _ _).bind fun _ => Tame.writeWork _
  · exact Tame.raise _
  · exact Tame.raise _
  · exact Tame.raise _

theorem Tame.readHeader (mi hb n : Nat) : Tame (readHeader mi hb n) := by
  induction n with
  | zero => exact Tame.pure _
  | succ n ih =>
    unfold Machine.readHeader
    refine Tame.getPos (f := fun p =>
      if p.toNat < hb then do
        let b ← Machine.rdBit
        if b = 1 then do
          let d ← Machine.romGet fun r => romDesc r mi p.toNat
          Machine.placeBit d
        Machine.readHeader mi hb n
      else Pure.pure ()) fun p => ?_
    refine Tame.ite (Tame.rdBit.bind fun b => ?_) (Tame.pure _)
    dsimp only
    split
    · exact (Tame.romGet _).bind fun _ => (Tame.placeBit _).bind fun _ => ih
    · exact ih

theorem Tame.forRgb {f : Rgb3 → Dec Unit} (hf : ∀ c, Tame (f c)) : Tame (forRgb f) := by
  unfold Machine.forRgb
  exact (hf _).bind fun _ => (hf _).bind fun _ => hf _

theorem Tame.getEp (l : Letter) (c : Rgb3) : Tame (getEp l c) := Tame.register _ _

theorem Tame.setEp (l : Letter) (c : Rgb3) (v : Int) : Tame (setEp l c v) := Tame.writeWork _

theorem Tame.assembleEndpoints : Tame assembleEndpoints := by
  have h : ∀ l, Tame (Machine.forRgb (assembleOne l)) := fun l =>
    Tame.forRgb fun c => (Tame.register _ _).bind fun _ => Tame.setEp _ _ _
  unfold Machine.assembleEndpoints
  exact (h _).bind fun _ => (h _).bind fun _ => (h _).bind fun _ => h _

theorem Tame.signExtend (m : Bc6Mode) (b : Bool) : Tame (signExtend m b) := by
  have h : ∀ l, Tame (Machine.forRgb (extendOne m l)) := fun l =>
    Tame.forRgb fun c => (Tame.getEp _ _).bind fun _ => Tame.setEp _ _ _
  unfold Machine.signExtend
  dsimp only
  have h2 : Tame (do
      Machine.forRgb (extendOne m .X)
      if m.pc ≠ 0 then
        Machine.forRgb (extendOne m .Y)
        Machine.forRgb (extendOne m .Z)) :=
    (h _).bind fun _ => Tame.ite ((h _).bind fun _ => h _) (Tame.pure _)
  split
  · exact (h _).bind fun _ => Tame.ite h2 (Tame.pure _)
  · exact (Tame.pure _).bind fun _ => Tame.ite h2 (Tame.pure _)

theorem Tame.inverseTransform (m : Bc6Mode) (b : Bool) : Tame (inverseTransform m b) := by
  have h : ∀ l, Tame (Machine.forRgb (transformOne m b l)) := fun l =>
    Tame.forRgb fun c => (Tame.getEp _ _).bind fun _ => (Tame.getEp _ _).bind fun _ => Tame.setEp _ _ _
  unfold Machine.inverseTransform
  exact (h _).bind fun _ => Tame.ite ((h _).bind fun _ => h _) (Tame.pure _)

theorem Tame.readIndex6 (m : Bc6Mode) (i : Fin 16) : Tame (readIndex6 m i) := by
  unfold Machine.readIndex6
  refine (Tame.register _ _).bind fun sh => (Tame.romGet _).bind fun an => ?_
  refine Tame.getPos (f := fun p => do
    if 128 < p.toNat + indexBits m.ip an i then Machine.raise .bitOverflow
    let ix ← Machine.rdBits (indexBits m.ip an i)
    if indexLimit m.pc ≤ ix then Machine.raise .badIndex
    Machine.writeWork fun w => { w with bc6 := { w.bc6 with ix := some (BitVec.ofNat 4 ix) } }
    Pure.pure ix) fun p => ?_
  have hk : Tame (do
      let ix ← Machine.rdBits (indexBits m.ip an i)
      if indexLimit m.pc ≤ ix then Machine.raise .badIndex
      Machine.writeWork fun w => { w with bc6 := { w.bc6 with ix := some (BitVec.ofNat 4 ix) } }
      Pure.pure ix) := by
    refine (Tame.rdBits _).bind fun ix => ?_
    dsimp only
    split
    · exact (Tame.raise _).bind fun _ => (Tame.writeWork _).bind fun _ => Tame.pure _
    · exact (Tame.writeWork _).bind fun _ => Tame.pure _
  dsimp only
  split
  · exact (Tame.raise _).bind fun _ => hk
  · exact hk

theorem Tame.texel6 (m : Bc6Mode) (b : Bool) (i : Fin 16) : Tame (texel6 m b i) := by
  unfold Machine.texel6
  exact (Tame.readIndex6 _ _).bind fun _ => (Tame.register _ _).bind fun _ => (Tame.romGet _).bind fun _ =>
    (Tame.romGet _).bind fun _ => (Tame.romGet _).bind fun _ => (Tame.getEp _ _).bind fun _ =>
    (Tame.getEp _ _).bind fun _ => (Tame.getEp _ _).bind fun _ => (Tame.getEp _ _).bind fun _ =>
    (Tame.getEp _ _).bind fun _ => (Tame.getEp _ _).bind fun _ => Tame.pure _

theorem Tame.body6 (b : Bool) (mi : Nat) : Tame (body6 b mi) := by
  unfold Machine.body6
  refine (Tame.writeWork _).bind fun _ => (Tame.romGet _).bind fun m => (Tame.writeWork _).bind fun _ =>
    (Tame.readHeader _ _ _).bind fun _ => Tame.assembleEndpoints.bind fun _ => (Tame.signExtend _ _).bind fun _ => ?_
  have hk : Tame (Machine.emit16 (Machine.texel6 m b)) := Tame.emit16 fun i => Tame.texel6 m b i
  dsimp only
  split
  · exact (Tame.inverseTransform _ _).bind fun _ => hk
  · exact hk

/-- The BC6H decoder is tame. -/
theorem Tame.decodeBc6 (b : Bool) : Tame (decodeBc6 b) := by
  unfold Machine.decodeBc6
  refine Tame.readMode6.bind fun _ => (Tame.writeWork _).bind fun _ => (Tame.romGet _).bind fun e => ?_
  cases e with
  | mode mi => exact Tame.body6 b mi
  | reserved => exact Tame.raise _
  | invalid => exact Tame.raise _

theorem Tame.setC (e : Fin 6) (ch : Channel) (v : Byte) : Tame (setC e ch v) := Tame.writeWork _

theorem Tame.getC (e : Fin 6) (ch : Channel) : Tame (getC e ch) := Tame.register _ _

theorem Tame.readMode7 (n m : Nat) : Tame (readMode7 n m) := by
  induction n generalizing m with
  | zero => exact Tame.pure _
  | succ n ih => exact Tame.rdBit.bind fun _ => Tame.ite (ih _) (Tame.pure _)

theorem Tame.checkRoom (n : Nat) : Tame (checkRoom n) := by
  constructor
  · intro s o
    unfold Machine.checkRoom
    rw [State.withOuter_pos]
    split <;> rfl
  · intro s
    unfold Machine.checkRoom
    split <;> exact Inside.refl s

theorem Tame.readSelectors (m : Bc7Mode) : Tame (readSelectors m) := by
  unfold Machine.readSelectors
  exact (Tame.rdBits _).bind fun _ => (Tame.writeWork _).bind fun _ => (Tame.rdBits _).bind fun _ =>
    (Tame.writeWork _).bind fun _ => (Tame.rdBits _).bind fun _ => Tame.writeWork _

theorem Tame.readEndpoints (m : Bc7Mode) : Tame (readEndpoints m) :=
  Tame.forM fun _ => Tame.forM fun _ => Tame.ite (Tame.setC _ _ _)
    ((Tame.checkRoom _).bind fun _ => (Tame.rdBits _).bind fun _ => Tame.setC _ _ _)

theorem Tame.readPBits (m : Bc7Mode) : Tame (readPBits m) :=
  Tame.forM fun _ => (Tame.checkRoom _).bind fun _ => Tame.rdBit.bind fun _ => Tame.writeWork _

theorem Tame.applyPBits (m : Bc7Mode) : Tame (applyPBits m) :=
  Tame.ite (Tame.forM fun _ => Tame.forM fun _ => Tame.ite
    ((Tame.register _ _).bind fun _ => (Tame.getC _ _).bind fun _ => Tame.setC _ _ _) (Tame.pure _)) (Tame.pure _)

theorem Tame.unquantizeEndpoints (m : Bc7Mode) : Tame (unquantizeEndpoints m) :=
  Tame.forM fun _ => Tame.forM fun _ => Tame.ite
    ((Tame.getC _ _).bind fun _ => Tame.setC _ _ _) (Tame.setC _ _ _)

theorem Tame.readPrimaryIndices (m : Bc7Mode) : Tame (readPrimaryIndices m) :=
  Tame.forM fun _ => (Tame.register _ _).bind fun _ => (Tame.romGet _).bind fun _ =>
    (Tame.checkRoom _).bind fun _ => (Tame.rdBits _).bind fun _ => Tame.writeWork _

theorem Tame.readSecondaryIndices (m : Bc7Mode) : Tame (readSecondaryIndices m) :=
  Tame.ite (Tame.forM fun _ => (Tame.checkRoom _).bind fun _ => (Tame.rdBits _).bind fun _ => Tame.writeWork _)
    (Tame.pure _)

theorem Tame.texel7 (m : Bc7Mode) (i : Fin 16) : Tame (texel7 m i) := by
  unfold Machine.texel7
  refine (Tame.register _ _).bind fun _ => (Tame.romGet _).bind fun _ => (Tame.romGet _).bind fun _ =>
    Tame.bind ?_ fun _ => (Tame.romGet _).bind fun _ => (Tame.romGet _).bind fun _ =>
    (Tame.getC _ _).bind fun _ => (Tame.getC _ _).bind fun _ => (Tame.getC _ _).bind fun _ =>
    (Tame.getC _ _).bind fun _ => (Tame.getC _ _).bind fun _ => (Tame.getC _ _).bind fun _ =>
    (Tame.getC _ _).bind fun _ => (Tame.getC _ _).bind fun _ => (Tame.register _ _).bind fun _ => Tame.pure _
  exact (Tame.register _ _).bind fun _ => (Tame.register _ _).bind fun _ => (Tame.register _ _).bind fun _ =>
    Tame.pure _

theorem Tame.body7 (m : Bc7Mode) : Tame (body7 m) :=
  (Tame.readSelectors m).bind fun _ => (Tame.readEndpoints m).bind fun _ => (Tame.readPBits m).bind fun _ =>
    (Tame.applyPBits m).bind fun _ => (Tame.unquantizeEndpoints m).bind fun _ => (Tame.writeWork _).bind fun _ =>
    (Tame.readPrimaryIndices m).bind fun _ => (Tame.readSecondaryIndices m).bind fun _ =>
    Tame.emit16 fun i => Tame.texel7 m i

/-- The BC7 decoder is tame. -/
theorem Tame.decodeBc7 : Tame decodeBc7 := by
  unfold Machine.decodeBc7
  exact (Tame.readMode7 8 0).bind fun _ => (Tame.writeWork _).bind fun _ => Tame.ite (Tame.raise _)
    ((Tame.romGet _).bind fun m => Tame.body7 m)

/-! ### What a tame decode leaves alone -/

/-- A tame piece keeps the outer part of the state. -/
theorem Tame.keeps {α : Type} {p : Dec α} (h : Tame p) (s : State) : (resultState (p s)).outer = s.outer := by
  have e := h.outer s s.outer
  rw [State.withOuter_self] at e
  rw [e]
  cases p s <;> rfl

/-- The frame of running a tame decode that answers a next state. -/
theorem runDecode_frame {p : Dec Tile} (h : Tame p) {s u : State} (e : runDecode p s = .next u) :
    u.cfg = s.cfg ∧ u.port = s.port ∧ u.fmt = s.fmt ∧ u.blk = s.blk ∧ u.rd = s.rd ∧ u.host = s.host ∧
      u.done = true ∧ (s.pos.toNat ≤ lenBits s.fmt → u.pos.toNat ≤ lenBits u.fmt) := by
  have hk := h.keeps s
  have hi := h.inside s
  rcases runDecode_next e with ⟨x, t, hp, rfl⟩ | ⟨v, t, hp, rfl⟩
  · rw [hp] at hk hi
    exact ⟨hi.1, congrArg Outer.port hk, hi.2.1, hi.2.2.1, congrArg Outer.rd hk, congrArg Outer.host hk, rfl,
      hi.2.2.2⟩
  · rw [hp] at hk hi
    exact ⟨hi.1, congrArg Outer.port hk, hi.2.1, hi.2.2.1, congrArg Outer.rd hk, congrArg Outer.host hk, rfl,
      hi.2.2.2⟩

end Sys2Proof.Machine
end

