-- ==== Sys2Proof/Laws/Total.lean ====
section
/-!
SUPPORT. The two bit-packed decoders never stop, with any ROM that the spec admits (93 U20): every register they read has
been written, every ROM key has an entry, every read is at most eight bits wide.
-/

namespace Sys2Proof.Machine

/-- From a state in `P`, a piece of a decode delivers a value and a state in `Q`, or raises an event other than a refused
format; it never faults and is never refused. -/
def Runs {α : Type} (P : State → Prop) (p : Dec α) (Q : α → State → Prop) : Prop :=
  ∀ s, P s → match p s with
    | .ok a t => Q a t
    | .error (.event e) _ => e ≠ .unsupported
    | .error _ _ => False

theorem Runs.mono {α : Type} {P P' : State → Prop} {p : Dec α} {Q Q' : α → State → Prop} (h : Runs P p Q)
    (hp : ∀ s, P' s → P s) (hq : ∀ a s, Q a s → Q' a s) : Runs P' p Q' := by
  intro s hs
  have := h s (hp s hs)
  cases hr : p s with
  | ok a t => rw [hr] at this; exact hq a t this
  | error e t => rw [hr] at this; cases e <;> exact this

theorem Runs.pure {α : Type} {P : State → Prop} {a : α} : Runs P (pure a : Dec α) fun b s => b = a ∧ P s :=
  fun _ hs => ⟨rfl, hs⟩

theorem Runs.bind {α β : Type} {P : State → Prop} {p : Dec α} {Q : α → State → Prop} {f : α → Dec β}
    {R : β → State → Prop} (h : Runs P p Q) (hf : ∀ a, Runs (Q a) (f a) R) : Runs P (p >>= f) R := by
  intro s hs
  have h1 := h s hs
  rw [dec_bind]
  cases hr : p s with
  | ok a t => rw [hr] at h1; exact hf a t h1
  | error e t => rw [hr] at h1; cases e <;> exact h1

theorem Runs.raise {α : Type} {P : State → Prop} {e : Event} {Q : α → State → Prop} (h : e ≠ .unsupported) :
    Runs P (raise e : Dec α) Q := fun _ _ => h

theorem Runs.ite {α : Type} {P : State → Prop} {c : Prop} [Decidable c] {p q : Dec α} {Q : α → State → Prop}
    (hp : c → Runs P p Q) (hq : ¬ c → Runs P q Q) : Runs P (if c then p else q) Q := by
  split
  · exact hp ‹_›
  · exact hq ‹_›

theorem Runs.register {α : Type} {P : State → Prop} {n : String} {f : Work → Option α}
    (h : ∀ s, P s → (f s.work).isSome) : Runs P (register n f) fun a s => f s.work = some a ∧ P s := by
  intro s hs
  obtain ⟨a, ha⟩ := Option.isSome_iff_exists.mp (h s hs)
  rw [register_some ha]
  exact ⟨ha, hs⟩

theorem Runs.romGet {α : Type} {P : State → Prop} {f : Rom → Option α}
    (h : ∀ s, P s → (f s.cfg.rom).isSome) : Runs P (romGet f) fun a s => f s.cfg.rom = some a ∧ P s := by
  intro s hs
  obtain ⟨a, ha⟩ := Option.isSome_iff_exists.mp (h s hs)
  rw [romGet_some ha]
  exact ⟨ha, hs⟩

theorem Runs.writeWork {P : State → Prop} {g : Work → Work} {Q : State → Prop}
    (h : ∀ s, P s → Q (s.setWork (g s.work))) : Runs P (writeWork g) fun _ s => Q s := fun s hs => h s hs

/-- A cursor read of at most eight bits, for a property that the cursor does not enter. -/
theorem Runs.rdBits {P : State → Prop} {n : Nat} (hn : n ≤ 8) (hP : ∀ s p, P s → P (s.setPos p)) :
    Runs P (rdBits n) fun v s => v < 2 ^ n ∧ P s := by
  intro s hs
  rcases rdBits_cases n s with ⟨_, _, e⟩ | ⟨_, _, e⟩ | ⟨h, _⟩
  · rw [e]; exact ⟨memRead_lt _ _ _, hP s _ hs⟩
  · rw [e]; exact fun h => by cases h
  · omega

theorem Runs.rdBit {P : State → Prop} (hP : ∀ s p, P s → P (s.setPos p)) :
    Runs P rdBit fun v s => v < 2 ∧ P s := Runs.rdBits (by decide) hP

theorem Runs.get {P : State → Prop} : Runs P (get : Dec State) fun a s => a = s ∧ P s := fun _ hs => ⟨rfl, hs⟩

theorem Runs.forM {α : Type} {P : State → Prop} {l : List α} {f : α → Dec PUnit}
    (hf : ∀ a ∈ l, Runs P (f a) fun _ s => P s) : Runs P (l.forM f) fun _ s => P s := by
  induction l with
  | nil => exact Runs.pure.mono (fun _ h => h) fun _ _ h => h.2
  | cons a l ih =>
    exact (hf a (.head _)).bind fun _ => ih fun b hb => hf b (.tail _ hb)

/-- A loop that establishes something about each element and loses nothing. -/
theorem Runs.forM_each {α : Type} {P : State → Prop} {D : α → State → Prop} {l : List α} {f : α → Dec PUnit}
    (hf : ∀ a ∈ l, Runs P (f a) fun _ s => P s ∧ D a s)
    (hk : ∀ a ∈ l, ∀ b ∈ l, Runs (fun s => P s ∧ D b s) (f a) fun _ s => D b s) :
    Runs P (l.forM f) fun _ s => P s ∧ ∀ a ∈ l, D a s := by
  suffices h : ∀ (done todo : List α), (∀ a ∈ done, a ∈ l) → (∀ a ∈ todo, a ∈ l) →
      Runs (fun s => P s ∧ ∀ a ∈ done, D a s) (todo.forM f) fun _ s => P s ∧ ∀ a, a ∈ done ∨ a ∈ todo → D a s by
    exact (h [] l (by simp) (fun _ h => h)).mono (fun s hs => ⟨hs, by simp⟩) fun _ s hs =>
      ⟨hs.1, fun a ha => hs.2 a (.inr ha)⟩
  intro done todo
  induction todo generalizing done with
  | nil =>
    intro _ _
    exact Runs.pure.mono (fun _ h => h) fun _ s h => ⟨h.2.1, fun a ha => h.2.2 a (by simpa using ha)⟩
  | cons x todo ih =>
    intro hd ht
    have hx : x ∈ l := ht x (.head _)
    have h1 : Runs (fun s => P s ∧ ∀ a ∈ done, D a s) (f x)
        fun _ s => P s ∧ ∀ a ∈ x :: done, D a s := by
      intro s hs
      have e1 := hf x hx s hs.1
      cases hr : f x s with
      | ok a t =>
        rw [hr] at e1
        refine ⟨e1.1, fun b hb => ?_⟩
        rcases List.mem_cons.mp hb with rfl | hb
        · exact e1.2
        · have e2 := hk x hx b (hd b hb) s ⟨hs.1, hs.2 b hb⟩
          rw [hr] at e2
          exact e2
      | error e t => rw [hr] at e1; cases e <;> exact e1
    refine (h1.bind fun _ => ih (x :: done) ?_ fun a ha => ht a (.tail _ ha)).mono (fun _ h => h) ?_
    · intro a ha
      rcases List.mem_cons.mp ha with rfl | ha
      · exact hx
      · exact hd a ha
    · intro _ s hs
      refine ⟨hs.1, fun a ha => hs.2 a ?_⟩
      rcases ha with ha | ha
      · exact .inl (.tail _ ha)
      · rcases List.mem_cons.mp ha with rfl | ha
        · exact .inl (.head _)
        · exact .inr ha

/-- Sixteen texels, each with a property, under an invariant. -/
theorem Runs.emit16 {α : Type} {P : State → Prop} {D : Fin 16 → α → Prop} {f : Fin 16 → Dec α}
    (hf : ∀ i, Runs P (f i) fun a s => D i a ∧ P s) :
    Runs P (emit16 f) fun v s => (∀ i, D i (v.get i)) ∧ P s := by
  unfold Machine.emit16
  have step : ∀ {β : Type} {R : β → State → Prop} {K : Prop} (i : Fin 16) (k : α → Dec β),
      (∀ a, D i a → Runs (fun s => K ∧ P s) (k a) R) → Runs (fun s => K ∧ P s) (f i >>= k) R := by
    intro β R K i k hk s hs
    have e1 := hf i s hs.2
    rw [dec_bind]
    cases hr : f i s with
    | ok a t => rw [hr] at e1; exact hk a e1.1 t ⟨hs.1, e1.2⟩
    | error e t => rw [hr] at e1; cases e <;> exact e1
  refine Runs.mono (P := fun s => True ∧ P s) ?_ (fun s h => ⟨trivial, h⟩) fun _ _ h => h
  refine step 0 _ fun x0 h0 => step 1 _ fun x1 h1 => step 2 _ fun x2 h2 => step 3 _ fun x3 h3 =>
    step 4 _ fun x4 h4 => step 5 _ fun x5 h5 => step 6 _ fun x6 h6 => step 7 _ fun x7 h7 =>
    step 8 _ fun x8 h8 => step 9 _ fun x9 h9 => step 10 _ fun x10 h10 => step 11 _ fun x11 h11 =>
    step 12 _ fun x12 h12 => step 13 _ fun x13 h13 => step 14 _ fun x14 h14 => step 15 _ fun x15 h15 => ?_
  refine Runs.pure.mono (fun _ h => h) fun v s h => ⟨fun i => ?_, h.2.2⟩
  obtain ⟨rfl, -⟩ := h
  fin_cases i <;> assumption

/-! ### What an admissible ROM holds -/

theorem all_getElem? {α : Type} {p : α → Bool} {l : List α} (h : l.all p = true) {i : Nat} (hi : i < l.length) :
    ∃ a, l[i]? = some a ∧ p a = true :=
  ⟨l[i], List.getElem?_eq_getElem hi, List.all_eq_true.mp h _ (List.getElem_mem hi)⟩

/-- The parts of `romAdmissible`, by name. -/
structure RomHas (rom : Rom) : Prop where
  region : ∀ pc shape i, pc ≤ 2 → shape < 64 → i < 16 → ∃ r, romRegion rom pc shape i = some r ∧ r ≤ pc
  anchors : ∀ pc shape, pc ≤ 2 → shape < 64 → (romAnchors rom pc shape).isSome
  weight : ∀ p ix, p = 2 ∨ p = 3 ∨ p = 4 → ix < 2 ^ p → (romWeight rom p ix).isSome
  desc : ∀ mi k, mi < 14 → k < 82 → (romDesc rom mi k).isSome
  map6 : ∀ c, c < 32 → ∃ e, rom.bc6map[c]? = some e ∧ mapEntryOk e = true
  mode6 : ∀ mi, mi < 14 → ∃ m, rom.bc6mode[mi]? = some m ∧ bc6ModeOk m = true
  mode7 : ∀ m, m < 8 → ∃ i, rom.bc7mode[m]? = some i ∧ bc7ModeOk i = true

theorem RomHas.of_admissible {rom : Rom} (h : romAdmissible rom = true) : RomHas rom := by
  simp only [romAdmissible, Bool.and_eq_true, beq_iff_eq] at h
  obtain ⟨⟨⟨⟨⟨⟨⟨⟨⟨⟨⟨⟨⟨⟨⟨h1, h2⟩, h3⟩, h4⟩, h5⟩, h6⟩, h7⟩, h8⟩, h9⟩, h10⟩, h11⟩, h12⟩, h13⟩, h14⟩, h15⟩, h16⟩ := h
  constructor
  · intro pc shape i hpc hs hi
    have hl : pc < rom.part.length := by omega
    have ht := List.all_eq_true.mp h2 (rom.part[pc], pc) (by
      rw [List.mem_zipIdx_iff_getElem?]; exact List.getElem?_eq_getElem hl)
    simp only [partTableOk, Bool.and_eq_true, beq_iff_eq] at ht
    obtain ⟨row, hr, hrow⟩ := all_getElem? ht.2 (i := shape) (by omega)
    simp only [Bool.and_eq_true, beq_iff_eq] at hrow
    obtain ⟨r, hr2, hle⟩ := all_getElem? hrow.2 (i := i) (by omega)
    refine ⟨r, ?_, by simpa using hle⟩
    unfold romRegion
    rw [List.getElem?_eq_getElem hl, Option.bind_some, hr, Option.bind_some, hr2]
  · intro pc shape hpc hs
    obtain ⟨t, ht, hf⟩ := all_getElem? h4 (i := pc) (by omega)
    simp only [fixTableOk, Bool.and_eq_true, beq_iff_eq] at hf
    obtain ⟨a, ha, -⟩ := all_getElem? hf.2 (i := shape) (by omega)
    unfold romAnchors
    rw [ht, Option.bind_some, ha]
    rfl
  · rintro p ix (rfl | rfl | rfl) hix
    · change (rom.w2[ix]?).isSome
      rw [List.getElem?_eq_getElem (by omega)]
      rfl
    · change (rom.w3[ix]?).isSome
      rw [List.getElem?_eq_getElem (by omega)]
      rfl
    · change (rom.w4[ix]?).isSome
      rw [List.getElem?_eq_getElem (by omega)]
      rfl
  · intro mi k hm hk
    obtain ⟨t, ht, hl⟩ := all_getElem? h16 (i := mi) (by omega)
    unfold romDesc
    rw [ht, Option.bind_some, List.getElem?_eq_getElem (by have := beq_iff_eq.mp hl; omega)]
    rfl
  · exact fun c hc => all_getElem? h12 (by omega)
  · exact fun c hc => all_getElem? h14 (by omega)
  · exact fun c hc => all_getElem? h10 (by omega)

/-! ### `DEC.BC6H` -/

theorem vec_set_get {α : Type} {n : Nat} (v : Vector α n) (k j : Fin n) (x : α) :
    (v.set k x).get j = if k = j then x else v.get j := by
  have h : (v.set k.val x)[j.val] = if k.val = j.val then x else v[j.val] := Vector.getElem_set ..
  change (v.set k.val x)[j.val] = _
  rw [h]
  simp only [Fin.ext_iff]
  rfl

theorem vec_set_isSome {α : Type} {n : Nat} {v : Vector (Option α) n} {k : Fin n} {x : α} {j : Fin n}
    (h : (v.get j).isSome) : ((v.set k (some x)).get j).isSome := by
  rw [vec_set_get]
  split
  · rfl
  · exact h

/-- After `ClearAccumulators`: shape and accumulators are written. -/
structure Acc6 (rom : Rom) (s : State) : Prop where
  rom_eq : s.cfg.rom = rom
  shape : s.work.bc6.shape.isSome
  acc : ∀ j, (s.work.bc6.acc.get j).isSome

/-- After `AssembleEndpoints`: the endpoints are written too. -/
structure Ep6 (rom : Rom) (s : State) : Prop extends Acc6 rom s where
  ep : ∀ j, (s.work.bc6.ep.get j).isSome

theorem readMode6_runs {rom : Rom} :
    Runs (fun s => s.cfg.rom = rom) readMode6 fun v s => v < 32 ∧ s.cfg.rom = rom := by
  unfold readMode6
  refine (Runs.rdBits (P := fun s => s.cfg.rom = rom) (by decide) fun _ _ h => h).bind fun lo => Runs.ite (fun _ => ?_) fun _ => ?_
  · exact Runs.pure.mono (fun _ h => h) fun v s h => by
      obtain ⟨rfl, h1, h2⟩ := h
      exact ⟨by omega, h2⟩
  · refine (Runs.rdBits (P := fun s => lo < 4 ∧ s.cfg.rom = rom) (by decide) fun _ _ h => h).bind fun hi => ?_
    exact Runs.pure.mono (fun _ h => h) fun v s h => by
      obtain ⟨rfl, h1, h2, h3⟩ := h
      refine ⟨?_, h3⟩
      exact Nat.or_lt_two_pow (n := 5) (by rw [Nat.shiftLeft_eq]; omega) (by omega)

theorem placeBit_runs {rom : Rom} (d : Desc) : Runs (Acc6 rom) (placeBit d) fun _ s => Acc6 rom s := by
  unfold placeBit
  split
  · exact (Runs.register fun s h => h.shape).bind fun _ =>
      Runs.writeWork fun s h => ⟨h.2.rom_eq, rfl, h.2.acc⟩
  · exact (Runs.register fun s h => h.acc _).bind fun _ =>
      Runs.writeWork fun s h => ⟨h.2.rom_eq, h.2.shape, fun j => vec_set_isSome (h.2.acc j)⟩
  all_goals exact Runs.raise (by decide)

theorem readHeader_runs {rom : Rom} (hr : RomHas rom) {mi hb : Nat} (hm : mi < 14) (hh : hb ≤ 82) (n : Nat) :
    Runs (Acc6 rom) (readHeader mi hb n) fun _ s => Acc6 rom s := by
  induction n with
  | zero => exact Runs.pure.mono (fun _ h => h) fun _ _ h => h.2
  | succ n ih =>
    unfold readHeader
    refine Runs.get.bind fun s0 => ?_
    refine Runs.mono (P := Acc6 rom) ?_ (fun _ h => h.2) fun _ _ h => h
    refine Runs.ite (fun hk => ?_) fun _ => Runs.pure.mono (fun _ h => h) fun _ _ h => h.2
    refine (Runs.rdBit fun _ _ h => ⟨h.rom_eq, h.shape, h.acc⟩).bind fun b => ?_
    refine Runs.mono (P := Acc6 rom) ?_ (fun _ h => h.2) fun _ _ h => h
    dsimp only
    split
    · refine (Runs.romGet fun s h => ?_).bind fun d => ?_
      · rw [h.rom_eq]; exact hr.desc mi _ hm (by omega)
      · exact (Runs.mono (placeBit_runs d) (fun _ h => h.2) fun _ _ h => h).bind fun _ => ih
    · exact ih

theorem forRgb_runs {P : State → Prop} {f : Rgb3 → Dec Unit} (h : ∀ c, Runs P (f c) fun _ s => P s) :
    Runs P (forRgb f) fun _ s => P s := (h _).bind fun _ => (h _).bind fun _ => h _

theorem Acc6.setWork {rom : Rom} {s : State} (h : Acc6 rom s) (v : Vector (Option Int) 12) :
    Acc6 rom (s.setWork { s.work with bc6 := { s.work.bc6 with ep := v } }) := ⟨h.rom_eq, h.shape, h.acc⟩

theorem Ep6.set {rom : Rom} {s : State} (h : Ep6 rom s) (k : Fin 12) (v : Int) :
    Ep6 rom (s.setWork { s.work with bc6 := { s.work.bc6 with ep := s.work.bc6.ep.set k (some v) } }) :=
  ⟨h.toAcc6.setWork _, fun j => vec_set_isSome (h.ep j)⟩

/-- The endpoint slots written so far. -/
def Ep6Upto (rom : Rom) (n : Nat) (s : State) : Prop :=
  Acc6 rom s ∧ ∀ j : Fin 12, j.val < n → (s.work.bc6.ep.get j).isSome

theorem assembleOne_runs {rom : Rom} {l : Letter} {c : Rgb3} :
    Runs (Ep6Upto rom (slot6 l c).val) (assembleOne l c) fun _ s => Ep6Upto rom ((slot6 l c).val + 1) s := by
  unfold assembleOne
  refine (Runs.register fun s h => h.1.acc _).bind fun a => Runs.writeWork fun s h => ⟨h.2.1.setWork _, fun j hj => ?_⟩
  change ((s.work.bc6.ep.set (slot6 l c) (some (a : Int))).get j).isSome
  rw [vec_set_get]
  split
  · rfl
  · rename_i hne
    exact h.2.2 j (by have := Fin.val_ne_of_ne hne; omega)

theorem assembleEndpoints_runs {rom : Rom} : Runs (Acc6 rom) assembleEndpoints fun _ s => Ep6 rom s := by
  unfold assembleEndpoints forRgb
  refine Runs.mono (P := Ep6Upto rom 0) (Q := fun _ s => Ep6Upto rom 12 s) ?_ (fun _ h => ⟨h, fun _ hj => by omega⟩)
    fun _ _ h => ⟨h.1, fun j => h.2 j j.isLt⟩
  have h : ∀ l, Runs (Ep6Upto rom (slot6 l .R).val)
      (do
        assembleOne l .R
        assembleOne l .G
        assembleOne l .B) fun _ s => Ep6Upto rom ((slot6 l .B).val + 1) s := fun l =>
    assembleOne_runs.bind fun _ => Runs.bind (Q := fun _ s => Ep6Upto rom ((slot6 l .G).val + 1) s)
      (Runs.mono assembleOne_runs (fun _ h => by cases l <;> exact h) fun _ _ h => h) fun _ =>
      Runs.mono assembleOne_runs (fun _ h => by cases l <;> exact h) fun _ _ h => h
  exact (h .W).bind fun _ => (h .X).bind fun _ => (h .Y).bind fun _ => h .Z

theorem getEp_runs {rom : Rom} (l : Letter) (c : Rgb3) : Runs (Ep6 rom) (getEp l c) fun _ s => Ep6 rom s :=
  Runs.mono (Runs.register fun _ h => h.ep _) (fun _ h => h) fun _ _ h => h.2

theorem setEp_runs {rom : Rom} (l : Letter) (c : Rgb3) (v : Int) : Runs (Ep6 rom) (setEp l c v) fun _ s => Ep6 rom s :=
  Runs.writeWork fun _ h => h.set _ _

theorem extendOne_runs {rom : Rom} (m : Bc6Mode) (l : Letter) (c : Rgb3) :
    Runs (Ep6 rom) (extendOne m l c) fun _ s => Ep6 rom s := (getEp_runs l c).bind fun _ => setEp_runs l c _

theorem transformOne_runs {rom : Rom} (m : Bc6Mode) (b : Bool) (l : Letter) (c : Rgb3) :
    Runs (Ep6 rom) (transformOne m b l c) fun _ s => Ep6 rom s :=
  (getEp_runs .W c).bind fun _ => (getEp_runs l c).bind fun _ => setEp_runs l c _

theorem Runs.unit {P : State → Prop} : Runs P (Pure.pure () : Dec Unit) fun _ s => P s :=
  Runs.pure.mono (fun _ h => h) fun _ _ h => h.2

theorem signExtend_runs {rom : Rom} (m : Bc6Mode) (b : Bool) :
    Runs (Ep6 rom) (signExtend m b) fun _ s => Ep6 rom s := by
  have h : ∀ l, Runs (Ep6 rom) (forRgb (extendOne m l)) fun _ s => Ep6 rom s := fun l =>
    forRgb_runs fun c => extendOne_runs m l c
  unfold signExtend
  dsimp only
  have h2 : Runs (Ep6 rom) (do
      forRgb (extendOne m .X)
      if m.pc ≠ 0 then
        forRgb (extendOne m .Y)
        forRgb (extendOne m .Z)) fun _ s => Ep6 rom s :=
    (h _).bind fun _ => Runs.ite (fun _ => (h _).bind fun _ => h _) fun _ => Runs.unit
  split
  · exact (h _).bind fun _ => Runs.ite (fun _ => h2) fun _ => Runs.unit
  · exact Runs.unit.bind fun _ => Runs.ite (fun _ => h2) fun _ => Runs.unit

theorem inverseTransform_runs {rom : Rom} (m : Bc6Mode) (b : Bool) :
    Runs (Ep6 rom) (inverseTransform m b) fun _ s => Ep6 rom s := by
  have h : ∀ l, Runs (Ep6 rom) (forRgb (transformOne m b l)) fun _ s => Ep6 rom s := fun l =>
    forRgb_runs fun c => transformOne_runs m b l c
  unfold inverseTransform
  exact (h _).bind fun _ => Runs.ite (fun _ => (h _).bind fun _ => h _) fun _ => Runs.unit

theorem Ep6.setPos {rom : Rom} {s : State} (h : Ep6 rom s) (p : BitVec 8) : Ep6 rom (s.setPos p) :=
  ⟨⟨h.rom_eq, h.shape, h.acc⟩, h.ep⟩

theorem bc6ModeOk_facts {m : Bc6Mode} (h : bc6ModeOk m = true) : m.pc ≤ 1 ∧ 1 ≤ m.ip ∧ m.ip ≤ 8 := by
  simp only [bc6ModeOk, Bool.and_eq_true, decide_eq_true_eq] at h
  obtain ⟨⟨⟨⟨⟨h1, h2⟩, h3⟩, -⟩, -⟩, -⟩ := h
  exact ⟨h1, h2, h3⟩

theorem readIndex6_runs {rom : Rom} (hr : RomHas rom) {m : Bc6Mode} (hm : bc6ModeOk m = true) (i : Fin 16) :
    Runs (Ep6 rom) (readIndex6 m i) fun ix s => ix < indexLimit m.pc ∧ Ep6 rom s := by
  obtain ⟨hpc, -, hip⟩ := bc6ModeOk_facts hm
  unfold readIndex6
  refine (Runs.register fun s h => h.shape).bind fun sh => ?_
  refine Runs.mono (P := Ep6 rom) ?_ (fun _ h => h.2) fun _ _ h => h
  refine (Runs.romGet fun s h => ?_).bind fun an => ?_
  · rw [h.rom_eq]
    exact hr.anchors _ _ (by omega) (by have := sh.isLt; omega)
  refine Runs.mono (P := Ep6 rom) ?_ (fun _ h => h.2) fun _ _ h => h
  refine Runs.get.bind fun s0 => ?_
  refine Runs.mono (P := Ep6 rom) ?_ (fun _ h => h.2) fun _ _ h => h
  have hk : Runs (Ep6 rom) (do
      let ix ← rdBits (indexBits m.ip an i)
      if indexLimit m.pc ≤ ix then Machine.raise .badIndex
      writeWork fun w => { w with bc6 := { w.bc6 with ix := some (BitVec.ofNat 4 ix) } }
      pure ix) fun ix s => ix < indexLimit m.pc ∧ Ep6 rom s := by
    refine (Runs.rdBits (by unfold indexBits; split <;> omega) fun _ p h => h.setPos p).bind fun ix => ?_
    refine Runs.mono (P := Ep6 rom) ?_ (fun _ h => h.2) fun _ _ h => h
    dsimp only
    split
    · exact (Runs.raise (Q := fun _ _ => False) (by decide)).bind fun _ => fun _ h => h.elim
    · refine (Runs.writeWork (Q := Ep6 rom) fun s h => ⟨⟨h.rom_eq, h.shape, h.acc⟩, h.ep⟩).bind fun _ => ?_
      exact Runs.pure.mono (fun _ h => h) fun _ _ h => ⟨by rw [h.1]; omega, h.2⟩
  dsimp only
  split
  · exact (Runs.raise (Q := fun _ _ => False) (by decide)).bind fun _ => fun _ h => h.elim
  · exact hk

/-- A texel with a value in every channel. -/
def Texel.full (t : Texel) : Prop := t.r.isSome ∧ t.g.isSome ∧ t.b.isSome ∧ t.a.isSome

theorem texel6_runs {rom : Rom} (hr : RomHas rom) {m : Bc6Mode} (hm : bc6ModeOk m = true) (b : Bool) (i : Fin 16) :
    Runs (Ep6 rom) (texel6 m b i) fun t s => t.full ∧ Ep6 rom s := by
  obtain ⟨hpc, -, -⟩ := bc6ModeOk_facts hm
  unfold texel6
  refine (readIndex6_runs hr hm i).bind fun ix => ?_
  refine (Runs.register fun s h => h.2.shape).bind fun sh => ?_
  refine (Runs.romGet fun s h => ?_).bind fun r => ?_
  · rw [h.2.2.rom_eq]
    obtain ⟨r, h, -⟩ := hr.region m.pc sh.toNat i.val (by omega) (by have := sh.isLt; omega) i.isLt
    rw [h]; rfl
  refine (Runs.romGet fun s h => ?_).bind fun pair => ?_
  · obtain ⟨r', h', hle⟩ := hr.region m.pc sh.toNat i.val (by omega) (by have := sh.isLt; omega) i.isLt
    obtain ⟨h1, -, -, h2⟩ := h
    rw [h2.rom_eq, h'] at h1
    obtain rfl := Option.some.inj h1
    have hr1 : r' = 0 ∨ r' = 1 := by omega
    rcases hr1 with rfl | rfl <;> rfl
  refine (Runs.romGet fun s h => ?_).bind fun w => ?_
  · obtain ⟨-, -, -, h1, h2⟩ := h
    rw [h2.rom_eq]
    unfold indexLimit at h1
    split
    · exact hr.weight 3 ix (by omega) (by rw [if_pos (by omega)] at h1; omega)
    · exact hr.weight 4 ix (by omega) (by split at h1 <;> omega)
  refine Runs.mono (P := Ep6 rom) ?_ (fun _ h => h.2.2.2.2.2) fun _ _ h => h
  refine (getEp_runs _ _).bind fun _ => (getEp_runs _ _).bind fun _ => (getEp_runs _ _).bind fun _ =>
    (getEp_runs _ _).bind fun _ => (getEp_runs _ _).bind fun _ => (getEp_runs _ _).bind fun _ => ?_
  exact Runs.pure.mono (fun _ h => h) fun t s h => by
    obtain ⟨rfl, h⟩ := h
    exact ⟨⟨rfl, rfl, rfl, rfl⟩, h⟩

theorem body6_runs {rom : Rom} (hr : RomHas rom) (b : Bool) {mi : Nat} (hmi : mi < 14) :
    Runs (fun s => s.cfg.rom = rom) (body6 b mi) fun t _ => ∀ i, (t.get i).full := by
  unfold body6
  refine (Runs.writeWork (Q := fun s => s.cfg.rom = rom) fun _ h => h).bind fun _ => ?_
  obtain ⟨m, hm, hok⟩ := hr.mode6 mi hmi
  refine (Runs.romGet fun s h => ?_).bind fun m' => ?_
  · rw [h, hm]; rfl
  refine Runs.mono (P := fun s => m' = m ∧ s.cfg.rom = rom) ?_ (fun s h => ⟨?_, h.2⟩) fun _ _ h => h
  swap
  · have := h.1
    rw [h.2, hm] at this
    exact (Option.some.inj this).symm
  by_cases he : m' = m
  swap
  · exact fun s h => absurd h.1 he
  subst he
  refine (Runs.writeWork (Q := Acc6 rom) fun s h => ⟨h.2, rfl, fun j => ?_⟩).bind fun _ => ?_
  · change ((Vector.replicate 12 (some 0)).get j).isSome
    fin_cases j <;> rfl
  refine (readHeader_runs hr hmi (by unfold headerBits; split <;> omega) _).bind fun _ => ?_
  refine assembleEndpoints_runs.bind fun _ => (signExtend_runs _ _).bind fun _ => ?_
  have hk : Runs (Ep6 rom) (emit16 (texel6 m' b)) fun t _ => ∀ i, (t.get i).full :=
    (Runs.emit16 fun i => texel6_runs hr hok b i).mono (fun _ h => h) fun _ _ h => h.1
  dsimp only
  split
  · exact (inverseTransform_runs _ _).bind fun _ => hk
  · exact hk

/-- `DEC.BC6H` with an admissible ROM: a tile with every channel, or an event. -/
theorem decodeBc6_runs {rom : Rom} (hr : RomHas rom) (b : Bool) :
    Runs (fun s => s.cfg.rom = rom) (decodeBc6 b) fun t _ => ∀ i, (t.get i).full := by
  unfold decodeBc6
  refine readMode6_runs.bind fun m6 => ?_
  refine (Runs.writeWork (Q := fun s => m6 < 32 ∧ s.cfg.rom = rom) fun _ h => h).bind fun _ => ?_
  refine (Runs.romGet fun s h => ?_).bind fun e => ?_
  · rw [h.2]
    obtain ⟨e, he, -⟩ := hr.map6 m6 h.1
    rw [he]; rfl
  cases e with
  | reserved => exact Runs.raise (by decide)
  | invalid => exact Runs.raise (by decide)
  | mode mi =>
    intro s h
    obtain ⟨h1, h2, h3⟩ := h
    obtain ⟨e, he, hok⟩ := hr.map6 m6 h2
    rw [h3, he] at h1
    obtain rfl := Option.some.inj h1
    exact body6_runs hr b (by simpa [mapEntryOk] using hok) s h3

/-! ### `DEC.BC7` -/

/-- After `ReadSelectors`. -/
structure Sel7 (rom : Rom) (s : State) : Prop where
  rom_eq : s.cfg.rom = rom
  shape : s.work.bc7.shape7.isSome
  rot : s.work.bc7.rot.isSome
  isel : s.work.bc7.isel.isSome

/-- The endpoint channels of the mode are written. -/
def EndsWritten (m : Bc7Mode) (s : State) : Prop :=
  ∀ e ∈ endpoints6.take (endpointCount m), ∀ ch, (s.work.bc7.c.get (slot7 e ch)).isSome

/-- After `ReadEndpoints`. -/
structure Ends7 (rom : Rom) (m : Bc7Mode) (s : State) : Prop extends Sel7 rom s where
  ends : EndsWritten m s

/-- After `ReadPBits`. -/
structure PBits7 (rom : Rom) (m : Bc7Mode) (s : State) : Prop extends Ends7 rom m s where
  p : ∀ j ∈ endpoints6.take m.npb, (s.work.bc7.p.get j).isSome

/-- After `ClearIndices`: every index is there, and fits its width. -/
structure Idx7 (rom : Rom) (m : Bc7Mode) (s : State) : Prop extends Ends7 rom m s where
  w1 : ∀ i, ∃ v, s.work.bc7.w1.get i = some v ∧ v.toNat < 2 ^ m.ip1
  w2 : ∀ i, ∃ v, s.work.bc7.w2.get i = some v ∧ v.toNat < 2 ^ m.ip2

theorem channels7_mem (ch : Channel) : ch ∈ channels7 := by cases ch <;> decide

/-- What an admissible BC7 record gives. -/
structure Mode7Has (m : Bc7Mode) : Prop where
  pc : m.pc ≤ 2
  pb : m.pb ≤ 6
  npb : m.npb ≤ 6
  rb : m.rb ≤ 2
  isb : m.isb ≤ 1
  ip1 : m.ip1 = 2 ∨ m.ip1 = 3 ∨ m.ip1 = 4
  ip2 : m.ip2 = 0 ∨ m.ip2 = 2 ∨ m.ip2 = 3 ∨ m.ip2 = 4
  prec : ∀ ch, prec7 m.prec ch ≤ 8

theorem prec7Ok_le {v w : Nat} (h : prec7Ok v w = true) : v ≤ 8 := by
  simp only [prec7Ok, Bool.or_eq_true, Bool.and_eq_true, beq_iff_eq, decide_eq_true_eq] at h
  omega

theorem Mode7Has.of_ok {m : Bc7Mode} (h : bc7ModeOk m = true) : Mode7Has m := by
  simp only [bc7ModeOk, Bool.and_eq_true, Bool.or_eq_true, decide_eq_true_eq, beq_iff_eq] at h
  obtain ⟨⟨⟨⟨⟨⟨⟨⟨⟨⟨⟨⟨⟨h1, h2⟩, h3⟩, h4⟩, h5⟩, h6⟩, h7⟩, h8⟩, h9⟩, h10⟩, hr⟩, hg⟩, hb⟩, ha⟩ := h
  refine ⟨h1, h2, h3, h4, h5, by omega, by omega, fun ch => ?_⟩
  cases ch
  · exact prec7Ok_le hr
  · exact prec7Ok_le hg
  · exact prec7Ok_le hb
  · exact prec7Ok_le ha

theorem readMode7_runs {rom : Rom} (n m : Nat) :
    Runs (fun s => s.cfg.rom = rom) (readMode7 n m) fun v s => v ≤ m + n ∧ s.cfg.rom = rom := by
  induction n generalizing m with
  | zero => exact Runs.pure.mono (fun _ h => h) fun v s h => ⟨by omega, h.2⟩
  | succ n ih =>
    refine (Runs.rdBit (P := fun s => s.cfg.rom = rom) fun _ _ h => h).bind fun b => Runs.ite (fun _ => ?_) fun _ => ?_
    · exact (ih (m + 1)).mono (fun _ h => h.2) fun v s h => ⟨by omega, h.2⟩
    · exact Runs.pure.mono (fun _ h => h) fun v s h => ⟨by omega, h.2.2⟩

theorem readSelectors_runs {rom : Rom} {m : Bc7Mode} (hm : Mode7Has m) :
    Runs (fun s => s.cfg.rom = rom) (readSelectors m) fun _ s => Sel7 rom s := by
  have h1 := hm.pb
  have h2 := hm.rb
  have h3 := hm.isb
  unfold readSelectors
  refine (Runs.rdBits (by omega) fun _ _ h => h).bind fun sh => ?_
  refine (Runs.writeWork (Q := fun s => s.cfg.rom = rom ∧ s.work.bc7.shape7.isSome) fun _ h => ⟨h.2, rfl⟩).bind fun _ => ?_
  refine (Runs.rdBits (by omega) fun _ _ h => h).bind fun ro => ?_
  refine (Runs.writeWork (Q := fun s => s.cfg.rom = rom ∧ s.work.bc7.shape7.isSome ∧ s.work.bc7.rot.isSome)
    fun _ h => ⟨h.2.1, h.2.2, rfl⟩).bind fun _ => ?_
  refine (Runs.rdBits (by omega) fun _ _ h => h).bind fun is => ?_
  exact Runs.writeWork fun _ h => ⟨h.2.1, h.2.2.1, h.2.2.2, rfl⟩

theorem checkRoom_runs {P : State → Prop} (n : Nat) : Runs P (checkRoom n) fun _ s => P s := by
  intro s hs
  unfold checkRoom
  by_cases h : 128 < s.pos.toNat + n
  · rw [if_pos h]
    exact fun h => by cases h
  · rw [if_neg h]
    exact hs

theorem Sel7.setPos {rom : Rom} {s : State} (h : Sel7 rom s) (p : BitVec 8) : Sel7 rom (s.setPos p) :=
  ⟨h.rom_eq, h.shape, h.rot, h.isel⟩

theorem Sel7.setC {rom : Rom} {s : State} (h : Sel7 rom s) (c : Vector (Option Byte) 24) :
    Sel7 rom (s.setWork { s.work with bc7 := { s.work.bc7 with c := c } }) := ⟨h.rom_eq, h.shape, h.rot, h.isel⟩

/-- Writing a channel keeps what was written, and adds its own. -/
theorem setC_runs {rom : Rom} (e : Fin 6) (ch : Channel) (v : Byte) :
    Runs (Sel7 rom) (setC e ch v) fun _ s => Sel7 rom s ∧ (s.work.bc7.c.get (slot7 e ch)).isSome := by
  refine Runs.writeWork fun s h => ⟨h.setC _, ?_⟩
  change ((s.work.bc7.c.set (slot7 e ch) (some v)).get (slot7 e ch)).isSome
  rw [vec_set_get, if_pos rfl]
  rfl

theorem setC_keeps (e : Fin 6) (ch : Channel) (v : Byte) (k : Fin 24) :
    Runs (fun s => (s.work.bc7.c.get k).isSome) (setC e ch v) fun _ s => (s.work.bc7.c.get k).isSome :=
  Runs.writeWork fun _ h => vec_set_isSome h

theorem readEndpoint_runs {rom : Rom} {m : Bc7Mode} (hm : Mode7Has m) (ch : Channel) (e : Fin 6) :
    Runs (Sel7 rom) (readEndpoint m ch e) fun _ s => Sel7 rom s ∧ (s.work.bc7.c.get (slot7 e ch)).isSome := by
  unfold readEndpoint
  refine Runs.ite (fun _ => setC_runs _ _ _) fun _ => (checkRoom_runs _).bind fun _ => ?_
  refine (Runs.rdBits (hm.prec ch) fun _ p h => h.setPos p).bind fun v => ?_
  exact (setC_runs e ch _).mono (fun _ h => h.2) fun _ _ h => h

theorem readEndpoint_keeps {m : Bc7Mode} (hm : Mode7Has m) (ch : Channel) (e : Fin 6) (k : Fin 24) :
    Runs (fun s => (s.work.bc7.c.get k).isSome) (readEndpoint m ch e) fun _ s => (s.work.bc7.c.get k).isSome := by
  unfold readEndpoint
  refine Runs.ite (fun _ => setC_keeps _ _ _ _) fun _ => (checkRoom_runs _).bind fun _ => ?_
  refine (Runs.rdBits (P := fun s => (s.work.bc7.c.get k).isSome) (hm.prec ch) fun _ p h => h).bind fun v => ?_
  exact (setC_keeps e ch _ k).mono (fun _ h => h.2) fun _ _ h => h

theorem readEndpoints_runs {rom : Rom} {m : Bc7Mode} (hm : Mode7Has m) :
    Runs (Sel7 rom) (readEndpoints m) fun _ s => Ends7 rom m s := by
  unfold readEndpoints
  refine Runs.mono (Q := fun _ s => Sel7 rom s ∧ ∀ ch ∈ channels7, ∀ e ∈ endpoints6.take (endpointCount m),
      (s.work.bc7.c.get (slot7 e ch)).isSome) ?_ (fun _ h => h)
    fun _ s h => ⟨h.1, fun e he ch => h.2 ch (channels7_mem ch) e he⟩
  refine Runs.forM_each (fun ch _ => Runs.forM_each (fun e _ => readEndpoint_runs hm ch e) ?_) ?_
  · intro e _ e' _
    exact (readEndpoint_keeps hm ch e _).mono (fun _ h => h.2) fun _ _ h => h
  · intro ch _ ch' _
    refine Runs.mono (P := fun s => ∀ e ∈ endpoints6.take (endpointCount m), (s.work.bc7.c.get (slot7 e ch')).isSome)
      (Runs.forM fun e he => ?_) (fun _ h => h.2) fun _ _ h => h
    intro s hs
    have hall : ∀ e', Runs (fun s => (s.work.bc7.c.get (slot7 e' ch')).isSome)
        (readEndpoint m ch e) fun _ s => (s.work.bc7.c.get (slot7 e' ch')).isSome := fun e' =>
      readEndpoint_keeps hm ch e _
    cases hr : readEndpoint m ch e s with
    | ok a t =>
      intro e' he'
      have := hall e' s (hs e' he')
      rw [hr] at this
      exact this
    | error x t =>
      have := hall e s (hs e he)
      rw [hr] at this
      cases x <;> exact this

theorem Ends7.setPos {rom : Rom} {m : Bc7Mode} {s : State} (h : Ends7 rom m s) (p : BitVec 8) : Ends7 rom m (s.setPos p) :=
  ⟨h.toSel7.setPos p, h.ends⟩

theorem endpoints6_take (n : Nat) (h : n ≤ 6) (j : Fin 6) : j ∈ endpoints6.take n ↔ j.val < n := by
  have h6 : n = 0 ∨ n = 1 ∨ n = 2 ∨ n = 3 ∨ n = 4 ∨ n = 5 ∨ n = 6 := by omega
  rcases h6 with rfl | rfl | rfl | rfl | rfl | rfl | rfl <;> revert j <;> decide

theorem readPBits_runs {rom : Rom} {m : Bc7Mode} : Runs (Ends7 rom m) (readPBits m) fun _ s => PBits7 rom m s := by
  unfold readPBits
  refine Runs.mono (P := Ends7 rom m) (Runs.forM_each (P := Ends7 rom m) (D := fun j s => (s.work.bc7.p.get j).isSome)
    (fun j _ => ?_) fun j _ k _ => ?_) (fun _ h => h) fun _ _ h => ⟨h.1, h.2⟩
  · refine (checkRoom_runs _).bind fun _ => (Runs.rdBit fun _ p h => h.setPos p).bind fun v => Runs.writeWork fun s h => ?_
    refine ⟨⟨⟨h.2.rom_eq, h.2.shape, h.2.rot, h.2.isel⟩, h.2.ends⟩, ?_⟩
    change ((s.work.bc7.p.set j (some (BitVec.ofNat 1 v))).get j).isSome
    rw [vec_set_get, if_pos rfl]
    rfl
  · refine Runs.mono (P := fun s => (s.work.bc7.p.get k).isSome) ?_ (fun _ h => h.2) fun _ _ h => h
    refine (checkRoom_runs _).bind fun _ =>
      (Runs.rdBit (P := fun s => (s.work.bc7.p.get k).isSome) fun _ p h => h).bind fun v => Runs.writeWork fun s h => ?_
    exact vec_set_isSome h.2

theorem EndsWritten.setC {m : Bc7Mode} {s : State} (h : EndsWritten m s) (k : Fin 24) (v : Byte) :
    EndsWritten m (s.setWork { s.work with bc7 := { s.work.bc7 with c := s.work.bc7.c.set k (some v) } }) :=
  fun e he ch => vec_set_isSome (h e he ch)

theorem Ends7.set {rom : Rom} {m : Bc7Mode} {s : State} (h : Ends7 rom m s) (k : Fin 24) (v : Byte) :
    Ends7 rom m (s.setWork { s.work with bc7 := { s.work.bc7 with c := s.work.bc7.c.set k (some v) } }) :=
  ⟨h.toSel7.setC _, h.ends.setC k v⟩

theorem PBits7.set {rom : Rom} {m : Bc7Mode} {s : State} (h : PBits7 rom m s) (k : Fin 24) (v : Byte) :
    PBits7 rom m (s.setWork { s.work with bc7 := { s.work.bc7 with c := s.work.bc7.c.set k (some v) } }) :=
  ⟨h.toEnds7.set k v, h.p⟩

theorem endpointCount_le {m : Bc7Mode} (hm : Mode7Has m) : endpointCount m ≤ 6 := by
  have := hm.pc
  unfold endpointCount
  omega

theorem applyPBit_runs {rom : Rom} {m : Bc7Mode} (hm : Mode7Has m) (hp : 0 < m.npb) (e : Fin 6)
    (he : e ∈ endpoints6.take (endpointCount m)) (ch : Channel) :
    Runs (PBits7 rom m) (applyPBit m e ch) fun _ s => PBits7 rom m s := by
  unfold applyPBit
  refine Runs.ite (fun _ => ?_) fun _ => Runs.unit
  have h1 := hm.npb
  have h2 := (endpoints6_take _ (endpointCount_le hm) e).mp he
  have hj : pBitIndex e.val m.npb (endpointCount m) < m.npb := by
    unfold pBitIndex
    rw [Nat.div_lt_iff_lt_mul (by omega), Nat.mul_comm m.npb]
    exact Nat.mul_lt_mul_of_pos_right h2 hp
  refine (Runs.register fun s h => ?_).bind fun p => ?_
  · have h3 := h.p ⟨pBitIndex e.val m.npb (endpointCount m), by omega⟩
      ((endpoints6_take _ h1 _).mpr hj)
    rw [Vector.getElem?_eq_getElem (by omega)]
    exact h3
  refine Runs.mono (P := PBits7 rom m) ?_ (fun _ h => h.2) fun _ _ h => h
  refine (Runs.register fun s h => h.ends e he ch).bind fun v => ?_
  exact Runs.writeWork fun _ h => h.2.set _ _

theorem applyPBits_runs {rom : Rom} {m : Bc7Mode} (hm : Mode7Has m) :
    Runs (PBits7 rom m) (applyPBits m) fun _ s => Ends7 rom m s := by
  unfold applyPBits
  refine Runs.mono (Q := fun _ s => PBits7 rom m s) ?_ (fun _ h => h) fun _ _ h => h.toEnds7
  refine Runs.ite (fun hp => Runs.forM fun e he => Runs.forM fun ch _ => applyPBit_runs hm hp e he ch) fun _ => Runs.unit

theorem unquantizeEndpoints_runs {rom : Rom} {m : Bc7Mode} :
    Runs (Ends7 rom m) (unquantizeEndpoints m) fun _ s => Ends7 rom m s := by
  unfold unquantizeEndpoints
  refine Runs.forM fun e he => Runs.forM fun ch _ => ?_
  unfold unquantizeOne
  refine Runs.ite (fun _ => ?_) fun _ => Runs.writeWork fun _ h => h.set _ _
  refine (Runs.register fun s h => h.ends e he ch).bind fun v => Runs.writeWork fun _ h => h.2.set _ _

theorem Idx7.setPos {rom : Rom} {m : Bc7Mode} {s : State} (h : Idx7 rom m s) (p : BitVec 8) : Idx7 rom m (s.setPos p) :=
  ⟨h.toEnds7.setPos p, h.w1, h.w2⟩

theorem clearIndices_runs {rom : Rom} {m : Bc7Mode} :
    Runs (Ends7 rom m) clearIndices fun _ s => Idx7 rom m s := by
  refine Runs.writeWork fun s h => ⟨⟨⟨h.rom_eq, h.shape, h.rot, h.isel⟩, h.ends⟩, fun i => ⟨0, ?_, Nat.two_pow_pos _⟩,
    fun i => ⟨0, ?_, Nat.two_pow_pos _⟩⟩
  all_goals
    change (Vector.replicate 16 (some (0 : BitVec 4))).get i = some 0
    revert i
    decide

/-- Setting an index that fits keeps every index fitting. -/
theorem indices_set {v : Vector (Option (BitVec 4)) 16} {n : Nat} (h : ∀ i, ∃ x, v.get i = some x ∧ x.toNat < 2 ^ n)
    (k : Fin 16) {x : Nat} (hx : x < 2 ^ n) (i : Fin 16) :
    ∃ y, (v.set k (some (BitVec.ofNat 4 x))).get i = some y ∧ y.toNat < 2 ^ n := by
  rw [vec_set_get]
  split
  · exact ⟨_, rfl, lt_of_le_of_lt (Nat.mod_le _ _) hx⟩
  · exact h i

theorem indexBits_le (ip : Nat) (a : List Nat) (i : Fin 16) : indexBits ip a i ≤ ip := by
  unfold indexBits
  split <;> omega

theorem readPrimaryIndices_runs {rom : Rom} (hr : RomHas rom) {m : Bc7Mode} (hm : Mode7Has m) :
    Runs (Idx7 rom m) (readPrimaryIndices m) fun _ s => Idx7 rom m s := by
  unfold readPrimaryIndices
  refine Runs.forM fun i _ => ?_
  refine (Runs.register fun s h => h.shape).bind fun sh => ?_
  refine Runs.mono (P := Idx7 rom m) ?_ (fun _ h => h.2) fun _ _ h => h
  refine (Runs.romGet fun s h => ?_).bind fun an => ?_
  · rw [h.rom_eq]
    exact hr.anchors _ _ (by have := hm.pc; omega) sh.isLt
  refine Runs.mono (P := Idx7 rom m) ?_ (fun _ h => h.2) fun _ _ h => h
  have hb := indexBits_le m.ip1 an i
  refine (checkRoom_runs _).bind fun _ =>
    (Runs.rdBits (by have := hm.ip1; omega) fun _ p h => h.setPos p).bind fun v => Runs.writeWork fun s h => ?_
  exact ⟨⟨⟨h.2.rom_eq, h.2.shape, h.2.rot, h.2.isel⟩, h.2.ends⟩,
    indices_set h.2.w1 i (lt_of_lt_of_le h.1 (Nat.pow_le_pow_right (by decide) hb)), h.2.w2⟩

theorem readSecondaryIndices_runs {rom : Rom} {m : Bc7Mode} (hm : Mode7Has m) :
    Runs (Idx7 rom m) (readSecondaryIndices m) fun _ s => Idx7 rom m s := by
  unfold readSecondaryIndices
  refine Runs.ite (fun _ => Runs.forM fun i _ => ?_) fun _ => Runs.unit
  have hb := indexBits_le m.ip2 [0] i
  refine (checkRoom_runs _).bind fun _ =>
    (Runs.rdBits (by have := hm.ip2; omega) fun _ p h => h.setPos p).bind fun v => Runs.writeWork fun s h => ?_
  exact ⟨⟨⟨h.2.rom_eq, h.2.shape, h.2.rot, h.2.isel⟩, h.2.ends⟩, h.2.w1,
    indices_set h.2.w2 i (lt_of_lt_of_le h.1 (Nat.pow_le_pow_right (by decide) hb))⟩

/-- The chosen tracks have weights. -/
structure TracksOk (t : Tracks) : Prop where
  pcw : t.pcw = 2 ∨ t.pcw = 3 ∨ t.pcw = 4
  wc : t.wc < 2 ^ t.pcw
  paw : t.paw = 2 ∨ t.paw = 3 ∨ t.paw = 4
  wa : t.wa < 2 ^ t.paw

theorem pickTracks_ok {m : Bc7Mode} (hm : Mode7Has m) (is : BitVec 1) {a b : BitVec 4} (ha : a.toNat < 2 ^ m.ip1)
    (hb : b.toNat < 2 ^ m.ip2) : TracksOk (pickTracks m is a b) := by
  have h1 := hm.ip1
  have h2 := hm.ip2
  unfold pickTracks
  split
  · exact ⟨h1, ha, h1, ha⟩
  · split
    · exact ⟨h1, ha, by simp only; omega, hb⟩
    · exact ⟨by simp only; omega, hb, h1, ha⟩

theorem selectTracks_runs {rom : Rom} {m : Bc7Mode} (hm : Mode7Has m) (i : Fin 16) :
    Runs (Idx7 rom m) (selectTracks m i) fun t s => TracksOk t ∧ Idx7 rom m s := by
  unfold selectTracks
  refine (Runs.register fun s h => h.isel).bind fun is => ?_
  refine (Runs.register fun s h => ?_).bind fun a => ?_
  · obtain ⟨v, hv, -⟩ := h.2.w1 i
    rw [hv]; rfl
  refine (Runs.register fun s h => ?_).bind fun b => ?_
  · obtain ⟨v, hv, -⟩ := h.2.2.w2 i
    rw [hv]; rfl
  refine Runs.pure.mono (fun _ h => h) fun t s h => ?_
  obtain ⟨rfl, hb, ha, -, h⟩ := h
  obtain ⟨v, hv, hv2⟩ := h.w1 i
  obtain ⟨w, hw, hw2⟩ := h.w2 i
  rw [hv] at ha
  rw [hw] at hb
  obtain rfl := Option.some.inj ha
  obtain rfl := Option.some.inj hb
  exact ⟨pickTracks_ok hm is hv2 hw2, h⟩

theorem getC_runs {rom : Rom} {m : Bc7Mode} {e : Fin 6} (he : e ∈ endpoints6.take (endpointCount m)) (ch : Channel) :
    Runs (Idx7 rom m) (getC e ch) fun _ s => Idx7 rom m s :=
  Runs.mono (Runs.register fun _ h => h.ends e he ch) (fun _ h => h) fun _ _ h => h.2

theorem regionEnds_written {m : Bc7Mode} (hm : Mode7Has m) {r : Nat} (hr : r ≤ m.pc) :
    ∃ p, regionEnds r = some p ∧ p.1 ∈ endpoints6.take (endpointCount m) ∧ p.2 ∈ endpoints6.take (endpointCount m) := by
  have h := hm.pc
  have hc : r = 0 ∨ r = 1 ∨ r = 2 := by omega
  have h6 := endpointCount_le hm
  rcases hc with rfl | rfl | rfl
  all_goals
    refine ⟨_, rfl, (endpoints6_take _ h6 _).mpr ?_, (endpoints6_take _ h6 _).mpr ?_⟩ <;>
      (unfold endpointCount; simp only [Fin.isValue]; omega)

theorem texel7_runs {rom : Rom} (hr : RomHas rom) {m : Bc7Mode} (hm : Mode7Has m) (i : Fin 16) :
    Runs (Idx7 rom m) (texel7 m i) fun t s => t.full ∧ Idx7 rom m s := by
  unfold texel7
  refine (Runs.register fun s h => h.shape).bind fun sh => ?_
  obtain ⟨r0, hr0, hle⟩ := hr.region m.pc sh.toNat i.val hm.pc sh.isLt i.isLt
  obtain ⟨ends0, he0, hm1, hm2⟩ := regionEnds_written hm hle
  refine (Runs.romGet fun s h => ?_).bind fun r => ?_
  · rw [h.2.rom_eq, hr0]; rfl
  refine Runs.mono (P := fun s => r = r0 ∧ Idx7 rom m s) ?_ (fun s h => ⟨?_, h.2.2⟩) fun _ _ h => h
  swap
  · have := h.1
    rw [h.2.2.rom_eq, hr0] at this
    exact (Option.some.inj this).symm
  by_cases hrr : r = r0
  swap
  · exact fun s h => absurd h.1 hrr
  subst hrr
  refine Runs.mono (P := Idx7 rom m) ?_ (fun s h => h.2) fun _ _ h => h
  refine (Runs.romGet fun s h => ?_).bind fun ends => ?_
  · rw [he0]; rfl
  by_cases hee : ends = ends0
  swap
  · exact fun s h => absurd (Option.some.inj (h.1.symm.trans he0)) hee
  subst hee
  refine Runs.mono (P := Idx7 rom m) ?_ (fun s h => h.2) fun _ _ h => h
  refine (selectTracks_runs hm i).bind fun t => ?_
  refine (Runs.romGet fun s h => ?_).bind fun wc => ?_
  · rw [h.2.rom_eq]
    exact hr.weight _ _ h.1.pcw h.1.wc
  refine (Runs.romGet fun s h => ?_).bind fun wa => ?_
  · rw [h.2.2.rom_eq]
    exact hr.weight _ _ h.2.1.paw h.2.1.wa
  refine Runs.mono (P := Idx7 rom m) ?_ (fun s h => h.2.2.2) fun _ _ h => h
  refine (getC_runs hm1 _).bind fun _ => (getC_runs hm2 _).bind fun _ => (getC_runs hm1 _).bind fun _ =>
    (getC_runs hm2 _).bind fun _ => (getC_runs hm1 _).bind fun _ => (getC_runs hm2 _).bind fun _ =>
    (getC_runs hm1 _).bind fun _ => (getC_runs hm2 _).bind fun _ => ?_
  refine (Runs.register fun s h => h.rot).bind fun rot => Runs.pure.mono (fun _ h => h) fun t s h => ?_
  obtain ⟨rfl, -, h⟩ := h
  exact ⟨⟨rfl, rfl, rfl, rfl⟩, h⟩

theorem body7_runs {rom : Rom} (hr : RomHas rom) {m : Bc7Mode} (hm : Mode7Has m) :
    Runs (fun s => s.cfg.rom = rom) (body7 m) fun t _ => ∀ i, (t.get i).full := by
  unfold body7
  exact (readSelectors_runs hm).bind fun _ => (readEndpoints_runs hm).bind fun _ => readPBits_runs.bind fun _ =>
    (applyPBits_runs hm).bind fun _ => unquantizeEndpoints_runs.bind fun _ => clearIndices_runs.bind fun _ =>
    (readPrimaryIndices_runs hr hm).bind fun _ => (readSecondaryIndices_runs hm).bind fun _ =>
    (Runs.emit16 fun i => texel7_runs hr hm i).mono (fun _ h => h) fun _ _ h => h.1

/-- `DEC.BC7` with an admissible ROM: a tile with every channel, or an event. -/
theorem decodeBc7_runs {rom : Rom} (hr : RomHas rom) :
    Runs (fun s => s.cfg.rom = rom) decodeBc7 fun t _ => ∀ i, (t.get i).full := by
  unfold decodeBc7
  refine (readMode7_runs 8 0).bind fun m7 => ?_
  refine (Runs.writeWork (Q := fun s => m7 ≤ 8 ∧ s.cfg.rom = rom) fun _ h => ⟨by have := h.1; omega, h.2⟩).bind fun _ => ?_
  refine Runs.ite (fun _ => Runs.raise (by decide)) fun h8 => ?_
  by_cases hlt : m7 < 8
  swap
  · exact fun s h => absurd h.1 (by omega)
  obtain ⟨m, hm, hok⟩ := hr.mode7 m7 hlt
  refine (Runs.romGet fun s h => ?_).bind fun m' => ?_
  · rw [h.2, hm]; rfl
  intro s h
  obtain ⟨h1, -, h2⟩ := h
  rw [h2, hm] at h1
  obtain rfl := Option.some.inj h1
  exact body7_runs hr (Mode7Has.of_ok hok) s h2

end Sys2Proof.Machine
end

