-- ==== Sys2Proof/Laws/Exact.lean ====
section
/-!
SUPPORT. Exact laws of the pieces of a decode: from a state whose cursor, latches and working registers are known, a piece
delivers a known value and leaves known registers, with the cursor at a known place. No piece overflows when the bits it
reads are there (R202).
-/

namespace Sys2Proof.Machine

/-- From a state in `P`, a piece of a decode delivers a value and a state in `Q`. -/
def Goes {α : Type} (P : State → Prop) (p : Dec α) (Q : α → State → Prop) : Prop :=
  ∀ s, P s → ∃ a t, p s = .ok a t ∧ Q a t

/-- The ROM and the block are given ones, the block is 128 bits long, the cursor is at bit `n`, and the working registers
have a property. -/
structure At (rom : Rom) (b : Block) (n : Nat) (R : Work → Prop) (s : State) : Prop where
  rom_eq : s.cfg.rom = rom
  blk : s.blk = b
  len : lenBits s.fmt = 128
  pos : s.pos.toNat = n
  work : R s.work

section
variable {α β : Type} {rom : Rom} {b : Block} {n : Nat} {R R' : Work → Prop}

theorem Goes.mono {P P' : State → Prop} {p : Dec α} {Q Q' : α → State → Prop} (h : Goes P p Q) (hp : ∀ s, P' s → P s)
    (hq : ∀ a s, Q a s → Q' a s) : Goes P' p Q' := by
  intro s hs
  obtain ⟨a, t, e, hq'⟩ := h s (hp s hs)
  exact ⟨a, t, e, hq a t hq'⟩

/-- A piece that delivers one known value, then the rest on that value. -/
theorem Goes.bind {P : State → Prop} {p : Dec α} {a : α} {Q : State → Prop} {f : α → Dec β} {T : β → State → Prop}
    (h : Goes P p fun x s => x = a ∧ Q s) (hf : Goes Q (f a) T) : Goes P (p >>= f) T := by
  intro s hs
  obtain ⟨x, t, e, rfl, hq⟩ := h s hs
  obtain ⟨y, u, e', ht⟩ := hf t hq
  exact ⟨y, u, by rw [dec_bind, e]; exact e', ht⟩

/-- A piece without a value, then the rest. -/
theorem Goes.seq {P : State → Prop} {p : Dec PUnit} {Q : State → Prop} {f : PUnit → Dec β} {T : β → State → Prop}
    (h : Goes P p fun _ s => Q s) (hf : Goes Q (f ⟨⟩) T) : Goes P (p >>= f) T :=
  Goes.bind (a := ⟨⟩) (h.mono (fun _ h => h) fun _ _ h => ⟨rfl, h⟩) hf

theorem Goes.pure {P : State → Prop} {a : α} : Goes P (pure a : Dec α) fun x s => x = a ∧ P s :=
  fun s hs => ⟨a, s, rfl, rfl, hs⟩

theorem Goes.unit {P : State → Prop} : Goes P (Pure.pure () : Dec Unit) fun _ s => P s := fun s hs => ⟨(), s, rfl, hs⟩

/-- A loop over a list, by position. -/
theorem Goes.forM {l : List α} {f : α → Dec PUnit} {P : Nat → State → Prop}
    (h : ∀ k (hk : k < l.length), Goes (P k) (f l[k]) fun _ s => P (k + 1) s) :
    Goes (P 0) (l.forM f) fun _ s => P l.length s := by
  induction l generalizing P with
  | nil => exact fun s hs => ⟨⟨⟩, s, rfl, hs⟩
  | cons a l ih =>
    refine Goes.seq (h 0 (Nat.succ_pos _)) (ih (P := fun k => P (k + 1)) fun k hk => ?_)
    exact h (k + 1) (Nat.succ_lt_succ hk)

theorem At.imp {s : State} (h : At rom b n R s) (hr : ∀ w, R w → R' w) : At rom b n R' s :=
  ⟨h.rom_eq, h.blk, h.len, h.pos, hr _ h.work⟩

/-- A cursor read that fits (R200). -/
theorem At.rdBits {w : Nat} (hw : w ≤ 8) (hn : n + w ≤ 128) :
    Goes (At rom b n R) (rdBits w) fun v s => v = memRead b n w ∧ At rom b (n + w) R s := by
  intro s h
  have hl : s.pos.toNat + w ≤ lenBits s.fmt := by rw [h.len, h.pos]; exact hn
  refine ⟨_, _, rdBits_ok hw hl, by rw [h.blk, h.pos], h.rom_eq, h.blk, h.len, ?_, h.work⟩
  rw [← h.pos]
  exact pos_after hl

theorem At.register {nm : String} {f : Work → Option α} {a : α} (h : ∀ w, R w → f w = some a) :
    Goes (At rom b n R) (register nm f) fun x s => x = a ∧ At rom b n R s :=
  fun s hs => ⟨a, s, register_some (h _ hs.work), rfl, hs⟩

theorem At.romGet {f : Rom → Option α} {a : α} (h : f rom = some a) :
    Goes (At rom b n R) (romGet f) fun x s => x = a ∧ At rom b n R s :=
  fun s hs => ⟨a, s, romGet_some (by rw [hs.rom_eq]; exact h), rfl, hs⟩

theorem At.writeWork {g : Work → Work} (h : ∀ w, R w → R' (g w)) :
    Goes (At rom b n R) (writeWork g) fun _ s => At rom b n R' s :=
  fun _ hs => ⟨(), _, rfl, hs.rom_eq, hs.blk, hs.len, hs.pos, h _ hs.work⟩

/-- Sixteen texels, each a known value that leaves the state alone. -/
theorem Goes.emit16 {P : State → Prop} {f : Fin 16 → Dec α} {g : Fin 16 → α}
    (h : ∀ i, Goes P (f i) fun x s => x = g i ∧ P s) : Goes P (emit16 f) fun x s => x = tab16 g ∧ P s := by
  unfold Machine.emit16
  refine (h 0).bind <| (h 1).bind <| (h 2).bind <| (h 3).bind <| (h 4).bind <| (h 5).bind <| (h 6).bind <| (h 7).bind <|
    (h 8).bind <| (h 9).bind <| (h 10).bind <| (h 11).bind <| (h 12).bind <| (h 13).bind <| (h 14).bind <|
    (h 15).bind Goes.pure

end

/-! ### Bits of a block and bits of a field -/

theorem memRead_field {b : Block} {base k : Nat} {v : BitVec k} (h : b.extractLsb' base k = v) {j w : Nat}
    (hj : j + w ≤ k) : memRead b (base + j) w = Reference.bitsOf v j w := by
  subst h
  unfold memRead Reference.bitsOf
  rw [BitVec.extractLsb'_toNat, Nat.shiftRight_eq_div_pow, Nat.shiftRight_eq_div_pow, Nat.pow_add, ← Nat.div_div_eq_div_mul]
  generalize b.toNat / 2 ^ base = x
  obtain ⟨d, rfl⟩ := Nat.exists_eq_add_of_le hj
  have : 2 ^ (j + w + d) = 2 ^ j * (2 ^ w * 2 ^ d) := by rw [Nat.pow_add, Nat.pow_add, Nat.mul_assoc]
  rw [this, Nat.mod_mul_right_div_self, Nat.mod_mul_right_mod]

/-! ### Index streams -/

/-- Where the index of texel `i` starts in an index stream (R141, R146). -/
def indexStart (ip : Nat) (anchors : List Nat) (i : Nat) : Nat := ip * i - anchors.countP (· < i)

/-- Anchors of a shape: texel 0 and others, each once, each with a bit to spare. -/
structure AnchorsOk (ip : Nat) (anchors : List Nat) : Prop where
  nodup : anchors.Nodup
  ip : 1 ≤ ip

theorem countP_lt_succ {l : List Nat} (h : l.Nodup) (i : Nat) :
    l.countP (· < i + 1) = l.countP (· < i) + if i ∈ l then 1 else 0 := by
  induction l with
  | nil => rfl
  | cons a l ih =>
    have ha := List.nodup_cons.mp h
    rw [List.countP_cons, List.countP_cons, ih ha.2]
    by_cases e : i = a
    · subst e
      simp [ha.1]
    · simp only [List.mem_cons, e, false_or]
      have : (decide (a < i + 1) = true) ↔ (decide (a < i) = true) := by simp; omega
      simp only [this]
      omega

theorem countP_lt_le {l : List Nat} (h : l.Nodup) (i : Nat) : l.countP (· < i) ≤ i := by
  induction i with
  | zero => simp
  | succ i ih =>
    rw [countP_lt_succ h]
    split <;> omega

/-- An index stream is contiguous. -/
theorem indexStart_succ {ip : Nat} {anchors : List Nat} (h : AnchorsOk ip anchors) (i : Nat) :
    indexStart ip anchors (i + 1) = indexStart ip anchors i + if i ∈ anchors then ip - 1 else ip := by
  unfold indexStart
  rw [countP_lt_succ h.nodup, Nat.mul_succ]
  have h1 := countP_lt_le h.nodup i
  have h2 : i ≤ ip * i := Nat.le_mul_of_pos_left i h.ip
  have := h.ip
  split <;> omega

theorem indexStart_zero (ip : Nat) (anchors : List Nat) : indexStart ip anchors 0 = 0 := by simp [indexStart]

theorem indexStart_le {ip : Nat} {anchors : List Nat} (h : AnchorsOk ip anchors) {i : Nat} (hi : i < 16) :
    indexStart ip anchors i + (if i ∈ anchors then ip - 1 else ip) ≤ indexStart ip anchors 16 := by
  rw [← indexStart_succ h]
  obtain ⟨d, hd⟩ := Nat.exists_eq_add_of_le (Nat.succ_le_of_lt hi)
  rw [show (16 : Nat) = i + 1 + d from hd]
  clear hd hi
  induction d with
  | zero => exact Nat.le_refl _
  | succ d ih =>
    refine ih.trans ?_
    rw [show i + 1 + (d + 1) = (i + 1 + d) + 1 by omega, indexStart_succ h]
    exact Nat.le_add_right _ _

theorem indexBits_eq (ip : Nat) (anchors : List Nat) (i : Fin 16) :
    indexBits ip anchors i = if i.val ∈ anchors then ip - 1 else ip := by
  unfold indexBits
  simp only [List.contains_iff_mem]

end Sys2Proof.Machine
end

