-- ==== Sys2Proof/Laws/Bc6hSteps.lean ====
section
/-!
SUPPORT. What each step of `DEC.BC6H` (R290) does, with the bits it reads named by their place in the block.
-/

namespace Sys2Proof.Machine

section
variable {rom : Rom} {b : Block} {n : Nat} {m : Bc6Mode}

/-- The BC6H registers have a property, and no other working register is written. -/
def W6 (Q : Bc6Regs → Prop) (w : Work) : Prop := w = { Work.unwritten with bc6 := w.bc6 } ∧ Q w.bc6

theorem W6.set {Q Q' : Bc6Regs → Prop} {h : Bc6Regs → Bc6Regs} (hq : ∀ r, Q r → Q' (h r)) (w : Work) (hw : W6 Q w) :
    W6 Q' { w with bc6 := h w.bc6 } := by
  refine ⟨?_, hq _ hw.2⟩
  rw [hw.1]

theorem W6.imp {Q Q' : Bc6Regs → Prop} (h : ∀ r, Q r → Q' r) (w : Work) (hw : W6 Q w) : W6 Q' w := ⟨hw.1, h _ hw.2⟩

/-! ### The mode -/

/-- `ReadMode6` (R291): a two-bit code. -/
theorem At.readMode6_two {R : Work → Prop} (hn : n + 2 ≤ 128) (h : memRead b n 2 < 2) :
    Goes (At rom b n R) readMode6 fun v s => v = memRead b n 2 ∧ At rom b (n + 2) R s := by
  unfold Machine.readMode6
  refine Goes.bind (At.rdBits (by decide) hn) ?_
  rw [if_pos (by omega)]
  exact Goes.pure

/-- `ReadMode6` (R291): a five-bit code. -/
theorem At.readMode6_five {R : Work → Prop} (hn : n + 5 ≤ 128) (h : 2 ≤ memRead b n 2) :
    Goes (At rom b n R) readMode6 fun v s =>
      v = (memRead b (n + 2) 3 <<< 2 ||| memRead b n 2) ∧ At rom b (n + 5) R s := by
  unfold Machine.readMode6
  refine Goes.bind (At.rdBits (by decide) (by omega)) ?_
  rw [if_neg (by omega)]
  exact Goes.bind (At.rdBits (by decide) hn) Goes.pure

/-! ### The header -/

/-- The number that the set bits of the block give the entries chosen by `p`, among the entries `ds` for the bits from bit
`k` on (R295). -/
def gathered (b : Block) (p : Desc → Bool) : Nat → List Desc → Nat → Nat
  | _, [], a => a
  | k, d :: ds, a => gathered b p (k + 1) ds (if p d && b.getLsbD k then a ||| 1 <<< d.n else a)

/-- An entry of an accumulator. -/
def isAcc (l : Letter) (c : Rgb3) (d : Desc) : Bool := d.tag == .acc c l

/-- An entry of the shape. -/
def isShape (d : Desc) : Bool := d.tag == .D

/-- An entry that a header bit may have (R180, R296). -/
def placeable (d : Desc) : Bool :=
  match d.tag with
  | .D => decide (d.n < 5)
  | .acc .. => true
  | .M => false
  | .NA => false
  | .other => false

/-- Shape and accumulators hold given numbers. -/
structure Header (sh : Nat) (acc : Letter → Rgb3 → Nat) (r : Bc6Regs) : Prop where
  shape : r.shape = some (BitVec.ofNat 5 sh)
  acc : ∀ l c, r.acc.get (slot6 l c) = some (acc l c)

theorem slot6_inj {l l' : Letter} {c c' : Rgb3} : slot6 l c = slot6 l' c' ↔ l = l' ∧ c = c' := by
  cases l <;> cases c <;> cases l' <;> cases c' <;> decide

/-- One set bit of the header (R295). -/
theorem At.placeBit {sh : Nat} {acc : Letter → Rgb3 → Nat} {d : Desc} (hd : placeable d = true) :
    Goes (At rom b n (W6 (Header sh acc))) (placeBit d) fun _ s =>
      At rom b n (W6 (Header (if isShape d then sh ||| 1 <<< d.n else sh)
        fun l c => if isAcc l c d then acc l c ||| 1 <<< d.n else acc l c)) s := by
  obtain ⟨t, k⟩ := d
  unfold Machine.placeBit
  cases t with
  | D =>
    refine Goes.bind (At.register fun w h => h.2.shape) (At.writeWork (W6.set
      (h := fun r => { r with shape := some (setShapeBit (BitVec.ofNat 5 sh) k) }) fun r h => ⟨?_, h.acc⟩))
    show some (setShapeBit (BitVec.ofNat 5 sh) k) = some (BitVec.ofNat 5 (sh ||| 1 <<< k))
    congr 1
    unfold setShapeBit
    rw [if_pos (of_decide_eq_true hd)]
    apply BitVec.eq_of_toNat_eq
    simp only [BitVec.toNat_or, BitVec.toNat_shiftLeft, BitVec.toNat_ofNat, Nat.or_mod_two_pow]
  | acc c l =>
    refine Goes.bind (At.register fun w h => h.2.acc l c) (At.writeWork (W6.set
      (h := fun r => { r with acc := r.acc.set (slot6 l c) (some (acc l c ||| 1 <<< k)) }) fun r h => ⟨h.shape, fun l' c' => ?_⟩))
    show (r.acc.set _ _).get _ = _
    rw [vec_set_get]
    by_cases e : slot6 l c = slot6 l' c'
    · obtain ⟨rfl, rfl⟩ := slot6_inj.mp e
      rw [if_pos rfl, if_pos (by simp [isAcc])]
    · have : ¬ (l = l' ∧ c = c') := fun h => e (slot6_inj.mpr h)
      rw [if_neg e, if_neg (by simp [isAcc]; tauto), h.acc]
  | M => cases hd
  | NA => cases hd
  | other => cases hd

/-- `ReadHeader` (R295) from bit `n` to the end `hb` of the header, whose entries are `ds`. -/
theorem At.readHeader {mi hb : Nat} {ds : List Desc} (hlen : n + ds.length = hb) (hb128 : hb ≤ 128)
    (hd : ∀ j d, ds[j]? = some d → romDesc rom mi (n + j) = some d ∧ placeable d = true) {sh : Nat}
    {acc : Letter → Rgb3 → Nat} {fuel : Nat} (hf : ds.length ≤ fuel) :
    Goes (At rom b n (W6 (Header sh acc))) (readHeader mi hb fuel) fun _ s =>
      At rom b hb (W6 (Header (gathered b isShape n ds sh) fun l c => gathered b (isAcc l c) n ds (acc l c))) s := by
  induction ds generalizing n sh acc fuel with
  | nil =>
    have hn : n = hb := hlen
    subst hn
    cases fuel with
    | zero => exact Goes.unit
    | succ fuel =>
      intro s hs
      refine ⟨(), s, ?_, hs⟩
      unfold Machine.readHeader
      rw [dec_bind, dec_get]
      show (if s.pos.toNat < n then _ else _ : Dec Unit) s = _
      rw [if_neg (by rw [hs.pos]; omega)]
      rfl
  | cons d ds ih =>
    obtain ⟨f, rfl⟩ : ∃ f, fuel = f + 1 := ⟨fuel - 1, by simp only [List.length_cons] at hf; omega⟩
    simp only [List.length_cons] at hlen hf
    obtain ⟨hdn, hp⟩ := hd 0 d rfl
    have hih : ∀ {sh acc}, Goes (At rom b (n + 1) (W6 (Header sh acc))) (Machine.readHeader mi hb f) fun _ s =>
        At rom b hb (W6 (Header (gathered b isShape (n + 1) ds sh) fun l c => gathered b (isAcc l c) (n + 1) ds (acc l c))) s :=
      ih (by omega) (fun j d h => by rw [Nat.add_assoc, Nat.add_comm 1]; exact hd (j + 1) d h) (by omega)
    intro s hs
    unfold Machine.readHeader
    rw [dec_bind, dec_get]
    show ∃ a t, (if s.pos.toNat < hb then _ else _ : Dec Unit) s = .ok a t ∧ _
    rw [if_pos (by rw [hs.pos]; omega)]
    refine Goes.bind (At.rdBits (w := 1) (R := W6 (Header sh acc)) (by decide) (by omega)) ?_ s hs
    have hbit : memRead b n 1 = (b.getLsbD n).toNat := by
      unfold memRead BitVec.getLsbD
      rw [pow_one, Nat.testBit, Nat.and_comm, Nat.and_one_is_mod]
      have := Nat.mod_two_eq_zero_or_one (b.toNat >>> n)
      rcases this with h | h <;> rw [h] <;> rfl
    simp only [gathered]
    cases hg : b.getLsbD n with
    | false =>
      simp only [Bool.and_false, Bool.false_eq_true, if_false]
      rw [hbit, hg]
      exact hih
    | true =>
      simp only [Bool.and_true]
      rw [hbit, hg]
      have hpos : s.pos.toNat + 0 = n + 0 := by rw [hs.pos]
      refine Goes.bind (At.romGet (a := d) (by rw [← Nat.add_zero s.pos.toNat, hpos]; exact hdn)) ?_
      exact Goes.seq (At.placeBit hp) hih

/-- `ClearAccumulators` (R294). -/
theorem At.clearAccumulators {Q : Bc6Regs → Prop} :
    Goes (At rom b n (W6 Q)) clearAccumulators fun _ s => At rom b n (W6 (Header 0 fun _ _ => 0)) s := by
  refine At.writeWork (W6.set (h := fun r => { r with shape := some 0, acc := Vector.replicate 12 (some 0) }) fun r _ =>
    ⟨rfl, fun l c => ?_⟩)
  show (Vector.replicate 12 (some 0)).get (slot6 l c) = _
  cases l <;> cases c <;> rfl

/-! ### Endpoints -/

/-- The shape, and the endpoint channels by a table of values. -/
structure Ends (sh : Nat) (val : Letter → Rgb3 → Int) (r : Bc6Regs) : Prop where
  shape : r.shape = some (BitVec.ofNat 5 sh)
  ep : ∀ l c, r.ep.get (slot6 l c) = some (val l c)

/-- The table with one entry replaced. -/
def putEp (val : Letter → Rgb3 → Int) (l : Letter) (c : Rgb3) (v : Int) : Letter → Rgb3 → Int :=
  fun l' c' => if l' = l ∧ c' = c then v else val l' c'

theorem At.getEp {sh : Nat} {val : Letter → Rgb3 → Int} (l : Letter) (c : Rgb3) :
    Goes (At rom b n (W6 (Ends sh val))) (getEp l c) fun x s => x = val l c ∧ At rom b n (W6 (Ends sh val)) s :=
  At.register fun _ h => h.2.ep l c

theorem At.setEp {sh : Nat} {val : Letter → Rgb3 → Int} (l : Letter) (c : Rgb3) (v : Int) :
    Goes (At rom b n (W6 (Ends sh val))) (setEp l c v) fun _ s => At rom b n (W6 (Ends sh (putEp val l c v))) s := by
  refine At.writeWork (W6.set (h := fun r => { r with ep := r.ep.set (slot6 l c) (some v) }) fun r h => ⟨h.shape, fun l' c' => ?_⟩)
  show (r.ep.set _ _).get _ = _
  rw [vec_set_get]
  unfold putEp
  by_cases e : slot6 l c = slot6 l' c'
  · obtain ⟨rfl, rfl⟩ := slot6_inj.mp e
    rw [if_pos rfl, if_pos ⟨rfl, rfl⟩]
  · rw [if_neg e, if_neg fun h => e (slot6_inj.mpr ⟨h.1.symm, h.2.symm⟩), h.ep]

/-- A pass over the three channels of a letter, each replaced by a value that the letter's own other channels do not
enter. -/
theorem At.passRgb {sh : Nat} {val : Letter → Rgb3 → Int} {l : Letter} {f : Rgb3 → Dec Unit}
    (g : Rgb3 → (Letter → Rgb3 → Int) → Int) (hg : ∀ c c' val v, c ≠ c' → g c (putEp val l c' v) = g c val)
    (hf : ∀ c val, Goes (At rom b n (W6 (Ends sh val))) (f c) fun _ s =>
      At rom b n (W6 (Ends sh (putEp val l c (g c val)))) s) :
    Goes (At rom b n (W6 (Ends sh val))) (forRgb f) fun _ s =>
      At rom b n (W6 (Ends sh fun l' c => if l' = l then g c val else val l' c)) s := by
  unfold forRgb
  refine (Goes.seq (hf .R val) (Goes.seq (hf .G _) (hf .B _))).mono (fun _ h => h) fun _ s h => ?_
  rw [hg .G .R _ _ (by decide), hg .B .G _ _ (by decide), hg .B .R _ _ (by decide)] at h
  refine h.imp (W6.imp fun r h => ⟨h.shape, fun l' c' => ?_⟩)
  rw [h.ep]
  unfold putEp
  by_cases e : l' = l
  · cases c' <;> simp [e]
  · simp [e]

/-- The sign extension of a letter (R298). -/
def extendEp (m : Bc6Mode) (l : Letter) (val : Letter → Rgb3 → Int) : Letter → Rgb3 → Int :=
  fun l' c => if l' = l then sext (prec6 m l c) (val l c) else val l' c

/-- The inverse transform of a letter (R299). -/
def transformEp (m : Bc6Mode) (signed : Bool) (l : Letter) (val : Letter → Rgb3 → Int) : Letter → Rgb3 → Int :=
  fun l' c => if l' = l then
      (if signed then sext (prec6 m .W c) ((val l c + val .W c) % 2 ^ prec6 m .W c)
        else (val l c + val .W c) % 2 ^ prec6 m .W c)
    else val l' c

theorem At.extendRgb {sh : Nat} {val : Letter → Rgb3 → Int} (l : Letter) :
    Goes (At rom b n (W6 (Ends sh val))) (forRgb (extendOne m l)) fun _ s =>
      At rom b n (W6 (Ends sh (extendEp m l val))) s := by
  refine At.passRgb (fun c val => sext (prec6 m l c) (val l c)) (fun c c' val v h => ?_) fun c val => ?_
  · simp [putEp, h]
  · exact Goes.bind (At.getEp l c) (At.setEp l c _)

theorem At.transformRgb {sh : Nat} {val : Letter → Rgb3 → Int} {signed : Bool} (l : Letter) :
    Goes (At rom b n (W6 (Ends sh val))) (forRgb (transformOne m signed l)) fun _ s =>
      At rom b n (W6 (Ends sh (transformEp m signed l val))) s := by
  refine At.passRgb (fun c val => if signed then sext (prec6 m .W c) ((val l c + val .W c) % 2 ^ prec6 m .W c)
    else (val l c + val .W c) % 2 ^ prec6 m .W c) (fun c c' val v h => ?_) fun c val => ?_
  · simp [putEp, h]
  · exact Goes.bind (At.getEp .W c) (Goes.bind (At.getEp l c) (At.setEp l c _))

/-- The endpoints after `SignExtend` (R298). -/
def signedEp (m : Bc6Mode) (signed : Bool) (val : Letter → Rgb3 → Int) : Letter → Rgb3 → Int :=
  let v := if signed then extendEp m .W val else val
  if signed || m.tr then
    if m.pc ≠ 0 then extendEp m .Z (extendEp m .Y (extendEp m .X v)) else extendEp m .X v
  else v

/-- `SignExtend` (R298). -/
theorem At.signExtend {sh : Nat} {val : Letter → Rgb3 → Int} {signed : Bool} :
    Goes (At rom b n (W6 (Ends sh val))) (signExtend m signed) fun _ s =>
      At rom b n (W6 (Ends sh (signedEp m signed val))) s := by
  unfold Machine.signExtend
  dsimp only
  have h2 : ∀ v, Goes (At rom b n (W6 (Ends sh v))) (if signed || m.tr then do
        forRgb (extendOne m .X)
        if m.pc ≠ 0 then
          forRgb (extendOne m .Y)
          forRgb (extendOne m .Z)
      else Pure.pure ()) fun _ s => At rom b n (W6 (Ends sh (if signed || m.tr then
        if m.pc ≠ 0 then extendEp m .Z (extendEp m .Y (extendEp m .X v))
        else extendEp m .X v else v))) s := by
    intro v
    split
    · refine Goes.seq (At.extendRgb .X) ?_
      split
      · exact Goes.seq (At.extendRgb .Y) (At.extendRgb .Z)
      · exact Goes.unit
    · exact Goes.unit
  unfold signedEp
  cases signed with
  | true => exact Goes.seq (At.extendRgb .W) (h2 _)
  | false => exact h2 val

/-- The endpoints after `InverseTransform` (R299). -/
def transformedEp (m : Bc6Mode) (signed : Bool) (val : Letter → Rgb3 → Int) : Letter → Rgb3 → Int :=
  let v := transformEp m signed .X val
  if m.pc = 1 then transformEp m signed .Z (transformEp m signed .Y v) else v

/-- `InverseTransform` (R299). -/
theorem At.inverseTransform {sh : Nat} {val : Letter → Rgb3 → Int} {signed : Bool} :
    Goes (At rom b n (W6 (Ends sh val))) (inverseTransform m signed) fun _ s =>
      At rom b n (W6 (Ends sh (transformedEp m signed val))) s := by
  unfold Machine.inverseTransform transformedEp
  refine Goes.seq (At.transformRgb .X) ?_
  split
  · exact Goes.seq (At.transformRgb .Y) (At.transformRgb .Z)
  · exact Goes.unit

/-- The endpoint channels of the first letters, as `AssembleEndpoints` fills them. -/
structure Filled (sh : Nat) (av : Letter → Rgb3 → Nat) (k : Nat) (r : Bc6Regs) : Prop extends Header sh av r where
  ep : ∀ l c, (slot6 l c).val < k → r.ep.get (slot6 l c) = some (av l c : Int)

theorem At.fillOne {sh : Nat} {acc : Letter → Rgb3 → Nat} {k : Nat} (l : Letter) (c : Rgb3) (hk : (slot6 l c).val = k) :
    Goes (At rom b n (W6 (Filled sh acc k))) (assembleOne l c) fun _ s => At rom b n (W6 (Filled sh acc (k + 1))) s := by
  refine Goes.bind (At.register fun w h => h.2.acc l c) (At.writeWork (W6.set
    (h := fun r => { r with ep := r.ep.set (slot6 l c) (some (acc l c : Int)) }) fun r h => ⟨⟨h.shape, h.acc⟩, fun l' c' hl => ?_⟩))
  show (r.ep.set _ _).get _ = _
  rw [vec_set_get]
  by_cases e : slot6 l c = slot6 l' c'
  · obtain ⟨rfl, rfl⟩ := slot6_inj.mp e
    rw [if_pos rfl]
  · rw [if_neg e]
    have := Fin.val_ne_of_ne e
    exact h.ep l' c' (by omega)

/-- `AssembleEndpoints` (R297). -/
theorem At.assembleEndpoints {sh : Nat} {acc : Letter → Rgb3 → Nat} :
    Goes (At rom b n (W6 (Header sh acc))) assembleEndpoints fun _ s =>
      At rom b n (W6 (Ends sh fun l c => (acc l c : Int))) s := by
  have h : ∀ l k, (slot6 l .R).val = k → Goes (At rom b n (W6 (Filled sh acc k))) (forRgb (assembleOne l)) fun _ s =>
      At rom b n (W6 (Filled sh acc (k + 3))) s := by
    intro l k hk
    exact Goes.seq (At.fillOne l .R hk) (Goes.seq (At.fillOne l .G (by rw [← hk]; cases l <;> rfl))
      (At.fillOne l .B (by rw [← hk]; cases l <;> rfl)))
  unfold Machine.assembleEndpoints
  refine Goes.mono (P := At rom b n (W6 (Filled sh acc 0)))
    (Goes.seq (h .W 0 rfl) (Goes.seq (h .X 3 rfl) (Goes.seq (h .Y 6 rfl) (h .Z 9 rfl))))
    (fun _ h => h.imp (W6.imp fun r h => ⟨h, fun l c hl => absurd hl (Nat.not_lt_zero _)⟩))
    fun _ s h => h.imp (W6.imp fun r h => ⟨h.shape, fun l c => h.ep l c (slot6 l c).isLt⟩)

/-! ### Texels -/

/-- Sixteen texels that move the cursor, each a known value. -/
theorem Goes.emit16_at {α : Type} {P : Nat → State → Prop} {f : Fin 16 → Dec α} {g : Fin 16 → α}
    (h : ∀ i : Fin 16, Goes (P i.val) (f i) fun x s => x = g i ∧ P (i.val + 1) s) :
    Goes (P 0) (Machine.emit16 f) fun x s => x = tab16 g ∧ P 16 s := by
  unfold Machine.emit16
  refine (h 0).bind <| (h 1).bind <| (h 2).bind <| (h 3).bind <| (h 4).bind <| (h 5).bind <| (h 6).bind <| (h 7).bind <|
    (h 8).bind <| (h 9).bind <| (h 10).bind <| (h 11).bind <| (h 12).bind <| (h 13).bind <| (h 14).bind <|
    (h 15).bind Goes.pure

/-- The index of texel `i` in a stream that begins at bit `n` (R300). -/
def index6 (b : Block) (n ip : Nat) (anchors : List Nat) (i : Fin 16) : Nat :=
  memRead b (n + indexStart ip anchors i.val) (indexBits ip anchors i)

/-- `ReadIndex6` (R300, R301) for texel `i` of a stream that begins at bit `n`. -/
theorem At.readIndex6 {sh : BitVec 5} {val : Letter → Rgb3 → Int} {anchors : List Nat} {i : Fin 16}
    (ha : romAnchors rom m.pc sh.toNat = some anchors) (hk : AnchorsOk m.ip anchors) (hip : m.ip ≤ 8)
    (hl : 2 ^ m.ip ≤ indexLimit m.pc) (hn : n + indexStart m.ip anchors 16 ≤ 128) :
    Goes (At rom b (n + indexStart m.ip anchors i.val) (W6 (Ends sh.toNat val))) (readIndex6 m i) fun x s =>
      x = index6 b n m.ip anchors i ∧ At rom b (n + indexStart m.ip anchors (i.val + 1)) (W6 (Ends sh.toNat val)) s := by
  have hle := indexStart_le hk i.isLt
  have hb := indexBits_le m.ip anchors i
  rw [← indexBits_eq] at hle
  unfold Machine.readIndex6
  refine Goes.bind (At.register fun w h => h.2.shape) ?_
  refine Goes.bind (At.romGet (a := anchors) (by rw [BitVec.ofNat_toNat, BitVec.setWidth_eq]; exact ha)) ?_
  intro s hs
  rw [dec_bind, dec_get]
  dsimp only
  rw [if_neg (by rw [hs.pos]; omega)]
  refine Goes.bind (At.rdBits (R := W6 (Ends sh.toNat val)) (by omega) (by omega)) ?_ s hs
  have hlt : memRead b (n + indexStart m.ip anchors i.val) (indexBits m.ip anchors i) < indexLimit m.pc :=
    lt_of_lt_of_le (memRead_lt _ _ _) ((Nat.pow_le_pow_right (by decide) hb).trans hl)
  rw [if_neg (by omega), indexStart_succ hk, ← indexBits_eq, ← Nat.add_assoc]
  exact Goes.seq (At.writeWork (W6.set (h := fun r => { r with ix := _ }) fun r h => ⟨h.shape, h.ep⟩)) Goes.pure

/-- A texel between two endpoint letters (R303 to R309). -/
def texelBetween6 (m : Bc6Mode) (signed : Bool) (val : Letter → Rgb3 → Int) (p : Letter × Letter) (w : Nat) : Texel :=
  ⟨some (channel6 signed m.w.r (val p.1 .R) (val p.2 .R) w), some (channel6 signed m.w.g (val p.1 .G) (val p.2 .G) w),
    some (channel6 signed m.w.b (val p.1 .B) (val p.2 .B) w), some 255⟩

/-- One texel (R300 to R309). -/
theorem At.texel6 {sh : BitVec 5} {val : Letter → Rgb3 → Int} {signed : Bool} {anchors : List Nat} {i : Fin 16} {r w : Nat}
    {p : Letter × Letter} (ha : romAnchors rom m.pc sh.toNat = some anchors) (hk : AnchorsOk m.ip anchors) (hip : m.ip ≤ 8)
    (hl : 2 ^ m.ip ≤ indexLimit m.pc) (hn : n + indexStart m.ip anchors 16 ≤ 128)
    (hr : romRegion rom m.pc sh.toNat i.val = some r) (hp : regionPair r = some p)
    (hw : romWeight rom (if m.pc = 1 then 3 else 4) (index6 b n m.ip anchors i) = some w) :
    Goes (At rom b (n + indexStart m.ip anchors i.val) (W6 (Ends sh.toNat val))) (texel6 m signed i) fun x s =>
      x = texelBetween6 m signed val p w ∧
      At rom b (n + indexStart m.ip anchors (i.val + 1)) (W6 (Ends sh.toNat val)) s := by
  unfold Machine.texel6
  refine (At.readIndex6 ha hk hip hl hn).bind <| (At.register fun w h => h.2.shape).bind ?_
  refine (At.romGet (by rw [BitVec.ofNat_toNat, BitVec.setWidth_eq]; exact hr)).bind <| (At.romGet hp).bind <|
    (At.romGet hw).bind ?_
  exact (At.getEp _ _).bind <| (At.getEp _ _).bind <| (At.getEp _ _).bind <| (At.getEp _ _).bind <|
    (At.getEp _ _).bind <| (At.getEp _ _).bind Goes.pure

/-! ### The body -/

/-- The endpoints of a block from its accumulators (R297 to R299). -/
def finalEp (m : Bc6Mode) (signed : Bool) (acc : Letter → Rgb3 → Nat) : Letter → Rgb3 → Int :=
  let v := signedEp m signed fun l c => (acc l c : Int)
  if m.tr then transformedEp m signed v else v

/-- Steps 2 to 5 of R290 for the mode record of index `mi`, when the header's remaining entries are `ds`: every texel by its
region and index, and the cursor after the last index bit. -/
theorem At.body6 {signed : Bool} {mi : Nat} {ds : List Desc} {anchors : List Nat} {reg wt : Fin 16 → Nat}
    {pair : Fin 16 → Letter × Letter} (hm : rom.bc6mode[mi]? = some m) (hlen : n + ds.length = headerBits m)
    (hd : ∀ j d, ds[j]? = some d → romDesc rom mi (n + j) = some d ∧ placeable d = true)
    (hsh : gathered b isShape n ds 0 < 32)
    (ha : romAnchors rom m.pc (gathered b isShape n ds 0) = some anchors) (hk : AnchorsOk m.ip anchors) (hip : m.ip ≤ 8)
    (hl : 2 ^ m.ip ≤ indexLimit m.pc) (hn : headerBits m + indexStart m.ip anchors 16 ≤ 128)
    (hr : ∀ i : Fin 16, romRegion rom m.pc (gathered b isShape n ds 0) i.val = some (reg i) ∧
      regionPair (reg i) = some (pair i))
    (hw : ∀ i, romWeight rom (if m.pc = 1 then 3 else 4) (index6 b (headerBits m) m.ip anchors i) = some (wt i)) :
    Goes (At rom b n (W6 fun _ => True)) (body6 signed mi) fun x s =>
      (x = tab16 fun i => texelBetween6 m signed (finalEp m signed fun l c => gathered b (isAcc l c) n ds 0) (pair i) (wt i)) ∧
      At rom b (headerBits m + indexStart m.ip anchors 16) (W6 fun _ => True) s := by
  have hv : (BitVec.ofNat 5 (gathered b isShape n ds 0)).toNat = gathered b isShape n ds 0 := by
    rw [BitVec.toNat_ofNat]
    exact Nat.mod_eq_of_lt hsh
  unfold Machine.body6
  refine Goes.seq (At.writeWork (R' := W6 fun _ => True) (W6.set (h := fun r => { r with mi := some mi }) fun _ h => h)) ?_
  refine Goes.bind (At.romGet hm) ?_
  refine Goes.seq At.clearAccumulators ?_
  refine Goes.seq (At.readHeader hlen (by omega) hd (by omega)) ?_
  refine Goes.seq At.assembleEndpoints (Goes.seq At.signExtend ?_)
  have hend : Goes (At rom b (headerBits m) (W6 (Ends (gathered b isShape n ds 0)
        (finalEp m signed fun l c => gathered b (isAcc l c) n ds 0)))) (Machine.emit16 (Machine.texel6 m signed)) fun x s =>
      (x = tab16 fun i => texelBetween6 m signed (finalEp m signed fun l c => gathered b (isAcc l c) n ds 0) (pair i) (wt i)) ∧
      At rom b (headerBits m + indexStart m.ip anchors 16) (W6 fun _ => True) s := by
    rw [← hv] at ha ⊢
    refine (Goes.emit16_at (P := fun k => At rom b (headerBits m + indexStart m.ip anchors k) (W6 (Ends _ _))) fun i => ?_).mono
      (fun _ h => by rw [indexStart_zero]; exact h) fun _ s h => ⟨h.1, h.2.imp (W6.imp fun _ _ => trivial)⟩
    have hri := (hr i).1
    rw [← hv] at hri
    exact At.texel6 ha hk hip hl hn hri (hr i).2 (hw i)
  dsimp only
  unfold finalEp at hend ⊢
  cases htr : m.tr with
  | true =>
    simp only [htr, if_true] at hend ⊢
    exact Goes.seq At.inverseTransform hend
  | false =>
    simp only [htr, Bool.false_eq_true, if_false] at hend ⊢
    exact hend

end

end Sys2Proof.Machine
end

