-- ==== Sys2Proof/Laws/Bc7Steps.lean ====
section
/-!
SUPPORT. What each step of `DEC.BC7` (R340) does, with the bits it reads named by their place in the block.
-/

namespace Sys2Proof.Machine

section
variable {rom : Rom} {b : Block} {n : Nat} {m : Bc7Mode}

/-- The BC7 registers have a property, and no other working register is written. -/
def W7 (Q : Bc7Regs → Prop) (w : Work) : Prop := w = { Work.unwritten with bc7 := w.bc7 } ∧ Q w.bc7

theorem W7.set {Q Q' : Bc7Regs → Prop} {h : Bc7Regs → Bc7Regs} (hq : ∀ r, Q r → Q' (h r)) (w : Work) (hw : W7 Q w) :
    W7 Q' { w with bc7 := h w.bc7 } := by
  refine ⟨?_, hq _ hw.2⟩
  rw [hw.1]

theorem W7.imp {Q Q' : Bc7Regs → Prop} (h : ∀ r, Q r → Q' r) (w : Work) (hw : W7 Q w) : W7 Q' w := ⟨hw.1, h _ hw.2⟩

/-- The callers' bounds check passes when there is room (R344). -/
theorem At.checkRoom {w : Nat} {R : Work → Prop} (h : n + w ≤ 128) :
    Goes (At rom b n R) (checkRoom w) fun _ s => At rom b n R s := by
  intro s hs
  refine ⟨(), s, ?_, hs⟩
  unfold Machine.checkRoom
  rw [hs.pos, if_neg (by omega)]

/-- `ReadMode7` (R341) on a block whose first set bit is bit `k`. -/
theorem At.readMode7 {R : Work → Prop} (fuel k : Nat) (hf : k < fuel) (hn : n + k < 128)
    (hb : ∀ j, j < k → memRead b (n + j) 1 = 0) (h1 : memRead b (n + k) 1 = 1) (m0 : Nat) :
    Goes (At rom b n R) (readMode7 fuel m0) fun v s => v = m0 + k ∧ At rom b (n + k + 1) R s := by
  induction k generalizing fuel m0 n with
  | zero =>
    obtain ⟨f, rfl⟩ : ∃ f, fuel = f + 1 := ⟨fuel - 1, by omega⟩
    refine Goes.bind (At.rdBits (by decide) (by omega)) ?_
    have e : memRead b n 1 = 1 := h1
    rw [if_neg (by rw [e]; decide)]
    exact Goes.pure
  | succ k ih =>
    obtain ⟨f, rfl⟩ : ∃ f, fuel = f + 1 := ⟨fuel - 1, by omega⟩
    refine Goes.bind (At.rdBits (by decide) (by omega)) ?_
    have e : memRead b n 1 = 0 := hb 0 (Nat.succ_pos _)
    rw [if_pos e]
    refine (ih (n := n + 1) f (by omega) (by omega) ?_ ?_ (m0 + 1)).mono (fun _ h => h) fun v s h => ⟨by omega, ?_⟩
    · intro j hj
      have := hb (j + 1) (by omega)
      rwa [show n + 1 + j = n + (j + 1) by omega]
    · rwa [show n + 1 + k = n + (k + 1) by omega]
    · rw [show n + (k + 1) + 1 = n + 1 + k + 1 by omega]
      exact h.2

/-- The selectors of a block whose selector bits begin at bit `n` (R343). -/
structure Selectors (m : Bc7Mode) (b : Block) (n : Nat) (r : Bc7Regs) : Prop where
  shape : r.shape7 = some (BitVec.ofNat 6 (memRead b n m.pb))
  rot : r.rot = some (BitVec.ofNat 2 (memRead b (n + m.pb) m.rb))
  isel : r.isel = some (BitVec.ofNat 1 (memRead b (n + m.pb + m.rb) m.isb))

/-- `ReadSelectors` (R343). -/
theorem At.readSelectors (hm : Mode7Has m) (hn : n + m.pb + m.rb + m.isb ≤ 128) :
    Goes (At rom b n (W7 fun _ => True)) (readSelectors m) fun _ s =>
      At rom b (n + m.pb + m.rb + m.isb) (W7 (Selectors m b n)) s := by
  unfold Machine.readSelectors
  have h := hm.pb
  have h1 := hm.rb
  have h2 := hm.isb
  refine Goes.bind (At.rdBits (by omega) (by omega)) ?_
  refine Goes.seq (At.writeWork (R' := W7 fun r => r.shape7 = some (BitVec.ofNat 6 (memRead b n m.pb)))
    (W7.set (h := fun r => { r with shape7 := _ }) fun _ _ => rfl)) ?_
  refine Goes.bind (At.rdBits (by omega) (by omega)) ?_
  refine Goes.seq (At.writeWork (R' := W7 fun r => r.shape7 = some (BitVec.ofNat 6 (memRead b n m.pb)) ∧
    r.rot = some (BitVec.ofNat 2 (memRead b (n + m.pb) m.rb)))
    (W7.set (h := fun r => { r with rot := _ }) fun _ h => ⟨h, rfl⟩)) ?_
  refine Goes.bind (At.rdBits (by omega) (by omega)) ?_
  exact At.writeWork (W7.set (h := fun r => { r with isel := _ }) fun _ h => ⟨h.1, h.2, rfl⟩)

/-! ### Endpoints -/

/-- The bits of the channels before a channel, per endpoint (R344). -/
def precBefore (m : Bc7Mode) : Channel → Nat
  | .R => 0
  | .G => m.prec.r
  | .B => m.prec.r + m.prec.g
  | .A => m.prec.r + m.prec.g + m.prec.b

/-- The bits of all four channels, per endpoint. -/
def precAll (m : Bc7Mode) : Nat := m.prec.r + m.prec.g + m.prec.b + m.prec.a

/-- Endpoint `e` of a channel as stored, when the endpoints begin at bit `n` (R344). -/
def storedAt (m : Bc7Mode) (b : Block) (n e : Nat) (ch : Channel) : Byte :=
  if prec7 m.prec ch = 0 then 255
  else BitVec.ofNat 8
    (memRead b (n + endpointCount m * precBefore m ch + prec7 m.prec ch * e) (prec7 m.prec ch))

theorem slot7_inj {e e' : Fin 6} {ch ch' : Channel} : slot7 e ch = slot7 e' ch' ↔ e = e' ∧ ch = ch' := by
  constructor
  · intro h
    have h1 : 4 * e.val + chIndex ch = 4 * e'.val + chIndex ch' := congrArg Fin.val h
    have h2 := chIndex_lt ch
    have h3 := chIndex_lt ch'
    refine ⟨Fin.ext (by omega), ?_⟩
    have : chIndex ch = chIndex ch' := by omega
    revert this
    cases ch <;> cases ch' <;> decide
  · rintro ⟨rfl, rfl⟩; rfl

/-- The endpoints read so far: every earlier channel, and this channel below `k`. -/
structure EndsUpto (m : Bc7Mode) (b : Block) (n0 n c k : Nat) (r : Bc7Regs) : Prop where
  sel : Selectors m b n0 r
  ends : ∀ (e : Fin 6) (ch : Channel), e.val < endpointCount m → chIndex ch < c ∨ chIndex ch = c ∧ e.val < k →
    r.c.get (slot7 e ch) = some (storedAt m b n e ch)

theorem Selectors.setC {b : Block} {n : Nat} {r : Bc7Regs} (h : Selectors m b n r) (c : Vector (Option Byte) 24) :
    Selectors m b n { r with c := c } := ⟨h.shape, h.rot, h.isel⟩

theorem EndsUpto.step {n0 c : Nat} {r : Bc7Regs} {e : Fin 6} {ch : Channel} (hc : chIndex ch = c) {v : Byte}
    (hv : v = storedAt m b n e ch) (h : EndsUpto m b n0 n c e.val r) :
    EndsUpto m b n0 n c (e.val + 1) { r with c := r.c.set (slot7 e ch) (some v) } := by
  subst hv
  refine ⟨h.sel.setC _, fun e' ch' he' hd => ?_⟩
  show (r.c.set _ _).get _ = _
  rw [vec_set_get]
  by_cases heq : slot7 e ch = slot7 e' ch'
  · obtain ⟨rfl, rfl⟩ := slot7_inj.mp heq
    rw [if_pos rfl]
  · rw [if_neg heq]
    refine h.ends e' ch' he' (hd.imp_right fun h1 => ⟨h1.1, ?_⟩)
    have hch : ch = ch' := by
      have : chIndex ch = chIndex ch' := hc.trans h1.1.symm
      revert this
      cases ch <;> cases ch' <;> decide
    have hne : e ≠ e' := fun hh => heq (slot7_inj.mpr ⟨hh, hch⟩)
    have := Fin.val_ne_of_ne hne
    omega

theorem endpoints6_getElem (ne k : Nat) (hk : k < (endpoints6.take ne).length) : ((endpoints6.take ne)[k]).val = k := by
  rw [List.getElem_take]
  have : k < 6 := lt_of_lt_of_le hk (by rw [List.length_take]; exact Nat.min_le_right _ _)
  have hall : ∀ k : Fin 6, (endpoints6[k.val]).val = k.val := by decide
  exact hall ⟨k, this⟩

theorem endpoints6_length {ne : Nat} (h : ne ≤ 6) : (endpoints6.take ne).length = ne := by
  rw [List.length_take]
  exact Nat.min_eq_left h

/-- `C[e][ch] <- v` (R44). -/
theorem At.setC {Q Q' : Bc7Regs → Prop} {e : Fin 6} {ch : Channel} {v : Byte}
    (h : ∀ r, Q r → Q' { r with c := r.c.set (slot7 e ch) (some v) }) :
    Goes (At rom b n (W7 Q)) (Machine.setC e ch v) fun _ s => At rom b n (W7 Q') s :=
  At.writeWork (W7.set (h := fun r => { r with c := r.c.set (slot7 e ch) (some v) }) h)

theorem EndsUpto.next {n0 c : Nat} {r : Bc7Regs} (h : EndsUpto m b n0 n c (endpointCount m) r) :
    EndsUpto m b n0 n (c + 1) 0 r := by
  refine ⟨h.sel, fun e ch he hd => h.ends e ch he ?_⟩
  omega

/-- One channel of `ReadEndpoints` (R344). -/
theorem At.readChannel (hm : Mode7Has m) (n0 : Nat) (ch : Channel) {p q : Nat}
    (hp : p = n + endpointCount m * precBefore m ch) (hq : q = p + endpointCount m * prec7 m.prec ch) (hn : q ≤ 128) :
    Goes (At rom b p (W7 (EndsUpto m b n0 n (chIndex ch) 0)))
      ((endpoints6.take (endpointCount m)).forM fun e => readEndpoint m ch e) fun _ s =>
      At rom b q (W7 (EndsUpto m b n0 n (chIndex ch + 1) 0)) s := by
  subst hp hq
  have hlen := endpoints6_length (endpointCount_le hm)
  refine Goes.mono (Goes.forM (P := fun k => At rom b (n + endpointCount m * precBefore m ch + prec7 m.prec ch * k)
    (W7 (EndsUpto m b n0 n (chIndex ch) k))) fun k hk => ?_) (fun _ h => h) fun _ s h => ?_
  · have hv := endpoints6_getElem _ k hk
    have hk' : k < endpointCount m := by rwa [hlen] at hk
    generalize (endpoints6.take (endpointCount m))[k] = e at hv
    subst hv
    have hroom : prec7 m.prec ch * e.val + prec7 m.prec ch ≤ endpointCount m * prec7 m.prec ch := by
      rw [← Nat.mul_succ, Nat.mul_comm]
      exact Nat.mul_le_mul_right _ hk'
    unfold readEndpoint
    by_cases h0 : prec7 m.prec ch = 0
    · rw [if_pos h0, Nat.mul_succ, h0, Nat.add_zero]
      exact At.setC fun r h => h.step rfl (by unfold storedAt; rw [if_pos h0])
    · rw [if_neg h0]
      refine Goes.seq (At.checkRoom (by omega)) (Goes.bind (At.rdBits (hm.prec ch) (by omega)) ?_)
      rw [Nat.mul_succ, ← Nat.add_assoc]
      exact At.setC fun r h => h.step rfl (by unfold storedAt; rw [if_neg h0])
  · rw [hlen, Nat.mul_comm (prec7 m.prec ch)] at h
    exact h.imp (W7.imp fun r h => h.next)

/-- `ReadEndpoints` (R344), for endpoints that begin at bit `n`. -/
theorem At.readEndpoints (hm : Mode7Has m) (n0 : Nat) (hn : n + endpointCount m * precAll m ≤ 128) :
    Goes (At rom b n (W7 (Selectors m b n0))) (readEndpoints m) fun _ s =>
      At rom b (n + endpointCount m * precAll m) (W7 (EndsUpto m b n0 n 4 0)) s := by
  have hB : endpointCount m * (m.prec.r + m.prec.g) = endpointCount m * m.prec.r + endpointCount m * m.prec.g := by ring
  have hA : endpointCount m * (m.prec.r + m.prec.g + m.prec.b) =
      endpointCount m * m.prec.r + endpointCount m * m.prec.g + endpointCount m * m.prec.b := by ring
  have hall : endpointCount m * precAll m =
      endpointCount m * (m.prec.r + m.prec.g + m.prec.b) + endpointCount m * m.prec.a := by unfold precAll; ring
  unfold Machine.readEndpoints channels7
  refine Goes.seq (Q := At rom b (n + endpointCount m * m.prec.r) (W7 (EndsUpto m b n0 n 1 0))) ?_ ?_
  · refine (At.readChannel (n := n) hm n0 .R (p := n) ?_ rfl ?_).mono (fun s h => ?_) fun _ _ h => h
    · rfl
    · show n + endpointCount m * m.prec.r ≤ 128; omega
    · exact h.imp (W7.imp fun r h => ⟨h, fun e ch _ hd => by exfalso; revert hd; cases ch <;> simp [chIndex]⟩)
  refine Goes.seq (Q := At rom b (n + endpointCount m * (m.prec.r + m.prec.g)) (W7 (EndsUpto m b n0 n 2 0))) ?_ ?_
  · refine At.readChannel (n := n) hm n0 .G rfl ?_ ?_
    · show _ = n + endpointCount m * m.prec.r + endpointCount m * m.prec.g; omega
    · omega
  refine Goes.seq (Q := At rom b (n + endpointCount m * (m.prec.r + m.prec.g + m.prec.b))
    (W7 (EndsUpto m b n0 n 3 0))) ?_ ?_
  · refine At.readChannel (n := n) hm n0 .B rfl ?_ ?_
    · show _ = n + endpointCount m * (m.prec.r + m.prec.g) + endpointCount m * m.prec.b; omega
    · omega
  refine Goes.seq (Q := At rom b (n + endpointCount m * precAll m) (W7 (EndsUpto m b n0 n 4 0))) ?_ Goes.unit
  refine At.readChannel (n := n) hm n0 .A rfl ?_ hn
  show _ = n + endpointCount m * (m.prec.r + m.prec.g + m.prec.b) + endpointCount m * m.prec.a
  omega

/-! ### P bits, and the two passes over the endpoints -/

/-- A property of the registers that the endpoints do not enter, and the endpoints in use by a table of values. -/
structure Vals (m : Bc7Mode) (Q : Bc7Regs → Prop) (val : Fin 6 → Channel → Byte) (r : Bc7Regs) : Prop where
  rest : Q r
  ends : ∀ (e : Fin 6) (ch : Channel), e.val < endpointCount m → r.c.get (slot7 e ch) = some (val e ch)

/-- A property of the registers that the endpoints do not enter. -/
def NotC (Q : Bc7Regs → Prop) : Prop := ∀ r c, Q r → Q { r with c := c }

theorem EndsUpto.vals {n0 : Nat} {r : Bc7Regs} (h : EndsUpto m b n0 n 4 0 r) :
    Vals m (Selectors m b n0) (fun e => storedAt m b n e.val) r :=
  ⟨h.sel, fun e ch he => h.ends e ch he (.inl (chIndex_lt ch))⟩

/-- The table with one entry replaced. -/
def putVal (val : Fin 6 → Channel → Byte) (e : Fin 6) (ch : Channel) (v : Byte) : Fin 6 → Channel → Byte :=
  fun e' ch' => if e' = e ∧ ch' = ch then v else val e' ch'

theorem At.setVal {Q : Bc7Regs → Prop} (hQ : NotC Q) {val : Fin 6 → Channel → Byte} {e : Fin 6} {ch : Channel} {v : Byte} :
    Goes (At rom b n (W7 (Vals m Q val))) (Machine.setC e ch v) fun _ s => At rom b n (W7 (Vals m Q (putVal val e ch v))) s := by
  refine At.setC fun r h => ⟨hQ r _ h.rest, fun e' ch' he' => ?_⟩
  show (r.c.set _ _).get _ = _
  rw [vec_set_get]
  unfold putVal
  by_cases heq : slot7 e ch = slot7 e' ch'
  · obtain ⟨rfl, rfl⟩ := slot7_inj.mp heq
    rw [if_pos rfl, if_pos ⟨rfl, rfl⟩]
  · rw [if_neg heq, if_neg fun hh => heq (slot7_inj.mpr ⟨hh.1.symm, hh.2.symm⟩)]
    exact h.ends e' ch' he'

theorem At.getVal {Q : Bc7Regs → Prop} {val : Fin 6 → Channel → Byte} {e : Fin 6} (he : e.val < endpointCount m)
    (ch : Channel) :
    Goes (At rom b n (W7 (Vals m Q val))) (getC e ch) fun x s => x = val e ch ∧ At rom b n (W7 (Vals m Q val)) s :=
  At.register fun _ h => h.2.ends e ch he

theorem Vals.congr {Q : Bc7Regs → Prop} {val val' : Fin 6 → Channel → Byte} {r : Bc7Regs} (h : Vals m Q val r)
    (hv : ∀ (e : Fin 6) (ch : Channel), e.val < endpointCount m → val e ch = val' e ch) : Vals m Q val' r :=
  ⟨h.rest, fun e ch he => by rw [h.ends e ch he, hv e ch he]⟩

/-- A pass over the endpoints in use whose body replaces one entry by a function of it. -/
theorem At.pass (hm : Mode7Has m) {Q : Bc7Regs → Prop} {f : Fin 6 → Channel → Dec PUnit}
    {g : Fin 6 → Channel → Byte → Byte} (val : Fin 6 → Channel → Byte)
    (hf : ∀ e ch val, e.val < endpointCount m → Goes (At rom b n (W7 (Vals m Q val))) (f e ch) fun _ s =>
      At rom b n (W7 (Vals m Q (putVal val e ch (g e ch (val e ch))))) s) :
    Goes (At rom b n (W7 (Vals m Q val)))
      ((endpoints6.take (endpointCount m)).forM fun e => channels7.forM fun ch => f e ch) fun _ s =>
      At rom b n (W7 (Vals m Q fun e ch => g e ch (val e ch))) s := by
  have hlen := endpoints6_length (endpointCount_le hm)
  refine Goes.mono (Goes.forM (P := fun k => At rom b n (W7 (Vals m Q fun e ch =>
    if e.val < k then g e ch (val e ch) else val e ch))) fun k hk => ?_)
    (fun _ h => h.imp (W7.imp fun r h => h.congr fun e ch _ => by rw [if_neg (Nat.not_lt_zero _)])) fun _ s h => ?_
  · have hv := endpoints6_getElem _ k hk
    have hk' : k < endpointCount m := by rwa [hlen] at hk
    generalize (endpoints6.take (endpointCount m))[k] = e at hv
    subst hv
    unfold channels7
    refine Goes.seq (hf e .R _ hk') (Goes.seq (hf e .G _ hk') (Goes.seq (hf e .B _ hk') (Goes.seq (hf e .A _ hk') ?_)))
    refine Goes.unit.mono (fun _ h => h) fun _ s h => h.imp (W7.imp fun r h => h.congr fun e' ch' _ => ?_)
    unfold putVal
    by_cases he : e' = e
    · subst he
      cases ch' <;> simp
    · have := Fin.val_ne_of_ne he
      have h1 : e'.val < e.val + 1 ↔ e'.val < e.val := by omega
      simp [he, h1]
  · rw [hlen] at h
    exact h.imp (W7.imp fun r h => h.congr fun e ch he => by rw [if_pos he])

/-- P bit `j` of a block whose P bits begin at bit `n` (R345). -/
def pBitAt (b : Block) (n j : Nat) : BitVec 1 := BitVec.ofNat 1 (memRead b (n + j) 1)

/-- The P bits below `k` have been read. -/
def PBits (Q : Bc7Regs → Prop) (b : Block) (n k : Nat) (r : Bc7Regs) : Prop :=
  Q r ∧ ∀ j : Fin 6, j.val < k → r.p.get j = some (pBitAt b n j.val)

/-- A property of the registers that the P bits do not enter. -/
def NotP (Q : Bc7Regs → Prop) : Prop := ∀ r p, Q r → Q { r with p := p }

theorem notC_selectors {n0 : Nat} : NotC (Selectors m b n0) := fun _ _ h => ⟨h.shape, h.rot, h.isel⟩

theorem notP_vals {Q : Bc7Regs → Prop} {val : Fin 6 → Channel → Byte} (h : NotP Q) : NotP (Vals m Q val) :=
  fun r p hr => ⟨h r p hr.rest, hr.ends⟩

theorem notP_selectors {n0 : Nat} : NotP (Selectors m b n0) := fun _ _ h => ⟨h.shape, h.rot, h.isel⟩

/-- `ReadPBits` (R345), for P bits that begin at bit `n`. -/
theorem At.readPBits (hm : Mode7Has m) {Q : Bc7Regs → Prop} (hQ : NotP Q) (hn : n + m.npb ≤ 128) :
    Goes (At rom b n (W7 Q)) (readPBits m) fun _ s => At rom b (n + m.npb) (W7 (PBits Q b n m.npb)) s := by
  have hlen := endpoints6_length hm.npb
  unfold Machine.readPBits
  refine Goes.mono (Goes.forM (P := fun k => At rom b (n + k) (W7 (PBits Q b n k))) fun k hk => ?_)
    (fun _ h => h.imp (W7.imp fun r h => ⟨h, fun j hj => absurd hj (Nat.not_lt_zero _)⟩)) fun _ s h => by
      rw [hlen] at h; exact h
  have hv := endpoints6_getElem _ k hk
  have hk' : k < m.npb := by rwa [hlen] at hk
  generalize (endpoints6.take m.npb)[k] = j at hv
  subst hv
  refine Goes.seq (At.checkRoom (by omega)) (Goes.bind (At.rdBits (w := 1) (by decide) (by omega)) ?_)
  refine At.writeWork (W7.set (h := fun r => { r with p := r.p.set j (some (pBitAt b n j.val)) }) fun r h =>
    ⟨hQ _ _ h.1, fun i hi => ?_⟩)
  show (r.p.set _ _).get _ = _
  rw [vec_set_get]
  split
  · rename_i e
    rw [e]
  · rename_i e
    have := Fin.val_ne_of_ne e
    exact h.2 i (by omega)

/-- A stored channel with the P bit of its endpoint below it, when the mode has one for this channel (R346). -/
def pBitted (m : Bc7Mode) (b : Block) (n : Nat) (e : Fin 6) (ch : Channel) (v : Byte) : Byte :=
  if prec7 m.precp ch ≠ prec7 m.prec ch then withPBit v (pBitAt b n (pBitIndex e.val m.npb (endpointCount m))) else v

theorem pBitIndex_lt {e : Nat} (he : e < endpointCount m) (hp : 0 < m.npb) :
    pBitIndex e m.npb (endpointCount m) < m.npb := by
  unfold pBitIndex
  rw [Nat.div_lt_iff_lt_mul (by omega), Nat.mul_comm m.npb]
  exact Nat.mul_lt_mul_of_pos_right he hp

theorem putVal_self (val : Fin 6 → Channel → Byte) (e : Fin 6) (ch : Channel) : putVal val e ch (val e ch) = val := by
  funext e' ch'
  unfold putVal
  split
  · rename_i h
    rw [h.1, h.2]
  · rfl

/-- `ApplyPBits` (R346). A mode without P bits has the same precisions before and after. -/
theorem At.applyPBits (hm : Mode7Has m) {Q : Bc7Regs → Prop} (hQ : NotC Q) (val : Fin 6 → Channel → Byte) {np : Nat}
    (hp : ∀ r, Q r → ∀ j : Fin 6, j.val < m.npb → r.p.get j = some (pBitAt b np j.val))
    (h0 : m.npb = 0 → m.precp = m.prec) :
    Goes (At rom b n (W7 (Vals m Q val))) (applyPBits m) fun _ s =>
      At rom b n (W7 (Vals m Q fun e ch => pBitted m b np e ch (val e ch))) s := by
  unfold Machine.applyPBits
  by_cases h : 0 < m.npb
  · rw [if_pos h]
    refine At.pass hm val fun e ch val he => ?_
    unfold applyPBit pBitted
    split
    · have hj := pBitIndex_lt he h
      have hnp := hm.npb
      refine Goes.bind (At.register fun w hw => ?_) (Goes.bind (At.getVal he ch) (At.setVal hQ))
      · have := hp _ hw.2.rest ⟨pBitIndex e.val m.npb (endpointCount m), by omega⟩ hj
        rw [Vector.getElem?_eq_getElem (by omega)]
        exact this
    · rw [putVal_self]
      exact Goes.unit
  · rw [if_neg h]
    have : m.npb = 0 := by omega
    refine Goes.unit.mono (fun _ h => h) fun _ s hs => hs.imp (W7.imp fun r hr => hr.congr fun e ch _ => ?_)
    unfold pBitted
    rw [h0 this, if_neg (fun h => h rfl)]

/-- An endpoint channel as 8 bits (R347). -/
def expanded (m : Bc7Mode) (ch : Channel) (v : Byte) : Byte :=
  if 0 < prec7 m.precp ch then unq7 v (prec7 m.precp ch) else 255

/-- `UnquantizeEndpoints` (R347). -/
theorem At.unquantizeEndpoints (hm : Mode7Has m) {Q : Bc7Regs → Prop} (hQ : NotC Q) (val : Fin 6 → Channel → Byte) :
    Goes (At rom b n (W7 (Vals m Q val))) (unquantizeEndpoints m) fun _ s =>
      At rom b n (W7 (Vals m Q fun e ch => expanded m ch (val e ch))) s := by
  unfold Machine.unquantizeEndpoints
  refine At.pass hm val fun e ch val he => ?_
  unfold unquantizeOne expanded
  split
  · exact Goes.bind (At.getVal he ch) (At.setVal hQ)
  · exact At.setVal hQ

/-! ### Indices -/

/-- The index of texel `i` in a stream that begins at bit `n` (R348, R350). -/
def indexAt (b : Block) (n ip : Nat) (anchors : List Nat) (i : Fin 16) : BitVec 4 :=
  BitVec.ofNat 4 (memRead b (n + indexStart ip anchors i.val) (indexBits ip anchors i))

/-- A property of the registers that the index registers do not enter. -/
def NotW (Q : Bc7Regs → Prop) : Prop := ∀ r x y, Q r → Q { r with w1 := x, w2 := y }

theorem texels_getElem (k : Nat) (hk : k < texels.length) : (texels[k]).val = k := by
  have hall : ∀ k : Fin 16, (texels[k.val]).val = k := by decide
  exact hall ⟨k, hk⟩

/-- `ClearIndices` (R349). -/
theorem At.clearIndices {Q : Bc7Regs → Prop} (hQ : NotW Q) :
    Goes (At rom b n (W7 Q)) clearIndices fun _ s =>
      At rom b n (W7 fun r => Q r ∧ ∀ i, r.w2.get i = some 0) s := by
  refine At.writeWork (W7.set (h := fun r =>
    { r with w1 := Vector.replicate 16 (some 0), w2 := Vector.replicate 16 (some 0) }) fun r h => ⟨hQ r _ _ h, ?_⟩)
  show ∀ i, (Vector.replicate 16 (some (0 : BitVec 4))).get i = some 0
  decide

/-- `ReadPrimaryIndices` (R348), for a stream that begins at bit `n`. -/
theorem At.readPrimaryIndices (hm : Mode7Has m) {Q : Bc7Regs → Prop} (hQ : NotW Q) {sh : BitVec 6} {anchors : List Nat}
    (hs : ∀ r, Q r → r.shape7 = some sh) (ha : romAnchors rom m.pc sh.toNat = some anchors)
    (hk : AnchorsOk m.ip1 anchors) (hn : n + indexStart m.ip1 anchors 16 ≤ 128) {z : Vector (Option (BitVec 4)) 16 → Prop} :
    Goes (At rom b n (W7 fun r => Q r ∧ z r.w2)) (readPrimaryIndices m) fun _ s =>
      At rom b (n + indexStart m.ip1 anchors 16)
        (W7 fun r => Q r ∧ z r.w2 ∧ ∀ i, r.w1.get i = some (indexAt b n m.ip1 anchors i)) s := by
  unfold Machine.readPrimaryIndices
  refine Goes.mono (Goes.forM (P := fun k => At rom b (n + indexStart m.ip1 anchors k)
    (W7 fun r => Q r ∧ z r.w2 ∧ ∀ i : Fin 16, i.val < k → r.w1.get i = some (indexAt b n m.ip1 anchors i))) fun k hk' => ?_)
    (fun s h => ?_) fun _ s h => h.imp (W7.imp fun r h => ⟨h.1, h.2.1, fun i => h.2.2 i i.isLt⟩)
  · have hv := texels_getElem k hk'
    generalize texels[k] = i at hv
    subst hv
    have hle := indexStart_le hk i.isLt
    have h4 := hm.ip1
    have hb := indexBits_le m.ip1 anchors i
    rw [← indexBits_eq] at hle
    refine Goes.bind (At.register fun w h => hs _ h.2.1) (Goes.bind (At.romGet ha)
      (Goes.seq (At.checkRoom (by omega)) (Goes.bind (At.rdBits (by omega) (by omega)) ?_)))
    rw [indexStart_succ hk, ← indexBits_eq, ← Nat.add_assoc]
    refine At.writeWork (W7.set (h := fun r => { r with w1 := r.w1.set i (some (indexAt b n m.ip1 anchors i)) })
      fun r h => ⟨hQ r _ _ h.1, h.2.1, fun j hj => ?_⟩)
    show (r.w1.set _ _).get _ = _
    rw [vec_set_get]
    split
    · rename_i e
      rw [e]
    · rename_i e
      have := Fin.val_ne_of_ne e
      exact h.2.2 j (by omega)
  · rw [indexStart_zero, Nat.add_zero]
    exact h.imp (W7.imp fun r h => ⟨h.1, h.2, fun j hj => absurd hj (Nat.not_lt_zero _)⟩)

/-- The secondary index of texel `i`: 0 in a mode without a second track (R349, R350). -/
def secondAt (m : Bc7Mode) (b : Block) (n : Nat) (i : Fin 16) : BitVec 4 :=
  if m.ip2 = 0 then 0 else indexAt b n m.ip2 [0] i

/-- The bits of the second index stream. -/
def secondLength (m : Bc7Mode) : Nat := if m.ip2 = 0 then 0 else indexStart m.ip2 [0] 16

/-- `ReadSecondaryIndices` (R350), for a stream that begins at bit `n`. -/
theorem At.readSecondaryIndices (hm : Mode7Has m) {Q : Bc7Regs → Prop} (hQ : NotW Q)
    (hn : n + secondLength m ≤ 128) {y : Vector (Option (BitVec 4)) 16 → Prop} :
    Goes (At rom b n (W7 fun r => Q r ∧ (∀ i, r.w2.get i = some 0) ∧ y r.w1)) (readSecondaryIndices m) fun _ s =>
      At rom b (n + secondLength m) (W7 fun r => Q r ∧ (∀ i, r.w2.get i = some (secondAt m b n i)) ∧ y r.w1) s := by
  unfold Machine.readSecondaryIndices
  unfold secondLength at hn ⊢
  unfold secondAt
  by_cases h0 : m.ip2 = 0
  · rw [if_neg (fun h => h h0), if_pos h0]
    simp only [if_pos h0]
    exact Goes.unit
  rw [if_pos h0, if_neg h0]
  rw [if_neg h0] at hn
  simp only [if_neg h0]
  have hk : AnchorsOk m.ip2 [0] := ⟨by decide, by omega⟩
  refine Goes.mono (Goes.forM (P := fun k => At rom b (n + indexStart m.ip2 [0] k)
    (W7 fun r => Q r ∧ (∀ i : Fin 16, i.val < k → r.w2.get i = some (indexAt b n m.ip2 [0] i)) ∧ y r.w1)) fun k hk' => ?_)
    (fun s h => ?_) fun _ s h => h.imp (W7.imp fun r h => ⟨h.1, fun i => h.2.1 i i.isLt, h.2.2⟩)
  · have hv := texels_getElem k hk'
    generalize texels[k] = i at hv
    subst hv
    have hle := indexStart_le hk i.isLt
    have h4 := hm.ip2
    have hb := indexBits_le m.ip2 [0] i
    rw [← indexBits_eq] at hle
    refine Goes.seq (At.checkRoom (by omega)) (Goes.bind (At.rdBits (by omega) (by omega)) ?_)
    rw [indexStart_succ hk, ← indexBits_eq, ← Nat.add_assoc]
    refine At.writeWork (W7.set (h := fun r => { r with w2 := r.w2.set i (some (indexAt b n m.ip2 [0] i)) })
      fun r h => ⟨hQ r _ _ h.1, fun j hj => ?_, h.2.2⟩)
    show (r.w2.set _ _).get _ = _
    rw [vec_set_get]
    split
    · rename_i e
      rw [e]
    · rename_i e
      have := Fin.val_ne_of_ne e
      exact h.2.1 j (by omega)
  · rw [indexStart_zero, Nat.add_zero]
    exact h.imp (W7.imp fun r h => ⟨h.1, fun j hj => absurd hj (Nat.not_lt_zero _), h.2.2⟩)

/-! ### Texels -/

/-- A texel between two endpoints, after the rotation (R353 to R355). -/
def texelBetween (a c : Channel → Byte) (wc wa : Nat) (rot : BitVec 2) : Texel :=
  let px := rotate ⟨lerp7 (a .R) (c .R) wc, lerp7 (a .G) (c .G) wc, lerp7 (a .B) (c .B) wc, lerp7 (a .A) (c .A) wa⟩ rot
  ⟨some px.r, some px.g, some px.b, some px.a⟩

/-- One texel (R351 to R355), from known registers. -/
theorem At.texel7 {Q : Bc7Regs → Prop} {sh : BitVec 6} {rot : BitVec 2} {isel : BitVec 1} {val : Fin 6 → Channel → Byte}
    {w1 w2 : Fin 16 → BitVec 4} {i : Fin 16} {r wc wa : Nat} {e0 e1 : Fin 6} (hsh : ∀ r, Q r → r.shape7 = some sh)
    (hrot : ∀ r, Q r → r.rot = some rot) (hisel : ∀ r, Q r → r.isel = some isel)
    (hval : ∀ r, Q r → ∀ (e : Fin 6) (ch : Channel), e.val < endpointCount m → r.c.get (slot7 e ch) = some (val e ch))
    (hw1 : ∀ r, Q r → ∀ i, r.w1.get i = some (w1 i)) (hw2 : ∀ r, Q r → ∀ i, r.w2.get i = some (w2 i))
    (hr : romRegion rom m.pc sh.toNat i.val = some r) (hp : regionEnds r = some (e0, e1))
    (he0 : e0.val < endpointCount m) (he1 : e1.val < endpointCount m)
    (hc : romWeight rom (pickTracks m isel (w1 i) (w2 i)).pcw (pickTracks m isel (w1 i) (w2 i)).wc = some wc)
    (ha : romWeight rom (pickTracks m isel (w1 i) (w2 i)).paw (pickTracks m isel (w1 i) (w2 i)).wa = some wa) :
    Goes (At rom b n (W7 Q)) (texel7 m i) fun x s =>
      x = texelBetween (val e0) (val e1) wc wa rot ∧ At rom b n (W7 Q) s := by
  unfold Machine.texel7 selectTracks
  have hget : ∀ (e : Fin 6) (ch : Channel), e.val < endpointCount m →
      Goes (At rom b n (W7 Q)) (getC e ch) fun x s => x = val e ch ∧ At rom b n (W7 Q) s :=
    fun e ch he => At.register fun _ h => hval _ h.2 e ch he
  refine (At.register fun _ h => hsh _ h.2).bind <| (At.romGet hr).bind <| (At.romGet hp).bind ?_
  refine Goes.bind (a := pickTracks m isel (w1 i) (w2 i)) (Q := At rom b n (W7 Q)) ?_ ?_
  · exact (At.register fun _ h => hisel _ h.2).bind <| (At.register fun _ h => hw1 _ h.2 i).bind <|
      (At.register fun _ h => hw2 _ h.2 i).bind Goes.pure
  refine (At.romGet hc).bind <| (At.romGet ha).bind <| (hget e0 .R he0).bind <| (hget e1 .R he1).bind <|
    (hget e0 .G he0).bind <| (hget e1 .G he1).bind <| (hget e0 .B he0).bind <| (hget e1 .B he1).bind <|
    (hget e0 .A he0).bind <| (hget e1 .A he1).bind <| (At.register fun _ h => hrot _ h.2).bind Goes.pure

/-! ### The body -/

/-- Where the parts of a block begin, when its selectors begin at bit `n` (R145): endpoints, P bits, first and second
index stream. -/
def endsStart (m : Bc7Mode) (n : Nat) : Nat := n + m.pb + m.rb + m.isb
/-- Where the P bits begin. -/
def pStart (m : Bc7Mode) (n : Nat) : Nat := endsStart m n + endpointCount m * precAll m
/-- Where the first index stream begins. -/
def firstStart (m : Bc7Mode) (n : Nat) : Nat := pStart m n + m.npb
/-- Where the second index stream begins. -/
def secondStart (m : Bc7Mode) (n : Nat) (anchors : List Nat) : Nat := firstStart m n + indexStart m.ip1 anchors 16

/-- Endpoint `e` of a channel of a block as 8 bits (R344 to R347). -/
def endAt (m : Bc7Mode) (b : Block) (n : Nat) (e : Fin 6) (ch : Channel) : Byte :=
  expanded m ch (pBitted m b (pStart m n) e ch (storedAt m b (endsStart m n) e.val ch))

/-- What a ROM holds for one shape of a mode: anchors, regions with their endpoint pairs, and the weights. -/
structure ShapeRom (rom : Rom) (m : Bc7Mode) (sh : Nat) (anchors : List Nat) (reg : Fin 16 → Nat)
    (wt : Nat → Nat → Nat) : Prop where
  fix : romAnchors rom m.pc sh = some anchors
  ok : AnchorsOk m.ip1 anchors
  reg : ∀ i : Fin 16, romRegion rom m.pc sh i.val = some (reg i) ∧ reg i ≤ m.pc
  wt : ∀ p ix, (p = 2 ∨ p = 3 ∨ p = 4) → ix < 2 ^ p → romWeight rom p ix = some (wt p ix)

/-- The two endpoints of a region (R351). -/
def lowEnd (r : Nat) : Fin 6 := ((regionEnds r).getD (0, 1)).1
/-- The second endpoint of a region. -/
def highEnd (r : Nat) : Fin 6 := ((regionEnds r).getD (0, 1)).2

/-- The tracks of texel `i` of a block (R352). -/
def tracksAt (m : Bc7Mode) (b : Block) (n : Nat) (anchors : List Nat) (i : Fin 16) : Tracks :=
  pickTracks m (BitVec.ofNat 1 (memRead b (n + m.pb + m.rb) m.isb)) (indexAt b (firstStart m n) m.ip1 anchors i)
    (secondAt m b (secondStart m n anchors) i)

theorem indexAt_lt {ip : Nat} (k : Nat) (anchors : List Nat) (i : Fin 16) :
    (indexAt b k ip anchors i).toNat < 2 ^ ip := by
  unfold indexAt
  rw [BitVec.toNat_ofNat]
  refine lt_of_le_of_lt (Nat.mod_le _ _) (lt_of_lt_of_le (memRead_lt _ _ _) ?_)
  exact Nat.pow_le_pow_right (by decide) (indexBits_le _ _ _)

/-- Steps 2 to 6 of `DEC.BC7` (R340): every texel by its region, its tracks and the rotation, and the cursor after the last
bit of the second index stream. -/
theorem At.body7 (hm : Mode7Has m) (h0 : m.npb = 0 → m.precp = m.prec) {anchors : List Nat} {reg : Fin 16 → Nat}
    {wt : Nat → Nat → Nat} (hr : ShapeRom rom m (memRead b n m.pb) anchors reg wt)
    (hn : secondStart m n anchors + secondLength m ≤ 128) :
    Goes (At rom b n (W7 fun _ => True)) (body7 m) fun x s =>
      (x = tab16 fun i => texelBetween (endAt m b n (lowEnd (reg i))) (endAt m b n (highEnd (reg i)))
        (wt (tracksAt m b n anchors i).pcw (tracksAt m b n anchors i).wc)
        (wt (tracksAt m b n anchors i).paw (tracksAt m b n anchors i).wa)
        (BitVec.ofNat 2 (memRead b (n + m.pb) m.rb))) ∧
      At rom b (secondStart m n anchors + secondLength m) (W7 fun _ => True) s := by
  unfold secondStart firstStart pStart endsStart at hn
  have hsh : (BitVec.ofNat 6 (memRead b n m.pb)).toNat = memRead b n m.pb := by
    rw [BitVec.toNat_ofNat]
    exact Nat.mod_eq_of_lt (lt_of_lt_of_le (memRead_lt _ _ _) (Nat.pow_le_pow_right (by decide) hm.pb))
  unfold Machine.body7
  refine Goes.seq (At.readSelectors hm (by omega)) ?_
  refine Goes.seq (At.readEndpoints hm n (by omega)) ?_
  refine Goes.seq ((At.readPBits hm (Q := Vals m (Selectors m b n) fun e => storedAt m b (endsStart m n) e.val)
    (notP_vals notP_selectors) (by omega)).mono (fun _ h => h.imp (W7.imp fun _ h => h.vals)) fun _ _ h => h) ?_
  have hQ : NotC fun r => Selectors m b n r ∧ ∀ j : Fin 6, j.val < m.npb → r.p.get j = some (pBitAt b (pStart m n) j.val) :=
    fun r c h => ⟨notC_selectors r c h.1, h.2⟩
  refine Goes.seq ((At.applyPBits hm hQ _ (np := pStart m n) (fun _ h => h.2) h0).mono
    (fun _ h => h.imp (W7.imp fun _ h => ⟨⟨h.1.rest, h.2⟩, h.1.ends⟩)) fun _ _ h => h) ?_
  refine Goes.seq (At.unquantizeEndpoints hm hQ _) ?_
  have hW : NotW (Vals m (Selectors m b n) (endAt m b n)) :=
    fun r x y h => ⟨⟨h.rest.shape, h.rest.rot, h.rest.isel⟩, h.ends⟩
  refine Goes.seq ((At.clearIndices hW).mono (fun _ h => h.imp (W7.imp fun _ h => ⟨h.rest.1, h.ends⟩)) fun _ _ h => h) ?_
  refine Goes.seq (At.readPrimaryIndices hm hW (z := fun v => ∀ i, v.get i = some 0) (fun r h => h.rest.shape)
    (by rw [hsh]; exact hr.fix) hr.ok (by omega)) ?_
  refine Goes.seq (At.readSecondaryIndices (n := secondStart m n anchors) hm hW
    (y := fun v => ∀ i, v.get i = some (indexAt b (firstStart m n) m.ip1 anchors i)) (by
      unfold secondStart firstStart pStart endsStart; omega)) ?_
  refine (Goes.emit16 fun i => ?_).mono (fun _ h => h) fun _ s h => ⟨h.1, h.2.imp (W7.imp fun _ _ => trivial)⟩
  obtain ⟨hri, hle⟩ := hr.reg i
  obtain ⟨p, hp, hm1, hm2⟩ := regionEnds_written hm hle
  have hl : lowEnd (reg i) = p.1 := by unfold lowEnd; rw [hp]; rfl
  have hh : highEnd (reg i) = p.2 := by unfold highEnd; rw [hp]; rfl
  have h6 := endpointCount_le hm
  have ht : TracksOk (tracksAt m b n anchors i) := by
    refine pickTracks_ok hm _ (indexAt_lt _ _ _) ?_
    unfold secondAt
    split
    · exact Nat.two_pow_pos _
    · exact indexAt_lt _ _ _
  rw [hl, hh]
  exact At.texel7 (fun r h => h.1.rest.shape) (fun r h => h.1.rest.rot) (fun r h => h.1.rest.isel) (fun r h => h.1.ends)
    (fun r h => h.2.2) (fun r h => h.2.1) (by rw [hsh]; exact hri) hp ((endpoints6_take _ h6 _).mp hm1)
    ((endpoints6_take _ h6 _).mp hm2) (hr.wt _ _ ht.pcw ht.wc) (hr.wt _ _ ht.paw ht.wa)

end

end Sys2Proof.Machine
end

