-- ==== Sys2Proof/Laws/Blocks.lean ====
section
/-!
SUPPORT. What the shared block decodes of the fixed layouts do: they always complete, with the values of R223 and R265,
and they write their own working registers only.
-/

namespace Sys2Proof.Machine

/-- The colour registers after a colour block. -/
def colorRegsAfter (c : Config) (f : ColorFields) (four : Bool) : ColorRegs where
  c0 := some f.c0
  c1 := some f.c1
  pal := tab4 fun k => some ((palette c four f.c0 f.c1).get k)
  sel := tab16 fun i => some (selAt f.sel i)

/-- `ColorBlock` completes (R223). -/
theorem colorBlock_eq (f : ColorFields) (four : Bool) (s : State) :
    colorBlock f four s =
      .ok (tab16 fun i => (palette s.cfg four f.c0 f.c1).get (selAt f.sel i).toFin)
        (s.setWork { s.work with col := colorRegsAfter s.cfg f four }) := by
  unfold colorBlock
  simp only [dec_bind, writeWork_apply, State.setWork_work, State.setWork_cfg, State.setWork_setWork, config_apply,
    register]
  rw [emit16_pure (g := fun i => (palette s.cfg four f.c0 f.c1).get (selAt f.sel i).toFin)]
  · rfl
  · intro i
    simp only [dec_bind, register, State.setWork_work, tab16_get, tab4_get]

/-- The gradient registers after a gradient block. -/
def gradRegsAfter (g : BitVec 48) (e0 e1 : Int) (v : Fin 8 → Byte) : GradRegs where
  e0 := some e0
  e1 := some e1
  grad := tab8 fun j => some (v j)
  gsel := tab16 fun i => some (gselAt g i)

@[simp] theorem gradRegs_setGradRegs (k : GradSet) (g : GradRegs) (w : Work) : gradRegs k (setGradRegs k g w) = g := by
  cases k <;> rfl

@[simp] theorem setGradRegs_setGradRegs (k : GradSet) (g h : GradRegs) (w : Work) :
    setGradRegs k h (setGradRegs k g w) = setGradRegs k h w := by
  cases k <;> rfl

/-- `GradBlockU` and `GradBlockS` complete (R265). -/
theorem gradBlock_eq (k : GradSet) (g : BitVec 48) (e0 e1 : Int) (r : RoundMode → Int → Int → Fin 8 → Int) (s : State) :
    gradBlock k g e0 e1 r s =
      .ok (tab16 fun i => BitVec.ofInt 8 (r s.cfg.roundMode e0 e1 (gselAt g i).toFin))
        (s.setWork (setGradRegs k
          (gradRegsAfter g e0 e1 fun j => BitVec.ofInt 8 (r s.cfg.roundMode e0 e1 j)) s.work)) := by
  unfold gradBlock
  simp only [dec_bind, writeWork_apply, State.setWork_work, State.setWork_cfg, State.setWork_setWork, config_apply,
    register, gradRegs_setGradRegs, setGradRegs_setGradRegs]
  rw [emit16_pure (g := fun i => BitVec.ofInt 8 (r s.cfg.roundMode e0 e1 (gselAt g i).toFin))]
  · rfl
  · intro i
    simp only [dec_bind, register, State.setWork_work, gradRegs_setGradRegs, tab16_get, tab8_get]

end Sys2Proof.Machine
end

