-- ==== Sys2Proof/Laws/Memory.lean ====
section
/-!
SUPPORT. The host's byte memory: a read after a write, and every operation keeps the canonical form.
-/

namespace Sys2Proof.Machine

theorem lookup_insertCell (a x : Nat) (b : Byte) (cs : List Host.Cell) :
    (insertCell a b cs).lookup x = if x = a then some b else cs.lookup x := by
  induction cs with
  | nil =>
    by_cases h : x = a
    · simp [insertCell, h]
    · simp [insertCell, List.lookup, beq_eq_false_iff_ne.2 h, h]
  | cons c cs ih =>
    obtain ⟨k, v⟩ := c
    unfold insertCell
    dsimp only
    split
    · by_cases h : x = a
      · simp [List.lookup, h]
      · simp [List.lookup, beq_eq_false_iff_ne.2 h, h]
    · split
      · rename_i h1 h2
        subst h2
        by_cases h : x = a
        · simp [List.lookup, h]
        · simp [List.lookup, beq_eq_false_iff_ne.2 h, h]
      · rename_i h1 h2
        by_cases hk : x = k
        · subst hk
          have : ¬ x = a := fun e => h2 e.symm
          simp [List.lookup, this]
        · have hb : (x == k) = false := by simpa using hk
          simp only [List.lookup, hb]
          exact ih

theorem mem_insertCell {a : Nat} {b : Byte} {cs : List Host.Cell} {c : Host.Cell}
    (h : c ∈ insertCell a b cs) : c = (a, b) ∨ c ∈ cs := by
  induction cs with
  | nil => left; simpa [insertCell] using h
  | cons d cs ih =>
    unfold insertCell at h
    split at h
    · simpa using h
    · split at h
      · simp only [List.mem_cons] at h ⊢
        rcases h with h | h
        · exact .inl h
        · exact .inr (.inr h)
      · simp only [List.mem_cons] at h ⊢
        rcases h with h | h
        · exact .inr (.inl h)
        · rcases ih h with h | h
          · exact .inl h
          · exact .inr (.inr h)

theorem pairwise_insertCell {a : Nat} {b : Byte} {cs : List Host.Cell}
    (h : cs.Pairwise fun x y => x.1 < y.1) : (insertCell a b cs).Pairwise fun x y => x.1 < y.1 := by
  induction cs with
  | nil => simp [insertCell]
  | cons d cs ih =>
    obtain ⟨hd, hcs⟩ := List.pairwise_cons.1 h
    unfold insertCell
    split
    · rename_i h1
      refine List.pairwise_cons.2 ⟨?_, h⟩
      intro x hx
      rcases List.mem_cons.1 hx with hx | hx
      · subst hx; exact h1
      · exact lt_trans h1 (hd x hx)
    · split
      · rename_i h1 h2
        refine List.pairwise_cons.2 ⟨?_, hcs⟩
        intro x hx
        rw [h2]
        exact hd x hx
      · rename_i h1 h2
        refine List.pairwise_cons.2 ⟨?_, ih hcs⟩
        intro x hx
        rcases mem_insertCell hx with hx | hx
        · subst hx
          change d.1 < a
          omega
        · exact hd x hx

/-- All that a store of one byte can do. -/
theorem Memory.write_some {m m' : Memory} {a : Nat} {b : Byte} (h : m.write a b = some m') :
    a < m.size ∧ m'.size = m.size ∧ ∀ x, m'.read x = if x = a then some b else m.read x := by
  unfold Memory.write at h
  split at h
  · rename_i ha
    cases h
    exact ⟨ha, rfl, fun x => lookup_insertCell a x b m.cells⟩
  · cases h

theorem Memory.write_none {m : Memory} {a : Nat} {b : Byte} : m.write a b = none ↔ m.size ≤ a := by
  unfold Memory.write
  split <;> simp <;> omega

/-- A store keeps the canonical form. -/
theorem Memory.write_wf {m m' : Memory} {a : Nat} {b : Byte} (hw : m.wf) (h : m.write a b = some m') : m'.wf := by
  unfold Memory.write at h
  split at h
  · rename_i ha
    cases h
    refine ⟨pairwise_insertCell hw.1, ?_⟩
    intro c hc
    rcases mem_insertCell hc with hc | hc
    · subst hc; exact ha
    · exact hw.2 c hc
  · cases h

theorem Memory.empty_wf (n : Nat) : Memory.wf ⟨n, []⟩ := by simp [Memory.wf]

/-- The memory after reset has the canonical form. -/
theorem reset_memory_wf : State.reset.host.buffer.wf := Memory.empty_wf 0

theorem storeBytes_wf {bs : List (Nat × Option Byte)} {m m' : Memory} (hw : m.wf)
    (h : storeBytes bs m = .ok m') : m'.wf := by
  induction bs generalizing m with
  | nil => cases h; exact hw
  | cons x rest ih =>
    obtain ⟨a, b⟩ := x
    cases b with
    | none => cases h
    | some b =>
      simp only [storeBytes] at h
      cases hm : m.write a b with
      | none => rw [hm] at h; cases h
      | some m1 => rw [hm] at h; exact ih (Memory.write_wf hw hm) h

theorem storeBytes_size {bs : List (Nat × Option Byte)} {m m' : Memory}
    (h : storeBytes bs m = .ok m') : m'.size = m.size := by
  induction bs generalizing m with
  | nil => cases h; rfl
  | cons x rest ih =>
    obtain ⟨a, b⟩ := x
    cases b with
    | none => cases h
    | some b =>
      simp only [storeBytes] at h
      cases hm : m.write a b with
      | none => rw [hm] at h; cases h
      | some m1 =>
        rw [hm] at h
        exact (ih h).trans (Memory.write_some hm).2.1

/-- A store of bytes leaves every address that is not among theirs as it was. -/
theorem storeBytes_read_other {bs : List (Nat × Option Byte)} {m m' : Memory}
    (h : storeBytes bs m = .ok m') {x : Nat} (hx : ∀ c ∈ bs, c.1 ≠ x) : m'.read x = m.read x := by
  induction bs generalizing m with
  | nil => cases h; rfl
  | cons c rest ih =>
    obtain ⟨a, b⟩ := c
    cases b with
    | none => cases h
    | some b =>
      simp only [storeBytes] at h
      cases hm : m.write a b with
      | none => rw [hm] at h; cases h
      | some m1 =>
        rw [hm] at h
        have h1 := (Memory.write_some hm).2.2 x
        rw [if_neg (fun e => hx (a, some b) (by simp) e.symm)] at h1
        rw [ih h (fun c hc => hx c (List.mem_cons_of_mem _ hc)), h1]

/-- A store of bytes to distinct addresses leaves each byte at its address. -/
theorem storeBytes_read {bs : List (Nat × Option Byte)} {m m' : Memory} (hd : (bs.map (·.1)).Nodup)
    (h : storeBytes bs m = .ok m') {x : Nat} {b : Option Byte} (hx : (x, b) ∈ bs) : m'.read x = b := by
  induction bs generalizing m with
  | nil => cases hx
  | cons c rest ih =>
    obtain ⟨a, v⟩ := c
    cases v with
    | none => cases h
    | some v =>
      simp only [storeBytes] at h
      cases hm : m.write a v with
      | none => rw [hm] at h; cases h
      | some m1 =>
        rw [hm] at h
        rw [List.map_cons, List.nodup_cons] at hd
        rcases List.mem_cons.1 hx with hx | hx
        · cases hx
          have ho : ∀ c ∈ rest, c.1 ≠ x := by
            intro c hc e
            exact hd.1 (List.mem_map.2 ⟨c, hc, e⟩)
          rw [storeBytes_read_other h ho, (Memory.write_some hm).2.2 x, if_pos rfl]
        · exact ih hd.2 h hx

/-- A store of bytes that all have a value and lie inside the buffer does not fault. -/
theorem storeBytes_ok {bs : List (Nat × Option Byte)} {m : Memory}
    (h : ∀ c ∈ bs, c.2.isSome ∧ c.1 < m.size) : ∃ m', storeBytes bs m = .ok m' := by
  induction bs generalizing m with
  | nil => exact ⟨m, rfl⟩
  | cons c rest ih =>
    obtain ⟨a, b⟩ := c
    obtain ⟨hb, ha⟩ := h (a, b) (by simp)
    cases b with
    | none => cases hb
    | some b =>
      cases hm : m.write a b with
      | none => exact absurd (Memory.write_none.1 hm) (by simpa using ha)
      | some m1 =>
        have hs := (Memory.write_some hm).2.1
        obtain ⟨m', h'⟩ := ih (m := m1) (fun c hc => by rw [hs]; exact h c (List.mem_cons_of_mem _ hc))
        exact ⟨m', by simp only [storeBytes, hm]; exact h'⟩

end Sys2Proof.Machine
end

