-- ==== Sys2Proof/Laws/Geometry.lean ====
section
/-!
SUPPORT. The host's arithmetic: a texel's address lies inside its level, two texels never share one, a tile's bytes are
listed once each, and the levels of an image lie one after the other (R386 to R389).
-/

namespace Sys2Proof.Machine

/-! ### Addresses -/

/-- The coordinates of a texel are inside the padded level. -/
theorem texelPixel_lt {l : LevelDesc} {k : Nat} (h : k < l.blockCount) (i : Fin 16) :
    (texelPixel l k i).1 < 4 * l.blocksPerRow ∧ (texelPixel l k i).2 < 4 * l.blocksPerCol := by
  have hi := i.isLt
  have hk : k < l.blocksPerRow * l.blocksPerCol := h
  have hp : 0 < l.blocksPerRow := by
    rcases Nat.eq_zero_or_pos l.blocksPerRow with e | e
    · rw [e, Nat.zero_mul] at hk; omega
    · exact e
  have h1 := Nat.mod_lt k hp
  have h2 : k / l.blocksPerRow < l.blocksPerCol := Nat.div_lt_of_lt_mul hk
  unfold texelPixel
  constructor <;> dsimp only <;> omega

/-- A byte of a texel lies inside its level (R386, R389). -/
theorem texelAddr_lt {f : Fmt} {size : Nat} {l : LevelDesc} (hl : LevelInv f size l) {k : Nat} (hk : k < l.blockCount)
    (i : Fin 16) {j : Nat} (hj : j < (fmtDesc f).pixelDepthBytes) :
    texelAddr l (fmtDesc f).pixelDepthBytes k i + j < l.dataOffset + l.dataLength := by
  obtain ⟨hx, hy⟩ := texelPixel_lt hk i
  obtain ⟨hs, hd, -⟩ := hl
  unfold texelAddr
  generalize (texelPixel l k i).1 = x at *
  generalize (texelPixel l k i).2 = y at *
  generalize (fmtDesc f).pixelDepthBytes = d at *
  have h1 : x * d + j < l.strideBytes := by
    have : (x + 1) * d ≤ l.blocksPerRow * 4 * d := Nat.mul_le_mul_right d (by omega)
    rw [Nat.add_mul] at this
    omega
  have h2 : (y + 1) * l.strideBytes ≤ l.strideBytes * l.blocksPerCol * 4 := by
    rw [Nat.mul_assoc, Nat.mul_comm]
    exact Nat.mul_le_mul_left _ (by omega)
  rw [Nat.add_mul] at h2
  omega

theorem digits_inj {d a b r s : Nat} (hr : r < d) (hs : s < d) (h : a * d + r = b * d + s) : a = b ∧ r = s := by
  have hd : 0 < d := by omega
  have h1 : (a * d + r) / d = a := by
    rw [Nat.add_comm, Nat.add_mul_div_right _ _ hd, Nat.div_eq_of_lt hr, Nat.zero_add]
  have h2 : (b * d + s) / d = b := by
    rw [Nat.add_comm, Nat.add_mul_div_right _ _ hd, Nat.div_eq_of_lt hs, Nat.zero_add]
  have h3 : a = b := by rw [← h1, ← h2, h]
  subst h3
  exact ⟨rfl, by omega⟩

/-- Two bytes at one address are the same byte of the same texel of the same block (R389: "each block owns a disjoint
sub-rectangle"). -/
theorem texelAddr_inj {f : Fmt} {size : Nat} {l : LevelDesc} (hl : LevelInv f size l) {k k' : Nat} (hk : k < l.blockCount)
    (hk' : k' < l.blockCount) {i i' : Fin 16} {j j' : Nat} (hj : j < (fmtDesc f).pixelDepthBytes)
    (hj' : j' < (fmtDesc f).pixelDepthBytes)
    (h : texelAddr l (fmtDesc f).pixelDepthBytes k i + j = texelAddr l (fmtDesc f).pixelDepthBytes k' i' + j') :
    k = k' ∧ i = i' ∧ j = j' := by
  obtain ⟨hx, hy⟩ := texelPixel_lt hk i
  obtain ⟨hx', hy'⟩ := texelPixel_lt hk' i'
  obtain ⟨hs, -, -⟩ := hl
  unfold texelAddr at h
  have hstride : ∀ x j, x < 4 * l.blocksPerRow → j < (fmtDesc f).pixelDepthBytes →
      x * (fmtDesc f).pixelDepthBytes + j < l.strideBytes := by
    intro x j hx hj
    have : (x + 1) * (fmtDesc f).pixelDepthBytes ≤ l.blocksPerRow * 4 * (fmtDesc f).pixelDepthBytes :=
      Nat.mul_le_mul_right _ (by omega)
    rw [Nat.add_mul] at this
    omega
  obtain ⟨e1, e2⟩ := digits_inj (a := (texelPixel l k i).2) (b := (texelPixel l k' i').2) (hstride _ _ hx hj)
    (hstride _ _ hx' hj') (by omega)
  obtain ⟨e3, e4⟩ := digits_inj hj hj' e2
  have hi := i.isLt
  have hi' := i'.isLt
  simp only [texelPixel] at e1 e3
  have q1 : k / l.blocksPerRow = k' / l.blocksPerRow := by omega
  have q2 : k % l.blocksPerRow = k' % l.blocksPerRow := by omega
  refine ⟨?_, Fin.ext (by omega), e4⟩
  rw [← Nat.div_add_mod k l.blocksPerRow, ← Nat.div_add_mod k' l.blocksPerRow, q1, q2]

/-! ### The bytes of a tile -/

/-- A byte order that names each channel once lists each channel of a format at one byte of the texel (R79). -/
theorem orderedChannels_length {order : List Channel} (h : order.Perm [.R, .G, .B, .A]) (f : Fmt) :
    (orderedChannels order f).length = (fmtDesc f).pixelDepthBytes := by
  unfold orderedChannels
  rw [(h.filter _).length_eq]
  cases f <;> rfl

/-- The bytes of a texel, by position. -/
theorem mem_texelBytes {order : List Channel} {f : Fmt} {l : LevelDesc} {k : Nat} {t : Tile} {i : Fin 16}
    {c : Nat × Option Byte} :
    c ∈ texelBytes order f l k t i ↔ ∃ j ch, (orderedChannels order f)[j]? = some ch ∧
      c = (texelAddr l (fmtDesc f).pixelDepthBytes k i + j, (t.get i).channel ch) := by
  unfold texelBytes
  rw [List.mem_map]
  constructor
  · rintro ⟨⟨ch, j⟩, hm, rfl⟩
    exact ⟨j, ch, List.mem_zipIdx_iff_getElem?.mp hm, rfl⟩
  · rintro ⟨j, ch, hm, rfl⟩
    exact ⟨(ch, j), List.mem_zipIdx_iff_getElem?.mpr hm, rfl⟩

/-- The bytes of a tile, by texel and position. -/
theorem mem_tileBytes {order : List Channel} {f : Fmt} {l : LevelDesc} {k : Nat} {t : Tile} {c : Nat × Option Byte} :
    c ∈ tileBytes order f l k t ↔ ∃ i j ch, (orderedChannels order f)[j]? = some ch ∧
      c = (texelAddr l (fmtDesc f).pixelDepthBytes k i + j, (t.get i).channel ch) := by
  unfold tileBytes
  rw [List.mem_flatMap]
  constructor
  · rintro ⟨i, -, hc⟩
    exact ⟨i, mem_texelBytes.mp hc⟩
  · rintro ⟨i, h⟩
    have hi : ∀ i : Fin 16, i ∈ texels := by decide
    exact ⟨i, hi i, mem_texelBytes.mpr h⟩

/-- The addresses of a tile's bytes are distinct. -/
theorem tileBytes_nodup {order : List Channel} (ho : order.Perm [.R, .G, .B, .A]) {f : Fmt} {size : Nat} {l : LevelDesc}
    (hl : LevelInv f size l) {k : Nat} (hk : k < l.blockCount) (t : Tile) :
    ((tileBytes order f l k t).map (·.1)).Nodup := by
  have hlen := orderedChannels_length ho f
  have hlt : ∀ {j ch}, (orderedChannels order f)[j]? = some ch → j < (fmtDesc f).pixelDepthBytes := by
    intro j ch h
    rw [← hlen]
    exact (List.getElem?_eq_some_iff.mp h).1
  unfold tileBytes
  rw [List.map_flatMap]
  refine List.nodup_flatMap.mpr ⟨fun i _ => ?_, ?_⟩
  · unfold texelBytes
    rw [List.map_map]
    have : ((fun x : Nat × Option Byte => x.1) ∘ fun cj : Channel × Nat =>
        (texelAddr l (fmtDesc f).pixelDepthBytes k i + cj.2, (t.get i).channel cj.1)) =
        (fun n => texelAddr l (fmtDesc f).pixelDepthBytes k i + n) ∘ Prod.snd := rfl
    rw [this, ← List.map_map]
    refine List.Nodup.map (fun a b h => by simpa using h) ?_
    rw [List.zipIdx_map_snd]
    exact List.nodup_range'
  · have hn : texels.Nodup := by decide
    refine hn.imp fun {i i'} hne => ?_
    intro a h1 h2
    obtain ⟨c, hc, rfl⟩ := List.mem_map.mp h1
    obtain ⟨c', hc', he⟩ := List.mem_map.mp h2
    obtain ⟨j, ch, hj, rfl⟩ := mem_texelBytes.mp hc
    obtain ⟨j', ch', hj', rfl⟩ := mem_texelBytes.mp hc'
    exact hne (texelAddr_inj hl hk hk (hlt hj) (hlt hj') he.symm).2.1

/-! ### Levels -/

theorem calcBlocks_eq (n : Nat) : calcBlocks n = (n + 3) / 4 := Nat.shiftRight_eq_div_pow (n + 3) 2

/-- Level `j` of a run of levels: its size, and its place after the earlier ones. -/
theorem levelsFrom_getElem? {f : Fmt} {w h n k o j : Nat} {l : LevelDesc} (hl : (levelsFrom f w h n k o)[j]? = some l) :
    l = levelDesc f (max 1 (w >>> (k + j))) (max 1 (h >>> (k + j)))
      (o + (((levelsFrom f w h n k o).take j).map (·.dataLength)).sum) := by
  induction n generalizing k o j with
  | zero => simp [levelsFrom] at hl
  | succ n ih =>
    unfold levelsFrom at hl ⊢
    cases j with
    | zero => simpa using hl.symm
    | succ j =>
      rw [List.getElem?_cons_succ] at hl
      have := ih hl
      rw [List.take_succ_cons, List.map_cons, List.sum_cons, ← Nat.add_assoc o, Nat.add_comm j 1, ← Nat.add_assoc k]
      exact this

/-- A level of a list, with those before it, is no longer than the whole list. -/
theorem sum_take_le {ls : List LevelDesc} {j : Nat} {l : LevelDesc} (h : ls[j]? = some l) :
    ((ls.take j).map (·.dataLength)).sum + l.dataLength ≤ bufferSize ls := by
  unfold bufferSize
  induction ls generalizing j with
  | nil => simp at h
  | cons x ls ih =>
    cases j with
    | zero =>
      simp only [List.getElem?_cons_zero, Option.some.injEq] at h
      subst h
      simp
    | succ j =>
      rw [List.getElem?_cons_succ] at h
      have := ih h
      simp only [List.take_succ_cons, List.map_cons, List.sum_cons]
      omega

end Sys2Proof.Machine
end

