-- ==== Sys2Proof/Laws/Host.lean ====
section
/-!
SUPPORT. What the operations on the host's record can do: the end of an image-decode call, the window, the next block.
-/

namespace Sys2Proof.Machine

/-! ### The end of an image-decode call (R391, R392, R394) -/

@[simp] theorem finishImage_phase (h : HostRec) : (finishImage h).phase = .finished := rfl
@[simp] theorem finishImage_request (h : HostRec) : (finishImage h).request = h.request := rfl
@[simp] theorem finishImage_fmt (h : HostRec) : (finishImage h).fmt = h.fmt := rfl
@[simp] theorem finishImage_levels (h : HostRec) : (finishImage h).levels = h.levels := rfl
@[simp] theorem finishImage_level (h : HostRec) : (finishImage h).level = h.level := rfl
@[simp] theorem finishImage_index (h : HostRec) : (finishImage h).index = h.index := rfl
@[simp] theorem finishImage_stream (h : HostRec) : (finishImage h).stream = [] := rfl
@[simp] theorem finishImage_window (h : HostRec) : (finishImage h).window = [] := rfl
@[simp] theorem finishImage_buffer (h : HostRec) : (finishImage h).buffer = ⟨0, []⟩ := rfl
@[simp] theorem finishImage_delivered (h : HostRec) : (finishImage h).delivered = h.delivered := rfl

/-- What is handed out is the layout of the format, the plan, and the buffer as it stands (R392). -/
theorem finishImage_output {h : HostRec} {f : Fmt} (hf : fmtOfCode h.fmt = some f) :
    (finishImage h).output = some ⟨(fmtDesc f).layout, h.levels, h.buffer⟩ := by
  show (fmtOfCode h.fmt).map _ = _
  rw [hf]
  rfl

/-- Whatever is handed out has the buffer as it stands. -/
theorem finishImage_output_buffer {h : HostRec} {o : OutputImage} (ho : (finishImage h).output = some o) :
    o.buffer = h.buffer := by
  obtain ⟨f, -, rfl⟩ := Option.map_eq_some_iff.mp ho
  rfl

@[simp] theorem failImage_phase (e : StructuralError) (h : HostRec) : (failImage e h).phase = .failed e := rfl
@[simp] theorem failImage_stream (e : StructuralError) (h : HostRec) : (failImage e h).stream = [] := rfl
@[simp] theorem failImage_window (e : StructuralError) (h : HostRec) : (failImage e h).window = [] := rfl
@[simp] theorem failImage_buffer (e : StructuralError) (h : HostRec) : (failImage e h).buffer = ⟨0, []⟩ := rfl
@[simp] theorem failImage_output (e : StructuralError) (h : HostRec) : (failImage e h).output = none := rfl

/-! ### The window (R388) -/

/-- All that a refill can do: bytes move from the stream to the end of the window, none is lost, the window grows to a row
at most, and it stays shorter than a block only when the stream is used up. -/
theorem refill_spec {n row : Nat} (hn : n ≤ row) (h : HostRec) :
    ∃ w st, refill n row h = { h with window := w, stream := st } ∧ w ++ st = h.window ++ h.stream ∧
      (h.window.length ≤ row → w.length ≤ row) ∧ (w.length < n → st = []) := by
  unfold refill
  split
  · refine ⟨_, _, rfl, by simp, fun hr => ?_, fun hr => ?_⟩
    · simp only [List.length_append, List.length_take]
      omega
    · simp only [List.length_append, List.length_take] at hr
      apply List.drop_eq_nil_of_le
      omega
  · exact ⟨h.window, h.stream, rfl, rfl, id, fun hr => by omega⟩

/-- A refill before the end changes nothing of what the end leaves. -/
theorem finishImage_refill (n row : Nat) (h : HostRec) : finishImage (refill n row h) = finishImage h := by
  unfold refill
  split <;> rfl

/-! ### The next block (R385) -/

/-- Only the position changes. -/
theorem advance_spec (l : LevelDesc) (h : HostRec) :
    advance l h = { h with
      index := if h.index + 1 < l.blockCount then h.index + 1 else 0
      level := if h.index + 1 < l.blockCount then h.level else h.level + 1 } := by
  unfold advance
  split <;> rfl

end Sys2Proof.Machine
end

