-- ==== Sys2Proof/Laws/Placement.lean ====
section
/-!
SUPPORT. The scattered header of a BC6H block (R142, R181 to R194), bit by bit: what `scatter`, `gather` and the encoders put
where, and what the machine's header loop gathers.
-/

namespace Sys2Proof

open Sys2Proof.Machine

/-- The bits of `v` from bit `i` on, each with its position in the block. -/
def placedBits (v : Nat) : Nat → List Nat → List (Nat × Bool)
  | _, [] => []
  | i, p :: ps => (p, v.testBit i) :: placedBits v (i + 1) ps

/-- The bit that a list of placed bits gives a position. -/
def bitFrom (L : List (Nat × Bool)) (q : Nat) : Bool := L.any fun x => x.1 == q && x.2

theorem bitFrom_append (L M : List (Nat × Bool)) (q : Nat) : bitFrom (L ++ M) q = (bitFrom L q || bitFrom M q) := by
  unfold bitFrom
  rw [List.any_append]

/-- When no position is used twice, each placed bit is found at its position. -/
theorem bitFrom_mem {L : List (Nat × Bool)} (hn : (L.map (·.1)).Nodup) {q : Nat} {x : Bool} (h : (q, x) ∈ L) :
    bitFrom L q = x := by
  unfold bitFrom
  cases x with
  | true => exact List.any_eq_true.mpr ⟨_, h, by simp⟩
  | false =>
    rw [List.any_eq_false]
    rintro ⟨a, y⟩ hy hh
    simp only [Bool.and_eq_true, beq_iff_eq] at hh
    obtain ⟨rfl, rfl⟩ := hh
    exact absurd (List.inj_on_of_nodup_map hn h hy rfl) (by simp)

theorem bitFrom_none {L : List (Nat × Bool)} {q : Nat} (h : q ∉ L.map (·.1)) : bitFrom L q = false := by
  unfold bitFrom
  rw [List.any_eq_false]
  rintro ⟨a, y⟩ hy hh
  simp only [Bool.and_eq_true, beq_iff_eq] at hh
  exact h (List.mem_map.mpr ⟨_, hy, hh.1⟩)

theorem placedBits_positions (v i : Nat) (ps : List Nat) : (placedBits v i ps).map (·.1) = ps := by
  induction ps generalizing i with
  | nil => rfl
  | cons p ps ih => simp [placedBits, ih]

theorem mem_placedBits (v : Nat) {i j : Nat} {ps : List Nat} {q : Nat} (h : ps[j]? = some q) :
    (q, v.testBit (i + j)) ∈ placedBits v i ps := by
  induction ps generalizing i j with
  | nil => simp at h
  | cons p ps ih =>
    cases j with
    | zero =>
      simp only [List.getElem?_cons_zero, Option.some.injEq] at h
      subst h
      exact .head _
    | succ j =>
      rw [List.getElem?_cons_succ] at h
      rw [Nat.add_comm j 1, ← Nat.add_assoc]
      exact .tail _ (ih h)

/-- `scatter`, bit by bit. -/
theorem scatter_testBit (v : Nat) (ps : List Nat) (q : Nat) : (scatter v ps).testBit q = bitFrom (placedBits v 0 ps) q := by
  suffices h : ∀ i, (scatter (v >>> i) ps).testBit q = bitFrom (placedBits v i ps) q from h 0
  induction ps with
  | nil => intro i; simp [scatter, placedBits, bitFrom]
  | cons p ps ih =>
    intro i
    have h2 : (v >>> i) / 2 = v >>> (i + 1) := by rw [Nat.shiftRight_succ]
    simp only [scatter, placedBits, Nat.testBit_or, h2, ih]
    unfold bitFrom
    rw [List.any_cons]
    congr 1
    rw [Nat.testBit_shiftLeft]
    rcases Nat.lt_trichotomy q p with h | h | h
    · have h1 : ¬ q ≥ p := by omega
      have h3 : ¬ p = q := by omega
      simp [h1, h3]
    · subst h
      simp
    · have h3 : ¬ p = q := by omega
      simp only [beq_eq_false_iff_ne.mpr h3, Bool.false_and, Bool.and_eq_false_imp]
      intro _
      have h1 : 2 ≤ 2 ^ (q - p) := Nat.le_self_pow (by omega) 2
      exact Nat.testBit_lt_two_pow (lt_of_lt_of_le (Nat.mod_lt _ (by decide)) h1)

/-- `gather` reads back a number whose bits stand at the positions. -/
theorem gather_eq {b : Block} {ps : List Nat} {v : Nat} (hv : v < 2 ^ ps.length)
    (hb : ∀ j q, ps[j]? = some q → b.getLsbD q = v.testBit j) : gather b ps = v := by
  induction ps generalizing v with
  | nil => simp only [List.length_nil, pow_zero, Nat.lt_one_iff] at hv; exact hv.symm
  | cons p ps ih =>
    rw [List.length_cons, pow_succ] at hv
    have h0 := hb 0 p rfl
    have h1 : gather b ps = v / 2 := ih (by omega) fun j q h => by
      rw [hb (j + 1) q h, Nat.testBit_succ]
    have h2 : (v.testBit 0).toNat = v % 2 := by
      rw [Nat.testBit_zero]
      rcases Nat.mod_two_eq_zero_or_one v with h | h <;> rw [h] <;> rfl
    show (b.getLsbD p).toNat + 2 * gather b ps = v
    rw [h0, h1, h2]
    omega

/-- The placed bits of a two-region block. -/
def placedTwo {w r g b : Nat} (l : TwoLayout) (f : Bc6Two w r g b) : List (Nat × Bool) :=
  placedBits f.rW.toNat 0 l.rW ++ placedBits f.gW.toNat 0 l.gW ++ placedBits f.bW.toNat 0 l.bW ++
  placedBits f.rX.toNat 0 l.rX ++ placedBits f.gX.toNat 0 l.gX ++ placedBits f.bX.toNat 0 l.bX ++
  placedBits f.rY.toNat 0 l.rY ++ placedBits f.gY.toNat 0 l.gY ++ placedBits f.bY.toNat 0 l.bY ++
  placedBits f.rZ.toNat 0 l.rZ ++ placedBits f.gZ.toNat 0 l.gZ ++ placedBits f.bZ.toNat 0 l.bZ ++
  placedBits f.d.toNat 0 l.d

/-- The placed bits of a one-region block. -/
def placedOne {w x : Nat} (l : OneLayout) (f : Bc6One w x) : List (Nat × Bool) :=
  placedBits f.rW.toNat 0 l.rW ++ placedBits f.gW.toNat 0 l.gW ++ placedBits f.bW.toNat 0 l.bW ++
  placedBits f.rX.toNat 0 l.rX ++ placedBits f.gX.toNat 0 l.gX ++ placedBits f.bX.toNat 0 l.bX

/-- Every bit of an encoded two-region block. -/
theorem encodeTwo_getLsbD {w r g b : Nat} (code : Nat) (l : TwoLayout) (f : Bc6Two w r g b) {q : Nat} (hq : q < 128) :
    (encodeTwo code l f).getLsbD q =
      (code.testBit q || bitFrom (placedTwo l f) q || (decide (82 ≤ q) && f.idx.toNat.testBit (q - 82))) := by
  unfold encodeTwo placedTwo
  rw [BitVec.getLsbD_ofNat]
  simp only [hq, decide_true, Bool.true_and, Nat.testBit_or, scatter_testBit, bitFrom_append, Nat.testBit_shiftLeft,
    Bool.or_assoc, ge_iff_le]

/-- Every bit of an encoded one-region block. -/
theorem encodeOne_getLsbD {w x : Nat} (code : Nat) (l : OneLayout) (f : Bc6One w x) {q : Nat} (hq : q < 128) :
    (encodeOne code l f).getLsbD q =
      (code.testBit q || bitFrom (placedOne l f) q || (decide (65 ≤ q) && f.idx.toNat.testBit (q - 65))) := by
  unfold encodeOne placedOne
  rw [BitVec.getLsbD_ofNat]
  simp only [hq, decide_true, Bool.true_and, Nat.testBit_or, scatter_testBit, bitFrom_append, Nat.testBit_shiftLeft,
    Bool.or_assoc, ge_iff_le]

namespace Machine

/-- What the header loop gathers, bit by bit. -/
theorem gathered_testBit (b : Block) (p : Desc → Bool) (k : Nat) (ds : List Desc) (a j : Nat) :
    (gathered b p k ds a).testBit j =
      (a.testBit j || (ds.zipIdx k).any fun x => p x.1 && b.getLsbD x.2 && x.1.n == j) := by
  induction ds generalizing k a with
  | nil => simp [gathered]
  | cons d ds ih =>
    simp only [gathered, ih, List.zipIdx_cons, List.any_cons]
    rw [← Bool.or_assoc]
    congr 1
    cases h1 : p d <;> cases h2 : b.getLsbD k <;> simp [Nat.testBit_or, Nat.testBit_shiftLeft]
    congr 1
    by_cases h : d.n = j
    · subst h; simp
    · rcases Nat.lt_or_gt_of_ne h with h3 | h3
      · have : (1 : Nat).testBit (j - d.n) = false := Nat.testBit_lt_two_pow (Nat.one_lt_two_pow (by omega))
        simp [this, h]
      · have : ¬ d.n ≤ j := by omega
        simp [this, h]

/-- The header table and a list of positions place the same number. -/
def agrees (p : Desc → Bool) (k : Nat) (ds : List Desc) (ps : List Nat) : Bool :=
  ((ds.zipIdx k).filter fun x => p x.1).all (fun x => ps[x.1.n]? == some x.2) &&
  ps.zipIdx.all (fun x => (ds.zipIdx k).any fun y => p y.1 && y.2 == x.1 && y.1.n == x.2)

/-- The header loop gathers a number whose bits stand at positions that the table agrees with. -/
theorem gathered_eq {b : Block} {p : Desc → Bool} {k : Nat} {ds : List Desc} {ps : List Nat} (h : agrees p k ds ps = true)
    {v : Nat} (hv : v < 2 ^ ps.length) (hb : ∀ j q, ps[j]? = some q → b.getLsbD q = v.testBit j) :
    gathered b p k ds 0 = v := by
  unfold agrees at h
  simp only [Bool.and_eq_true, List.all_eq_true, List.mem_filter] at h
  obtain ⟨h1, h2⟩ := h
  apply Nat.eq_of_testBit_eq
  intro j
  rw [gathered_testBit, Nat.zero_testBit, Bool.false_or, Bool.eq_iff_iff, List.any_eq_true]
  constructor
  · rintro ⟨⟨d, q⟩, hm, hx⟩
    simp only [Bool.and_eq_true, beq_iff_eq] at hx
    obtain ⟨⟨hp, hq⟩, rfl⟩ := hx
    have := h1 ⟨d, q⟩ ⟨hm, hp⟩
    rw [← hb _ _ (by simpa using this)]
    exact hq
  · intro hj
    have hlt : j < ps.length := by
      by_contra hh
      have : v < 2 ^ j := lt_of_lt_of_le hv (Nat.pow_le_pow_right (by decide) (by omega))
      rw [Nat.testBit_lt_two_pow this] at hj
      cases hj
    have hg : ps[j]? = some ps[j] := List.getElem?_eq_getElem hlt
    have := h2 (ps[j], j) (List.mem_zipIdx_iff_getElem?.mpr hg)
    obtain ⟨⟨d, q⟩, hm, hx⟩ := List.any_eq_true.mp this
    simp only [Bool.and_eq_true, beq_iff_eq] at hx
    obtain ⟨⟨hp, rfl⟩, rfl⟩ := hx
    exact ⟨_, hm, by simp [hp, hb _ _ hg, hj]⟩

/-- `sext` is two's complement (R17). -/
theorem sext_eq {n : Nat} (hn : 1 ≤ n) (v : Int) : sext n v = Reference.signedOf n v := by
  unfold sext Reference.signedOf
  rw [BitVec.toInt_ofInt, Int.bmod_def]
  have h : (2 : Int) ^ n = 2 * 2 ^ (n - 1) := by
    rw [← pow_succ']
    congr 1
    omega
  have hc : ((2 ^ n : Nat) : Int) = 2 ^ n := by norm_cast
  rw [hc]
  have : ((2 : Int) ^ n + 1) / 2 = 2 ^ (n - 1) := by
    rw [h]
    omega
  rw [this]
  split <;> split <;> omega

theorem signedOf_emod (n : Nat) (v : Int) : Reference.signedOf n (v % 2 ^ n) = Reference.signedOf n v := by
  unfold Reference.signedOf
  rw [BitVec.toInt_ofInt, BitVec.toInt_ofInt]
  have hc : ((2 ^ n : Nat) : Int) = 2 ^ n := by norm_cast
  rw [← hc, Int.emod_bmod]

end Machine

end Sys2Proof
end

