-- ==== Sys2Proof/Tests/Slice0.lean ====
section
/-!
SUPPORT. The model's own tests. Expected values come from spec/95_test_vectors.md (named V-...) and from the field
positions of spec/opcode_table.json; none is an output of the model. Then, for each statement with hypotheses, a state and
operands that meet them.
-/

set_option Elab.async false

namespace Sys2Proof.Tests

open Sys2Proof Sys2Proof.Machine Sys2Proof.Reference

/-- The block of bytes in stream order. -/
def blk (bs : List Nat) : Block := blockOfBytes (bs.map (BitVec.ofNat 8 ·))

/-- The outcome is a next state with a property. -/
def runs (o : Host.Outcome State Fault Refusal) (p : State → Bool) : Bool :=
  match o with
  | .next s => p s
  | _ => false

/-- Texel `i` of the tile has the given channels. -/
def texelIs (s : State) (i : Fin 16) (r g b a : Option Byte) : Bool := s.tile.get i == ⟨r, g, b, a⟩

/-- The state after reset in another configuration. -/
def resetWith (c : Config) : State := { State.reset with cfg := c }

/-! ### Well-formedness -/

theorem test_wellFormed_refuses_wide_read : (Instr.rdbits 9).wellFormed = false := by decide

theorem test_wellFormed_accepts_eight : (Instr.rdbits 8).wellFormed = true := by decide

/-! ### Decoding: one word for each constructor, written out from the spec's encoding -/

theorem test_decode_decBC1 :
    decode ⟨0#4, blk [0x00, 0xF8, 0xE0, 0x07, 0xE4, 0xE4, 0x1B, 0xFF, 0x01, 0x02, 0x03, 0x04, 0x05, 0x06, 0x07, 0x08]⟩ =
      .decBC1 ⟨0xF800#16, 0x7E0#16, 0xFF1BE4E4#32⟩ 0x807060504030201#64 := by
  decide +kernel

theorem test_decode_decBC2 :
    decode ⟨1#4, blk [0x10, 0x32, 0x54, 0x76, 0x98, 0xBA, 0xDC, 0xFE, 0xE0, 0x07, 0x00, 0xF8, 0xE4, 0xE4, 0x1B, 0xFF]⟩ =
      .decBC2 0xFEDCBA9876543210#64 ⟨0x7E0#16, 0xF800#16, 0xFF1BE4E4#32⟩ := by
  decide +kernel

theorem test_decode_decBC3 :
    decode ⟨2#4, blk [0xFF, 0x00, 0x88, 0xC6, 0xFA, 0x88, 0xC6, 0xFA, 0xE0, 0x07, 0x00, 0xF8, 0xE4, 0xE4, 0x1B, 0xFF]⟩ =
      .decBC3 ⟨0xFF#8, 0x0#8, 0xFAC688FAC688#48⟩ ⟨0x7E0#16, 0xF800#16, 0xFF1BE4E4#32⟩ := by
  decide +kernel

theorem test_decode_decBC4U :
    decode ⟨3#4, blk [0xC8, 0x64, 0x88, 0xC6, 0xFA, 0x88, 0xC6, 0xFA, 0x01, 0x02, 0x03, 0x04, 0x05, 0x06, 0x07, 0x08]⟩ =
      .decBC4U ⟨0xC8#8, 0x64#8, 0xFAC688FAC688#48⟩ 0x807060504030201#64 := by
  decide +kernel

theorem test_decode_decBC4S :
    decode ⟨4#4, blk [0x40, 0xC0, 0x88, 0xC6, 0xFA, 0x88, 0xC6, 0xFA, 0x00, 0x00, 0x00, 0x00, 0x00, 0x00, 0x00, 0x00]⟩ =
      .decBC4S ⟨0x40#8, 0xC0#8, 0xFAC688FAC688#48⟩ 0#64 := by
  decide +kernel

theorem test_decode_decBC5U :
    decode ⟨5#4, blk [0xC8, 0x64, 0x88, 0xC6, 0xFA, 0x88, 0xC6, 0xFA, 0x64, 0xC8, 0x88, 0xC6, 0xFA, 0x88, 0xC6, 0xFA]⟩ =
      .decBC5U ⟨0xC8#8, 0x64#8, 0xFAC688FAC688#48⟩ ⟨0x64#8, 0xC8#8, 0xFAC688FAC688#48⟩ := by
  decide +kernel

theorem test_decode_decBC5S :
    decode ⟨6#4, blk [0x40, 0xC0, 0x88, 0xC6, 0xFA, 0x88, 0xC6, 0xFA, 0xC0, 0x40, 0x88, 0xC6, 0xFA, 0x88, 0xC6, 0xFA]⟩ =
      .decBC5S ⟨0x40#8, 0xC0#8, 0xFAC688FAC688#48⟩ ⟨0xC0#8, 0x40#8, 0xFAC688FAC688#48⟩ := by
  decide +kernel

theorem test_decode_decBC6HU :
    decode ⟨7#4, blk [0x03, 0x00, 0x00, 0x00, 0x78, 0x0F, 0x1F, 0x3E, 0xF0, 0x21, 0x43, 0x65, 0x87, 0xA9, 0xCB, 0xED]⟩ =
      .decBC6HU 0xEDCBA987654321F03E1F0F7800000003#128 := by
  decide +kernel

theorem test_decode_decBC6HS :
    decode ⟨8#4, blk [0x03, 0x00, 0x00, 0x00, 0x78, 0x0F, 0x1F, 0x3E, 0xF0, 0x21, 0x43, 0x65, 0x87, 0xA9, 0xCB, 0xED]⟩ =
      .decBC6HS 0xEDCBA987654321F03E1F0F7800000003#128 := by
  decide +kernel

theorem test_decode_decBC7 :
    decode ⟨9#4, blk [0x40, 0xC0, 0x1F, 0x00, 0x04, 0x80, 0xFE, 0x00, 0xF1, 0x21, 0x43, 0x65, 0x87, 0xA9, 0xCB, 0xED]⟩ =
      .decBC7 0xEDCBA987654321F100FE8004001FC040#128 := by
  decide +kernel

theorem test_decode_unsupportedFmt10_11 :
    decode ⟨11#4, blk [0x40, 0xC0, 0x1F, 0x00, 0x04, 0x80, 0xFE, 0x00, 0xF1, 0x21, 0x43, 0x65, 0x87, 0xA9, 0xCB, 0xED]⟩ =
      .unsupportedFmt10_11 1#1 0xEDCBA987654321F100FE8004001FC040#128 := by
  decide +kernel

theorem test_decode_unsupportedFmt12_15 :
    decode ⟨14#4, blk [0x40, 0xC0, 0x1F, 0x00, 0x04, 0x80, 0xFE, 0x00, 0xF1, 0x21, 0x43, 0x65, 0x87, 0xA9, 0xCB, 0xED]⟩ =
      .unsupportedFmt12_15 2#2 0xEDCBA987654321F100FE8004001FC040#128 := by
  decide +kernel

theorem test_decode_bc6hMode0 :
    decodeForm ⟨7#4, blk [0xA0, 0x07, 0x2D, 0xC5, 0xAC, 0xD6, 0xF9, 0xCD, 0x25, 0xAB, 0x9E, 0xA1, 0xDC, 0x41, 0x68, 0x30]⟩ =
      .bc6hMode0 .unsigned ⟨61#10, 602#10, 610#10, 21#5, 14#5, 27#5, 18#5, 11#5, 14#5, 22#5, 15#5, 0#5, 21#5, 0xC1A10772867#46⟩ := by
  decide +kernel

theorem test_decode_bc6hMode1 :
    decodeForm ⟨8#4, blk [0x69, 0xA9, 0xAB, 0xCB, 0x4E, 0xB3, 0x2F, 0xAB, 0x1F, 0xC8, 0x76, 0xD4, 0x3C, 0x3F, 0xEA, 0xA4]⟩ =
      .bc6hMode1 .signed ⟨75#7, 87#7, 101#7, 41#6, 61#6, 22#6, 15#6, 25#6, 13#6, 16#6, 21#6, 54#6, 22#5, 0x293A8FCF351D#46⟩ := by
  decide +kernel

theorem test_decode_bc6hMode2 :
    decodeForm ⟨7#4, blk [0x22, 0x4C, 0x28, 0xD2, 0xEF, 0x8F, 0x64, 0x89, 0x19, 0xE4, 0x4E, 0x07, 0x9D, 0x3D, 0x6C, 0x19]⟩ =
      .bc6hMode2 .unsigned ⟨1633#11, 80#11, 2025#11, 29#5, 4#4, 2#4, 12#5, 7#4, 12#4, 8#5, 12#4, 1#4, 23#5, 0x65B0F6741D3#46⟩ := by
  decide +kernel

theorem test_decode_bc6hMode3 :
    decodeForm ⟨8#4, blk [0xE6, 0xEF, 0xA6, 0xD8, 0x90, 0x6B, 0x99, 0x67, 0x13, 0x00, 0x26, 0x3A, 0xFD, 0x3B, 0xEE, 0x8D]⟩ =
      .bc6hMode3 .signed ⟨1919#11, 333#11, 108#11, 2#4, 11#5, 15#4, 9#4, 5#5, 11#4, 0#4, 19#5, 0#4, 16#5, 0x237B8EFF4E89#46⟩ := by
  decide +kernel

theorem test_decode_bc6hMode4 :
    decodeForm ⟨7#4, blk [0xAA, 0x91, 0x24, 0xDF, 0x31, 0x48, 0xCE, 0x44, 0x0D, 0x1D, 0xFE, 0x6D, 0x5E, 0x3A, 0x70, 0x02]⟩ =
      .bc6hMode4 .unsigned ⟨141#11, 1609#11, 239#11, 6#4, 2#4, 9#5, 6#4, 4#4, 10#5, 10#4, 9#4, 25#5, 16#5, 0x9C0E979B7F#46⟩ := by
  decide +kernel

theorem test_decode_bc6hMode5 :
    decodeForm ⟨8#4, blk [0x8E, 0x34, 0xA1, 0xE5, 0xD3, 0x24, 0x04, 0x22, 0x07, 0x39, 0xD6, 0xA0, 0xBE, 0x38, 0xF2, 0x76]⟩ =
      .bc6hMode5 .signed ⟨420#9, 322#9, 498#9, 26#5, 1#5, 4#5, 3#5, 18#5, 9#5, 18#5, 0#5, 9#5, 17#5, 0x1DBC8E2FA835#46⟩ := by
  decide +kernel

theorem test_decode_bc6hMode6 :
    decodeForm ⟨7#4, blk [0x52, 0xD6, 0x1F, 0xEC, 0x74, 0x00, 0x39, 0x00, 0x01, 0x55, 0xAE, 0xD4, 0x1F, 0x36, 0x74, 0xEB]⟩ =
      .bc6hMode6 .unsigned ⟨178#8, 63#8, 118#8, 14#6, 8#5, 0#5, 0#6, 0#5, 24#5, 42#6, 7#5, 16#5, 18#5, 0x3ADD0D87F52B#46⟩ := by
  decide +kernel

theorem test_decode_bc6hMode7 :
    decodeForm ⟨8#4, blk [0x16, 0x79, 0x9D, 0xF2, 0x15, 0xDD, 0x6E, 0xDE, 0xFB, 0x72, 0x86, 0x07, 0x7F, 0x34, 0xF6, 0x5F]⟩ =
      .bc6hMode7 .signed ⟨200#8, 58#8, 249#8, 2#5, 54#6, 28#5, 29#5, 46#6, 30#5, 5#5, 29#6, 31#5, 19#5, 0x17FD8D1FC1E1#46⟩ := by
  decide +kernel

theorem test_decode_bc6hMode8 :
    decodeForm ⟨7#4, blk [0xDA, 0x1C, 0x1B, 0xF9, 0xB7, 0xB9, 0xA4, 0xBC, 0xF5, 0x8E, 0x5E, 0x3A, 0xDF, 0x33, 0x78, 0xD4]⟩ =
      .bc6hMode8 .unsigned ⟨230#8, 54#8, 252#8, 22#5, 5#5, 57#6, 26#5, 28#5, 13#6, 29#5, 20#5, 53#6, 20#5, 0x351E0CF7CE97#46⟩ := by
  decide +kernel

theorem test_decode_bc6hMode9 :
    decodeForm ⟨8#4, blk [0x9E, 0xBE, 0x98, 0xFF, 0x58, 0x95, 0xD9, 0x9A, 0xEF, 0xAB, 0x36, 0x6D, 0x40, 0x31, 0xFA, 0x48]⟩ =
      .bc6hMode9 .signed ⟨52#6, 49#6, 63#6, 43#6, 12#6, 53#6, 55#6, 26#6, 12#6, 23#6, 59#6, 7#6, 21#5, 0x123E8C501B4D#46⟩ := by
  decide +kernel

theorem test_decode_bc6hMode10 :
    decodeForm ⟨7#4, blk [0x63, 0x61, 0x16, 0x06, 0xF9, 0x72, 0x0E, 0x78, 0xEA, 0xC7, 0x0E, 0xA0, 0xA0, 0x2F, 0x7C, 0xBD]⟩ =
      .bc6hMode10 .unsigned ⟨779#10, 44#10, 131#10, 607#10, 115#10, 240#10, 0x5EBE17D0500763F5#63⟩ := by
  decide +kernel

theorem test_decode_bc6hMode11 :
    decodeForm ⟨8#4, blk [0x27, 0x03, 0x94, 0x0C, 0x9A, 0x4E, 0x44, 0x55, 0xE4, 0xE3, 0xE6, 0xD4, 0x01, 0x2D, 0xFF, 0x31]⟩ =
      .bc6hMode11 .signed ⟨25#11, 1320#11, 262#11, 467#9, 34#9, 170#9, 0x18FF9680EA7371F2#63⟩ := by
  decide +kernel

theorem test_decode_bc6hMode12 :
    decodeForm ⟨7#4, blk [0xEB, 0xA6, 0x12, 0x13, 0x3C, 0x2A, 0x79, 0x33, 0xDE, 0x00, 0xBE, 0x07, 0x61, 0x2C, 0x81, 0xA6]⟩ =
      .bc6hMode12 .unsigned ⟨2359#12, 3621#12, 521#12, 71#8, 201#8, 102#8, 0x5340963083DF006F#63⟩ := by
  decide +kernel

theorem test_decode_bc6hMode13 :
    decodeForm ⟨8#4, blk [0xAF, 0x49, 0x8F, 0x19, 0xDD, 0x07, 0xAE, 0x11, 0xD8, 0x1C, 0x96, 0x3A, 0xC2, 0x2A, 0x03, 0x1A]⟩ =
      .bc6hMode13 .signed ⟨62029#16, 60190#16, 17036#16, 11#4, 0#4, 3#4, 0xD0195611D4B0E6C#63⟩ := by
  decide +kernel

theorem test_decode_bc6hReserved :
    decodeForm ⟨8#4, blk [0x1B, 0xFF, 0xFF, 0xFF, 0xFF, 0xFF, 0xFF, 0xFF, 0xFF, 0xFF, 0xFF, 0xFF, 0xFF, 0xFF, 0xFF, 0xFF]⟩ =
      .bc6hReserved .signed 2#2 0x7FFFFFFFFFFFFFFFFFFFFFFFFFFFFF8#123 := by
  decide +kernel

theorem test_decode_bc7Mode0 :
    decodeForm ⟨9#4, blk [0x45, 0x32, 0x56, 0x25, 0xAE, 0x8E, 0x45, 0x7D, 0xF0, 0x7D, 0x58, 0x95, 0x9D, 0x63, 0x71, 0x4D]⟩ =
      .bc7Mode0 ⟨0x2#4, 0#0, 0#0, 0x2AB192#24, 0x2C7571#24, 0xEF83EA#24, 0#0, 0x3#6, 0x9AE2C73B2AB#45, 0#0⟩ := by
  decide +kernel

theorem test_decode_bc7Mode1 :
    decodeForm ⟨9#4, blk [0x0A, 0xD5, 0xD4, 0x2C, 0x50, 0x6A, 0x7B, 0x5A, 0xEA, 0x99, 0x30, 0xC8, 0xFD, 0x62, 0xF3, 0xC1]⟩ =
      .bc7Mode1 ⟨0x2#6, 0#0, 0#0, 0x2CD4D5#24, 0x7B6A50#24, 0x99EA5A#24, 0#0, 0x0#2, 0x307CD8BF720C#46, 0#0⟩ := by
  decide +kernel

theorem test_decode_bc7Mode2 :
    decodeForm ⟨9#4, blk [0xD4, 0x77, 0x51, 0x32, 0xF1, 0x47, 0xB0, 0x38, 0xE4, 0xB5, 0x08, 0xFB, 0x5D, 0x60, 0x75, 0x36]⟩ =
      .bc7Mode2 ⟨0x3A#6, 0#0, 0#0, 0x389928BB#30, 0x871608F#30, 0x2FD845AF#30, 0#0, 0#0, 0x6CEAC0B#29, 0#0⟩ := by
  decide +kernel

theorem test_decode_bc7Mode3 :
    decodeForm ⟨9#4, blk [0x98, 0x1A, 0xCF, 0x39, 0x92, 0x23, 0xE5, 0x16, 0xDE, 0xD2, 0xE0, 0x2E, 0xBE, 0x5E, 0xF7, 0xAA]⟩ =
      .bc7Mode3 ⟨0x29#6, 0#0, 0#0, 0x48E73C6#28, 0x85B948E#28, 0xBB834B7#28, 0#0, 0x8#4, 0x2ABDD7AF#30, 0#0⟩ := by
  decide +kernel

theorem test_decode_bc7Mode4 :
    decodeForm ⟨9#4, blk [0x50, 0xBC, 0x4D, 0x3F, 0x34, 0xFF, 0x1B, 0xF4, 0xD8, 0xEE, 0xB8, 0x62, 0x1E, 0x5C, 0x79, 0x1F]⟩ =
      .bc7Mode4 ⟨0#0, 0x2#2, 0x0#1, 0x1BC#10, 0x3D3#10, 0x343#10, 0xFFC#12, 0#0, 0x3BB63D06#31, 0xFBCAE0F315C#47⟩ := by
  decide +kernel

theorem test_decode_bc7Mode5 :
    decodeForm ⟨9#4, blk [0x20, 0x5F, 0xCB, 0x46, 0xD5, 0xDC, 0x50, 0xD2, 0xD2, 0x0A, 0x90, 0x95, 0x7F, 0x5B, 0xFB, 0x93]⟩ =
      .bc7Mode5 ⟨0#0, 0x0#2, 0#0, 0xB5F#14, 0x151B#14, 0xDCD#14, 0xB494#16, 0#0, 0x656402B4#31, 0x49FDADBF#31⟩ := by
  decide +kernel

theorem test_decode_bc7Mode6 :
    decodeForm ⟨9#4, blk [0xC0, 0x02, 0x48, 0x4C, 0x76, 0xB8, 0x85, 0xB0, 0xCC, 0x27, 0x68, 0xC8, 0xDF, 0x59, 0x7D, 0x08]⟩ =
      .bc7Mode6 ⟨0#0, 0#0, 0#0, 0x1005#14, 0x3262#14, 0x370E#14, 0x1842#14, 0x1#2, 0x43EACEFE43413E6#63, 0#0⟩ := by
  decide +kernel

theorem test_decode_bc7Mode7 :
    decodeForm ⟨9#4, blk [0x80, 0xA4, 0xC6, 0x53, 0x17, 0x94, 0xBB, 0x8E, 0xC6, 0x43, 0x40, 0xFB, 0x40, 0x57, 0x00, 0x7C]⟩ =
      .bc7Mode7 ⟨0x24#6, 0#0, 0#0, 0xD4F1A#20, 0xEE505#20, 0xF1A3A#20, 0xED010#20, 0x3#4, 0x1F0015D0#30, 0#0⟩ := by
  decide +kernel

theorem test_decode_bc7Mode8 :
    decodeForm ⟨9#4, blk [0x00, 0xFF, 0xFF, 0xFF, 0xFF, 0xFF, 0xFF, 0xFF, 0xFF, 0xFF, 0xFF, 0xFF, 0xFF, 0xFF, 0xFF, 0xFF]⟩ =
      .bc7Mode8 0xFFFFFFFFFFFFFFFFFFFFFFFFFFFFFF#120 := by
  decide +kernel

/-- The cursor micro-operations have no word (R152). -/
theorem test_no_word_for_cursor_reads : encode (.rdbits 3) = none ∧ encode .rdbit = none := by decide

theorem test_decodeBytes_refuses :
    decodeBytes [] = .error .noFormat ∧ decodeBytes [0x10#8] = .error .formatTooWide ∧
      decodeBytes [1#8, 0#8] = .error .shortBlock ∧ decodeBytes (0#8 :: List.replicate 9 0#8) = .error .longBlock := by
  decide +kernel

/-! ### The header layouts agree with the header field-placement table of the ROM (R181 to R194) -/

/-- A gather list names, for each bit number, the block bit that the ROM tags with that accumulator and number, and no
tagged bit is left out. -/
def agreesTag (mi : Nat) (tag : Tag) (ps : List Nat) : Bool :=
  match romBc6desc[mi]? with
  | none => false
  | some t => ps.zipIdx.all (fun x => t[x.1]? == some ⟨tag, x.2⟩) && (t.filter fun d => d.tag == tag).length == ps.length

def agrees (mi : Nat) (c : Rgb3) (l : Letter) (ps : List Nat) : Bool := agreesTag mi (.acc c l) ps

def agreesTwo (mi : Nat) (l : TwoLayout) : Bool :=
  agrees mi .R .W l.rW && agrees mi .G .W l.gW && agrees mi .B .W l.bW && agrees mi .R .X l.rX && agrees mi .G .X l.gX &&
    agrees mi .B .X l.bX && agrees mi .R .Y l.rY && agrees mi .G .Y l.gY && agrees mi .B .Y l.bY && agrees mi .R .Z l.rZ &&
    agrees mi .G .Z l.gZ && agrees mi .B .Z l.bZ && agreesTag mi .D l.d

def agreesOne (mi : Nat) (l : OneLayout) : Bool :=
  agrees mi .R .W l.rW && agrees mi .G .W l.gW && agrees mi .B .W l.bW && agrees mi .R .X l.rX && agrees mi .G .X l.gX &&
    agrees mi .B .X l.bX


theorem test_layouts_agree_with_rom :
    (agreesTwo 0 layout6Mode0 && agreesTwo 1 layout6Mode1 && agreesTwo 2 layout6Mode2 && agreesTwo 3 layout6Mode3 && agreesTwo 4 layout6Mode4 &&
      agreesTwo 5 layout6Mode5 && agreesTwo 6 layout6Mode6 && agreesTwo 7 layout6Mode7 && agreesTwo 8 layout6Mode8 && agreesTwo 9 layout6Mode9 &&
      agreesOne 10 layout6Mode10 && agreesOne 11 layout6Mode11 && agreesOne 12 layout6Mode12 && agreesOne 13 layout6Mode13) = true := by
  decide +kernel

/-! ### One step each, on values of spec/95_test_vectors.md -/

/-- V-1.2. -/
theorem test_decBC1_four_colours :
    runs (exec (decode ⟨0#4, blk [0x00, 0xF8, 0xE0, 0x07, 0xE4, 0xE4, 0x1B, 0xFF]⟩) State.reset) (fun t =>
      texelIs t 2 (some 170) (some 85) (some 0) none && t.status == .ok) = true := by
  decide +kernel

/-- V-1.4. -/
theorem test_decBC1_three_colours_truncate :
    runs (exec (decode ⟨0#4, blk [0xE0, 0x07, 0x00, 0xF8, 0xE4, 0xE4, 0x1B, 0xFF]⟩) (resetWith { configDefault with roundMode := .truncate })) (fun t =>
      texelIs t 2 (some 127) (some 127) (some 0) none && t.status == .ok) = true := by
  decide +kernel

/-- R241. -/
theorem test_decBC2 :
    runs (exec (decode ⟨1#4, blk [0x10, 0x32, 0x54, 0x76, 0x98, 0xBA, 0xDC, 0xFE, 0xE0, 0x07, 0x00, 0xF8, 0xE4, 0xE4, 0x1B, 0xFF]⟩) State.reset) (fun t =>
      texelIs t 15 (some 170) (some 85) (some 0) (some 255) && t.status == .ok) = true := by
  decide +kernel

/-- R243. -/
theorem test_decBC3 :
    runs (exec (decode ⟨2#4, blk [0xFF, 0x00, 0x88, 0xC6, 0xFA, 0x88, 0xC6, 0xFA, 0xE0, 0x07, 0x00, 0xF8, 0xE4, 0xE4, 0x1B, 0xFF]⟩) State.reset) (fun t =>
      texelIs t 7 (some 170) (some 85) (some 0) (some 36) && t.status == .ok) = true := by
  decide +kernel

/-- R266. -/
theorem test_decBC4U :
    runs (exec (decode ⟨3#4, blk [0xC8, 0x64, 0x88, 0xC6, 0xFA, 0x88, 0xC6, 0xFA]⟩) State.reset) (fun t =>
      texelIs t 5 (some 143) none none none && t.status == .ok) = true := by
  decide +kernel

/-- R267. -/
theorem test_decBC4S :
    runs (exec (decode ⟨4#4, blk [0x40, 0xC0, 0x88, 0xC6, 0xFA, 0x88, 0xC6, 0xFA]⟩) State.reset) (fun t =>
      texelIs t 3 (some 155) none none none && t.status == .ok) = true := by
  decide +kernel

/-- P2, block 1: both endpoints are -127, index 7 is the upper terminator. -/
theorem test_decBC4S_clamped :
    runs (exec (decode ⟨4#4, blk [0x80, 0x81, 0x88, 0xC6, 0xFA, 0x88, 0xC6, 0xFA]⟩) State.reset) (fun t =>
      texelIs t 7 (some 255) none none none && t.status == .ok) = true := by
  decide +kernel

/-- R268. -/
theorem test_decBC5U :
    runs (exec (decode ⟨5#4, blk [0xC8, 0x64, 0x88, 0xC6, 0xFA, 0x88, 0xC6, 0xFA, 0x64, 0xC8, 0x88, 0xC6, 0xFA, 0x88, 0xC6, 0xFA]⟩) State.reset) (fun t =>
      texelIs t 7 (some 114) (some 255) (some 0) none && t.status == .ok) = true := by
  decide +kernel

/-- R269. -/
theorem test_decBC5S :
    runs (exec (decode ⟨6#4, blk [0x40, 0xC0, 0x88, 0xC6, 0xFA, 0x88, 0xC6, 0xFA, 0xC0, 0x40, 0x88, 0xC6, 0xFA, 0x88, 0xC6, 0xFA]⟩) State.reset) (fun t =>
      texelIs t 6 (some 100) (some 0) (some 0) none && t.status == .ok) = true := by
  decide +kernel

/-- R314. -/
theorem test_decBC6HU :
    runs (exec (decode ⟨7#4, blk [0x03, 0x00, 0x00, 0x00, 0x78, 0x0F, 0x1F, 0x3E, 0xF0, 0x21, 0x43, 0x65, 0x87, 0xA9, 0xCB, 0xED]⟩) State.reset) (fun t =>
      texelIs t 15 (some 135) (some 1) (some 0) (some 255) && t.status == .ok && t.pos == 128) = true := by
  decide +kernel

/-- R314. -/
theorem test_decBC6HS :
    runs (exec (decode ⟨8#4, blk [0x03, 0x00, 0x00, 0x00, 0x78, 0x0F, 0x1F, 0x3E, 0xF0, 0x21, 0x43, 0x65, 0x87, 0xA9, 0xCB, 0xED]⟩) State.reset) (fun t =>
      texelIs t 8 (some 135) (some 1) (some 0) (some 255) && t.status == .ok && t.pos == 128) = true := by
  decide +kernel

/-- R360 (1). -/
theorem test_decBC7 :
    runs (exec (decode ⟨9#4, blk [0x40, 0xC0, 0x1F, 0x00, 0x04, 0x80, 0xFE, 0x00, 0xF1, 0x21, 0x43, 0x65, 0x87, 0xA9, 0xCB, 0xED]⟩) State.reset) (fun t =>
      texelIs t 2 (some 16) (some 8) (some 4) (some 238) && t.status == .ok && t.pos == 128) = true := by
  decide +kernel

/-- V-E.6. -/
theorem test_decBC7_mode_five_overflow :
    runs (exec (decode ⟨9#4, blk [0x20, 0x00, 0x00, 0x00, 0x00, 0x00, 0x00, 0x00, 0x00, 0x00, 0x00, 0x00, 0x00, 0x00, 0x00, 0x00]⟩) (resetWith { configDefault with errorFill := ⟨9, 8, 7, 6⟩, rom := { romDefault with
        bc7mode := romBc7mode.set 5 ⟨0, 0, 0, 2, 0, 2, 3, ⟨7, 7, 7, 8⟩, ⟨7, 7, 7, 8⟩⟩ } })) (fun t =>
      texelIs t 3 (some 9) (some 8) (some 7) (some 6) && t.status == .errBits) = true := by
  decide +kernel

/-- V-F. -/
theorem test_unsupportedFmt10_11 :
    runs (exec (decode ⟨11#4, blk [0x40, 0xC0, 0x1F, 0x00, 0x04, 0x80, 0xFE, 0x00, 0xF1, 0x21, 0x43, 0x65, 0x87, 0xA9, 0xCB, 0xED]⟩) State.reset) (fun t =>
      texelIs t 0 none none none none && t.status == .unsupported && t.done) = true := by
  decide +kernel

/-- V-E.1. -/
theorem test_unsupportedFmt12_15 :
    runs (exec (decode ⟨12#4, blk [0x40, 0xC0, 0x1F, 0x00, 0x04, 0x80, 0xFE, 0x00, 0xF1, 0x21, 0x43, 0x65, 0x87, 0xA9, 0xCB, 0xED]⟩) State.reset) (fun t =>
      texelIs t 0 none none none none && t.status == .unsupported && t.pos == 0) = true := by
  decide +kernel

/-- V-6.M0, U. -/
theorem test_bc6hMode0_unsigned :
    runs (exec (decodeForm ⟨7#4, blk [0xA0, 0x07, 0x2D, 0xC5, 0xAC, 0xD6, 0xF9, 0xCD, 0x25, 0xAB, 0x9E, 0xA1, 0xDC, 0x41, 0x68, 0x30]⟩) State.reset) (fun t =>
      texelIs t 0 (some 0) (some 255) (some 255) (some 255) && t.status == .ok && t.pos == 128) = true := by
  decide +kernel

/-- V-6.M0, S. -/
theorem test_bc6hMode0_signed :
    runs (exec (decodeForm ⟨8#4, blk [0xA0, 0x07, 0x2D, 0xC5, 0xAC, 0xD6, 0xF9, 0xCD, 0x25, 0xAB, 0x9E, 0xA1, 0xDC, 0x41, 0x68, 0x30]⟩) State.reset) (fun t =>
      texelIs t 0 (some 0) (some 0) (some 0) (some 255) && t.status == .ok && t.pos == 128) = true := by
  decide +kernel

/-- V-6.M1, U. -/
theorem test_bc6hMode1_unsigned :
    runs (exec (decodeForm ⟨7#4, blk [0x69, 0xA9, 0xAB, 0xCB, 0x4E, 0xB3, 0x2F, 0xAB, 0x1F, 0xC8, 0x76, 0xD4, 0x3C, 0x3F, 0xEA, 0xA4]⟩) State.reset) (fun t =>
      texelIs t 4 (some 96) (some 255) (some 255) (some 255) && t.status == .ok && t.pos == 128) = true := by
  decide +kernel

/-- V-6.M1, S. -/
theorem test_bc6hMode1_signed :
    runs (exec (decodeForm ⟨8#4, blk [0x69, 0xA9, 0xAB, 0xCB, 0x4E, 0xB3, 0x2F, 0xAB, 0x1F, 0xC8, 0x76, 0xD4, 0x3C, 0x3F, 0xEA, 0xA4]⟩) State.reset) (fun t =>
      texelIs t 3 (some 16) (some 0) (some 0) (some 255) && t.status == .ok && t.pos == 128) = true := by
  decide +kernel

/-- V-6.M2, U. -/
theorem test_bc6hMode2_unsigned :
    runs (exec (decodeForm ⟨7#4, blk [0x22, 0x4C, 0x28, 0xD2, 0xEF, 0x8F, 0x64, 0x89, 0x19, 0xE4, 0x4E, 0x07, 0x9D, 0x3D, 0x6C, 0x19]⟩) State.reset) (fun t =>
      texelIs t 0 (some 255) (some 0) (some 255) (some 255) && t.status == .ok && t.pos == 128) = true := by
  decide +kernel

/-- V-6.M2, S. -/
theorem test_bc6hMode2_signed :
    runs (exec (decodeForm ⟨8#4, blk [0x22, 0x4C, 0x28, 0xD2, 0xEF, 0x8F, 0x64, 0x89, 0x19, 0xE4, 0x4E, 0x07, 0x9D, 0x3D, 0x6C, 0x19]⟩) State.reset) (fun t =>
      texelIs t 0 (some 0) (some 0) (some 0) (some 255) && t.status == .ok && t.pos == 128) = true := by
  decide +kernel

/-- V-6.M3, U. -/
theorem test_bc6hMode3_unsigned :
    runs (exec (decodeForm ⟨7#4, blk [0xE6, 0xEF, 0xA6, 0xD8, 0x90, 0x6B, 0x99, 0x67, 0x13, 0x00, 0x26, 0x3A, 0xFD, 0x3B, 0xEE, 0x8D]⟩) State.reset) (fun t =>
      texelIs t 0 (some 255) (some 0) (some 0) (some 255) && t.status == .ok && t.pos == 128) = true := by
  decide +kernel

/-- V-6.M3, S. -/
theorem test_bc6hMode3_signed :
    runs (exec (decodeForm ⟨8#4, blk [0xE6, 0xEF, 0xA6, 0xD8, 0x90, 0x6B, 0x99, 0x67, 0x13, 0x00, 0x26, 0x3A, 0xFD, 0x3B, 0xEE, 0x8D]⟩) State.reset) (fun t =>
      texelIs t 2 (some 0) (some 10) (some 0) (some 255) && t.status == .ok && t.pos == 128) = true := by
  decide +kernel

/-- V-6.M4, U. -/
theorem test_bc6hMode4_unsigned :
    runs (exec (decodeForm ⟨7#4, blk [0xAA, 0x91, 0x24, 0xDF, 0x31, 0x48, 0xCE, 0x44, 0x0D, 0x1D, 0xFE, 0x6D, 0x5E, 0x3A, 0x70, 0x02]⟩) State.reset) (fun t =>
      texelIs t 0 (some 0) (some 255) (some 0) (some 255) && t.status == .ok && t.pos == 128) = true := by
  decide +kernel

/-- V-6.M4, S. -/
theorem test_bc6hMode4_signed :
    runs (exec (decodeForm ⟨8#4, blk [0xAA, 0x91, 0x24, 0xDF, 0x31, 0x48, 0xCE, 0x44, 0x0D, 0x1D, 0xFE, 0x6D, 0x5E, 0x3A, 0x70, 0x02]⟩) State.reset) (fun t =>
      texelIs t 1 (some 0) (some 0) (some 2) (some 255) && t.status == .ok && t.pos == 128) = true := by
  decide +kernel

/-- V-6.M5, U. -/
theorem test_bc6hMode5_unsigned :
    runs (exec (decodeForm ⟨7#4, blk [0x8E, 0x34, 0xA1, 0xE5, 0xD3, 0x24, 0x04, 0x22, 0x07, 0x39, 0xD6, 0xA0, 0xBE, 0x38, 0xF2, 0x76]⟩) State.reset) (fun t =>
      texelIs t 0 (some 255) (some 255) (some 255) (some 255) && t.status == .ok && t.pos == 128) = true := by
  decide +kernel

/-- V-6.M5, S. -/
theorem test_bc6hMode5_signed :
    runs (exec (decodeForm ⟨8#4, blk [0x8E, 0x34, 0xA1, 0xE5, 0xD3, 0x24, 0x04, 0x22, 0x07, 0x39, 0xD6, 0xA0, 0xBE, 0x38, 0xF2, 0x76]⟩) State.reset) (fun t =>
      texelIs t 0 (some 0) (some 0) (some 0) (some 255) && t.status == .ok && t.pos == 128) = true := by
  decide +kernel

/-- V-6.M6, U. -/
theorem test_bc6hMode6_unsigned :
    runs (exec (decodeForm ⟨7#4, blk [0x52, 0xD6, 0x1F, 0xEC, 0x74, 0x00, 0x39, 0x00, 0x01, 0x55, 0xAE, 0xD4, 0x1F, 0x36, 0x74, 0xEB]⟩) State.reset) (fun t =>
      texelIs t 8 (some 255) (some 2) (some 63) (some 255) && t.status == .ok && t.pos == 128) = true := by
  decide +kernel

/-- V-6.M6, S. -/
theorem test_bc6hMode6_signed :
    runs (exec (decodeForm ⟨8#4, blk [0x52, 0xD6, 0x1F, 0xEC, 0x74, 0x00, 0x39, 0x00, 0x01, 0x55, 0xAE, 0xD4, 0x1F, 0x36, 0x74, 0xEB]⟩) State.reset) (fun t =>
      texelIs t 0 (some 0) (some 255) (some 255) (some 255) && t.status == .ok && t.pos == 128) = true := by
  decide +kernel

/-- V-6.M7, U. -/
theorem test_bc6hMode7_unsigned :
    runs (exec (decodeForm ⟨7#4, blk [0x16, 0x79, 0x9D, 0xF2, 0x15, 0xDD, 0x6E, 0xDE, 0xFB, 0x72, 0x86, 0x07, 0x7F, 0x34, 0xF6, 0x5F]⟩) State.reset) (fun t =>
      texelIs t 6 (some 255) (some 13) (some 255) (some 255) && t.status == .ok && t.pos == 128) = true := by
  decide +kernel

/-- V-6.M7, S. -/
theorem test_bc6hMode7_signed :
    runs (exec (decodeForm ⟨8#4, blk [0x16, 0x79, 0x9D, 0xF2, 0x15, 0xDD, 0x6E, 0xDE, 0xFB, 0x72, 0x86, 0x07, 0x7F, 0x34, 0xF6, 0x5F]⟩) State.reset) (fun t =>
      texelIs t 0 (some 0) (some 116) (some 0) (some 255) && t.status == .ok && t.pos == 128) = true := by
  decide +kernel

/-- V-6.M8, U. -/
theorem test_bc6hMode8_unsigned :
    runs (exec (decodeForm ⟨7#4, blk [0xDA, 0x1C, 0x1B, 0xF9, 0xB7, 0xB9, 0xA4, 0xBC, 0xF5, 0x8E, 0x5E, 0x3A, 0xDF, 0x33, 0x78, 0xD4]⟩) State.reset) (fun t =>
      texelIs t 2 (some 255) (some 1) (some 0) (some 255) && t.status == .ok && t.pos == 128) = true := by
  decide +kernel

/-- V-6.M8, S. -/
theorem test_bc6hMode8_signed :
    runs (exec (decodeForm ⟨8#4, blk [0xDA, 0x1C, 0x1B, 0xF9, 0xB7, 0xB9, 0xA4, 0xBC, 0xF5, 0x8E, 0x5E, 0x3A, 0xDF, 0x33, 0x78, 0xD4]⟩) State.reset) (fun t =>
      texelIs t 2 (some 0) (some 39) (some 0) (some 255) && t.status == .ok && t.pos == 128) = true := by
  decide +kernel

/-- V-6.M9, U. -/
theorem test_bc6hMode9_unsigned :
    runs (exec (decodeForm ⟨7#4, blk [0x9E, 0xBE, 0x98, 0xFF, 0x58, 0x95, 0xD9, 0x9A, 0xEF, 0xAB, 0x36, 0x6D, 0x40, 0x31, 0xFA, 0x48]⟩) State.reset) (fun t =>
      texelIs t 8 (some 255) (some 59) (some 1) (some 255) && t.status == .ok && t.pos == 128) = true := by
  decide +kernel

/-- V-6.M9, S. -/
theorem test_bc6hMode9_signed :
    runs (exec (decodeForm ⟨8#4, blk [0x9E, 0xBE, 0x98, 0xFF, 0x58, 0x95, 0xD9, 0x9A, 0xEF, 0xAB, 0x36, 0x6D, 0x40, 0x31, 0xFA, 0x48]⟩) State.reset) (fun t =>
      texelIs t 4 (some 0) (some 51) (some 8) (some 255) && t.status == .ok && t.pos == 128) = true := by
  decide +kernel

/-- V-6.M10, U. -/
theorem test_bc6hMode10_unsigned :
    runs (exec (decodeForm ⟨7#4, blk [0x63, 0x61, 0x16, 0x06, 0xF9, 0x72, 0x0E, 0x78, 0xEA, 0xC7, 0x0E, 0xA0, 0xA0, 0x2F, 0x7C, 0xBD]⟩) State.reset) (fun t =>
      texelIs t 0 (some 255) (some 0) (some 0) (some 255) && t.status == .ok && t.pos == 128) = true := by
  decide +kernel

/-- V-6.M10, S. -/
theorem test_bc6hMode10_signed :
    runs (exec (decodeForm ⟨8#4, blk [0x63, 0x61, 0x16, 0x06, 0xF9, 0x72, 0x0E, 0x78, 0xEA, 0xC7, 0x0E, 0xA0, 0xA0, 0x2F, 0x7C, 0xBD]⟩) State.reset) (fun t =>
      texelIs t 10 (some 0) (some 1) (some 199) (some 255) && t.status == .ok && t.pos == 128) = true := by
  decide +kernel

/-- V-6.M11, U. -/
theorem test_bc6hMode11_unsigned :
    runs (exec (decodeForm ⟨7#4, blk [0x27, 0x03, 0x94, 0x0C, 0x9A, 0x4E, 0x44, 0x55, 0xE4, 0xE3, 0xE6, 0xD4, 0x01, 0x2D, 0xFF, 0x31]⟩) State.reset) (fun t =>
      texelIs t 4 (some 54) (some 255) (some 0) (some 255) && t.status == .ok && t.pos == 128) = true := by
  decide +kernel

/-- V-6.M11, S. -/
theorem test_bc6hMode11_signed :
    runs (exec (decodeForm ⟨8#4, blk [0x27, 0x03, 0x94, 0x0C, 0x9A, 0x4E, 0x44, 0x55, 0xE4, 0xE3, 0xE6, 0xD4, 0x01, 0x2D, 0xFF, 0x31]⟩) State.reset) (fun t =>
      texelIs t 4 (some 0) (some 0) (some 8) (some 255) && t.status == .ok && t.pos == 128) = true := by
  decide +kernel

/-- V-6.M12, U. -/
theorem test_bc6hMode12_unsigned :
    runs (exec (decodeForm ⟨7#4, blk [0xEB, 0xA6, 0x12, 0x13, 0x3C, 0x2A, 0x79, 0x33, 0xDE, 0x00, 0xBE, 0x07, 0x61, 0x2C, 0x81, 0xA6]⟩) State.reset) (fun t =>
      texelIs t 0 (some 255) (some 255) (some 0) (some 255) && t.status == .ok && t.pos == 128) = true := by
  decide +kernel

/-- V-6.M12, S. -/
theorem test_bc6hMode12_signed :
    runs (exec (decodeForm ⟨8#4, blk [0xEB, 0xA6, 0x12, 0x13, 0x3C, 0x2A, 0x79, 0x33, 0xDE, 0x00, 0xBE, 0x07, 0x61, 0x2C, 0x81, 0xA6]⟩) State.reset) (fun t =>
      texelIs t 1 (some 0) (some 0) (some 5) (some 255) && t.status == .ok && t.pos == 128) = true := by
  decide +kernel

/-- V-6.M13, U. -/
theorem test_bc6hMode13_unsigned :
    runs (exec (decodeForm ⟨7#4, blk [0xAF, 0x49, 0x8F, 0x19, 0xDD, 0x07, 0xAE, 0x11, 0xD8, 0x1C, 0x96, 0x3A, 0xC2, 0x2A, 0x03, 0x1A]⟩) State.reset) (fun t =>
      texelIs t 0 (some 255) (some 255) (some 2) (some 255) && t.status == .ok && t.pos == 128) = true := by
  decide +kernel

/-- V-6.M13, S. -/
theorem test_bc6hMode13_signed :
    runs (exec (decodeForm ⟨8#4, blk [0xAF, 0x49, 0x8F, 0x19, 0xDD, 0x07, 0xAE, 0x11, 0xD8, 0x1C, 0x96, 0x3A, 0xC2, 0x2A, 0x03, 0x1A]⟩) State.reset) (fun t =>
      texelIs t 0 (some 0) (some 0) (some 255) (some 255) && t.status == .ok && t.pos == 128) = true := by
  decide +kernel

/-- V-E.2. -/
theorem test_bc6hReserved :
    runs (exec (decodeForm ⟨8#4, blk [0x1B, 0xFF, 0xFF, 0xFF, 0xFF, 0xFF, 0xFF, 0xFF, 0xFF, 0xFF, 0xFF, 0xFF, 0xFF, 0xFF, 0xFF, 0xFF]⟩) (resetWith { configDefault with errorFill := ⟨9, 8, 7, 6⟩ })) (fun t =>
      texelIs t 9 (some 0) (some 0) (some 0) (some 255) && t.status == .bc6hReserved && t.pos == 5) = true := by
  decide +kernel

/-- V-7.M0. -/
theorem test_bc7Mode0 :
    runs (exec (decodeForm ⟨9#4, blk [0x45, 0x32, 0x56, 0x25, 0xAE, 0x8E, 0x45, 0x7D, 0xF0, 0x7D, 0x58, 0x95, 0x9D, 0x63, 0x71, 0x4D]⟩) State.reset) (fun t =>
      texelIs t 0 (some 90) (some 66) (some 201) (some 255) && t.status == .ok && t.pos == 128) = true := by
  decide +kernel

/-- V-7.M1. -/
theorem test_bc7Mode1 :
    runs (exec (decodeForm ⟨9#4, blk [0x0A, 0xD5, 0xD4, 0x2C, 0x50, 0x6A, 0x7B, 0x5A, 0xEA, 0x99, 0x30, 0xC8, 0xFD, 0x62, 0xF3, 0xC1]⟩) State.reset) (fun t =>
      texelIs t 0 (some 84) (some 64) (some 104) (some 255) && t.status == .ok && t.pos == 128) = true := by
  decide +kernel

/-- V-7.M2. -/
theorem test_bc7Mode2 :
    runs (exec (decodeForm ⟨9#4, blk [0xD4, 0x77, 0x51, 0x32, 0xF1, 0x47, 0xB0, 0x38, 0xE4, 0xB5, 0x08, 0xFB, 0x5D, 0x60, 0x75, 0x36]⟩) State.reset) (fun t =>
      texelIs t 4 (some 82) (some 198) (some 140) (some 255) && t.status == .ok && t.pos == 128) = true := by
  decide +kernel

/-- V-7.M3. -/
theorem test_bc7Mode3 :
    runs (exec (decodeForm ⟨9#4, blk [0x98, 0x1A, 0xCF, 0x39, 0x92, 0x23, 0xE5, 0x16, 0xDE, 0xD2, 0xE0, 0x2E, 0xBE, 0x5E, 0xF7, 0xAA]⟩) State.reset) (fun t =>
      texelIs t 0 (some 162) (some 46) (some 143) (some 255) && t.status == .ok && t.pos == 128) = true := by
  decide +kernel

/-- V-7.M4. -/
theorem test_bc7Mode4 :
    runs (exec (decodeForm ⟨9#4, blk [0x50, 0xBC, 0x4D, 0x3F, 0x34, 0xFF, 0x1B, 0xF4, 0xD8, 0xEE, 0xB8, 0x62, 0x1E, 0x5C, 0x79, 0x1F]⟩) State.reset) (fun t =>
      texelIs t 0 (some 231) (some 243) (some 24) (some 156) && t.status == .ok && t.pos == 128) = true := by
  decide +kernel

/-- V-7.M5. -/
theorem test_bc7Mode5 :
    runs (exec (decodeForm ⟨9#4, blk [0x20, 0x5F, 0xCB, 0x46, 0xD5, 0xDC, 0x50, 0xD2, 0xD2, 0x0A, 0x90, 0x95, 0x7F, 0x5B, 0xFB, 0x93]⟩) State.reset) (fun t =>
      texelIs t 3 (some 143) (some 64) (some 122) (some 159) && t.status == .ok && t.pos == 128) = true := by
  decide +kernel

/-- V-7.M6. -/
theorem test_bc7Mode6 :
    runs (exec (decodeForm ⟨9#4, blk [0xC0, 0x02, 0x48, 0x4C, 0x76, 0xB8, 0x85, 0xB0, 0xCC, 0x27, 0x68, 0xC8, 0xDF, 0x59, 0x7D, 0x08]⟩) State.reset) (fun t =>
      texelIs t 3 (some 18) (some 197) (some 56) (some 128) && t.status == .ok && t.pos == 128) = true := by
  decide +kernel

/-- V-7.M7. -/
theorem test_bc7Mode7 :
    runs (exec (decodeForm ⟨9#4, blk [0x80, 0xA4, 0xC6, 0x53, 0x17, 0x94, 0xBB, 0x8E, 0xC6, 0x43, 0x40, 0xFB, 0x40, 0x57, 0x00, 0x7C]⟩) State.reset) (fun t =>
      texelIs t 14 (some 199) (some 69) (some 142) (some 4) && t.status == .ok && t.pos == 128) = true := by
  decide +kernel

/-- R360 (3). -/
theorem test_bc7Mode1_shared_p_bits :
    runs (exec (decodeForm ⟨9#4, blk [0x36, 0x3F, 0x00, 0xFC, 0xC0, 0x0F, 0xFC, 0x00, 0xF0, 0xFF, 0x11, 0x8D, 0xF5, 0xEF, 0x72, 0x0A]⟩) State.reset) (fun t =>
      texelIs t 14 (some 36) (some 36) (some 253) (some 255) && t.status == .ok && t.pos == 128) = true := by
  decide +kernel

/-- R360 (2). -/
theorem test_bc7Mode4_rotated :
    runs (exec (decodeForm ⟨9#4, blk [0xB0, 0x1F, 0x80, 0x0F, 0xE1, 0x0F, 0x38, 0x39, 0x39, 0x39, 0x79, 0x34, 0xD6, 0x77, 0x39, 0x05]⟩) State.reset) (fun t =>
      texelIs t 2 (some 171) (some 36) (some 132) (some 219) && t.status == .ok && t.pos == 128) = true := by
  decide +kernel

/-- V-7.2, V-E.3. -/
theorem test_bc7Mode8 :
    runs (exec (decodeForm ⟨9#4, blk [0x00, 0xFF, 0xFF, 0xFF, 0xFF, 0xFF, 0xFF, 0xFF, 0xFF, 0xFF, 0xFF, 0xFF, 0xFF, 0xFF, 0xFF, 0xFF]⟩) (resetWith { configDefault with errorFill := ⟨9, 8, 7, 6⟩ })) (fun t =>
      texelIs t 4 (some 0) (some 0) (some 0) (some 0) && t.status == .bc7Reserved && t.pos == 8) = true := by
  decide +kernel

/-- A state whose cursor is inside a latched block. -/
def cursorAt (f : FmtCode) (bs : List Nat) (p : Nat) : State :=
  { State.reset with fmt := f, blk := blk bs, pos := BitVec.ofNat 8 p }

/-- V-C.2. -/
theorem test_rdbits : runs (exec (.rdbits 8) (cursorAt 9 [0xA5, 0x3C] 4)) (fun t => t.rd == 0xCA && t.pos == 12) = true := by
  decide +kernel

/-- V-C.11. -/
theorem test_rdbits_overflow :
    runs (exec (.rdbits 5) (cursorAt 0 [0xA5, 0x3C] 60)) (fun t => t.status == .errBits && t.pos == 60) = true := by
  decide +kernel

/-- R201. -/
theorem test_rdbit : runs (exec .rdbit (cursorAt 9 [0x40] 6)) (fun t => t.rd == 1 && t.pos == 7) = true := by
  decide +kernel

/-- V-C.10. -/
theorem test_rdbit_overflow :
    runs (exec .rdbit (cursorAt 9 [0x40] 128)) (fun t => t.status == .errBits && t.pos == 128) = true := by
  decide +kernel

/-! ### The host, one step each -/

/-- R382, R452: a 10 by 10 BC1 image passes the structural checks. -/
theorem test_host_opens :
    runs (step (State.reset.submit (some ⟨.fourCC (fourCC 'D' 'X' 'T' '1'), 10, 10, 1⟩) []))
      (fun t => t.host.phase == .ready && t.host.fmt == 0) = true := by
  decide +kernel

/-- V-S2: `DXT2` is rejected before any block is read. -/
theorem test_host_rejects :
    runs (step (State.reset.submit (some ⟨.fourCC (fourCC 'D' 'X' 'T' '2'), 4, 4, 1⟩) [1, 2, 3]))
      (fun t => t.host.phase == .failed (.unsupportedFormat (.fourCC (fourCC 'D' 'X' 'T' '2'))) && !t.port.start &&
        t.host.stream.isEmpty) = true := by
  decide +kernel

/-- A placed word is the next instruction. -/
theorem test_step_runs_placed_word :
    runs (step (State.reset.withFetchWord 8 12)) (fun t => t.status == .unsupported && !t.port.start) = true := by
  decide +kernel

/-! ### Hypotheses that are met: for each statement with hypotheses, a state and operands that meet them together -/

/-- A colour block of the given endpoints whose index word is `sel`. -/
def col (c0 c1 : Nat) (sel : Nat) : ColorFields := ⟨BitVec.ofNat 16 c0, BitVec.ofNat 16 c1, BitVec.ofNat 32 sel⟩

/-- `Obligations.FirstLevelRoundTrip`. -/
theorem witness_FirstLevelRoundTrip :
    ((List.range 16).map fun k => (encode (decode ⟨BitVec.ofNat 4 k, 0x5A#128⟩)).isSome) = List.replicate 16 true := by
  decide +kernel

/-- `Obligations.Bc7FormsRoundTrip`: a block of each mode from 0 to 8. -/
theorem witness_Bc7FormsRoundTrip :
    ((List.range 9).map fun k => (encode (decodeForm ⟨9#4, BitVec.ofNat 128 (2 ^ k)⟩)).isSome) = List.replicate 9 true := by
  decide +kernel

/-- `Obligations.BlockLength`. -/
theorem witness_BlockLength : (4#4 : FmtCode).toNat ∈ [0, 3, 4] ∧ (9#4 : FmtCode).toNat ∈ [1, 2, 5, 6, 7, 8, 9] := by
  decide

/-- `Obligations.StepRunsDecoded`. -/
theorem witness_StepRunsDecoded :
    (State.reset.withFetchWord 8 12).port.rst = false ∧ (State.reset.withFetchWord 8 12).port.start = true ∧
      decode (portWord (State.reset.withFetchWord 8 12)) = .unsupportedFmt12_15 0#2 0#128 := by
  decide +kernel

/-- `Obligations.HistoryIndependence`: two different states of one configuration. -/
theorem witness_HistoryIndependence :
    State.reset.cfg = (cursorAt 9 [0x40] 6).cfg ∧ (State.reset.pos ≠ (cursorAt 9 [0x40] 6).pos) := by
  decide +kernel

/-- `Obligations.DecodeOperationsFrame`. -/
theorem witness_DecodeOperationsFrame :
    encode (.bc6hReserved .signed 2#2 0#123) = some ⟨8#4, 0x1B#128⟩ ∧
      runs (exec (.bc6hReserved .signed 2#2 0#123) State.reset) (fun _ => true) = true := by
  decide +kernel

/-- `Obligations.ResetBehaviour`: a reset request with a `START` that has not been served, and an idle machine. -/
theorem witness_ResetBehaviour :
    ({ State.reset with port := ⟨9, 0x40, true, true⟩ } : State).port.rst = true ∧ State.reset.port.rst = false ∧
      State.reset.port.start = false ∧ State.reset.host.phase = .idle := by
  decide

/-- `Obligations.ChannelExpansion`: the ends of the ranges, and both branches of the two equivalences. -/
theorem witness_ChannelExpansion :
    31 < 32 ∧ 30 < 31 ∧ 63 < 64 ∧ 15 < 16 ∧ exp6 .three 32 / 4 ≠ 32 ∧ exp6 .three 31 / 4 = 31 ∧
      exp6 .three 7 = exp6 .four 7 ∧ exp6 .three 8 ≠ exp6 .four 8 := by
  decide

/-- `Obligations.RoundingDivision`: each remainder class. -/
theorem witness_RoundingDivision : 5 % 3 = 2 ∧ 4 % 3 ≠ 2 ∧ 5 % 2 = 1 ∧ 4 % 2 ≠ 1 := by decide

/-- `Obligations.Bc1Properties`: every index in both branches, the second one at `C0` = `C1`. -/
theorem witness_Bc1Properties :
    selAt (col 0xF800 0x7E0 0xE4).sel 0 = 0#2 ∧ selAt (col 0xF800 0x7E0 0xE4).sel 1 = 1#2 ∧
      selAt (col 0xF800 0x7E0 0xE4).sel 2 = 2#2 ∧ selAt (col 0xF800 0x7E0 0xE4).sel 3 = 3#2 ∧
      (col 0xF800 0x7E0 0xE4).c1.toNat < (col 0xF800 0x7E0 0xE4).c0.toNat ∧
      (col 0x7E0 0x7E0 0xE4).c0.toNat ≤ (col 0x7E0 0x7E0 0xE4).c1.toNat ∧ (col 1 2 0).sel = 0#32 := by
  decide

/-- `Obligations.Bc2Bc3Independence`, `Obligations.Bc4Properties`: indices 0 and 1 of a gradient block. -/
theorem witness_gradient_indices :
    gselAt 0xFAC688FAC688#48 0 = 0#3 ∧ gselAt 0xFAC688FAC688#48 1 = 1#3 := by decide

/-- `Obligations.SignedEndpointAndRemap`, `Obligations.GradientEntries`: the ends of the signed range. -/
theorem witness_signed_range : (-127 : Int) ≤ -127 ∧ (-127 : Int) < 127 ∧ (127 : Int) ≤ 127 := by decide

/-- `Obligations.Bc4Properties`: the order of the endpoints in each clause, and entries 5, 2 and 7. -/
theorem witness_Bc4Properties :
    ((0 : Int) < 255 ∨ (7 : Fin 8).val < 6) ∧ ((0 : Int) < 0 ∨ (5 : Fin 8).val < 6) ∧ 2 ≤ (2 : Fin 8).val ∧
      (2 : Fin 8).val < (7 : Fin 8).val := by
  decide

/-- `Obligations.CursorRead`: the last byte of a short and of a long block, and a zero-width read at the end. -/
theorem witness_CursorRead :
    (cursorAt 0 [] 56).pos.toNat + 8 ≤ lenBits (cursorAt 0 [] 56).fmt ∧
      (cursorAt 9 [] 120).pos.toNat + 8 ≤ lenBits (cursorAt 9 [] 120).fmt ∧
      (cursorAt 0 [] 64).pos.toNat + 0 ≤ lenBits (cursorAt 0 [] 64).fmt := by
  decide +kernel

/-- `Obligations.CursorOverflow`: one bit past the end, by the narrowest and by the widest read. -/
theorem witness_CursorOverflow :
    lenBits (cursorAt 0 [] 64).fmt < (cursorAt 0 [] 64).pos.toNat + 1 ∧
      lenBits (cursorAt 9 [] 121).fmt < (cursorAt 9 [] 121).pos.toNat + 8 := by
  decide +kernel

/-- `Obligations.CursorBit`: the last bit, the end, and the example of R201. -/
theorem witness_CursorBit :
    (cursorAt 9 [] 127).pos.toNat < lenBits (cursorAt 9 [] 127).fmt ∧
      (cursorAt 9 [] 128).pos.toNat = lenBits (cursorAt 9 [] 128).fmt ∧ (cursorAt 9 [0x40] 6).fmt = 9#4 ∧
      (cursorAt 9 [0x40] 6).pos = 6#8 ∧ blockByte (cursorAt 9 [0x40] 6).blk 0 = 0x40#8 := by
  decide +kernel

/-- `Obligations.CursorLaw`: two reads that end at the end of the block. -/
theorem witness_CursorLaw :
    3 + 5 ≤ 8 ∧ (cursorAt 9 [] 120).pos.toNat + 3 + 5 ≤ lenBits (cursorAt 9 [] 120).fmt := by
  decide +kernel

/-- `Obligations.BlockReads`: sixteen bytes and the last bit; a straddling read at the end of the block. -/
theorem witness_BlockReads : (List.replicate 16 (0xFF#8 : Byte)).length = 16 ∧ 127 < 128 ∧ 119 + 8 ≤ 128 ∧ 8 < 119 % 8 + 8 := by
  decide

/-- `Obligations.ModeSelectors`: each clause, at 1 and 2 for BC6H, at modes 0, 7 and 8 for BC7. -/
theorem witness_ModeSelectors :
    (cursorAt 8 [0x01] 0).fmt = Profile.signed.fmt ∧ (cursorAt 8 [0x01] 0).pos = 0#8 ∧
      (cursorAt 8 [0x01] 0).blk.toNat % 4 < 2 ∧ 2 ≤ (cursorAt 7 [0x02] 0).blk.toNat % 4 ∧
      (cursorAt 7 [0x02] 0).fmt = Profile.unsigned.fmt ∧ (cursorAt 9 [0x80] 0).fmt = 9#4 ∧
      (cursorAt 9 [0x80] 0).blk.toNat % 2 ^ 8 = 2 ^ 7 ∧ (cursorAt 9 [0xFF] 0).blk.toNat % 2 ^ 1 = 2 ^ 0 ∧
      (cursorAt 9 [0x00, 0xFF] 0).blk.toNat % 256 = 0 := by
  decide +kernel

/-- `Obligations.Bc6hOneRegionResult`, `Obligations.Bc6hTwoRegionResultA`, `Obligations.Bc6hTwoRegionResultB`,
`Obligations.Bc7OneRegionResult`, `Obligations.Bc7TwoRegionResult`, `Obligations.Bc7ThreeRegionResult`,
`Obligations.DeliveredStatus`: the default ROM. -/
theorem witness_default_rom : State.reset.cfg.rom = romDefault ∧ State.reset.cfg.rom.bc6map = romBc6map := ⟨rfl, rfl⟩

/-- `Obligations.Bc6hCompletes`, `Obligations.Bc6hReservedFill`: codes on each side of the reserved pattern. -/
theorem witness_bc6h_codes :
    (0x12#128 : Block).toNat &&& 0x13 ≠ 0x13 ∧ (0x0F#128 : Block).toNat &&& 0x13 ≠ 0x13 ∧
      (0x13#128 : Block).toNat % 32 ∈ [0x13, 0x17, 0x1B, 0x1F] ∧ (0xFF#128 : Block).toNat % 32 ∈ [0x13, 0x17, 0x1B, 0x1F] := by
  decide

/-- A configuration whose mode map has an invalid code. -/
def invalidMap : Config := { configDefault with rom := { romDefault with bc6map := romBc6map.set 0x12 .invalid } }

/-- `Obligations.Bc6hInvalidFill`, and the second kind of ROM of `Obligations.NoHardFailure`. -/
theorem witness_Bc6hInvalidFill :
    (resetWith invalidMap).cfg.rom.bc6map[if (0x12#128 : Block).toNat % 4 < 2 then (0x12#128 : Block).toNat % 4
      else (0x12#128 : Block).toNat % 32]? = some .invalid ∧ romAdmissible invalidMap.rom = true := by
  decide +kernel

/-- `Obligations.Bc6hRanges`: the ends of each range, for the narrowest and the widest precision. -/
theorem witness_Bc6hRanges :
    (0 : Int) ≤ 64 ∧ (0 : Int) ≤ 65535 ∧ (65535 : Int) < 2 ^ 16 ∧ (1 : Int) < 2 ^ 1 ∧ (-2 ^ (1 - 1) : Int) ≤ -1 ∧
      (-2 ^ (15 - 1) : Int) ≤ -16384 ∧ (16383 : Int) < 2 ^ (15 - 1) ∧ (-32768 : Int) ≤ -32768 ∧ (32767 : Int) ≤ 32767 ∧
      (0 : Int) ≤ 0x7BFF ∧ (-0x7C00 : Int) ≤ -0x7C00 ∧ (-0x7C00 : Int) ≤ 0x7C00 := by
  decide

/-- `Obligations.HalfToByte`: negative zero, the largest finite pattern and the infinity of each sign, and an ordered pair up
to plus infinity. -/
theorem witness_HalfToByte :
    (0x8000#16).toNat % 0x8000 ≤ 0x7C00 ∧ (0xFBFF#16).toNat % 0x8000 ≤ 0x7C00 ∧ (0xFC00#16).toNat % 0x8000 ≤ 0x7C00 ∧
      0x8000 ≤ (0x8000#16).toNat ∧ (0x7BFF#16).toNat ≤ 0x7C00 ∧ (0x7C00#16).toNat ≤ 0x7C00 ∧
      (0x7BFF#16).toNat ≤ (0x7C00#16).toNat := by
  decide

/-- `Obligations.Bc7Completes`, `Obligations.Bc7ReservedFill`: the last mode that is valid, and the reserved one. -/
theorem witness_bc7_first_byte : (0x80#128 : Block).toNat % 256 ≠ 0 ∧ (0xFF00#128 : Block).toNat % 256 = 0 := by decide

/-- `Obligations.Bc7Arithmetic`: the widest value of the narrowest and of the widest precision. -/
theorem witness_Bc7Arithmetic :
    4 ≤ 4 ∧ 4 ≤ 8 ∧ (15#8 : Byte).toNat < 2 ^ 4 ∧ (255#8 : Byte).toNat < 2 ^ 8 ∧ 64 ≤ 64 := by decide

/-- `Obligations.NoHardFailure`: the default ROM. -/
theorem witness_NoHardFailure : romAdmissible State.reset.cfg.rom = true := by decide +kernel

/-- `Obligations.DispatcherMap`: the numbers next to the map. -/
theorem witness_DispatcherMap : (69#32).toNat < 70 ∧ 99 < (100#32).toNat := by decide

/-- A 10 by 10 BC1 image of two levels. -/
def request10 : ImageRequest := ⟨.fourCC (fourCC 'D' 'X' 'T' '1'), 10, 10, 2⟩

/-- `Obligations.LevelsAreSequential`: the base level and the next, whatever the free value is. -/
theorem witness_LevelsAreSequential :
    (imageLevels .bc1 request10)[0]? = some (levelDesc .bc1 10 10 0) ∧
      (imageLevels .bc1 request10)[1]? = some (levelDesc .bc1 5 5 432) := by
  unfold imageLevels levelCount
  constructor <;> (split <;> rfl)

/-- A 5 by 5 BC4 level: four blocks, in a buffer of 64 bytes. -/
def level5 : LevelDesc := levelDesc .bc4u 5 5 0

/-- A tile of BC4. -/
def tile4 : Tile := Vector.replicate 16 ⟨some 7, none, none, none⟩

/-- `Obligations.TileStored`: the last block of the level. -/
theorem witness_TileStored :
    [Channel.B, .G, .R, .A].Perm [.R, .G, .B, .A] ∧ (⟨64, []⟩ : Memory).wf ∧ LevelInv .bc4u 64 level5 ∧
      3 < level5.blockCount ∧ CarriesChannels .bc4u tile4 := by
  refine ⟨by decide, by decide, by unfold LevelInv; decide, by decide, fun i c => ?_⟩
  cases c <;> revert i <;> decide

/-- `Obligations.TilesDisjoint`: two neighbours, one below the other. -/
theorem witness_TilesDisjoint :
    1 < level5.blockCount ∧ 3 < level5.blockCount ∧ (12, some 7) ∈ tileBytes [.B, .G, .R, .A] .bc4u level5 1 tile4 ∧
      (36, some 7) ∈ tileBytes [.B, .G, .R, .A] .bc4u level5 3 tile4 := by
  decide +kernel

/-- `Obligations.StructuralErrors`: each clause, and an image that passes at the smallest size. -/
theorem witness_StructuralErrors :
    (State.reset.submit none []).host.phase = .submitted ∧ (State.reset.submit none []).host.request = none ∧
      dispatch (.dxgi 69) = none ∧ dispatch (.dxgi 70) ≠ none ∧ dispatch (.dxgi 70) = some .bc1 ∧
      (State.reset.submit (some ⟨.dxgi 70, 0, 1, 1⟩) []).host.request = some ⟨.dxgi 70, 0, 1, 1⟩ ∧
      (State.reset.submit (some ⟨.dxgi 70, 0, 1, 1⟩) []).port.rst = false ∧
      (State.reset.submit (some ⟨.dxgi 70, 0, 1, 1⟩) []).port.start = false ∧
      (State.reset.submit (some ⟨.dxgi 70, 1, 1, 0⟩) []).host.phase = .submitted ∧ (1#32 : BitVec 32) ≠ 0 := by
  decide +kernel

/-- A host that works on a BC4 image of one level, in the given phase, with `n` bytes left, the outputs of a decode given. -/
def hostAt (ph : HostPhase) (n : Nat) (st : Status) (d : Bool) : State :=
  { State.reset with
    fmt := 3
    status := st
    done := d
    tile := if d then tile4 else Tile.noValue
    host := { HostRec.none with
      phase := ph, fmt := 3, levels := [level5], index := 3, stream := List.replicate n 1, buffer := ⟨64, []⟩ } }

/-- `Obligations.HostPresents`: exactly one block left, one byte fewer, a full window, and no level left. -/
theorem witness_HostPresents :
    (hostAt .ready 8 .idle false).host.phase = .ready ∧ (hostAt .ready 8 .idle false).port.start = false ∧
      (hostAt .ready 8 .idle false).port.rst = false ∧ fmtOfCode (hostAt .ready 8 .idle false).host.fmt = some .bc4u ∧
      (hostAt .ready 8 .idle false).host.levels[(hostAt .ready 8 .idle false).host.level]? = some level5 ∧
      0 < level5.blocksPerRow ∧
      fmtBlockBytes .bc4u ≤ ((hostAt .ready 8 .idle false).host.window ++ (hostAt .ready 8 .idle false).host.stream).length ∧
      ((hostAt .ready 7 .idle false).host.window ++ (hostAt .ready 7 .idle false).host.stream).length < fmtBlockBytes .bc4u ∧
      (List.replicate 16 (1#8 : Byte)).length ≤ level5.blocksPerRow * fmtBlockBytes .bc4u ∧
      (hostAt .ready 8 .idle false).host.levels[1]? = none := by
  decide +kernel

/-- R392, R394: when the stream ends inside a block, the output is handed over and nothing of the call is held. -/
theorem test_host_releases :
    runs (step (hostAt .ready 7 .idle false)) (fun t =>
      t.host.phase == .finished && t.host.stream.isEmpty && t.host.window.isEmpty && t.host.buffer.size == 0 &&
        t.host.output == some ⟨.single8, [level5], ⟨64, []⟩⟩) = true := by
  decide +kernel

/-- `Obligations.HostCollects`: a wait, a refused format, and a tile that can be stored; the last block of its level. -/
theorem witness_HostCollects :
    (hostAt .waiting 8 .idle false).done = false ∧ (hostAt .waiting 8 .ok true).done = true ∧
      (hostAt .waiting 8 .ok true).host.phase = .waiting ∧ (hostAt .waiting 8 .ok true).port.start = false ∧
      (hostAt .waiting 8 .unsupported true).status = .unsupported ∧
      fmtOfCode (hostAt .waiting 8 .ok true).host.fmt = some .bc4u ∧
      ((storeTile [.B, .G, .R, .A] .bc4u level5 3 tile4 ⟨64, []⟩).toOption.map fun m => m.read 36) = some (some 7) ∧
      ¬ 3 + 1 < level5.blockCount := by
  decide +kernel

/-- `Obligations.StepKeepsInvariant`, `Obligations.StepNeverStops`, `Obligations.InvariantStarts`: a state in the middle of an
image, with a completed decode that the host has not collected, meets the invariant, and its step answers a next state. -/
theorem witness_Inv :
    Inv (hostAt .waiting 8 .ok true) ∧ runs (step (hostAt .waiting 8 .ok true)) (fun t => t.host.level == 1) = true := by
  refine ⟨⟨⟨by decide +kernel, by decide⟩, by unfold CursorInv; decide, ?_, ?_⟩, by decide +kernel⟩
  · refine ⟨fun h => (by cases h), fun _ => ⟨?_, by decide, by decide⟩⟩
    intro i c
    cases c <;> revert i <;> decide
  · refine ⟨by decide, fun _ h => (by cases h), fun _ h => (by rcases h with h | h <;> cases h), fun _ => ⟨.bc4u, by decide, ?_, ?_⟩, fun _ => ⟨fun h => (by cases h), fun _ _ => rfl⟩⟩
    · intro l h
      obtain rfl : l = level5 := List.mem_singleton.mp h
      exact ⟨by unfold LevelInv; decide, by decide⟩
    · intro l h
      cases h
      decide

end Sys2Proof.Tests
end

section
/-!
PROOF. Rounding division (R16): the quotient of each mode, the interval that places `nearest` within half of the
exact quotient, and when a tie can occur. Every lemma holds for each denominator above 0; only the last step, that an
even denominator of R16 is 2, uses the four denominators of the rule.
-/

namespace Sys2Proof.Machine

theorem rdiv_nearest (num den : Int) : rdiv .nearest num den = (2 * num + den) / (2 * den) := rfl

@[simp] theorem rdiv_truncate (num den : Int) : rdiv .truncate num den = num.tdiv den := rfl

/-- R15: `/` is the floor of the quotient for the denominators of R16. -/
theorem rdiv_nearest_eq_fdiv (num : Int) {den : Int} (hden : 0 < den) :
    rdiv .nearest num den = (2 * num + den).fdiv (2 * den) := by
  have hnonneg : 0 ≤ 2 * den := by omega
  rw [rdiv_nearest, Int.fdiv_eq_ediv_of_nonneg _ hnonneg]

/-- The excess of `nearest` over the exact quotient is at most one half, scaled by `2 * den`: it may round a tie up. -/
theorem rdiv_nearest_excess_le (num : Int) {den : Int} (hden : 0 < den) :
    2 * (den * rdiv .nearest num den - num) ≤ den := by
  have hfloor : 2 * den * rdiv .nearest num den ≤ 2 * num + den := Int.mul_ediv_self_le (by omega)
  rw [Int.mul_assoc] at hfloor
  omega

/-- What `nearest` falls short of the exact quotient is below one half, scaled by `2 * den`: it never rounds a tie
down. -/
theorem rdiv_nearest_shortfall_lt (num : Int) {den : Int} (hden : 0 < den) :
    2 * (num - den * rdiv .nearest num den) < den := by
  have hnext : 2 * num + den < 2 * den * rdiv .nearest num den + 2 * den :=
    Int.lt_mul_ediv_self_add (by omega)
  rw [Int.mul_assoc] at hnext
  omega

/-- A tie makes the denominator twice an integer, so among those of R16 only 2 allows one. -/
theorem rdiv_nearest_tie_den {num den : Int} (hmem : den = 2 ∨ den = 3 ∨ den = 5 ∨ den = 7)
    (htie : 2 * (den * rdiv .nearest num den - num) = den) : den = 2 := by
  have heven : 2 ∣ den := Dvd.intro _ htie
  omega

/-- Settles O13: the denominators of R16 are above 0, so the lemmas on `rdiv` give each conjunct. -/
theorem roundingDivision : Obligations.RoundingDivision := by
  intro num den hmem
  have hden : 0 < den := by omega
  exact ⟨rdiv_nearest_eq_fdiv num hden, rdiv_truncate num den, rdiv_nearest_excess_le num hden,
    rdiv_nearest_shortfall_lt num hden, rdiv_nearest_tie_den hmem⟩

end Sys2Proof.Machine
end

section
/-!
PROOF. The raw block read (R71), bit by bit: which block bit each bit of a read is. The read is the sum
of its bits, by induction on its width, and it splits into two reads in a row. A byte of the block is itself a read of
eight bits, so the read that crosses a byte boundary (R72) is the split at the boundary.
-/

namespace Sys2Proof

/-! ### Blocks from bytes (R14, R70) -/

/-- Each byte of the sequence takes the next eight bits of the block integer (R14). -/
theorem blockNat_testBit (bs : List Byte) (k : Nat) :
    (blockNat bs).testBit k = (bs.getD (k / 8) 0).getLsbD (k % 8) := by
  induction bs generalizing k with
  | nil => simp [blockNat]
  | cons b bs ih =>
    have hsplit : (blockNat (b :: bs)).testBit k =
        if k < 8 then b.toNat.testBit k else (blockNat bs).testBit (k - 8) := by
      rw [blockNat, Nat.add_comm]
      exact Nat.testBit_two_pow_mul_add _ b.isLt k
    rw [hsplit]
    split
    next hlow => rw [Nat.div_eq_of_lt hlow, Nat.mod_eq_of_lt hlow, List.getD_cons_zero, BitVec.getLsbD]
    next hhigh =>
      have hdiv : k / 8 = (k - 8) / 8 + 1 := by omega
      have hmod : k % 8 = (k - 8) % 8 := by omega
      rw [ih, hdiv, hmod, List.getD_cons_succ]

theorem blockOfBytes_getLsbD (bs : List Byte) {k : Nat} (hk : k < 128) :
    (blockOfBytes bs).getLsbD k = (bs.getD (k / 8) 0).getLsbD (k % 8) := by
  rw [blockOfBytes, BitVec.getLsbD_ofNat, decide_eq_true hk, Bool.true_and, blockNat_testBit]

/-! ### The bits of a read (R71) -/

theorem memRead_eq_div_mod (blk : Block) (pos n : Nat) : memRead blk pos n = blk.toNat / 2 ^ pos % 2 ^ n := by
  rw [memRead, Nat.shiftRight_eq_div_pow]

@[simp] theorem memRead_testBit (blk : Block) (pos n i : Nat) :
    (memRead blk pos n).testBit i = (decide (i < n) && blk.getLsbD (pos + i)) := by
  rw [memRead, Nat.testBit_mod_two_pow, Nat.testBit_shiftRight, BitVec.getLsbD]

/-- A read one bit longer has the next block bit above the shorter read. -/
theorem memRead_succ (blk : Block) (pos n : Nat) :
    memRead blk pos (n + 1) = memRead blk pos n + (blk.getLsbD (pos + n)).toNat * 2 ^ n := by
  rw [memRead, memRead, Nat.mod_pow_succ, BitVec.getLsbD, ← Nat.testBit_shiftRight, Nat.toNat_testBit,
    Nat.mul_comm (2 ^ n)]

theorem memRead_eq_sum (blk : Block) (pos n : Nat) :
    memRead blk pos n = ((List.range n).map fun j => (blk.getLsbD (pos + j)).toNat * 2 ^ j).sum := by
  induction n with
  | zero => simp [memRead, Nat.mod_one]
  | succ n ih =>
    rw [memRead_succ, ih, List.range_succ, List.map_append, List.sum_append, List.map_singleton, List.sum_singleton]

/-! ### Parts of a read -/

/-- One read is two reads in a row, the later one above the earlier. -/
theorem memRead_add (blk : Block) (pos n m : Nat) :
    memRead blk pos (n + m) = memRead blk pos n ||| memRead blk (pos + n) m * 2 ^ n := by
  refine Nat.eq_of_testBit_eq fun i => ?_
  rw [Nat.testBit_or, Nat.testBit_mul_two_pow, memRead_testBit, memRead_testBit, memRead_testBit]
  rcases Nat.lt_or_ge i n with hlow | hhigh
  · have hwhole : i < n + m := by omega
    simp [hlow, hwhole, Nat.not_le.mpr hlow]
  · have hpos : pos + n + (i - n) = pos + i := by omega
    have hwidth : i - n < m ↔ i < n + m := by omega
    simp [hhigh, Nat.not_lt.mpr hhigh, hpos, hwidth]

/-- Dropping the low bits of a read moves its start. -/
theorem memRead_div_two_pow (blk : Block) (pos n d : Nat) :
    memRead blk pos n / 2 ^ d = memRead blk (pos + d) (n - d) := by
  refine Nat.eq_of_testBit_eq fun i => ?_
  have hpos : pos + (i + d) = pos + d + i := by omega
  have hwidth : i + d < n ↔ i < n - d := by omega
  rw [Nat.testBit_div_two_pow, memRead_testBit, memRead_testBit, hpos, decide_eq_decide.mpr hwidth]

/-- Keeping the low bits of a read shortens it. -/
theorem memRead_mod_two_pow (blk : Block) (pos : Nat) {n m : Nat} (h : m ≤ n) :
    memRead blk pos n % 2 ^ m = memRead blk pos m :=
  Nat.mod_mod_of_dvd _ (Nat.pow_dvd_pow 2 h)

/-! ### Bytes of a block (R70, R72) -/

@[simp] theorem blockByte_toNat (blk : Block) (j : Nat) : (blockByte blk j).toNat = memRead blk (8 * j) 8 :=
  BitVec.extractLsb'_toNat _ _ _

/-- Bit `k` of a block is bit `k mod 8` of byte `k div 8` (R70). -/
theorem getLsbD_eq_blockByte (blk : Block) (k : Nat) :
    (blk.getLsbD k).toNat = (blockByte blk (k / 8)).toNat / 2 ^ (k % 8) % 2 := by
  have hk : 8 * (k / 8) + k % 8 = k := Nat.div_add_mod k 8
  have hin : k % 8 < 8 := Nat.mod_lt _ (by decide)
  rw [← Nat.toNat_testBit, blockByte_toNat, memRead_testBit, hk, decide_eq_true hin, Bool.true_and]

/-- R72: the split at the byte boundary, whose two parts are the high bits of one byte and the low bits of the next. -/
theorem memRead_straddle (blk : Block) {pos n : Nat} (hcross : 8 < pos % 8 + n) (hend : pos % 8 + n ≤ 16) :
    memRead blk pos n =
      ((blockByte blk (pos / 8)).toNat / 2 ^ (pos % 8) |||
        ((blockByte blk (pos / 8 + 1)).toNat % 2 ^ (n - (8 - pos % 8))) * 2 ^ (8 - pos % 8)) := by
  have hlow : (blockByte blk (pos / 8)).toNat / 2 ^ (pos % 8) = memRead blk pos (8 - pos % 8) := by
    rw [blockByte_toNat, memRead_div_two_pow, Nat.div_add_mod]
  have hnext : 8 * (pos / 8 + 1) = pos + (8 - pos % 8) := by omega
  have hhigh : (blockByte blk (pos / 8 + 1)).toNat % 2 ^ (n - (8 - pos % 8)) =
      memRead blk (pos + (8 - pos % 8)) (n - (8 - pos % 8)) := by
    rw [blockByte_toNat, memRead_mod_two_pow _ _ (by omega), hnext]
  have hwidth : 8 - pos % 8 + (n - (8 - pos % 8)) = n := by omega
  rw [hlow, hhigh, ← memRead_add, hwidth]

/-- Settles O28: the bits of a block from bytes, the read as a sum and as a shift, a byte's bits, and the read that
crosses a byte boundary. -/
theorem blockReads : Obligations.BlockReads :=
  ⟨fun bs _ _ hk => blockOfBytes_getLsbD bs hk,
    fun blk pos n => ⟨memRead_eq_sum blk pos n, memRead_eq_div_mod blk pos n⟩,
    fun blk k _ => getLsbD_eq_blockByte blk k,
    fun blk _ _ _ hcross hend => memRead_straddle blk hcross hend⟩

end Sys2Proof
end

section
/-!
PROOF. The block length (R131): a format's own format select has the length of the format's block, and each format
select that R131 lists is the one of a format (R130) of 8 bytes or of 16 bytes.
-/

namespace Sys2Proof

@[simp] theorem fmtOfCode_fmtCode (k : Fmt) : fmtOfCode (fmtCode k) = some k := by cases k <;> rfl

/-- `LEN` is the block size of the format, in bits (R10, R131). -/
@[simp] theorem lenBits_fmtCode (k : Fmt) : lenBits (fmtCode k) = 8 * fmtBlockBytes k := by
  rw [lenBits, fmtOfCode_fmtCode]

/-- The format selects of BC1, BC4U and BC4S. -/
theorem exists_eight_byte_format {f : FmtCode} (hf : f.toNat ∈ [0, 3, 4]) :
    ∃ k, f = fmtCode k ∧ fmtBlockBytes k = 8 := by
  simp only [List.mem_cons, List.not_mem_nil, or_false] at hf
  obtain h0 | h3 | h4 := hf
  · exact ⟨.bc1, BitVec.eq_of_toNat_eq h0, rfl⟩
  · exact ⟨.bc4u, BitVec.eq_of_toNat_eq h3, rfl⟩
  · exact ⟨.bc4s, BitVec.eq_of_toNat_eq h4, rfl⟩

/-- The format selects of the other seven formats. -/
theorem exists_sixteen_byte_format {f : FmtCode} (hf : f.toNat ∈ [1, 2, 5, 6, 7, 8, 9]) :
    ∃ k, f = fmtCode k ∧ fmtBlockBytes k = 16 := by
  simp only [List.mem_cons, List.not_mem_nil, or_false] at hf
  obtain h1 | h2 | h5 | h6 | h7 | h8 | h9 := hf
  · exact ⟨.bc2, BitVec.eq_of_toNat_eq h1, rfl⟩
  · exact ⟨.bc3, BitVec.eq_of_toNat_eq h2, rfl⟩
  · exact ⟨.bc5u, BitVec.eq_of_toNat_eq h5, rfl⟩
  · exact ⟨.bc5s, BitVec.eq_of_toNat_eq h6, rfl⟩
  · exact ⟨.bc6hu, BitVec.eq_of_toNat_eq h7, rfl⟩
  · exact ⟨.bc6hs, BitVec.eq_of_toNat_eq h8, rfl⟩
  · exact ⟨.bc7, BitVec.eq_of_toNat_eq h9, rfl⟩

/-- Settles O6: 8 bytes are 64 bits, 16 bytes are 128. -/
theorem blockLength : Obligations.BlockLength := by
  refine ⟨fun f hf => ?_, fun f hf => ?_⟩
  · obtain ⟨k, rfl, hbytes⟩ := exists_eight_byte_format hf
    rw [lenBits_fmtCode, hbytes]
  · obtain ⟨k, rfl, hbytes⟩ := exists_sixteen_byte_format hf
    rw [lenBits_fmtCode, hbytes]

end Sys2Proof
end

section
/-!
PROOF. Channel expansion (R220 to R222, R242). Each expansion is a bitwise or of a shifted value and its own high bits.
Where the two parts do not overlap, the or is a sum, so that what the rules say of order, inverse and agreement is linear
arithmetic. `Exp6` with a shift of 3 is the one with an overlap: from 32 on, the top bit of the value falls on bit 2 of the
result, which is where its low bit stands already.
-/

namespace Sys2Proof.Machine

/-! ### The formulas of the rules -/

theorem exp5_eq_mul_or_div (v : Nat) : exp5 v = (v * 8 ||| v / 4) := by
  rw [exp5, Nat.shiftLeft_eq, Nat.shiftRight_eq_div_pow]

theorem exp6_eq_mul_or_div (e : Exp6Shift) (v : Nat) : exp6 e v = (v * 4 ||| v / 2 ^ exp6Amount e) := by
  rw [exp6, Nat.shiftLeft_eq, Nat.shiftRight_eq_div_pow]

/-! ### As sums -/

/-- A multiple of a power of 2 and a number below that power have no common bit. -/
theorem mul_two_pow_or_eq_add (a : Nat) {b i : Nat} (hb : b < 2 ^ i) : (a * 2 ^ i ||| b) = a * 2 ^ i + b := by
  rw [Nat.mul_comm, Nat.two_pow_add_eq_or_of_lt hb]

/-- Setting the low bit of a number. -/
theorem or_one_eq (v : Nat) : (v ||| 1) = v / 2 * 2 + 1 := by
  have hlow : (v % 2 ||| 1) = 1 := by
    obtain h | h := Nat.mod_two_eq_zero_or_one v <;> rw [h] <;> rfl
  calc (v ||| 1) = (v / 2 * 2 ^ 1 ||| v % 2 ||| 1) := by
        rw [mul_two_pow_or_eq_add _ (by omega), pow_one, Nat.div_add_mod']
    _ = (v / 2 * 2 ^ 1 ||| 1) := by rw [Nat.or_assoc, hlow]
    _ = v / 2 * 2 + 1 := mul_two_pow_or_eq_add _ (by decide)

theorem exp5_eq_add {v : Nat} (hv : v < 32) : exp5 v = v * 8 + v / 4 := by
  rw [exp5_eq_mul_or_div]
  exact mul_two_pow_or_eq_add v (i := 3) (by omega)

theorem exp6_four_eq_add {v : Nat} (hv : v < 64) : exp6 .four v = v * 4 + v / 16 := by
  rw [exp6_eq_mul_or_div]
  exact mul_two_pow_or_eq_add v (i := 2) (by omega : v / 16 < 4)

theorem exp6_three_eq_add_of_lt {v : Nat} (hv : v < 32) : exp6 .three v = v * 4 + v / 8 := by
  rw [exp6_eq_mul_or_div]
  exact mul_two_pow_or_eq_add v (i := 2) (by omega : v / 8 < 4)

/-- The overlap: the top bit of `v` sets bit 2 of the result whether `v` is odd or not. -/
theorem exp6_three_eq_add_of_ge {v : Nat} (hge : 32 ≤ v) (hv : v < 64) :
    exp6 .three v = (v / 2 * 2 + 1) * 4 + (v / 8 - 4) := by
  have htop : v / 8 = (1 * 2 ^ 2 ||| v / 8 - 4) := by
    rw [mul_two_pow_or_eq_add _ (by omega)]
    omega
  calc exp6 .three v = (v * 4 ||| v / 8) := exp6_eq_mul_or_div .three v
    _ = (v <<< 2 ||| 1 <<< 2 ||| v / 8 - 4) := by
        rw [Nat.or_assoc, Nat.shiftLeft_eq, Nat.shiftLeft_eq, ← htop]
    _ = ((v / 2 * 2 + 1) * 2 ^ 2 ||| v / 8 - 4) := by
        rw [← Nat.shiftLeft_or_distrib, or_one_eq, Nat.shiftLeft_eq]
    _ = (v / 2 * 2 + 1) * 4 + (v / 8 - 4) := mul_two_pow_or_eq_add _ (by omega)

/-! ### Inverse, order and range (R220, R221) -/

/-- The top five bits of the expansion are the value. -/
theorem exp5_div_eight {v : Nat} (hv : v < 32) : exp5 v / 8 = v := by
  rw [exp5_eq_add hv]
  omega

theorem exp5_lt_exp5 {v w : Nat} (hvw : v < w) (hw : w < 32) : exp5 v < exp5 w := by
  rw [exp5_eq_add (hvw.trans hw), exp5_eq_add hw]
  omega

theorem exp6_three_le {v : Nat} (hv : v < 64) : exp6 .three v ≤ 255 := by
  obtain hlow | hhigh := Nat.lt_or_ge v 32
  · rw [exp6_three_eq_add_of_lt hlow]
    omega
  · rw [exp6_three_eq_add_of_ge hhigh hv]
    omega

/-- The expansion does not decrease: on each side of 32 by its sum, and across by the bound 127 of the lower side. -/
theorem exp6_three_mono {v w : Nat} (hvw : v ≤ w) (hw : w < 64) : exp6 .three v ≤ exp6 .three w := by
  obtain hwlow | hwhigh := Nat.lt_or_ge w 32
  · rw [exp6_three_eq_add_of_lt hwlow, exp6_three_eq_add_of_lt (by omega)]
    omega
  · rw [exp6_three_eq_add_of_ge hwhigh hw]
    obtain hvlow | hvhigh := Nat.lt_or_ge v 32
    · rw [exp6_three_eq_add_of_lt hvlow]
      omega
    · rw [exp6_three_eq_add_of_ge hvhigh (by omega)]
      omega

/-- The value is lost exactly where the overlap sets a low bit that was 0. -/
theorem exp6_three_div_four_eq_iff {v : Nat} (hv : v < 64) :
    exp6 .three v / 4 = v ↔ ¬ (v % 2 = 0 ∧ 32 ≤ v) := by
  obtain hlow | hhigh := Nat.lt_or_ge v 32
  · rw [exp6_three_eq_add_of_lt hlow]
    omega
  · rw [exp6_three_eq_add_of_ge hhigh hv]
    omega

/-- Where the two values of `EXP6_SHIFT` give the same table entry. -/
theorem exp6_three_eq_four_iff {v : Nat} (hv : v < 64) :
    exp6 .three v = exp6 .four v ↔ v < 8 ∨ v = 57 ∨ v = 59 ∨ v = 61 ∨ v = 63 := by
  rw [exp6_four_eq_add hv]
  obtain hlow | hhigh := Nat.lt_or_ge v 32
  · rw [exp6_three_eq_add_of_lt hlow]
    omega
  · rw [exp6_three_eq_add_of_ge hhigh hv]
    obtain heven | hodd := Nat.mod_two_eq_zero_or_one v
    · omega
    · omega

/-! ### The fields of a colour (R222), and 4-bit alpha (R242) -/

/-- Red is bits 15:11, green bits 10:5 and blue bits 4:0 of a colour. -/
theorem rgb565_append (e : Exp6Shift) (r : BitVec 5) (g : BitVec 6) (b : BitVec 5) :
    rgb565 e (r ++ g ++ b) =
      ⟨BitVec.ofNat 8 (exp5 r.toNat), BitVec.ofNat 8 (exp6 e g.toNat), BitVec.ofNat 8 (exp5 b.toNat)⟩ := by
  have hred : (r ++ g ++ b).extractLsb' 11 5 = r := by
    rw [BitVec.extractLsb'_append_eq_of_le (by decide)]
    exact BitVec.extractLsb'_append_eq_left
  have hgreen : (r ++ g ++ b).extractLsb' 5 6 = g := by
    rw [BitVec.extractLsb'_append_eq_of_le (by decide)]
    exact BitVec.extractLsb'_append_eq_right
  have hblue : (r ++ g ++ b).extractLsb' 0 5 = b := BitVec.extractLsb'_append_eq_right
  rw [rgb565, hred, hgreen, hblue]

theorem alpha4_eq_mul_or {v : Nat} (hv : v < 16) : alpha4 v = (v * 16 ||| v) := by
  have hsum : (v * 2 ^ 4 ||| v) = v * 2 ^ 4 + v := mul_two_pow_or_eq_add v (by omega)
  calc alpha4 v = v * 2 ^ 4 + v := by rw [alpha4]; omega
    _ = (v * 16 ||| v) := hsum.symm

/-! ### Settled -/

/-- Settles O12: the tables entry by entry, the rest by the sums. -/
theorem channelExpansion : Obligations.ChannelExpansion :=
  ⟨⟨by decide, fun v hv => ⟨exp5_eq_mul_or_div v, exp5_div_eight hv⟩, fun _ _ => exp5_lt_exp5⟩,
    ⟨by decide, by decide,
      fun v hv => ⟨exp6_eq_mul_or_div .three v, exp6_eq_mul_or_div .four v, exp6_three_le hv⟩,
      rfl, rfl, rfl, rfl, fun _ _ => exp6_three_mono, fun _ => exp6_three_div_four_eq_iff,
      fun _ => exp6_three_eq_four_iff⟩,
    rgb565_append, fun _ hv => ⟨rfl, alpha4_eq_mul_or hv⟩⟩

end Sys2Proof.Machine
end

section
/-!
PROOF. `DEC.BC1` (R224). The palette entry that an index selects is the colour that R223 gives the index, so the
sixteen colours of a colour block are those of `colorAt`. Running the colour block by `colorBlock_eq` then gives the exact
next state. The frame is that of any tame decode that starts at a latch.
-/

namespace Sys2Proof.Machine

open Sys2Proof.Reference

/-! ### Tables and frames of a decode -/

theorem tab16_eq_ofFn {α : Type} (f : Fin 16 → α) : tab16 f = Vector.ofFn f :=
  Vector.ext fun i hi => (tab16_get f ⟨i, hi⟩).trans (Vector.get_ofFn f ⟨i, hi⟩).symm

/-- The frame of every tame decode: it samples its word (R31) and touches nothing else outside the block. -/
theorem decodeFrame_of_runDecode {p : Dec Tile} (hp : Tame p) {w : Word} {s t : State}
    (hrun : runDecode p (s.latch w) = .next t) : DecodeFrame w s t := by
  obtain ⟨hcfg, hport, hfmt, hblk, hrd, hhost, hdone, -⟩ := runDecode_frame hp hrun
  rw [State.latch_host] at hhost
  exact ⟨hcfg, hport, hrd, hhost, fun a => by rw [hhost], hfmt, hblk, hdone⟩

/-! ### The colours of a colour block (R223) -/

/-- The palette as R223 lists it, in both branches. -/
theorem palette_get (c : Config) (four : Bool) (f : ColorFields) (k : Fin 4) :
    (palette c four f.c0 f.c1).get k = colorOf c four f k.val := by
  by_cases hfour : four = true ∨ f.c1.toNat < f.c0.toNat
  · have hbranch : (four || decide (f.c1.toNat < f.c0.toNat)) = true := by simpa using hfour
    simp only [palette, colorOf, hbranch, if_pos hfour]
    fin_cases k <;> rfl
  · have hbranch : ¬ (four || decide (f.c1.toNat < f.c0.toNat)) = true := by simpa using hfour
    simp only [palette, colorOf, if_neg hbranch, if_neg hfour]
    fin_cases k <;> rfl

theorem selAt_toFin_val (sel : BitVec 32) (i : Fin 16) : (selAt sel i).toFin.val = bitsOf sel (2 * i.val) 2 := by
  rw [BitVec.val_toFin, selAt, BitVec.extractLsb'_toNat, Nat.shiftRight_eq_div_pow, bitsOf]

/-- The palette entry that texel `i` selects is the colour of texel `i`. -/
theorem palette_get_selAt (c : Config) (four : Bool) (f : ColorFields) (i : Fin 16) :
    (palette c four f.c0 f.c1).get (selAt f.sel i).toFin = colorAt c four f i := by
  rw [palette_get, selAt_toFin_val, colorAt]

/-- `ColorBlock` completes with the sixteen colours of R223 and writes the colour registers only. -/
theorem colorBlock_colorAt (f : ColorFields) (four : Bool) (s : State) :
    colorBlock f four s =
      .ok (tab16 (colorAt s.cfg four f)) (s.setWork { s.work with col := colorRegsAfter s.cfg f four }) := by
  rw [colorBlock_eq]
  simp only [palette_get_selAt]

theorem tileRgb_eq_ofFn (g : Fin 16 → Rgb) : tileRgb (tab16 g) = Vector.ofFn fun i => texelOf (g i) none := by
  simp only [tileRgb, tab16_get, texelOf, ← tab16_eq_ofFn]

/-! ### The decode (R224) -/

/-- The decode that `DEC.BC1` runs. -/
def decodeBc1 (col : ColorFields) : Dec Tile := do
  let out ← colorBlock col false
  pure (tileRgb out)

theorem exec_decBC1 (col : ColorFields) (hi : BitVec 64) (s : State) :
    exec (.decBC1 col hi) s = runDecode (decodeBc1 col) (s.latch ⟨0#4, hi ++ colorBits col⟩) := rfl

theorem Tame.decodeBc1 (col : ColorFields) : Tame (decodeBc1 col) :=
  (Tame.colorBlock col false).bind fun _ => Tame.pure _

/-- The decode always completes: no register is read before it is written, and no bit is read past the block. -/
theorem decodeBc1_eq (col : ColorFields) (s : State) :
    decodeBc1 col s =
      .ok (Vector.ofFn fun i => texelOf (colorAt s.cfg false col i) none)
        (s.setWork { s.work with col := colorRegsAfter s.cfg col false }) := by
  rw [decodeBc1, dec_bind_ok (colorBlock_colorAt col false s), dec_pure, tileRgb_eq_ofFn]

/-- Settles O14: the run of the decode gives the next state, and its tameness the frame. -/
theorem bc1Result : Obligations.Bc1Result := by
  intro col hi s
  have hrun := (exec_decBC1 col hi s).trans (runDecode_ok (decodeBc1_eq col _))
  exact ⟨_, hrun, decodeFrame_of_runDecode (Tame.decodeBc1 col) hrun, rfl, rfl, rfl, rfl⟩

end Sys2Proof.Machine
end

section
/-!
PROOF. `DEC.BC2` (R241) and `DEC.BC3` (R243). Both take their colours from the colour block with four colours forced (R240),
so their colour part is `colorBlock_colorAt`; they differ in where alpha comes from. In BC2 it is a nibble of the block,
and the field that `a4At` extracts is the one that R242 reads. In BC3 it is an unsigned gradient block, whose selected ramp
entry is the one that R261 gives the index. Running the blocks one after the other gives the exact next state, and tameness
gives the frame.
-/

namespace Sys2Proof.Machine

open Sys2Proof.Reference

/-! ### Fields of the alpha halves (R134, R136) -/

/-- The bits that a field accessor extracts are the bits that the reference reads. -/
theorem extractLsb'_toNat_eq_bitsOf {n : Nat} (v : BitVec n) (pos w : Nat) :
    (v.extractLsb' pos w).toNat = bitsOf v pos w := by
  rw [BitVec.extractLsb'_toNat, Nat.shiftRight_eq_div_pow, bitsOf]

theorem a4At_toNat (a4 : BitVec 64) (i : Fin 16) : (a4At a4 i).toNat = bitsOf a4 (4 * i.val) 4 :=
  extractLsb'_toNat_eq_bitsOf a4 (4 * i.val) 4

theorem gselAt_toFin_val (gsel : BitVec 48) (i : Fin 16) : (gselAt gsel i).toFin.val = bitsOf gsel (3 * i.val) 3 :=
  extractLsb'_toNat_eq_bitsOf gsel (3 * i.val) 3

/-! ### Gradients (R260, R261, R265) -/

/-- The ramp as R261 and R263 list it, in both branches. -/
theorem ramp_get (c : Config) (lo hi e0 e1 : Int) (k : Fin 8) :
    (ramp c.roundMode lo hi e0 e1).get k = rampOf c lo hi e0 e1 k.val := by
  by_cases hseven : e1 < e0
  · simp only [ramp, rampOf, if_pos hseven]
    fin_cases k <;> rfl
  · simp only [ramp, rampOf, if_neg hseven]
    fin_cases k <;> rfl

/-- The entry of the unsigned gradient that texel `i` selects, as a byte, is texel `i` of the gradient block. -/
theorem gradientU_get_gselAt (c : Config) (f : GradFields) (i : Fin 16) :
    BitVec.ofInt 8 ((gradientU c.roundMode f.e0.toNat f.e1.toNat).get (gselAt f.gsel i).toFin) = unsignedOf c f i := by
  rw [gradientU, ramp_get, gselAt_toFin_val, unsignedOf]

/-- The registers of a gradient working set after an unsigned gradient block. -/
def gradRegsAfterU (c : Config) (f : GradFields) : GradRegs :=
  gradRegsAfter f.gsel f.e0.toNat f.e1.toNat fun j =>
    BitVec.ofInt 8 ((gradientU c.roundMode f.e0.toNat f.e1.toNat).get j)

/-- `GradBlockU` completes with the sixteen values of R265 and writes its own gradient registers only. -/
theorem gradBlockU_unsignedOf (k : GradSet) (f : GradFields) (s : State) :
    gradBlockU k f s =
      .ok (tab16 (unsignedOf s.cfg f)) (s.setWork (setGradRegs k (gradRegsAfterU s.cfg f) s.work)) := by
  rw [gradBlockU, gradBlock_eq, gradRegsAfterU]
  simp only [gradientU_get_gselAt]

theorem Tame.gradBlockU (k : GradSet) (f : GradFields) : Tame (gradBlockU k f) := Tame.gradBlock _ _ _ _ _

/-! ### Tiles with alpha (R33) -/

theorem tileRgba_eq_ofFn (g : Fin 16 → Rgb) (al : Fin 16 → Byte) :
    tileRgba (tab16 g) (tab16 al) = Vector.ofFn fun i => texelOf (g i) (some (al i)) := by
  simp only [tileRgba, tab16_get, texelOf, ← tab16_eq_ofFn]

/-! ### BC2 (R241) -/

/-- The decode that `DEC.BC2` runs. -/
def decodeBc2 (a4 : BitVec 64) (col : ColorFields) : Dec Tile := do
  let out ← colorBlock col true
  pure (tileRgba out (tab16 fun i => BitVec.ofNat 8 (alpha4 (a4At a4 i).toNat)))

theorem exec_decBC2 (a4 : BitVec 64) (col : ColorFields) (s : State) :
    exec (.decBC2 a4 col) s = runDecode (decodeBc2 a4 col) (s.latch ⟨1#4, colorBits col ++ a4⟩) := rfl

theorem Tame.decodeBc2 (a4 : BitVec 64) (col : ColorFields) : Tame (decodeBc2 a4 col) :=
  (Tame.colorBlock col true).bind fun _ => Tame.pure _

/-- The decode always completes: each texel has the four-colour entry of its index and 17 times its nibble (R242). -/
theorem decodeBc2_eq (a4 : BitVec 64) (col : ColorFields) (s : State) :
    decodeBc2 a4 col s =
      .ok (Vector.ofFn fun i =>
          texelOf (colorAt s.cfg true col i) (some (BitVec.ofNat 8 (17 * bitsOf a4 (4 * i.val) 4))))
        (s.setWork { s.work with col := colorRegsAfter s.cfg col true }) := by
  rw [decodeBc2, dec_bind_ok (colorBlock_colorAt col true s), dec_pure, tileRgba_eq_ofFn]
  simp only [alpha4, a4At_toNat]

/-- Settles O16: the run of the decode gives the next state, and its tameness the frame. -/
theorem bc2Result : Obligations.Bc2Result := by
  intro a4 col s
  have hrun := (exec_decBC2 a4 col s).trans (runDecode_ok (decodeBc2_eq a4 col _))
  exact ⟨_, hrun, decodeFrame_of_runDecode (Tame.decodeBc2 a4 col) hrun, rfl, rfl, rfl, rfl⟩

/-! ### BC3 (R243) -/

/-- The decode that `DEC.BC3` runs. -/
def decodeBc3 (al : GradFields) (col : ColorFields) : Dec Tile := do
  let a ← gradBlockU .first al
  let out ← colorBlock col true
  pure (tileRgba out a)

theorem exec_decBC3 (al : GradFields) (col : ColorFields) (s : State) :
    exec (.decBC3 al col) s = runDecode (decodeBc3 al col) (s.latch ⟨2#4, colorBits col ++ gradBits al⟩) := rfl

theorem Tame.decodeBc3 (al : GradFields) (col : ColorFields) : Tame (decodeBc3 al col) :=
  (Tame.gradBlockU .first al).bind fun _ => (Tame.colorBlock col true).bind fun _ => Tame.pure _

/-- The decode always completes: the gradient block leaves the configuration to the colour block, and the two write
different registers. -/
theorem decodeBc3_eq (al : GradFields) (col : ColorFields) (s : State) :
    decodeBc3 al col s =
      .ok (Vector.ofFn fun i => texelOf (colorAt s.cfg true col i) (some (unsignedOf s.cfg al i)))
        (s.setWork { s.work with col := colorRegsAfter s.cfg col true, gradA := gradRegsAfterU s.cfg al }) := by
  rw [decodeBc3, dec_bind_ok (gradBlockU_unsignedOf .first al s), dec_bind_ok (colorBlock_colorAt col true _), dec_pure,
    tileRgba_eq_ofFn]
  rfl

/-- Settles O17: the run of the decode gives the next state, and its tameness the frame. -/
theorem bc3Result : Obligations.Bc3Result := by
  intro al col s
  have hrun := (exec_decBC3 al col s).trans (runDecode_ok (decodeBc3_eq al col _))
  exact ⟨_, hrun, decodeFrame_of_runDecode (Tame.decodeBc3 al col) hrun, rfl, rfl, rfl, rfl⟩

end Sys2Proof.Machine
end

section
/-!
PROOF. Signed endpoints (R262), gradients inside their range (R260 to R263), and the remap (R264). Rounding division does
not decrease with its numerator and is exact on multiples, so a quotient whose numerator mixes values of a range stays in
the range. That keeps every entry of a signed gradient where the remap agrees with its closed form.
-/

namespace Sys2Proof.Machine

open Sys2Proof.Reference

/-! ### Signed endpoints (R262) -/

theorem sext_toNat (b : Byte) : sext 8 b.toNat = b.toInt := by
  rw [sext_eq (by decide), signedOf, BitVec.ofInt_natCast, BitVec.ofNat_toNat, BitVec.setWidth_eq]

theorem sEndpoint_eq_max (b : Byte) : sEndpoint b = max b.toInt (-127) := by
  rw [sEndpoint, sext_toNat]

/-- The clamp changes one byte only. -/
theorem sEndpoint_eq_signedEnd (b : Byte) : sEndpoint b = signedEnd b := by
  rw [sEndpoint_eq_max, signedEnd]
  split
  next hmin =>
    subst hmin
    decide
  next hother =>
    have hge : -128 ≤ b.toInt := BitVec.le_toInt b
    have hne : b.toInt ≠ -128 := fun h => hother (BitVec.eq_of_toInt_eq h)
    omega

theorem signedEnd_bounds (b : Byte) : -127 ≤ signedEnd b ∧ signedEnd b ≤ 127 := by
  have hle : b.toInt < 128 := BitVec.toInt_lt
  rw [← sEndpoint_eq_signedEnd, sEndpoint_eq_max]
  omega

/-! ### Gradient entries stay in range (R261, R263) -/

theorem rdiv_mono (m : RoundMode) {a b den : Int} (hden : 0 < den) (hab : a ≤ b) : rdiv m a den ≤ rdiv m b den := by
  cases m with
  | nearest => exact Int.ediv_le_ediv (by omega) (by omega)
  | truncate => exact Int.tdiv_le_tdiv hden hab

/-- Both modes are exact where the quotient is an integer. -/
theorem rdiv_mul_self (m : RoundMode) (a : Int) {den : Int} (hden : 0 < den) : rdiv m (a * den) den = a := by
  cases m with
  | nearest =>
    have hsum : 2 * (a * den) + den = den + a * (2 * den) := by ring
    rw [rdiv_nearest, hsum, Int.add_mul_ediv_right _ _ (by omega), Int.ediv_eq_zero_of_lt (by omega) (by omega), zero_add]
  | truncate => exact Int.mul_tdiv_cancel a (by omega)

/-- A weighted mean of two values of a range, rounded in either mode, is in the range. -/
theorem rdiv_mean_bounds (m : RoundMode) {lo hi x y a b den : Int} (ha : 0 ≤ a) (hb : 0 ≤ b) (hsum : a + b = den)
    (hden : 0 < den) (hx : lo ≤ x ∧ x ≤ hi) (hy : lo ≤ y ∧ y ≤ hi) :
    lo ≤ rdiv m (a * x + b * y) den ∧ rdiv m (a * x + b * y) den ≤ hi := by
  subst hsum
  have hlow : lo * (a + b) ≤ a * x + b * y := by
    linarith [mul_le_mul_of_nonneg_left hx.1 ha, mul_le_mul_of_nonneg_left hy.1 hb]
  have hhigh : a * x + b * y ≤ hi * (a + b) := by
    linarith [mul_le_mul_of_nonneg_left hx.2 ha, mul_le_mul_of_nonneg_left hy.2 hb]
  constructor
  · calc lo = rdiv m (lo * (a + b)) (a + b) := (rdiv_mul_self m lo hden).symm
      _ ≤ rdiv m (a * x + b * y) (a + b) := rdiv_mono m hden hlow
  · calc rdiv m (a * x + b * y) (a + b) ≤ rdiv m (hi * (a + b)) (a + b) := rdiv_mono m hden hhigh
      _ = hi := rdiv_mul_self m hi hden

/-- Every entry of a ramp lies between its terminators when the endpoints do. -/
theorem rampOf_bounds (c : Config) {lo hi e0 e1 : Int} (h0 : lo ≤ e0 ∧ e0 ≤ hi) (h1 : lo ≤ e1 ∧ e1 ≤ hi) {k : Nat}
    (hk : k < 8) : lo ≤ rampOf c lo hi e0 e1 k ∧ rampOf c lo hi e0 e1 k ≤ hi := by
  have hrange : lo ≤ hi := h0.1.trans h0.2
  unfold rampOf
  split_ifs
  · exact h0
  · exact h1
  · exact rdiv_mean_bounds c.roundMode (by omega) (by omega) (by omega) (by decide) h0 h1
  · exact rdiv_mean_bounds c.roundMode (by omega) (by omega) (by omega) (by decide) h0 h1
  · exact ⟨le_rfl, hrange⟩
  · exact ⟨hrange, le_rfl⟩

/-! ### The remap (R264) -/

theorem remapS_eq_fdiv (v : Int) : remapS v = (510 * (v + 127) + 254).fdiv 508 := by
  rw [remapS, Int.fdiv_eq_ediv_of_nonneg _ (by decide)]

theorem remapS_eq_floor (v : Int) : remapS v = ⌊((v : ℚ) + 127) * 255 / 254 + 1 / 2⌋ := by
  have hquot : ((v : ℚ) + 127) * 255 / 254 + 1 / 2 = ((510 * (v + 127) + 254 : ℤ) : ℚ) / ((508 : ℕ) : ℚ) := by
    push_cast
    ring
  rw [hquot, Rat.floor_intCast_div_natCast]
  rfl

/-- The closed form: the upper half of the range moves up by one. -/
theorem remapS_eq_add {v : Int} (hv : -127 ≤ v ∧ v ≤ 127) : remapS v = v + 127 + if 0 ≤ v then 1 else 0 := by
  rw [remapS]
  split
  next hnonneg => omega
  next hneg => omega

/-- The value 127 lies in the gap between the images of -1 and 0. -/
theorem remapS_ne_127 {v : Int} (hv : -127 ≤ v ∧ v ≤ 127) : remapS v ≠ 127 := by
  rw [remapS_eq_add hv]
  split
  next hnonneg => omega
  next hneg => omega

/-- The slope of the integer form is above 1, so the remap increases at every step. -/
theorem remapS_lt_remapS {v w : Int} (hvw : v < w) : remapS v < remapS w := by
  rw [remapS, remapS]
  omega

/-- Settles O19: the clamp as a maximum, the ramp of two equal endpoints, and the three forms of the remap. -/
theorem signedEndpointAndRemap : Obligations.SignedEndpointAndRemap :=
  ⟨⟨sEndpoint_eq_max, rfl, rfl, fun m => by cases m <;> rfl⟩,
    fun v hlow hhigh =>
      ⟨remapS_eq_floor v, remapS_eq_fdiv v, remapS_eq_add ⟨hlow, hhigh⟩, remapS_ne_127 ⟨hlow, hhigh⟩⟩,
    fun _ _ _ hvw _ => remapS_lt_remapS hvw, rfl, rfl, rfl, rfl, rfl, rfl, rfl⟩

end Sys2Proof.Machine
end

section
/-!
PROOF. `DEC.BC4U`, `DEC.BC4S`, `DEC.BC5U` and `DEC.BC5S` (R266 to R269). The four differ only in which gradient blocks they
run, so what the decodes need of a block is one predicate, `GradDecodes`, met by the unsigned and by the signed block, and
each of the two tile shapes has one lemma over any blocks that meet it. The signed block meets it because its gradient
stays in the range of the remap.
-/

namespace Sys2Proof.Machine

open Sys2Proof.Reference

/-! ### Gradient blocks (R265) -/

/-- The piece `p` is tame, always completes with the sixteen values `v` of the configuration, and writes gradient set `k`
only. -/
structure GradDecodes (k : GradSet) (p : Dec (Vector Byte 16)) (v : Config → Fin 16 → Byte) : Prop where
  tame : Tame p
  completes : ∀ s : State, ∃ regs, p s = .ok (tab16 (v s.cfg)) (s.setWork (setGradRegs k regs s.work))

theorem gradBlockU_decodes (k : GradSet) (f : GradFields) :
    GradDecodes k (gradBlockU k f) fun c => unsignedOf c f :=
  ⟨Tame.gradBlockU k f, fun s => ⟨_, gradBlockU_unsignedOf k f s⟩⟩

/-- The remapped entry of the signed gradient that texel `i` selects, as a byte, is texel `i` of the gradient block. -/
theorem remapS_gradientS_get_gselAt (c : Config) (f : GradFields) (i : Fin 16) :
    BitVec.ofInt 8 (remapS ((gradientS c.roundMode (sEndpoint f.e0) (sEndpoint f.e1)).get (gselAt f.gsel i).toFin)) =
      signedGradOf c f i := by
  have hindex : bitsOf f.gsel (3 * i.val) 3 < 8 := Nat.mod_lt _ (by decide)
  rw [sEndpoint_eq_signedEnd, sEndpoint_eq_signedEnd, gradientS, ramp_get, gselAt_toFin_val,
    remapS_eq_add (rampOf_bounds c (signedEnd_bounds f.e0) (signedEnd_bounds f.e1) hindex), signedGradOf]

/-- The registers of a gradient working set after a signed gradient block. -/
def gradRegsAfterS (c : Config) (f : GradFields) : GradRegs :=
  gradRegsAfter f.gsel (sEndpoint f.e0) (sEndpoint f.e1) fun j =>
    BitVec.ofInt 8 (remapS ((gradientS c.roundMode (sEndpoint f.e0) (sEndpoint f.e1)).get j))

/-- `GradBlockS` completes with the sixteen remapped values of R265 and writes its own gradient registers only. -/
theorem gradBlockS_signedGradOf (k : GradSet) (f : GradFields) (s : State) :
    gradBlockS k f s =
      .ok (tab16 (signedGradOf s.cfg f)) (s.setWork (setGradRegs k (gradRegsAfterS s.cfg f) s.work)) := by
  rw [gradBlockS, gradBlock_eq, gradRegsAfterS]
  simp only [remapS_gradientS_get_gselAt]

theorem gradBlockS_decodes (k : GradSet) (f : GradFields) :
    GradDecodes k (gradBlockS k f) fun c => signedGradOf c f :=
  ⟨Tame.gradBlock _ _ _ _ _, fun s => ⟨_, gradBlockS_signedGradOf k f s⟩⟩

/-! ### One block: R only (R266, R267) -/

/-- The decode that `DEC.BC4U` and `DEC.BC4S` run on their gradient block. -/
def decodeR (p : Dec (Vector Byte 16)) : Dec Tile := do
  let r ← p
  pure (tileR r)

theorem exec_decBC4U (g : GradFields) (hi : BitVec 64) (s : State) :
    exec (.decBC4U g hi) s = runDecode (decodeR (gradBlockU .first g)) (s.latch ⟨3#4, hi ++ gradBits g⟩) := rfl

theorem exec_decBC4S (g : GradFields) (hi : BitVec 64) (s : State) :
    exec (.decBC4S g hi) s = runDecode (decodeR (gradBlockS .first g)) (s.latch ⟨4#4, hi ++ gradBits g⟩) := rfl

theorem tileR_eq_ofFn (x : Fin 16 → Byte) : tileR (tab16 x) = Vector.ofFn fun i => ⟨some (x i), none, none, none⟩ := by
  simp only [tileR, tab16_get, ← tab16_eq_ofFn]

theorem decodeR_eq {p : Dec (Vector Byte 16)} {x : Fin 16 → Byte} {s t : State} (hp : p s = .ok (tab16 x) t) :
    decodeR p s = .ok (Vector.ofFn fun i => ⟨some (x i), none, none, none⟩) t := by
  rw [decodeR, dec_bind_ok hp, dec_pure, tileR_eq_ofFn]

theorem Tame.decodeR {p : Dec (Vector Byte 16)} (hp : Tame p) : Tame (decodeR p) := hp.bind fun _ => Tame.pure _

/-- The run of the decode gives the next state, and its tameness the frame. -/
theorem runDecode_decodeR {p : Dec (Vector Byte 16)} {v : Config → Fin 16 → Byte} (hp : GradDecodes .first p v)
    (w : Word) (s : State) :
    ∃ t, runDecode (decodeR p) (s.latch w) = .next t ∧ DecodeFrame w s t ∧ t.status = .ok ∧ t.pos = 0#8 ∧
      t.work = { Work.unwritten with gradA := t.work.gradA } ∧
      t.tile = Vector.ofFn fun i => ⟨some (v s.cfg i), none, none, none⟩ := by
  obtain ⟨regs, hblock⟩ := hp.completes (s.latch w)
  have hrun := runDecode_ok (decodeR_eq hblock)
  exact ⟨_, hrun, decodeFrame_of_runDecode hp.tame.decodeR hrun, rfl, rfl, rfl, rfl⟩

/-- Settles O21: the unsigned and the signed gradient block under one tile shape. -/
theorem bc4Result : Obligations.Bc4Result := fun g hi s => by
  rw [exec_decBC4U, exec_decBC4S]
  exact ⟨runDecode_decodeR (gradBlockU_decodes .first g) _ s, runDecode_decodeR (gradBlockS_decodes .first g) _ s⟩

/-! ### Two blocks: R and G, and B = 0 (R268, R269) -/

/-- The decode that `DEC.BC5U` and `DEC.BC5S` run on their two gradient blocks. -/
def decodeRg (p q : Dec (Vector Byte 16)) : Dec Tile := do
  let r ← p
  let g ← q
  pure (tileRg r g)

theorem exec_decBC5U (g h : GradFields) (s : State) :
    exec (.decBC5U g h) s =
      runDecode (decodeRg (gradBlockU .first g) (gradBlockU .second h)) (s.latch ⟨5#4, gradBits h ++ gradBits g⟩) := rfl

theorem exec_decBC5S (g h : GradFields) (s : State) :
    exec (.decBC5S g h) s =
      runDecode (decodeRg (gradBlockS .first g) (gradBlockS .second h)) (s.latch ⟨6#4, gradBits h ++ gradBits g⟩) := rfl

theorem tileRg_eq_ofFn (x y : Fin 16 → Byte) :
    tileRg (tab16 x) (tab16 y) = Vector.ofFn fun i => ⟨some (x i), some (y i), some 0, none⟩ := by
  simp only [tileRg, tab16_get, ← tab16_eq_ofFn]

theorem decodeRg_eq {p q : Dec (Vector Byte 16)} {x y : Fin 16 → Byte} {s t u : State} (hp : p s = .ok (tab16 x) t)
    (hq : q t = .ok (tab16 y) u) :
    decodeRg p q s = .ok (Vector.ofFn fun i => ⟨some (x i), some (y i), some 0, none⟩) u := by
  rw [decodeRg, dec_bind_ok hp, dec_bind_ok hq, dec_pure, tileRg_eq_ofFn]

theorem Tame.decodeRg {p q : Dec (Vector Byte 16)} (hp : Tame p) (hq : Tame q) : Tame (decodeRg p q) :=
  hp.bind fun _ => hq.bind fun _ => Tame.pure _

/-- The first block leaves the configuration to the second, and the two write different gradient sets. -/
theorem runDecode_decodeRg {p q : Dec (Vector Byte 16)} {u v : Config → Fin 16 → Byte}
    (hp : GradDecodes .first p u) (hq : GradDecodes .second q v) (w : Word) (s : State) :
    ∃ t, runDecode (decodeRg p q) (s.latch w) = .next t ∧ DecodeFrame w s t ∧ t.status = .ok ∧ t.pos = 0#8 ∧
      t.work = { Work.unwritten with gradA := t.work.gradA, gradB := t.work.gradB } ∧
      t.tile = Vector.ofFn fun i => ⟨some (u s.cfg i), some (v s.cfg i), some 0, none⟩ := by
  obtain ⟨regsA, hfirst⟩ := hp.completes (s.latch w)
  obtain ⟨regsB, hsecond⟩ := hq.completes ((s.latch w).setWork (setGradRegs .first regsA (s.latch w).work))
  have hrun := runDecode_ok (decodeRg_eq hfirst hsecond)
  exact ⟨_, hrun, decodeFrame_of_runDecode (hp.tame.decodeRg hq.tame) hrun, rfl, rfl, rfl, rfl⟩

/-- Settles O22: each half of the block by its own gradient block, under one tile shape. -/
theorem bc5Result : Obligations.Bc5Result := fun g h s => by
  rw [exec_decBC5U, exec_decBC5S]
  exact ⟨runDecode_decodeRg (gradBlockU_decodes .first g) (gradBlockU_decodes .second h) _ s,
    runDecode_decodeRg (gradBlockS_decodes .first g) (gradBlockS_decodes .second h) _ s⟩

end Sys2Proof.Machine
end

section
/-!
PROOF. The mode selectors (R291, R341). Both run on one rule: what a cursor read gives at an offset of the block, and where
it leaves the cursor. `ReadMode6` is one such read or two, the later one above the earlier. `ReadMode7` is a run of
one-bit reads, by induction on the zero bits in front of the first one bit: reading a zero bit halves the unary prefix.
-/

namespace Sys2Proof.Machine

/-! ### A read at an offset of the block (R200) -/

theorem memRead_zero_pos (blk : Block) (n : Nat) : memRead blk 0 n = blk.toNat % 2 ^ n := by
  rw [memRead_eq_div_mod, Nat.pow_zero, Nat.div_one]

/-- The first bit of a read is its lowest. -/
theorem memRead_one_eq_mod (blk : Block) (pos n : Nat) : memRead blk pos 1 = memRead blk pos (n + 1) % 2 :=
  (memRead_mod_two_pow blk pos (Nat.le_add_left 1 n)).symm

/-- The bits of a read after the first. -/
theorem memRead_tail_eq_div (blk : Block) (pos n : Nat) : memRead blk (pos + 1) n = memRead blk pos (n + 1) / 2 :=
  (memRead_div_two_pow blk pos (n + 1) 1).symm

theorem setPos_eq_self {s : State} {p : BitVec 8} (h : s.pos = p) : s.setPos p = s := by
  rw [← h, State.setPos_self]

/-- A read that fits, with the cursor on a given offset. -/
theorem rdBits_setPos {q n : Nat} {s : State} (hn : n ≤ 8) (hfit : q + n ≤ lenBits s.fmt) :
    rdBits n (s.setPos (BitVec.ofNat 8 q)) = .ok (memRead s.blk q n) (s.setPos (BitVec.ofNat 8 (q + n))) := by
  have hlen := lenBits_le s.fmt
  have hpos : (s.setPos (BitVec.ofNat 8 q)).pos.toNat = q := by
    rw [State.setPos_pos, BitVec.toNat_ofNat]
    omega
  rw [rdBits_ok hn (by rw [hpos]; exact hfit), hpos, State.setPos_setPos, State.setPos_blk]

/-! ### `ReadMode6` (R291) -/

/-- A code of two bits. -/
theorem readMode6_short {q : Nat} {s : State} (hfit : q + 2 ≤ lenBits s.fmt) (hlow : memRead s.blk q 2 < 2) :
    readMode6 (s.setPos (BitVec.ofNat 8 q)) = .ok (memRead s.blk q 2) (s.setPos (BitVec.ofNat 8 (q + 2))) := by
  rw [readMode6, dec_bind_ok (rdBits_setPos (by decide) hfit), if_pos (by omega), dec_pure]

/-- A code of five bits: the two reads are one read of five bits. -/
theorem readMode6_long {q : Nat} {s : State} (hfit : q + 5 ≤ lenBits s.fmt) (hlow : 2 ≤ memRead s.blk q 2) :
    readMode6 (s.setPos (BitVec.ofNat 8 q)) = .ok (memRead s.blk q 5) (s.setPos (BitVec.ofNat 8 (q + 5))) := by
  have hjoin : (memRead s.blk (q + 2) 3 <<< 2 ||| memRead s.blk q 2) = memRead s.blk q 5 := by
    rw [memRead_add s.blk q 2 3, Nat.shiftLeft_eq, Nat.or_comm]
  rw [readMode6, dec_bind_ok (rdBits_setPos (by decide) (by omega)), if_neg (by omega),
    dec_bind_ok (rdBits_setPos (q := q + 2) (by decide) hfit), dec_pure, hjoin]

/-! ### `ReadMode7` (R341) -/

/-- A set bit ends the count and is consumed. -/
theorem readMode7_of_one {fuel m q : Nat} {s : State} (hfit : q + 1 ≤ lenBits s.fmt) (hbit : memRead s.blk q 1 = 1) :
    readMode7 (fuel + 1) m (s.setPos (BitVec.ofNat 8 q)) = .ok m (s.setPos (BitVec.ofNat 8 (q + 1))) := by
  rw [readMode7, rdBit, dec_bind_ok (rdBits_setPos (by decide) hfit), hbit, if_neg Nat.one_ne_zero, dec_pure]

/-- A clear bit is counted and consumed. -/
theorem readMode7_of_zero {fuel m q : Nat} {s : State} (hfit : q + 1 ≤ lenBits s.fmt) (hbit : memRead s.blk q 1 = 0) :
    readMode7 (fuel + 1) m (s.setPos (BitVec.ofNat 8 q)) =
      readMode7 fuel (m + 1) (s.setPos (BitVec.ofNat 8 (q + 1))) := by
  rw [readMode7, rdBit, dec_bind_ok (rdBits_setPos (by decide) hfit), if_pos hbit]

/-- The unary prefix of `k`: `k` clear bits and a set bit. -/
theorem readMode7_unary {k fuel m q : Nat} {s : State} (hk : k < fuel) (hfit : q + (k + 1) ≤ lenBits s.fmt)
    (hprefix : memRead s.blk q (k + 1) = 2 ^ k) :
    readMode7 fuel m (s.setPos (BitVec.ofNat 8 q)) = .ok (m + k) (s.setPos (BitVec.ofNat 8 (q + (k + 1)))) := by
  obtain ⟨fuel, rfl⟩ := Nat.exists_eq_add_one_of_ne_zero (Nat.ne_zero_of_lt hk)
  induction k generalizing fuel m q with
  | zero => exact readMode7_of_one hfit hprefix
  | succ k ih =>
    have hbit : memRead s.blk q 1 = 0 := by
      rw [memRead_one_eq_mod s.blk q (k + 1), hprefix, Nat.pow_succ, Nat.mul_mod_left]
    have hrest : memRead s.blk (q + 1) (k + 1) = 2 ^ k := by
      rw [memRead_tail_eq_div, hprefix, Nat.pow_succ, Nat.mul_div_cancel _ Nat.two_pos]
    obtain ⟨fuel, rfl⟩ := Nat.exists_eq_add_one_of_ne_zero (n := fuel) (by omega)
    have hcount : m + 1 + k = m + (k + 1) := by omega
    have hend : q + 1 + (k + 1) = q + (k + 1 + 1) := by omega
    rw [readMode7_of_zero (by omega) hbit, ih (by omega) hrest fuel (by omega), hcount, hend]

/-- Nothing but clear bits: the count stops at its limit and consumes no more. -/
theorem readMode7_of_all_zero {fuel m q : Nat} {s : State} (hfit : q + fuel ≤ lenBits s.fmt)
    (hzero : memRead s.blk q fuel = 0) :
    readMode7 fuel m (s.setPos (BitVec.ofNat 8 q)) = .ok (m + fuel) (s.setPos (BitVec.ofNat 8 (q + fuel))) := by
  induction fuel generalizing m q with
  | zero => rfl
  | succ fuel ih =>
    have hbit : memRead s.blk q 1 = 0 := by
      rw [memRead_one_eq_mod s.blk q fuel, hzero]
    have hrest : memRead s.blk (q + 1) fuel = 0 := by
      rw [memRead_tail_eq_div, hzero]
    have hcount : m + 1 + fuel = m + (fuel + 1) := by omega
    have hend : q + 1 + fuel = q + (fuel + 1) := by omega
    rw [readMode7_of_zero (by omega) hbit, ih (by omega) hrest, hcount, hend]

/-- Settles O29: each selector with the cursor at 0, where a read of `n` bits gives the low `n` bits of the block. -/
theorem modeSelectors : Obligations.ModeSelectors := by
  refine ⟨fun s p hfmt hpos => ?_, fun s hfmt hpos => ?_⟩
  · have hlen : lenBits s.fmt = 128 := by rw [hfmt, lenBits_profile]
    have hshort := readMode6_short (q := 0) (s := s) (by omega)
    have hlong := readMode6_long (q := 0) (s := s) (by omega)
    simp only [setPos_eq_self hpos, memRead_zero_pos] at hshort hlong
    exact ⟨hshort, hlong⟩
  · have hlen : lenBits s.fmt = 128 := by rw [hfmt]; rfl
    refine ⟨fun m hm hprefix => ?_, fun hzero => ?_⟩
    · have hmode := readMode7_unary (m := 0) (q := 0) (s := s) hm (by omega) (by rw [memRead_zero_pos, hprefix])
      rwa [setPos_eq_self hpos, Nat.zero_add, Nat.zero_add] at hmode
    · have hmode := readMode7_of_all_zero (fuel := 8) (m := 0) (q := 0) (s := s) (by omega)
        (by rw [memRead_zero_pos]; exact hzero)
      rwa [setPos_eq_self hpos] at hmode

end Sys2Proof.Machine
end

section
/-!
PROOF. The dispatcher (R382, R383): exactly which codes it rejects, in each of its two code spaces. The rows it accepts
are a finite table and are evaluated; the rejections range over all 32-bit codes and follow the branches of the map.
-/

namespace Sys2Proof.Machine

@[simp] theorem dispatch_fourCC (c : BitVec 32) : dispatch (.fourCC c) = dispatchFourCC c := rfl

@[simp] theorem dispatch_dxgi (n : BitVec 32) : dispatch (.dxgi n) = dispatchDxgi n := rfl

/-! ### FourCC codes -/

/-- The FourCC codes that R382 maps to a format. -/
def acceptedFourCCs : List (BitVec 32) :=
  [fourCC 'D' 'X' 'T' '1', fourCC 'D' 'X' 'T' '3', fourCC 'D' 'X' 'T' '5', fourCC 'A' 'T' 'I' '1',
    fourCC 'B' 'C' '4' 'U', fourCC 'B' 'C' '4' 'S', fourCC 'A' 'T' 'I' '2', fourCC 'B' 'C' '5' 'U',
    fourCC 'B' 'C' '5' 'S']

/-- The FourCC codes of R383, the premultiplied-alpha variants. -/
def premultipliedFourCCs : List (BitVec 32) := [fourCC 'D' 'X' 'T' '2', fourCC 'D' 'X' 'T' '4']

/-- R382, R383: the map's FourCC rows are those of the list, and no other code has one. -/
theorem dispatchFourCC_eq_none_iff (c : BitVec 32) : dispatchFourCC c = none ↔ c ∉ acceptedFourCCs := by
  simp only [dispatchFourCC, acceptedFourCCs, List.mem_cons, List.not_mem_nil, or_false, not_or,
    ite_eq_iff, reduceCtorEq, and_false, false_or, and_true]

theorem acceptedFourCCs_map_dispatchFourCC :
    acceptedFourCCs.map dispatchFourCC =
      [some .bc1, some .bc2, some .bc3, some .bc4u, some .bc4u, some .bc4s, some .bc5u, some .bc5u, some .bc5s] := by
  decide

/-- R383: the premultiplied-alpha variants are no rows of the map, so they are rejected with every other code. -/
theorem premultipliedFourCCs_map_dispatchFourCC : premultipliedFourCCs.map dispatchFourCC = [none, none] := by
  have hout : ∀ c ∈ premultipliedFourCCs, c ∉ acceptedFourCCs :=
    List.forall_mem_cons.mpr ⟨by decide, List.forall_mem_singleton.mpr (by decide)⟩
  calc premultipliedFourCCs.map dispatchFourCC
      = premultipliedFourCCs.map (fun _ => none) :=
        List.map_congr_left fun c hc => (dispatchFourCC_eq_none_iff c).mpr (hout c hc)
    _ = [none, none] := rfl

/-! ### DXGI numbers -/

/-- R382, R383: the DXGI numbers without a format are those outside 70 to 99, and the gap 85 to 93. -/
theorem dispatchDxgi_eq_none_iff (n : BitVec 32) :
    dispatchDxgi n = none ↔ n.toNat < 70 ∨ 85 ≤ n.toNat ∧ n.toNat ≤ 93 ∨ 99 < n.toNat := by
  unfold dispatchDxgi
  split
  case h_22 =>
    simp only [imp_false, true_iff] at *
    omega
  all_goals
    simp only [reduceCtorEq, false_iff]
    omega

/-- R382: the format of each DXGI number from 70 to 99. -/
theorem range_map_dispatchDxgi :
    (List.range 30).map (fun k => dispatchDxgi (BitVec.ofNat 32 (70 + k))) =
      [some .bc1, some .bc1, some .bc1, some .bc2, some .bc2, some .bc2, some .bc3, some .bc3, some .bc3,
        some .bc4u, some .bc4u, some .bc4s, some .bc5u, some .bc5u, some .bc5s,
        none, none, none, none, none, none, none, none, none,
        some .bc6hu, some .bc6hu, some .bc6hs, some .bc7, some .bc7, some .bc7] := by
  decide

/-- Settles O50: the rows of each code space, and the codes that have none. -/
theorem dispatcherMap : Obligations.DispatcherMap := by
  unfold Obligations.DispatcherMap
  simp only [dispatch_fourCC, dispatch_dxgi]
  refine ⟨?fourCCRows, range_map_dispatchDxgi, fun n hn => ?outsideDxgi,
    fun c hc => (dispatchFourCC_eq_none_iff c).mpr hc⟩
  case fourCCRows =>
    exact congrArg₂ (· ++ ·) acceptedFourCCs_map_dispatchFourCC premultipliedFourCCs_map_dispatchFourCC
  case outsideDxgi => exact (dispatchDxgi_eq_none_iff n).mpr (by omega)

end Sys2Proof.Machine
end

section
/-!
PROOF. The refused format selects (R149, R414). Both forms raise `UNSUPPORTED` right after the latch, so their next state
is the event taken at the latch. Taking an event moves the latched block unread, so another block changes that latch only;
the frame is that of any tame decode.
-/

namespace Sys2Proof.Machine

theorem runDecode_raise (e : Event) (s : State) : runDecode (raise e) s = .next (takeEvent e s) :=
  runDecode_event (raise_apply e s)

/-- An event taken right after the latch reads no block bit: the block stays in its latch and nowhere else. -/
theorem takeEvent_latch_with_blk (e : Event) (fmt : BitVec 4) (blk blk' : Block) (s : State) :
    takeEvent e (s.latch ⟨fmt, blk'⟩) = { takeEvent e (s.latch ⟨fmt, blk⟩) with blk := blk' } := rfl

theorem exec_unsupportedFmt10_11 (f : BitVec 1) (blk : Block) (s : State) :
    exec (.unsupportedFmt10_11 f blk) s = runDecode (raise .unsupported) (s.latch ⟨5#3 ++ f, blk⟩) := rfl

theorem exec_unsupportedFmt12_15 (f : BitVec 2) (blk : Block) (s : State) :
    exec (.unsupportedFmt12_15 f blk) s = runDecode (raise .unsupported) (s.latch ⟨3#2 ++ f, blk⟩) := rfl

/-- R414 for any format select: what the refusal delivers does not depend on the code that was sampled. -/
theorem runDecode_raise_unsupported (fmt : BitVec 4) (blk : Block) (s : State) :
    ∃ t, runDecode (raise .unsupported) (s.latch ⟨fmt, blk⟩) = .next t ∧ DecodeFrame ⟨fmt, blk⟩ s t ∧
      t.tile = Tile.noValue ∧ t.status = .unsupported ∧
      ∀ blk', runDecode (raise .unsupported) (s.latch ⟨fmt, blk'⟩) = .next { t with blk := blk' } := by
  have hrun := runDecode_raise .unsupported (s.latch ⟨fmt, blk⟩)
  refine ⟨_, hrun, decodeFrame_of_runDecode (Tame.raise _) hrun, takeEvent_tile .unsupported _,
    takeEvent_status .unsupported _, fun blk' => ?otherBlock⟩
  case otherBlock => rw [runDecode_raise, takeEvent_latch_with_blk _ fmt blk blk']

/-- Settles O45: both forms are the refusal at their own format code. -/
theorem unsupportedRefused : Obligations.UnsupportedRefused := by
  intro blk s
  simp only [exec_unsupportedFmt10_11, exec_unsupportedFmt12_15]
  exact ⟨fun f => runDecode_raise_unsupported (5#3 ++ f) blk s,
    fun f => runDecode_raise_unsupported (3#2 ++ f) blk s⟩

end Sys2Proof.Machine
end

section
/-!
PROOF. The fixed layouts (R133 to R137, R149) and the BC7 layouts (R143, R145) between words and fields. A layout is a
concatenation of its fields: a field read at its own place gives the field back, and fields read side by side join to the
part of the block that they cover. Both directions are said once per layout, and the round trips of the first level (O2) and
of BC7 (O4) follow for every operand.
-/

namespace Sys2Proof

/-! ### Selector tests (R140, R143) -/

/-- A mask of the low `n` bits tests the block's residue. -/
theorem hits_low_mask (blk : Block) (n mat : Nat) : hits blk (2 ^ n - 1) mat = true ↔ blk.toNat % 2 ^ n = mat := by
  rw [hits, Nat.and_two_pow_sub_one_eq_mod, beq_iff_eq]

/-- The residue of a block is its low field. -/
theorem extractLsb'_low_of_mod {blk : Block} {n v : Nat} (h : blk.toNat % 2 ^ n = v) :
    blk.extractLsb' 0 n = BitVec.ofNat n v := by
  apply BitVec.eq_of_toNat_eq
  rw [BitVec.extractLsb'_toNat, Nat.shiftRight_zero, BitVec.toNat_ofNat, ← h, Nat.mod_mod]

/-- The residue of a concatenation is its lowest part. -/
theorem toNat_append_mod {m n : Nat} (x : BitVec m) (y : BitVec n) : (x ++ y).toNat % 2 ^ n = y.toNat := by
  have hlow : (x ++ y).extractLsb' 0 n = y := BitVec.extractLsb'_append_eq_right
  rw [← congrArg BitVec.toNat hlow, BitVec.extractLsb'_toNat, Nat.shiftRight_zero]

/-! ### Layouts `COLOR` and `GRAD` (R133, R136) -/

/-- A part of a part of a block is a part of the block. -/
theorem extractLsb'_extractLsb' (blk : Block) {base n start len : Nat} (h : start + len ≤ n) :
    (blk.extractLsb' base n).extractLsb' start len = blk.extractLsb' (base + start) len := by
  ext i hi
  rw [BitVec.getElem_extractLsb', BitVec.getLsbD_extractLsb', BitVec.getElem_extractLsb',
    decide_eq_true (by omega), Bool.true_and, Nat.add_assoc]

/-- The fields of a colour, read from 64 bits that stand anywhere in the block. -/
theorem readColor_of_extract {blk : Block} {base : Nat} {c : ColorFields}
    (h : blk.extractLsb' base 64 = colorBits c) : readColor blk base = c := by
  have hpart : ∀ start len, start + len ≤ 64 →
      blk.extractLsb' (base + start) len = (colorBits c).extractLsb' start len := fun start len hle => by
    rw [← h, extractLsb'_extractLsb' blk hle]
  rw [readColor, ← Nat.add_zero base, hpart 0 16 (by decide), Nat.add_zero, hpart 16 16 (by decide), hpart 32 32 (by decide), colorBits]
  simp (disch := decide) only [BitVec.extractLsb'_append_eq_of_le, BitVec.extractLsb'_append_eq_right,
    BitVec.extractLsb'_eq_self, Nat.reduceSub]

/-- The fields of a gradient, read from 64 bits that stand anywhere in the block. -/
theorem readGrad_of_extract {blk : Block} {base : Nat} {g : GradFields}
    (h : blk.extractLsb' base 64 = gradBits g) : readGrad blk base = g := by
  have hpart : ∀ start len, start + len ≤ 64 →
      blk.extractLsb' (base + start) len = (gradBits g).extractLsb' start len := fun start len hle => by
    rw [← h, extractLsb'_extractLsb' blk hle]
  rw [readGrad, ← Nat.add_zero base, hpart 0 8 (by decide), Nat.add_zero, hpart 8 8 (by decide), hpart 16 48 (by decide), gradBits]
  simp (disch := decide) only [BitVec.extractLsb'_append_eq_of_le, BitVec.extractLsb'_append_eq_right,
    BitVec.extractLsb'_eq_self, Nat.reduceSub]

theorem colorBits_readColor (blk : Block) (base : Nat) : colorBits (readColor blk base) = blk.extractLsb' base 64 := by
  rw [colorBits, readColor]
  simp (disch := omega) only [BitVec.extractLsb'_append_extractLsb'_eq_extractLsb']

theorem gradBits_readGrad (blk : Block) (base : Nat) : gradBits (readGrad blk base) = blk.extractLsb' base 64 := by
  rw [gradBits, readGrad]
  simp (disch := omega) only [BitVec.extractLsb'_append_extractLsb'_eq_extractLsb']

/-- Two halves that a decoder reads back. -/
theorem extractLsb'_low_half (x y : BitVec 64) : (x ++ y : Block).extractLsb' 0 64 = y :=
  BitVec.extractLsb'_append_eq_right

theorem extractLsb'_high_half (x y : BitVec 64) : (x ++ y : Block).extractLsb' 64 64 = x :=
  BitVec.extractLsb'_append_eq_left

/-- A block is its two halves. -/
theorem halves_append (blk : Block) : (blk.extractLsb' 64 64 ++ blk.extractLsb' 0 64 : Block) = blk :=
  BitVec.extractLsb'_append_extractLsb'

@[simp] theorem readColor_low (c : ColorFields) (hi : BitVec 64) : readColor (hi ++ colorBits c) 0 = c :=
  readColor_of_extract (extractLsb'_low_half _ _)

@[simp] theorem readColor_high (c : ColorFields) (lo : BitVec 64) : readColor (colorBits c ++ lo) 64 = c :=
  readColor_of_extract (extractLsb'_high_half _ _)

@[simp] theorem readGrad_low (g : GradFields) (hi : BitVec 64) : readGrad (hi ++ gradBits g) 0 = g :=
  readGrad_of_extract (extractLsb'_low_half _ _)

@[simp] theorem readGrad_high (g : GradFields) (lo : BitVec 64) : readGrad (gradBits g ++ lo) 64 = g :=
  readGrad_of_extract (extractLsb'_high_half _ _)

/-! ### The first level (R130, R152) -/

/-- The operations that `FMT` selects. -/
def Instr.firstLevel : Instr → Bool
  | .decBC1 .. | .decBC2 .. | .decBC3 .. | .decBC4U .. | .decBC4S .. | .decBC5U .. | .decBC5S ..
  | .decBC6HU .. | .decBC6HS .. | .decBC7 .. | .unsupportedFmt10_11 .. | .unsupportedFmt12_15 .. => true
  | _ => false

theorem decode_unsupportedFmt10_11 (f : BitVec 1) (blk : Block) :
    decode ⟨5#3 ++ f, blk⟩ = .unsupportedFmt10_11 f blk := by
  obtain rfl | rfl : f = 0#1 ∨ f = 1#1 := by revert f; decide
  · rfl
  · rfl

/-- The last four format selects share one operation (R149). -/
theorem decode_of_twelve_le {w : Word} (h : 12 ≤ w.fmt.toNat) :
    decode w = .unsupportedFmt12_15 (w.fmt.extractLsb' 0 2) w.blk := by
  unfold decode
  split
  case h_13 => rfl
  all_goals omega

theorem decode_unsupportedFmt12_15 (f : BitVec 2) (blk : Block) :
    decode ⟨3#2 ++ f, blk⟩ = .unsupportedFmt12_15 f blk := by
  have hfmt : 12 ≤ (3#2 ++ f).toNat := by revert f; decide
  rw [decode_of_twelve_le hfmt]
  exact congrArg (Instr.unsupportedFmt12_15 · blk) BitVec.extractLsb'_append_eq_right

/-- The word that encodes an operation selected by `FMT` decodes to it: each operand stands in its own half, or is the
block, or is the rest of the format select. -/
theorem decode_of_encode {i : Instr} {w : Word} (hfirst : i.firstLevel = true) (h : encode i = some w) : decode w = i := by
  cases i with
  | decBC1 c hi => cases h; exact congrArg₂ Instr.decBC1 (readColor_low c hi) (extractLsb'_high_half _ _)
  | decBC2 a4 c => cases h; exact congrArg₂ Instr.decBC2 (extractLsb'_low_half _ _) (readColor_high c a4)
  | decBC3 al c => cases h; exact congrArg₂ Instr.decBC3 (readGrad_low al _) (readColor_high c _)
  | decBC4U g hi => cases h; exact congrArg₂ Instr.decBC4U (readGrad_low g hi) (extractLsb'_high_half _ _)
  | decBC4S g hi => cases h; exact congrArg₂ Instr.decBC4S (readGrad_low g hi) (extractLsb'_high_half _ _)
  | decBC5U g k => cases h; exact congrArg₂ Instr.decBC5U (readGrad_low g _) (readGrad_high k _)
  | decBC5S g k => cases h; exact congrArg₂ Instr.decBC5S (readGrad_low g _) (readGrad_high k _)
  | decBC6HU blk => cases h; rfl
  | decBC6HS blk => cases h; rfl
  | decBC7 blk => cases h; rfl
  | unsupportedFmt10_11 f blk => cases h; exact decode_unsupportedFmt10_11 f blk
  | unsupportedFmt12_15 f blk => cases h; exact decode_unsupportedFmt12_15 f blk
  | _ => cases hfirst

/-- Settles O2: one lemma for the twelve operations. -/
theorem firstLevelRoundTrip : Obligations.FirstLevelRoundTrip :=
  ⟨fun _ _ _ => decode_of_encode rfl, fun _ _ _ => decode_of_encode rfl, fun _ _ _ => decode_of_encode rfl,
    fun _ _ _ => decode_of_encode rfl, fun _ _ _ => decode_of_encode rfl, fun _ _ _ => decode_of_encode rfl,
    fun _ _ _ => decode_of_encode rfl, fun _ _ => decode_of_encode rfl, fun _ _ => decode_of_encode rfl,
    fun _ _ => decode_of_encode rfl, fun _ _ _ => decode_of_encode rfl, fun _ _ _ => decode_of_encode rfl⟩

end Sys2Proof
end

section
/-!
PROOF. The nine BC7 forms (R143, R145) between blocks and fields. The selector patterns are read as residues of the block:
the form of a block is decided by the first set bit among its low eight. Each layout is a concatenation that ends in its
pattern, so its fields read back (O4), and a block that has the pattern is the concatenation of its own fields.
-/

namespace Sys2Proof

/-! ### The fields of a block, by mode (R145) -/

/-- The fields of a mode 0 block. -/
def bc7Fields0 (blk : Block) : Bc7Fields 4 0 0 24 0 6 45 0 :=
  ⟨blk.extractLsb' 1 4, 0, 0, blk.extractLsb' 5 24, blk.extractLsb' 29 24, blk.extractLsb' 53 24, 0,
    blk.extractLsb' 77 6, blk.extractLsb' 83 45, 0⟩

/-- The fields of a mode 1 block. -/
def bc7Fields1 (blk : Block) : Bc7Fields 6 0 0 24 0 2 46 0 :=
  ⟨blk.extractLsb' 2 6, 0, 0, blk.extractLsb' 8 24, blk.extractLsb' 32 24, blk.extractLsb' 56 24, 0,
    blk.extractLsb' 80 2, blk.extractLsb' 82 46, 0⟩

/-- The fields of a mode 2 block. -/
def bc7Fields2 (blk : Block) : Bc7Fields 6 0 0 30 0 0 29 0 :=
  ⟨blk.extractLsb' 3 6, 0, 0, blk.extractLsb' 9 30, blk.extractLsb' 39 30, blk.extractLsb' 69 30, 0, 0,
    blk.extractLsb' 99 29, 0⟩

/-- The fields of a mode 3 block. -/
def bc7Fields3 (blk : Block) : Bc7Fields 6 0 0 28 0 4 30 0 :=
  ⟨blk.extractLsb' 4 6, 0, 0, blk.extractLsb' 10 28, blk.extractLsb' 38 28, blk.extractLsb' 66 28, 0,
    blk.extractLsb' 94 4, blk.extractLsb' 98 30, 0⟩

/-- The fields of a mode 4 block. -/
def bc7Fields4 (blk : Block) : Bc7Fields 0 2 1 10 12 0 31 47 :=
  ⟨0, blk.extractLsb' 5 2, blk.extractLsb' 7 1, blk.extractLsb' 8 10, blk.extractLsb' 18 10, blk.extractLsb' 28 10,
    blk.extractLsb' 38 12, 0, blk.extractLsb' 50 31, blk.extractLsb' 81 47⟩

/-- The fields of a mode 5 block. -/
def bc7Fields5 (blk : Block) : Bc7Fields 0 2 0 14 16 0 31 31 :=
  ⟨0, blk.extractLsb' 6 2, 0, blk.extractLsb' 8 14, blk.extractLsb' 22 14, blk.extractLsb' 36 14,
    blk.extractLsb' 50 16, 0, blk.extractLsb' 66 31, blk.extractLsb' 97 31⟩

/-- The fields of a mode 6 block. -/
def bc7Fields6 (blk : Block) : Bc7Fields 0 0 0 14 14 2 63 0 :=
  ⟨0, 0, 0, blk.extractLsb' 7 14, blk.extractLsb' 21 14, blk.extractLsb' 35 14, blk.extractLsb' 49 14,
    blk.extractLsb' 63 2, blk.extractLsb' 65 63, 0⟩

/-- The fields of a mode 7 block. -/
def bc7Fields7 (blk : Block) : Bc7Fields 6 0 0 20 20 4 30 0 :=
  ⟨blk.extractLsb' 8 6, 0, 0, blk.extractLsb' 14 20, blk.extractLsb' 34 20, blk.extractLsb' 54 20,
    blk.extractLsb' 74 20, blk.extractLsb' 94 4, blk.extractLsb' 98 30, 0⟩

/-! ### The second level as a decision on residues (R143) -/

/-- The form of a block by its low eight bits, one pattern after the other. -/
theorem decodeMode7_eq (blk : Block) :
    decodeMode7 blk =
      if blk.toNat % 2 ^ 1 = 1 then .bc7Mode0 (bc7Fields0 blk)
      else if blk.toNat % 2 ^ 2 = 2 then .bc7Mode1 (bc7Fields1 blk)
      else if blk.toNat % 2 ^ 3 = 4 then .bc7Mode2 (bc7Fields2 blk)
      else if blk.toNat % 2 ^ 4 = 8 then .bc7Mode3 (bc7Fields3 blk)
      else if blk.toNat % 2 ^ 5 = 16 then .bc7Mode4 (bc7Fields4 blk)
      else if blk.toNat % 2 ^ 6 = 32 then .bc7Mode5 (bc7Fields5 blk)
      else if blk.toNat % 2 ^ 7 = 64 then .bc7Mode6 (bc7Fields6 blk)
      else if blk.toNat % 2 ^ 8 = 128 then .bc7Mode7 (bc7Fields7 blk)
      else .bc7Mode8 (blk.extractLsb' 8 120) := by
  simp only [← hits_low_mask]
  rfl

section
variable {blk : Block}

theorem decodeMode7_mode0 (h : blk.toNat % 2 ^ 1 = 1) : decodeMode7 blk = .bc7Mode0 (bc7Fields0 blk) := by
  rw [decodeMode7_eq, if_pos h]

theorem decodeMode7_mode1 (h : blk.toNat % 2 ^ 2 = 2) : decodeMode7 blk = .bc7Mode1 (bc7Fields1 blk) := by
  rw [decodeMode7_eq, if_neg (by omega), if_pos h]

theorem decodeMode7_mode2 (h : blk.toNat % 2 ^ 3 = 4) : decodeMode7 blk = .bc7Mode2 (bc7Fields2 blk) := by
  rw [decodeMode7_eq, if_neg (by omega), if_neg (by omega), if_pos h]

theorem decodeMode7_mode3 (h : blk.toNat % 2 ^ 4 = 8) : decodeMode7 blk = .bc7Mode3 (bc7Fields3 blk) := by
  rw [decodeMode7_eq, if_neg (by omega), if_neg (by omega), if_neg (by omega), if_pos h]

theorem decodeMode7_mode4 (h : blk.toNat % 2 ^ 5 = 16) : decodeMode7 blk = .bc7Mode4 (bc7Fields4 blk) := by
  rw [decodeMode7_eq, if_neg (by omega), if_neg (by omega), if_neg (by omega), if_neg (by omega), if_pos h]

theorem decodeMode7_mode5 (h : blk.toNat % 2 ^ 6 = 32) : decodeMode7 blk = .bc7Mode5 (bc7Fields5 blk) := by
  rw [decodeMode7_eq, if_neg (by omega), if_neg (by omega), if_neg (by omega), if_neg (by omega), if_neg (by omega),
    if_pos h]

theorem decodeMode7_mode6 (h : blk.toNat % 2 ^ 7 = 64) : decodeMode7 blk = .bc7Mode6 (bc7Fields6 blk) := by
  rw [decodeMode7_eq, if_neg (by omega), if_neg (by omega), if_neg (by omega), if_neg (by omega), if_neg (by omega),
    if_neg (by omega), if_pos h]

theorem decodeMode7_mode7 (h : blk.toNat % 2 ^ 8 = 128) : decodeMode7 blk = .bc7Mode7 (bc7Fields7 blk) := by
  rw [decodeMode7_eq, if_neg (by omega), if_neg (by omega), if_neg (by omega), if_neg (by omega), if_neg (by omega),
    if_neg (by omega), if_neg (by omega), if_pos h]

theorem decodeMode7_mode8 (h : blk.toNat % 2 ^ 8 = 0) : decodeMode7 blk = .bc7Mode8 (blk.extractLsb' 8 120) := by
  rw [decodeMode7_eq, if_neg (by omega), if_neg (by omega), if_neg (by omega), if_neg (by omega), if_neg (by omega),
    if_neg (by omega), if_neg (by omega), if_neg (by omega)]

/-- The next bit above zero bits is set or clear. -/
theorem mod_two_pow_succ_cases {x k : Nat} (h : x % 2 ^ k = 0) : x % 2 ^ (k + 1) = 2 ^ k ∨ x % 2 ^ (k + 1) = 0 := by
  rw [Nat.mod_pow_succ, h]
  rcases Nat.mod_two_eq_zero_or_one (x / 2 ^ k) with hbit | hbit
  · exact .inr (by rw [hbit, mul_zero, zero_add])
  · exact .inl (by rw [hbit, zero_add, mul_one])

/-- A block has the pattern of the first set bit among its low eight, or none of them is set. -/
theorem bc7_pattern_cases (blk : Block) :
    (∃ k < 8, blk.toNat % 2 ^ (k + 1) = 2 ^ k) ∨ blk.toNat % 2 ^ 8 = 0 := by
  suffices h : ∀ n, (∃ k < n, blk.toNat % 2 ^ (k + 1) = 2 ^ k) ∨ blk.toNat % 2 ^ n = 0 from h 8
  intro n
  induction n with
  | zero => exact .inr (Nat.mod_one _)
  | succ n ih =>
    rcases ih with ⟨k, hk, h⟩ | h
    · exact .inl ⟨k, by omega, h⟩
    · exact (mod_two_pow_succ_cases h).imp_left fun h => ⟨n, by omega, h⟩

/-! ### A block that has the pattern is made of its fields -/

theorem bc7Block0_fields (h : blk.toNat % 2 ^ 1 = 1) : bc7Block0 (bc7Fields0 blk) = blk := by
  rw [bc7Block0, ← extractLsb'_low_of_mod h]
  simp (disch := decide) only [bc7Fields0, BitVec.extractLsb'_append_extractLsb'_eq_extractLsb']
  exact BitVec.extractLsb'_eq_self

theorem bc7Block1_fields (h : blk.toNat % 2 ^ 2 = 2) : bc7Block1 (bc7Fields1 blk) = blk := by
  rw [bc7Block1, ← extractLsb'_low_of_mod h]
  simp (disch := decide) only [bc7Fields1, BitVec.extractLsb'_append_extractLsb'_eq_extractLsb']
  exact BitVec.extractLsb'_eq_self

theorem bc7Block2_fields (h : blk.toNat % 2 ^ 3 = 4) : bc7Block2 (bc7Fields2 blk) = blk := by
  rw [bc7Block2, ← extractLsb'_low_of_mod h]
  simp (disch := decide) only [bc7Fields2, BitVec.extractLsb'_append_extractLsb'_eq_extractLsb']
  exact BitVec.extractLsb'_eq_self

theorem bc7Block3_fields (h : blk.toNat % 2 ^ 4 = 8) : bc7Block3 (bc7Fields3 blk) = blk := by
  rw [bc7Block3, ← extractLsb'_low_of_mod h]
  simp (disch := decide) only [bc7Fields3, BitVec.extractLsb'_append_extractLsb'_eq_extractLsb']
  exact BitVec.extractLsb'_eq_self

theorem bc7Block4_fields (h : blk.toNat % 2 ^ 5 = 16) : bc7Block4 (bc7Fields4 blk) = blk := by
  rw [bc7Block4, ← extractLsb'_low_of_mod h]
  simp (disch := decide) only [bc7Fields4, BitVec.extractLsb'_append_extractLsb'_eq_extractLsb']
  exact BitVec.extractLsb'_eq_self

theorem bc7Block5_fields (h : blk.toNat % 2 ^ 6 = 32) : bc7Block5 (bc7Fields5 blk) = blk := by
  rw [bc7Block5, ← extractLsb'_low_of_mod h]
  simp (disch := decide) only [bc7Fields5, BitVec.extractLsb'_append_extractLsb'_eq_extractLsb']
  exact BitVec.extractLsb'_eq_self

theorem bc7Block6_fields (h : blk.toNat % 2 ^ 7 = 64) : bc7Block6 (bc7Fields6 blk) = blk := by
  rw [bc7Block6, ← extractLsb'_low_of_mod h]
  simp (disch := decide) only [bc7Fields6, BitVec.extractLsb'_append_extractLsb'_eq_extractLsb']
  exact BitVec.extractLsb'_eq_self

theorem bc7Block7_fields (h : blk.toNat % 2 ^ 8 = 128) : bc7Block7 (bc7Fields7 blk) = blk := by
  rw [bc7Block7, ← extractLsb'_low_of_mod h]
  simp (disch := decide) only [bc7Fields7, BitVec.extractLsb'_append_extractLsb'_eq_extractLsb']
  exact BitVec.extractLsb'_eq_self

theorem bc7Block8_rest (h : blk.toNat % 2 ^ 8 = 0) : bc7Block8 (blk.extractLsb' 8 120) = blk := by
  rw [bc7Block8, ← extractLsb'_low_of_mod h]
  exact BitVec.extractLsb'_append_extractLsb'

end

/-! ### The fields of an encoded block -/

theorem bc7Fields0_block (f : Bc7Fields 4 0 0 24 0 6 45 0) : bc7Fields0 (bc7Block0 f) = f := by
  rw [bc7Block0, bc7Fields0]
  simp (disch := decide) only [BitVec.extractLsb'_append_eq_of_le, BitVec.extractLsb'_append_eq_right,
    BitVec.extractLsb'_eq_self, Nat.reduceSub]
  cases f
  simp [BitVec.of_length_zero]

theorem bc7Fields1_block (f : Bc7Fields 6 0 0 24 0 2 46 0) : bc7Fields1 (bc7Block1 f) = f := by
  rw [bc7Block1, bc7Fields1]
  simp (disch := decide) only [BitVec.extractLsb'_append_eq_of_le, BitVec.extractLsb'_append_eq_right,
    BitVec.extractLsb'_eq_self, Nat.reduceSub]
  cases f
  simp [BitVec.of_length_zero]

theorem bc7Fields2_block (f : Bc7Fields 6 0 0 30 0 0 29 0) : bc7Fields2 (bc7Block2 f) = f := by
  rw [bc7Block2, bc7Fields2]
  simp (disch := decide) only [BitVec.extractLsb'_append_eq_of_le, BitVec.extractLsb'_append_eq_right,
    BitVec.extractLsb'_eq_self, Nat.reduceSub]
  cases f
  simp [BitVec.of_length_zero]

theorem bc7Fields3_block (f : Bc7Fields 6 0 0 28 0 4 30 0) : bc7Fields3 (bc7Block3 f) = f := by
  rw [bc7Block3, bc7Fields3]
  simp (disch := decide) only [BitVec.extractLsb'_append_eq_of_le, BitVec.extractLsb'_append_eq_right,
    BitVec.extractLsb'_eq_self, Nat.reduceSub]
  cases f
  simp [BitVec.of_length_zero]

theorem bc7Fields4_block (f : Bc7Fields 0 2 1 10 12 0 31 47) : bc7Fields4 (bc7Block4 f) = f := by
  rw [bc7Block4, bc7Fields4]
  simp (disch := decide) only [BitVec.extractLsb'_append_eq_of_le, BitVec.extractLsb'_append_eq_right,
    BitVec.extractLsb'_eq_self, Nat.reduceSub]
  cases f
  simp [BitVec.of_length_zero]

theorem bc7Fields5_block (f : Bc7Fields 0 2 0 14 16 0 31 31) : bc7Fields5 (bc7Block5 f) = f := by
  rw [bc7Block5, bc7Fields5]
  simp (disch := decide) only [BitVec.extractLsb'_append_eq_of_le, BitVec.extractLsb'_append_eq_right,
    BitVec.extractLsb'_eq_self, Nat.reduceSub]
  cases f
  simp [BitVec.of_length_zero]

theorem bc7Fields6_block (f : Bc7Fields 0 0 0 14 14 2 63 0) : bc7Fields6 (bc7Block6 f) = f := by
  rw [bc7Block6, bc7Fields6]
  simp (disch := decide) only [BitVec.extractLsb'_append_eq_of_le, BitVec.extractLsb'_append_eq_right,
    BitVec.extractLsb'_eq_self, Nat.reduceSub]
  cases f
  simp [BitVec.of_length_zero]

theorem bc7Fields7_block (f : Bc7Fields 6 0 0 20 20 4 30 0) : bc7Fields7 (bc7Block7 f) = f := by
  rw [bc7Block7, bc7Fields7]
  simp (disch := decide) only [BitVec.extractLsb'_append_eq_of_le, BitVec.extractLsb'_append_eq_right,
    BitVec.extractLsb'_eq_self, Nat.reduceSub]
  cases f
  simp [BitVec.of_length_zero]

/-! ### Settled -/

/-- The pattern of each mode stands lowest in its block. -/
theorem decodeForm_bc7 (blk : Block) : decodeForm ⟨9#4, blk⟩ = decodeMode7 blk := rfl

theorem decodeForm_bc7Block0 (f : Bc7Fields 4 0 0 24 0 6 45 0) : decodeForm ⟨9#4, bc7Block0 f⟩ = .bc7Mode0 f := by
  rw [decodeForm_bc7, decodeMode7_mode0 (toNat_append_mod _ _), bc7Fields0_block]

theorem decodeForm_bc7Block1 (f : Bc7Fields 6 0 0 24 0 2 46 0) : decodeForm ⟨9#4, bc7Block1 f⟩ = .bc7Mode1 f := by
  rw [decodeForm_bc7, decodeMode7_mode1 (toNat_append_mod _ _), bc7Fields1_block]

theorem decodeForm_bc7Block2 (f : Bc7Fields 6 0 0 30 0 0 29 0) : decodeForm ⟨9#4, bc7Block2 f⟩ = .bc7Mode2 f := by
  rw [decodeForm_bc7, decodeMode7_mode2 (toNat_append_mod _ _), bc7Fields2_block]

theorem decodeForm_bc7Block3 (f : Bc7Fields 6 0 0 28 0 4 30 0) : decodeForm ⟨9#4, bc7Block3 f⟩ = .bc7Mode3 f := by
  rw [decodeForm_bc7, decodeMode7_mode3 (toNat_append_mod _ _), bc7Fields3_block]

theorem decodeForm_bc7Block4 (f : Bc7Fields 0 2 1 10 12 0 31 47) : decodeForm ⟨9#4, bc7Block4 f⟩ = .bc7Mode4 f := by
  rw [decodeForm_bc7, decodeMode7_mode4 (toNat_append_mod _ _), bc7Fields4_block]

theorem decodeForm_bc7Block5 (f : Bc7Fields 0 2 0 14 16 0 31 31) : decodeForm ⟨9#4, bc7Block5 f⟩ = .bc7Mode5 f := by
  rw [decodeForm_bc7, decodeMode7_mode5 (toNat_append_mod _ _), bc7Fields5_block]

theorem decodeForm_bc7Block6 (f : Bc7Fields 0 0 0 14 14 2 63 0) : decodeForm ⟨9#4, bc7Block6 f⟩ = .bc7Mode6 f := by
  rw [decodeForm_bc7, decodeMode7_mode6 (toNat_append_mod _ _), bc7Fields6_block]

theorem decodeForm_bc7Block7 (f : Bc7Fields 6 0 0 20 20 4 30 0) : decodeForm ⟨9#4, bc7Block7 f⟩ = .bc7Mode7 f := by
  rw [decodeForm_bc7, decodeMode7_mode7 (toNat_append_mod _ _), bc7Fields7_block]

theorem decodeForm_bc7Block8 (rest : BitVec 120) : decodeForm ⟨9#4, bc7Block8 rest⟩ = .bc7Mode8 rest := by
  rw [decodeForm_bc7, decodeMode7_mode8 (toNat_append_mod _ _)]
  exact congrArg _ BitVec.extractLsb'_append_eq_left

/-- Settles O4: each mode by its pattern and its fields. -/
theorem bc7FormsRoundTrip : Obligations.Bc7FormsRoundTrip := by
  refine ⟨?mode0, ?mode1, ?mode2, ?mode3, ?mode4, ?mode5, ?mode6, ?mode7, ?mode8⟩
  case mode0 => rintro f _ ⟨⟩; exact decodeForm_bc7Block0 f
  case mode1 => rintro f _ ⟨⟩; exact decodeForm_bc7Block1 f
  case mode2 => rintro f _ ⟨⟩; exact decodeForm_bc7Block2 f
  case mode3 => rintro f _ ⟨⟩; exact decodeForm_bc7Block3 f
  case mode4 => rintro f _ ⟨⟩; exact decodeForm_bc7Block4 f
  case mode5 => rintro f _ ⟨⟩; exact decodeForm_bc7Block5 f
  case mode6 => rintro f _ ⟨⟩; exact decodeForm_bc7Block6 f
  case mode7 => rintro f _ ⟨⟩; exact decodeForm_bc7Block7 f
  case mode8 => rintro f _ ⟨⟩; exact decodeForm_bc7Block8 f

end Sys2Proof
end

section
/-!
PROOF. The BC6H forms (R138 to R142, R181 to R194) between blocks and fields. The positions of a layout and the bits of its
selector are the header's bits, each once. So a block is the encoding of some fields exactly when it has the selector code
and its gathered accumulators and index bits are those fields. That one equivalence, met by each of the fourteen layouts,
gives the round trip of the forms (O3), and with the other layouts the one of every word (O5).
-/

namespace Sys2Proof

/-! ### Bits placed in a block -/

/-- The block has each of the bits at its position. -/
def HasBits (b : Block) (L : List (Nat × Bool)) : Prop := ∀ x ∈ L, b.getLsbD x.1 = x.2

theorem hasBits_append {b : Block} {L M : List (Nat × Bool)} : HasBits b (L ++ M) ↔ HasBits b L ∧ HasBits b M :=
  List.forall_mem_append

/-- A number that is gathered, bit by bit. -/
theorem gather_testBit (b : Block) (ps : List Nat) {j p : Nat} (h : ps[j]? = some p) :
    (gather b ps).testBit j = b.getLsbD p := by
  induction ps generalizing j with
  | nil => simp at h
  | cons q ps ih =>
    cases j with
    | zero =>
      simp only [List.getElem?_cons_zero, Option.some.injEq] at h
      subst h
      cases hq : b.getLsbD q <;> simp [gather, hq, Nat.testBit_zero, Nat.add_mod]
    | succ j =>
      rw [List.getElem?_cons_succ] at h
      rw [← ih h, gather, Nat.testBit_succ]
      congr 1
      cases b.getLsbD q
      · simp
      · simp only [Bool.toNat_true]; omega

theorem gather_lt (b : Block) (ps : List Nat) : gather b ps < 2 ^ ps.length := by
  induction ps with
  | nil => exact Nat.one_pos
  | cons p ps ih =>
    rw [gather, List.length_cons, pow_succ]
    cases b.getLsbD p <;> simp <;> omega

theorem mem_placedBits_iff {v i : Nat} {ps : List Nat} {x : Nat × Bool} :
    x ∈ placedBits v i ps ↔ ∃ j p, ps[j]? = some p ∧ x = (p, v.testBit (i + j)) := by
  constructor
  · intro h
    induction ps generalizing i with
    | nil => cases h
    | cons p ps ih =>
      rcases List.mem_cons.mp h with rfl | h
      · exact ⟨0, p, rfl, rfl⟩
      · obtain ⟨j, q, hq, rfl⟩ := ih h
        exact ⟨j + 1, q, hq, by rw [Nat.add_assoc, Nat.add_comm 1 j]⟩
  · rintro ⟨j, p, h, rfl⟩
    exact mem_placedBits v h

/-- A field's bits stand at its positions exactly when the gathered number is the field. -/
theorem hasBits_placedBits {b : Block} {ps : List Nat} {n : Nat} (hlen : ps.length = n) (v : BitVec n) :
    HasBits b (placedBits v.toNat 0 ps) ↔ BitVec.ofNat n (gather b ps) = v := by
  subst hlen
  constructor
  · intro h
    rw [gather_eq v.isLt fun j q hq => h (q, v.toNat.testBit j) (by simpa using mem_placedBits v.toNat (i := 0) hq)]
    exact BitVec.ofNat_toNat _ _ ▸ BitVec.setWidth_eq v
  · rintro rfl x hx
    obtain ⟨j, p, hp, rfl⟩ := mem_placedBits_iff.mp hx
    rw [BitVec.toNat_ofNat, Nat.mod_eq_of_lt (gather_lt b ps), Nat.zero_add, gather_testBit b ps hp]

/-- Bits that a block has are found where they are placed. -/
theorem bitFrom_of_hasBits {b : Block} {L : List (Nat × Bool)} (h : HasBits b L) (q : Nat) :
    bitFrom L q = (decide (q ∈ L.map (·.1)) && b.getLsbD q) := by
  rw [bitFrom, Bool.eq_iff_iff, List.any_eq_true, Bool.and_eq_true, decide_eq_true_eq, List.mem_map]
  constructor
  · rintro ⟨x, hx, hq⟩
    simp only [Bool.and_eq_true, beq_iff_eq] at hq
    obtain ⟨rfl, hbit⟩ := hq
    exact ⟨⟨x, hx, rfl⟩, (h x hx).trans hbit⟩
  · rintro ⟨⟨x, hx, rfl⟩, hbit⟩
    exact ⟨x, hx, by simp [← h x hx, hbit]⟩

/-! ### A header: selector code, placed bits, index bits -/

/-- The placed positions are the bits from the end of the selector to the end of the header, each once. -/
structure HeaderOk (code sel hb : Nat) (ps : List Nat) : Prop where
  code_lt : code < 2 ^ sel
  sel_le : sel ≤ hb
  perm : ps.Perm (List.range' sel (hb - sel))

theorem HeaderOk.mem_iff {code sel hb : Nat} {ps : List Nat} (h : HeaderOk code sel hb ps) {q : Nat} :
    q ∈ ps ↔ sel ≤ q ∧ q < hb := by
  rw [h.perm.mem_iff, List.mem_range'_1]
  have := h.sel_le
  omega

/-- No bit of the code stands above the selector. -/
theorem HeaderOk.code_testBit {code sel hb : Nat} {ps : List Nat} (h : HeaderOk code sel hb ps) {q : Nat} (hq : sel ≤ q) :
    code.testBit q = false :=
  Nat.testBit_lt_two_pow (lt_of_lt_of_le h.code_lt (Nat.pow_le_pow_right (by decide) hq))

/-- A block is put together from a code, placed bits and index bits exactly when it has them. -/
theorem HeaderOk.block_iff {code sel hb : Nat} {L : List (Nat × Bool)} (h : HeaderOk code sel hb (L.map (·.1)))
    {n : Nat} (hn : hb + n = 128) (b : Block) (idx : BitVec n) :
    (∀ q < 128, b.getLsbD q =
        (code.testBit q || bitFrom L q || (decide (hb ≤ q) && idx.toNat.testBit (q - hb)))) ↔
      b.toNat % 2 ^ sel = code ∧ HasBits b L ∧ b.extractLsb' hb n = idx := by
  have hsel := h.sel_le
  constructor
  · intro hb
    refine ⟨Nat.eq_of_testBit_eq fun q => ?_, fun x hx => ?_, ?_⟩
    · rw [Nat.testBit_mod_two_pow]
      by_cases hq : q < sel
      · have hfrom : bitFrom L q = false := bitFrom_none fun hm => by have := h.mem_iff.mp hm; omega
        have := hb q (by omega)
        rw [BitVec.getLsbD, hfrom, decide_eq_false (by omega)] at this
        simpa [hq] using this
      · rw [h.code_testBit (by omega), decide_eq_false hq, Bool.false_and]
    · obtain ⟨hlow, hhigh⟩ := h.mem_iff.mp (List.mem_map_of_mem hx)
      rw [hb x.1 (by omega), h.code_testBit hlow, decide_eq_false (by omega),
        bitFrom_mem (h.perm.nodup_iff.mpr List.nodup_range') hx]
      simp
    · ext i hi
      rw [BitVec.getElem_extractLsb', hb _ (by omega), h.code_testBit (by omega), decide_eq_true (by omega),
        bitFrom_none (fun hm => by have := h.mem_iff.mp hm; omega), Nat.add_sub_cancel_left]
      simp [BitVec.getElem_eq_testBit_toNat]
  · rintro ⟨hcode, hbits, hidx⟩ q hq
    rw [bitFrom_of_hasBits hbits]
    simp only [h.mem_iff]
    rcases Nat.lt_or_ge q sel with hlow | hlow
    · rw [← hcode, Nat.testBit_mod_two_pow, decide_eq_true hlow, decide_eq_false (by omega), decide_eq_false (by omega)]
      simp [BitVec.getLsbD]
    rcases Nat.lt_or_ge q hb with hhigh | hhigh
    · rw [h.code_testBit hlow, decide_eq_true ⟨hlow, hhigh⟩, decide_eq_false (by omega)]
      simp
    · rw [h.code_testBit hlow, decide_eq_false (by omega), decide_eq_true hhigh, ← hidx, ← BitVec.getLsbD,
        BitVec.getLsbD_extractLsb', decide_eq_true (by omega), Nat.add_sub_cancel' hhigh]
      simp

/-! ### The layouts (R181 to R194) -/

/-- The position lists of a two-region layout, in the order of the fields. -/
def TwoLayout.all (l : TwoLayout) : List (List Nat) :=
  [l.rW, l.gW, l.bW, l.rX, l.gX, l.bX, l.rY, l.gY, l.bY, l.rZ, l.gZ, l.bZ, l.d]

/-- The position lists of a one-region layout, in the order of the fields. -/
def OneLayout.all (l : OneLayout) : List (List Nat) := [l.rW, l.gW, l.bW, l.rX, l.gX, l.bX]

/-- A two-region layout uses each header bit once, and its lists have the widths of the fields. -/
structure TwoLayoutOk (w r g b code sel : Nat) (l : TwoLayout) : Prop where
  header : HeaderOk code sel 82 l.all.flatten
  widths : l.all.map List.length = [w, w, w, r, g, b, r, g, b, r, g, b, 5]

/-- A one-region layout uses each header bit once, and its lists have the widths of the fields. -/
structure OneLayoutOk (w x code sel : Nat) (l : OneLayout) : Prop where
  header : HeaderOk code sel 65 l.all.flatten
  widths : l.all.map List.length = [w, w, w, x, x, x]

theorem placedTwo_positions {w r g b : Nat} (l : TwoLayout) (f : Bc6Two w r g b) :
    (placedTwo l f).map (·.1) = l.all.flatten := by
  simp [placedTwo, placedBits_positions, TwoLayout.all]

theorem placedOne_positions {w x : Nat} (l : OneLayout) (f : Bc6One w x) :
    (placedOne l f).map (·.1) = l.all.flatten := by
  simp [placedOne, placedBits_positions, OneLayout.all]

/-- A block is the encoding of fields exactly when it has the code and its fields are those. -/
theorem TwoLayoutOk.encode_iff {w r g b code sel : Nat} {l : TwoLayout} (h : TwoLayoutOk w r g b code sel l)
    (f : Bc6Two w r g b) (blk : Block) :
    encodeTwo code l f = blk ↔ blk.toNat % 2 ^ sel = code ∧ decodeTwo w r g b l blk = f := by
  obtain ⟨hheader, hwidths⟩ := h
  have hbits : encodeTwo code l f = blk ↔ ∀ q < 128, blk.getLsbD q =
      (code.testBit q || bitFrom (placedTwo l f) q || (decide (82 ≤ q) && f.idx.toNat.testBit (q - 82))) := by
    refine ⟨fun he q hq => he ▸ encodeTwo_getLsbD code l f hq, fun hb => BitVec.eq_of_getLsbD_eq fun q hq => ?_⟩
    rw [encodeTwo_getLsbD code l f hq, hb q hq]
  rw [← placedTwo_positions l f] at hheader
  rw [hbits, hheader.block_iff (by decide)]
  simp only [TwoLayout.all, List.map_cons, List.map_nil, List.cons.injEq, and_true] at hwidths
  obtain ⟨h1, h2, h3, h4, h5, h6, h7, h8, h9, h10, h11, h12, h13⟩ := hwidths
  obtain ⟨rW, gW, bW, rX, gX, bX, rY, gY, bY, rZ, gZ, bZ, d, idx⟩ := f
  simp only [placedTwo, hasBits_append, hasBits_placedBits h1, hasBits_placedBits h2, hasBits_placedBits h3,
    hasBits_placedBits h4, hasBits_placedBits h5, hasBits_placedBits h6, hasBits_placedBits h7, hasBits_placedBits h8,
    hasBits_placedBits h9, hasBits_placedBits h10, hasBits_placedBits h11, hasBits_placedBits h12,
    hasBits_placedBits h13, decodeTwo, Bc6Two.mk.injEq, and_assoc]

/-- A block is the encoding of fields exactly when it has the code and its fields are those. -/
theorem OneLayoutOk.encode_iff {w x code sel : Nat} {l : OneLayout} (h : OneLayoutOk w x code sel l)
    (f : Bc6One w x) (blk : Block) :
    encodeOne code l f = blk ↔ blk.toNat % 2 ^ sel = code ∧ decodeOne w x l blk = f := by
  obtain ⟨hheader, hwidths⟩ := h
  have hbits : encodeOne code l f = blk ↔ ∀ q < 128, blk.getLsbD q =
      (code.testBit q || bitFrom (placedOne l f) q || (decide (65 ≤ q) && f.idx.toNat.testBit (q - 65))) := by
    refine ⟨fun he q hq => he ▸ encodeOne_getLsbD code l f hq, fun hb => BitVec.eq_of_getLsbD_eq fun q hq => ?_⟩
    rw [encodeOne_getLsbD code l f hq, hb q hq]
  rw [← placedOne_positions l f] at hheader
  rw [hbits, hheader.block_iff (by decide)]
  simp only [OneLayout.all, List.map_cons, List.map_nil, List.cons.injEq, and_true] at hwidths
  obtain ⟨h1, h2, h3, h4, h5, h6⟩ := hwidths
  obtain ⟨rW, gW, bW, rX, gX, bX, idx⟩ := f
  simp only [placedOne, hasBits_append, hasBits_placedBits h1, hasBits_placedBits h2, hasBits_placedBits h3,
    hasBits_placedBits h4, hasBits_placedBits h5, hasBits_placedBits h6, decodeOne, Bc6One.mk.injEq, and_assoc]

/-- The code of an encoded block. -/
theorem TwoLayoutOk.code {w r g b code sel : Nat} {l : TwoLayout} (h : TwoLayoutOk w r g b code sel l)
    (f : Bc6Two w r g b) : (encodeTwo code l f).toNat % 2 ^ sel = code := ((h.encode_iff f _).mp rfl).1

/-- The fields of an encoded block. -/
theorem TwoLayoutOk.fields {w r g b code sel : Nat} {l : TwoLayout} (h : TwoLayoutOk w r g b code sel l)
    (f : Bc6Two w r g b) : decodeTwo w r g b l (encodeTwo code l f) = f := ((h.encode_iff f _).mp rfl).2

/-- A block that has the code is made of its fields. -/
theorem TwoLayoutOk.reencode {w r g b code sel : Nat} {l : TwoLayout} (h : TwoLayoutOk w r g b code sel l) {blk : Block}
    (hcode : blk.toNat % 2 ^ sel = code) : encodeTwo code l (decodeTwo w r g b l blk) = blk :=
  (h.encode_iff _ _).mpr ⟨hcode, rfl⟩

/-- The code of an encoded block. -/
theorem OneLayoutOk.code {w x code sel : Nat} {l : OneLayout} (h : OneLayoutOk w x code sel l) (f : Bc6One w x) :
    (encodeOne code l f).toNat % 2 ^ sel = code := ((h.encode_iff f _).mp rfl).1

/-- The fields of an encoded block. -/
theorem OneLayoutOk.fields {w x code sel : Nat} {l : OneLayout} (h : OneLayoutOk w x code sel l) (f : Bc6One w x) :
    decodeOne w x l (encodeOne code l f) = f := ((h.encode_iff f _).mp rfl).2

/-- A block that has the code is made of its fields. -/
theorem OneLayoutOk.reencode {w x code sel : Nat} {l : OneLayout} (h : OneLayoutOk w x code sel l) {blk : Block}
    (hcode : blk.toNat % 2 ^ sel = code) : encodeOne code l (decodeOne w x l blk) = blk :=
  (h.encode_iff _ _).mpr ⟨hcode, rfl⟩

theorem layout6Mode0_ok : TwoLayoutOk 10 5 5 5 0x00 2 layout6Mode0 :=
  ⟨⟨by decide, by decide, by decide⟩, rfl⟩

theorem layout6Mode1_ok : TwoLayoutOk 7 6 6 6 0x01 2 layout6Mode1 :=
  ⟨⟨by decide, by decide, by decide⟩, rfl⟩

theorem layout6Mode2_ok : TwoLayoutOk 11 5 4 4 0x02 5 layout6Mode2 :=
  ⟨⟨by decide, by decide, by decide⟩, rfl⟩

theorem layout6Mode3_ok : TwoLayoutOk 11 4 5 4 0x06 5 layout6Mode3 :=
  ⟨⟨by decide, by decide, by decide⟩, rfl⟩

theorem layout6Mode4_ok : TwoLayoutOk 11 4 4 5 0x0A 5 layout6Mode4 :=
  ⟨⟨by decide, by decide, by decide⟩, rfl⟩

theorem layout6Mode5_ok : TwoLayoutOk 9 5 5 5 0x0E 5 layout6Mode5 :=
  ⟨⟨by decide, by decide, by decide⟩, rfl⟩

theorem layout6Mode6_ok : TwoLayoutOk 8 6 5 5 0x12 5 layout6Mode6 :=
  ⟨⟨by decide, by decide, by decide⟩, rfl⟩

theorem layout6Mode7_ok : TwoLayoutOk 8 5 6 5 0x16 5 layout6Mode7 :=
  ⟨⟨by decide, by decide, by decide⟩, rfl⟩

theorem layout6Mode8_ok : TwoLayoutOk 8 5 5 6 0x1A 5 layout6Mode8 :=
  ⟨⟨by decide, by decide, by decide⟩, rfl⟩

theorem layout6Mode9_ok : TwoLayoutOk 6 6 6 6 0x1E 5 layout6Mode9 :=
  ⟨⟨by decide, by decide, by decide⟩, rfl⟩

theorem layout6Mode10_ok : OneLayoutOk 10 10 0x03 5 layout6Mode10 :=
  ⟨⟨by decide, by decide, by decide⟩, rfl⟩

theorem layout6Mode11_ok : OneLayoutOk 11 9 0x07 5 layout6Mode11 :=
  ⟨⟨by decide, by decide, by decide⟩, rfl⟩

theorem layout6Mode12_ok : OneLayoutOk 12 8 0x0B 5 layout6Mode12 :=
  ⟨⟨by decide, by decide, by decide⟩, rfl⟩

theorem layout6Mode13_ok : OneLayoutOk 16 4 0x0F 5 layout6Mode13 :=
  ⟨⟨by decide, by decide, by decide⟩, rfl⟩

/-! ### The second level as a decision on residues (R140) -/

/-- The form of a block by its low five bits, one pattern after the other. -/
theorem decodeMode6_eq (p : Profile) (blk : Block) :
    decodeMode6 p blk =
      if blk.toNat % 2 ^ 2 = 0x00 then .bc6hMode0 p (decodeTwo _ _ _ _ layout6Mode0 blk)
      else if blk.toNat % 2 ^ 2 = 0x01 then .bc6hMode1 p (decodeTwo _ _ _ _ layout6Mode1 blk)
      else if blk.toNat % 2 ^ 5 = 0x02 then .bc6hMode2 p (decodeTwo _ _ _ _ layout6Mode2 blk)
      else if blk.toNat % 2 ^ 5 = 0x06 then .bc6hMode3 p (decodeTwo _ _ _ _ layout6Mode3 blk)
      else if blk.toNat % 2 ^ 5 = 0x0A then .bc6hMode4 p (decodeTwo _ _ _ _ layout6Mode4 blk)
      else if blk.toNat % 2 ^ 5 = 0x0E then .bc6hMode5 p (decodeTwo _ _ _ _ layout6Mode5 blk)
      else if blk.toNat % 2 ^ 5 = 0x12 then .bc6hMode6 p (decodeTwo _ _ _ _ layout6Mode6 blk)
      else if blk.toNat % 2 ^ 5 = 0x16 then .bc6hMode7 p (decodeTwo _ _ _ _ layout6Mode7 blk)
      else if blk.toNat % 2 ^ 5 = 0x1A then .bc6hMode8 p (decodeTwo _ _ _ _ layout6Mode8 blk)
      else if blk.toNat % 2 ^ 5 = 0x1E then .bc6hMode9 p (decodeTwo _ _ _ _ layout6Mode9 blk)
      else if blk.toNat % 2 ^ 5 = 0x03 then .bc6hMode10 p (decodeOne _ _ layout6Mode10 blk)
      else if blk.toNat % 2 ^ 5 = 0x07 then .bc6hMode11 p (decodeOne _ _ layout6Mode11 blk)
      else if blk.toNat % 2 ^ 5 = 0x0B then .bc6hMode12 p (decodeOne _ _ layout6Mode12 blk)
      else if blk.toNat % 2 ^ 5 = 0x0F then .bc6hMode13 p (decodeOne _ _ layout6Mode13 blk)
      else .bc6hReserved p (blk.extractLsb' 2 2) (blk.extractLsb' 5 123) := by
  simp only [← hits_low_mask]
  rfl

/-- The low two bits of a five-bit code. -/
theorem mod_four_of_mod_32 {x c : Nat} (h : x % 2 ^ 5 = c) : x % 2 ^ 2 = c % 4 := by omega

section
variable {p : Profile} {blk : Block}

theorem decodeMode6_mode0 (h : blk.toNat % 2 ^ 2 = 0x00) :
    decodeMode6 p blk = .bc6hMode0 p (decodeTwo _ _ _ _ layout6Mode0 blk) := by rw [decodeMode6_eq, if_pos h]

theorem decodeMode6_mode1 (h : blk.toNat % 2 ^ 2 = 0x01) :
    decodeMode6 p blk = .bc6hMode1 p (decodeTwo _ _ _ _ layout6Mode1 blk) := by
  rw [decodeMode6_eq, if_neg (by omega), if_pos h]

theorem decodeMode6_mode2 (h : blk.toNat % 2 ^ 5 = 0x02) :
    decodeMode6 p blk = .bc6hMode2 p (decodeTwo _ _ _ _ layout6Mode2 blk) := by
  simp only [decodeMode6_eq, mod_four_of_mod_32 h, h, Nat.reduceMod, Nat.reduceEqDiff, reduceIte]

theorem decodeMode6_mode3 (h : blk.toNat % 2 ^ 5 = 0x06) :
    decodeMode6 p blk = .bc6hMode3 p (decodeTwo _ _ _ _ layout6Mode3 blk) := by
  simp only [decodeMode6_eq, mod_four_of_mod_32 h, h, Nat.reduceMod, Nat.reduceEqDiff, reduceIte]

theorem decodeMode6_mode4 (h : blk.toNat % 2 ^ 5 = 0x0A) :
    decodeMode6 p blk = .bc6hMode4 p (decodeTwo _ _ _ _ layout6Mode4 blk) := by
  simp only [decodeMode6_eq, mod_four_of_mod_32 h, h, Nat.reduceMod, Nat.reduceEqDiff, reduceIte]

theorem decodeMode6_mode5 (h : blk.toNat % 2 ^ 5 = 0x0E) :
    decodeMode6 p blk = .bc6hMode5 p (decodeTwo _ _ _ _ layout6Mode5 blk) := by
  simp only [decodeMode6_eq, mod_four_of_mod_32 h, h, Nat.reduceMod, Nat.reduceEqDiff, reduceIte]

theorem decodeMode6_mode6 (h : blk.toNat % 2 ^ 5 = 0x12) :
    decodeMode6 p blk = .bc6hMode6 p (decodeTwo _ _ _ _ layout6Mode6 blk) := by
  simp only [decodeMode6_eq, mod_four_of_mod_32 h, h, Nat.reduceMod, Nat.reduceEqDiff, reduceIte]

theorem decodeMode6_mode7 (h : blk.toNat % 2 ^ 5 = 0x16) :
    decodeMode6 p blk = .bc6hMode7 p (decodeTwo _ _ _ _ layout6Mode7 blk) := by
  simp only [decodeMode6_eq, mod_four_of_mod_32 h, h, Nat.reduceMod, Nat.reduceEqDiff, reduceIte]

theorem decodeMode6_mode8 (h : blk.toNat % 2 ^ 5 = 0x1A) :
    decodeMode6 p blk = .bc6hMode8 p (decodeTwo _ _ _ _ layout6Mode8 blk) := by
  simp only [decodeMode6_eq, mod_four_of_mod_32 h, h, Nat.reduceMod, Nat.reduceEqDiff, reduceIte]

theorem decodeMode6_mode9 (h : blk.toNat % 2 ^ 5 = 0x1E) :
    decodeMode6 p blk = .bc6hMode9 p (decodeTwo _ _ _ _ layout6Mode9 blk) := by
  simp only [decodeMode6_eq, mod_four_of_mod_32 h, h, Nat.reduceMod, Nat.reduceEqDiff, reduceIte]

theorem decodeMode6_mode10 (h : blk.toNat % 2 ^ 5 = 0x03) :
    decodeMode6 p blk = .bc6hMode10 p (decodeOne _ _ layout6Mode10 blk) := by
  simp only [decodeMode6_eq, mod_four_of_mod_32 h, h, Nat.reduceMod, Nat.reduceEqDiff, reduceIte]

theorem decodeMode6_mode11 (h : blk.toNat % 2 ^ 5 = 0x07) :
    decodeMode6 p blk = .bc6hMode11 p (decodeOne _ _ layout6Mode11 blk) := by
  simp only [decodeMode6_eq, mod_four_of_mod_32 h, h, Nat.reduceMod, Nat.reduceEqDiff, reduceIte]

theorem decodeMode6_mode12 (h : blk.toNat % 2 ^ 5 = 0x0B) :
    decodeMode6 p blk = .bc6hMode12 p (decodeOne _ _ layout6Mode12 blk) := by
  simp only [decodeMode6_eq, mod_four_of_mod_32 h, h, Nat.reduceMod, Nat.reduceEqDiff, reduceIte]

theorem decodeMode6_mode13 (h : blk.toNat % 2 ^ 5 = 0x0F) :
    decodeMode6 p blk = .bc6hMode13 p (decodeOne _ _ layout6Mode13 blk) := by
  simp only [decodeMode6_eq, mod_four_of_mod_32 h, h, Nat.reduceMod, Nat.reduceEqDiff, reduceIte]

theorem decodeMode6_reserved (h : blk.toNat % 2 ^ 5 ∈ [0x13, 0x17, 0x1B, 0x1F]) :
    decodeMode6 p blk = .bc6hReserved p (blk.extractLsb' 2 2) (blk.extractLsb' 5 123) := by
  simp only [List.mem_cons, List.not_mem_nil, or_false] at h
  rcases h with h | h | h | h
  all_goals simp only [decodeMode6_eq, mod_four_of_mod_32 h, h, Nat.reduceMod, Nat.reduceEqDiff, reduceIte]

end

theorem decodeForm_bc6h (p : Profile) (blk : Block) : decodeForm ⟨p.fmt, blk⟩ = decodeMode6 p blk := by cases p <;> rfl

/-- The four reserved codes are those with the pattern of R140. -/
theorem mem_reserved_codes_iff {x : Nat} :
    x % 2 ^ 5 ∈ [0x13, 0x17, 0x1B, 0x1F] ↔ x % 2 ^ 2 = 3 ∧ x / 2 ^ 4 % 2 = 1 := by
  simp only [List.mem_cons, List.not_mem_nil, or_false]
  omega

theorem reserved_code_of_block (k : BitVec 2) (rest : BitVec 123) :
    (bc6hReservedBlock k rest).toNat % 2 ^ 5 ∈ [0x13, 0x17, 0x1B, 0x1F] := by
  refine mem_reserved_codes_iff.mpr ⟨toNat_append_mod _ _, ?_⟩
  have hbit : (bc6hReservedBlock k rest).extractLsb' 4 1 = 1#1 := by
    rw [bc6hReservedBlock]
    simp (disch := decide) only [BitVec.extractLsb'_append_eq_of_le, BitVec.extractLsb'_append_eq_right, Nat.reduceSub]
  have := congrArg BitVec.toNat hbit
  rwa [BitVec.extractLsb'_toNat, Nat.shiftRight_eq_div_pow] at this

theorem bc6hReservedBlock_fields (k : BitVec 2) (rest : BitVec 123) :
    (bc6hReservedBlock k rest).extractLsb' 2 2 = k ∧ (bc6hReservedBlock k rest).extractLsb' 5 123 = rest := by
  rw [bc6hReservedBlock]
  simp (disch := decide) only [BitVec.extractLsb'_append_eq_of_le, BitVec.extractLsb'_append_eq_right,
    BitVec.extractLsb'_eq_self, Nat.reduceSub, and_self]

/-- A block with a reserved code is made of the bits beside the pattern. -/
theorem bc6hReservedBlock_reencode {blk : Block} (h : blk.toNat % 2 ^ 5 ∈ [0x13, 0x17, 0x1B, 0x1F]) :
    bc6hReservedBlock (blk.extractLsb' 2 2) (blk.extractLsb' 5 123) = blk := by
  obtain ⟨hlow, hbit⟩ := mem_reserved_codes_iff.mp h
  have h4 : blk.extractLsb' 4 1 = 1#1 := by
    apply BitVec.eq_of_toNat_eq
    rw [BitVec.extractLsb'_toNat, Nat.shiftRight_eq_div_pow, hbit]
    rfl
  rw [bc6hReservedBlock, ← extractLsb'_low_of_mod hlow, ← h4]
  simp (disch := decide) only [BitVec.extractLsb'_append_extractLsb'_eq_extractLsb']
  exact BitVec.extractLsb'_eq_self

/-- Settles O3: each layout gives its code and its fields back. -/
theorem bc6hFormsRoundTrip : Obligations.Bc6hFormsRoundTrip := by
  intro p
  simp only [decodeForm_bc6h]
  refine ⟨?mode0, ?mode1, ?mode2, ?mode3, ?mode4, ?mode5, ?mode6, ?mode7, ?mode8, ?mode9, ?mode10, ?mode11, ?mode12, ?mode13, ?reserved⟩
  case mode0 => exact fun f => (decodeMode6_mode0 (layout6Mode0_ok.code f)).trans (congrArg _ (layout6Mode0_ok.fields f))
  case mode1 => exact fun f => (decodeMode6_mode1 (layout6Mode1_ok.code f)).trans (congrArg _ (layout6Mode1_ok.fields f))
  case mode2 => exact fun f => (decodeMode6_mode2 (layout6Mode2_ok.code f)).trans (congrArg _ (layout6Mode2_ok.fields f))
  case mode3 => exact fun f => (decodeMode6_mode3 (layout6Mode3_ok.code f)).trans (congrArg _ (layout6Mode3_ok.fields f))
  case mode4 => exact fun f => (decodeMode6_mode4 (layout6Mode4_ok.code f)).trans (congrArg _ (layout6Mode4_ok.fields f))
  case mode5 => exact fun f => (decodeMode6_mode5 (layout6Mode5_ok.code f)).trans (congrArg _ (layout6Mode5_ok.fields f))
  case mode6 => exact fun f => (decodeMode6_mode6 (layout6Mode6_ok.code f)).trans (congrArg _ (layout6Mode6_ok.fields f))
  case mode7 => exact fun f => (decodeMode6_mode7 (layout6Mode7_ok.code f)).trans (congrArg _ (layout6Mode7_ok.fields f))
  case mode8 => exact fun f => (decodeMode6_mode8 (layout6Mode8_ok.code f)).trans (congrArg _ (layout6Mode8_ok.fields f))
  case mode9 => exact fun f => (decodeMode6_mode9 (layout6Mode9_ok.code f)).trans (congrArg _ (layout6Mode9_ok.fields f))
  case mode10 => exact fun f => (decodeMode6_mode10 (layout6Mode10_ok.code f)).trans (congrArg _ (layout6Mode10_ok.fields f))
  case mode11 => exact fun f => (decodeMode6_mode11 (layout6Mode11_ok.code f)).trans (congrArg _ (layout6Mode11_ok.fields f))
  case mode12 => exact fun f => (decodeMode6_mode12 (layout6Mode12_ok.code f)).trans (congrArg _ (layout6Mode12_ok.fields f))
  case mode13 => exact fun f => (decodeMode6_mode13 (layout6Mode13_ok.code f)).trans (congrArg _ (layout6Mode13_ok.fields f))
  case reserved =>
    intro k rest
    obtain ⟨hk, hrest⟩ := bc6hReservedBlock_fields k rest
    rw [decodeMode6_reserved (reserved_code_of_block k rest), hk, hrest]

/-! ### Every word (R149, R150, R152) -/

/-- An instruction chosen by a condition encodes to a word when both choices do. -/
theorem ite_encode {c : Prop} [Decidable c] {i j : Instr} {w : Option Word} (hi : c → encode i = w) (hj : ¬ c → encode j = w) :
    encode (if c then i else j) = w := by
  split
  next h => exact hi h
  next h => exact hj h

/-- The form of a BC6H block encodes to the block: its pattern is there, so its fields make it up again. -/
theorem encode_decodeMode6 (p : Profile) (blk : Block) : encode (decodeMode6 p blk) = some ⟨p.fmt, blk⟩ := by
  have hword : ∀ {b : Block}, b = blk → some (⟨p.fmt, b⟩ : Word) = some ⟨p.fmt, blk⟩ := fun h => by rw [h]
  rw [decodeMode6_eq]
  refine ite_encode (fun h => hword (layout6Mode0_ok.reencode h)) fun n0 => ?_
  refine ite_encode (fun h => hword (layout6Mode1_ok.reencode h)) fun n1 => ?_
  refine ite_encode (fun h => hword (layout6Mode2_ok.reencode h)) fun n2 => ?_
  refine ite_encode (fun h => hword (layout6Mode3_ok.reencode h)) fun n3 => ?_
  refine ite_encode (fun h => hword (layout6Mode4_ok.reencode h)) fun n4 => ?_
  refine ite_encode (fun h => hword (layout6Mode5_ok.reencode h)) fun n5 => ?_
  refine ite_encode (fun h => hword (layout6Mode6_ok.reencode h)) fun n6 => ?_
  refine ite_encode (fun h => hword (layout6Mode7_ok.reencode h)) fun n7 => ?_
  refine ite_encode (fun h => hword (layout6Mode8_ok.reencode h)) fun n8 => ?_
  refine ite_encode (fun h => hword (layout6Mode9_ok.reencode h)) fun n9 => ?_
  refine ite_encode (fun h => hword (layout6Mode10_ok.reencode h)) fun n10 => ?_
  refine ite_encode (fun h => hword (layout6Mode11_ok.reencode h)) fun n11 => ?_
  refine ite_encode (fun h => hword (layout6Mode12_ok.reencode h)) fun n12 => ?_
  refine ite_encode (fun h => hword (layout6Mode13_ok.reencode h)) fun n13 => ?_
  exact hword (bc6hReservedBlock_reencode (mem_reserved_codes_iff.mpr (by omega)))

/-- The form of a BC7 block encodes to the block. -/
theorem encode_decodeMode7 (blk : Block) : encode (decodeMode7 blk) = some ⟨9#4, blk⟩ := by
  have hword : ∀ {b : Block}, b = blk → some (⟨9#4, b⟩ : Word) = some ⟨9#4, blk⟩ := fun h => by rw [h]
  rcases bc7_pattern_cases blk with ⟨k, hk, h⟩ | h
  · interval_cases k
    · rw [decodeMode7_mode0 h]; exact hword (bc7Block0_fields h)
    · rw [decodeMode7_mode1 h]; exact hword (bc7Block1_fields h)
    · rw [decodeMode7_mode2 h]; exact hword (bc7Block2_fields h)
    · rw [decodeMode7_mode3 h]; exact hword (bc7Block3_fields h)
    · rw [decodeMode7_mode4 h]; exact hword (bc7Block4_fields h)
    · rw [decodeMode7_mode5 h]; exact hword (bc7Block5_fields h)
    · rw [decodeMode7_mode6 h]; exact hword (bc7Block6_fields h)
    · rw [decodeMode7_mode7 h]; exact hword (bc7Block7_fields h)
  · rw [decodeMode7_mode8 h]; exact hword (bc7Block8_rest h)

/-- The last four format selects are their low two bits under two set bits (R149). -/
theorem refused_code_parts {f : FmtCode} (h : 12 ≤ f.toNat) : 3#2 ++ f.extractLsb' 0 2 = f := by
  revert f
  decide

/-- The operation of a word encodes to the word: its operands are the two halves of the block, or the block, and the format
select is the operation's. -/
theorem encode_decode (w : Word) : encode (decode w) = some w := by
  obtain ⟨fmt, blk⟩ := w
  have hword : ∀ {f : FmtCode} {b : Block}, f = fmt → b = blk → some (⟨f, b⟩ : Word) = some ⟨fmt, blk⟩ :=
    fun hf hb => by rw [hf, hb]
  have hcode : ∀ {n : Nat}, fmt.toNat = n → BitVec.ofNat 4 n = fmt := fun h => by rw [← h, BitVec.ofNat_toNat, BitVec.setWidth_eq]
  unfold decode
  split
  next h => exact hword (hcode h) (by rw [colorBits_readColor, halves_append])
  next h => exact hword (hcode h) (by rw [colorBits_readColor, halves_append])
  next h => exact hword (hcode h) (by rw [colorBits_readColor, gradBits_readGrad, halves_append])
  next h => exact hword (hcode h) (by rw [gradBits_readGrad, halves_append])
  next h => exact hword (hcode h) (by rw [gradBits_readGrad, halves_append])
  next h => exact hword (hcode h) (by rw [gradBits_readGrad, gradBits_readGrad, halves_append])
  next h => exact hword (hcode h) (by rw [gradBits_readGrad, gradBits_readGrad, halves_append])
  next h => exact hword (hcode h) rfl
  next h => exact hword (hcode h) rfl
  next h => exact hword (hcode h) rfl
  next h => exact hword (hcode h) rfl
  next h => exact hword (hcode h) rfl
  next =>
    refine hword (refused_code_parts ?_) rfl
    simp only [imp_false] at *
    omega

/-- Settles O5: the first level by its layouts, the second by the patterns of its forms. -/
theorem everyWordReencodes : Obligations.EveryWordReencodes := by
  intro w
  refine ⟨encode_decode w, ?_⟩
  obtain ⟨fmt, blk⟩ := w
  have hcode : ∀ {n : Nat}, fmt.toNat = n → fmt = BitVec.ofNat 4 n := fun h => by rw [← h, BitVec.ofNat_toNat, BitVec.setWidth_eq]
  unfold decodeForm
  split
  next h => rw [hcode h]; exact encode_decodeMode6 .unsigned blk
  next h => rw [hcode h]; exact encode_decodeMode6 .signed blk
  next h => rw [hcode h]; exact encode_decodeMode7 blk
  next => exact encode_decode _

/-- The mode code of a block (R139): two bits when they are 0 or 1, else five. -/
def bc6Code (blk : Block) : Nat := if blk.toNat % 4 < 2 then blk.toNat % 4 else blk.toNat % 32

theorem bc6Code_of_two {blk : Block} {c : Nat} (h : blk.toNat % 2 ^ 2 = c) (hc : c < 2) : bc6Code blk = c := by
  rw [bc6Code, if_pos (by omega)]
  exact h

theorem bc6Code_of_five {blk : Block} {c : Nat} (h : blk.toNat % 2 ^ 5 = c) (hc : 2 ≤ c % 4) : bc6Code blk = c := by
  rw [bc6Code, if_neg (by omega)]
  exact h

/-- The patterns cover every block (R140). -/
theorem bc6h_pattern_cases (blk : Block) :
    blk.toNat % 2 ^ 2 = 0 ∨ blk.toNat % 2 ^ 2 = 1 ∨
      blk.toNat % 2 ^ 5 ∈ [0x02, 0x06, 0x0A, 0x0E, 0x12, 0x16, 0x1A, 0x1E, 0x03, 0x07, 0x0B, 0x0F] ∨
      blk.toNat % 2 ^ 5 ∈ [0x13, 0x17, 0x1B, 0x1F] := by
  have hcodes : ∀ c < 32, c % 4 = 0 ∨ c % 4 = 1 ∨
      c ∈ [0x02, 0x06, 0x0A, 0x0E, 0x12, 0x16, 0x1A, 0x1E, 0x03, 0x07, 0x0B, 0x0F] ∨ c ∈ [0x13, 0x17, 0x1B, 0x1F] := by
    decide
  have := hcodes (blk.toNat % 2 ^ 5) (Nat.mod_lt _ (by decide))
  rwa [Nat.mod_mod_of_dvd blk.toNat (by decide : 4 ∣ 2 ^ 5)] at this

/-- Settles O30: the pattern that a block has is its mode code, and the mode map has the same entry for it. -/
theorem bc6hFormIsMode : Obligations.Bc6hFormIsMode := by
  intro p blk code
  have hmap : ∀ {c : Nat} {e : Option Bc6MapEntry}, bc6Code blk = c → Machine.romBc6map[c]? = e →
      Machine.romBc6map[code]? = e := fun hc he => (congrArg (Machine.romBc6map[·]?) hc).trans he
  rw [decodeForm_bc6h]
  rcases bc6h_pattern_cases blk with h | h | h | h
  · rw [decodeMode6_mode0 h]; exact ⟨rfl, hmap (bc6Code_of_two h (by decide)) rfl⟩
  · rw [decodeMode6_mode1 h]; exact ⟨rfl, hmap (bc6Code_of_two h (by decide)) rfl⟩
  · simp only [List.mem_cons, List.not_mem_nil, or_false] at h
    obtain h | h | h | h | h | h | h | h | h | h | h | h := h
    · rw [decodeMode6_mode2 h]; exact ⟨rfl, hmap (bc6Code_of_five h (by decide)) rfl⟩
    · rw [decodeMode6_mode3 h]; exact ⟨rfl, hmap (bc6Code_of_five h (by decide)) rfl⟩
    · rw [decodeMode6_mode4 h]; exact ⟨rfl, hmap (bc6Code_of_five h (by decide)) rfl⟩
    · rw [decodeMode6_mode5 h]; exact ⟨rfl, hmap (bc6Code_of_five h (by decide)) rfl⟩
    · rw [decodeMode6_mode6 h]; exact ⟨rfl, hmap (bc6Code_of_five h (by decide)) rfl⟩
    · rw [decodeMode6_mode7 h]; exact ⟨rfl, hmap (bc6Code_of_five h (by decide)) rfl⟩
    · rw [decodeMode6_mode8 h]; exact ⟨rfl, hmap (bc6Code_of_five h (by decide)) rfl⟩
    · rw [decodeMode6_mode9 h]; exact ⟨rfl, hmap (bc6Code_of_five h (by decide)) rfl⟩
    · rw [decodeMode6_mode10 h]; exact ⟨rfl, hmap (bc6Code_of_five h (by decide)) rfl⟩
    · rw [decodeMode6_mode11 h]; exact ⟨rfl, hmap (bc6Code_of_five h (by decide)) rfl⟩
    · rw [decodeMode6_mode12 h]; exact ⟨rfl, hmap (bc6Code_of_five h (by decide)) rfl⟩
    · rw [decodeMode6_mode13 h]; exact ⟨rfl, hmap (bc6Code_of_five h (by decide)) rfl⟩
  · rw [decodeMode6_reserved h]
    simp only [List.mem_cons, List.not_mem_nil, or_false] at h
    obtain h | h | h | h := h
    all_goals exact ⟨rfl, hmap (bc6Code_of_five h (by decide)) rfl⟩

/-- Settles O1: the words are evaluated. -/
theorem specWordsDecode : Obligations.SpecWordsDecode := by
  refine ⟨by decide, by decide, by decide, by decide, by decide⟩

end Sys2Proof
end

section
/-!
PROOF. Running a word (R31, R152). Every operation that has a word samples it and runs one tame piece of a decode, the piece
of the first-level operation of that word: an in-block form is that operation on the block that it encodes. From this one
fact follow that the two levels mean the same (O8), what a decode leaves alone (O10), and that it depends on the word
and the configuration only (O9).
-/

namespace Sys2Proof.Machine

/-! ### The piece that an operation runs -/

/-- The decode that a first-level operation runs after sampling its word; a refused format select raises its event. -/
def pieceOf : Instr → Dec Tile
  | .decBC1 col _ => decodeBc1 col
  | .decBC2 a4 col => decodeBc2 a4 col
  | .decBC3 al col => decodeBc3 al col
  | .decBC4U g _ => decodeR (gradBlockU .first g)
  | .decBC4S g _ => decodeR (gradBlockS .first g)
  | .decBC5U g k => decodeRg (gradBlockU .first g) (gradBlockU .second k)
  | .decBC5S g k => decodeRg (gradBlockS .first g) (gradBlockS .second k)
  | .decBC6HU _ => decodeBc6 false
  | .decBC6HS _ => decodeBc6 true
  | .decBC7 _ => decodeBc7
  | _ => raise .unsupported

theorem Tame.pieceOf (i : Instr) : Tame (pieceOf i) := by
  unfold Machine.pieceOf
  split
  · exact Tame.decodeBc1 _
  · exact Tame.decodeBc2 _ _
  · exact Tame.decodeBc3 _ _
  · exact Tame.decodeR (gradBlockU_decodes _ _).tame
  · exact Tame.decodeR (gradBlockS_decodes _ _).tame
  · exact Tame.decodeRg (gradBlockU_decodes _ _).tame (gradBlockU_decodes _ _).tame
  · exact Tame.decodeRg (gradBlockS_decodes _ _).tame (gradBlockS_decodes _ _).tame
  · exact Tame.decodeBc6 _
  · exact Tame.decodeBc6 _
  · exact Tame.decodeBc7
  · exact Tame.raise _

theorem decode_firstLevel (w : Word) : (decode w).firstLevel = true := by
  unfold decode
  split <;> rfl

/-- A first-level operation samples its word and runs its piece. -/
theorem exec_firstLevel {i : Instr} {w : Word} (hfirst : i.firstLevel = true) (h : encode i = some w) (s : State) :
    exec i s = runDecode (pieceOf i) (s.latch w) := by
  cases i
  case decBC1 | decBC2 | decBC3 | decBC4U | decBC4S | decBC5U | decBC5S | decBC6HU | decBC6HS | decBC7 |
      unsupportedFmt10_11 | unsupportedFmt12_15 => cases h; rfl
  all_goals cases hfirst

/-- What a word runs. -/
theorem exec_decode (w : Word) (s : State) : exec (decode w) s = runDecode (pieceOf (decode w)) (s.latch w) :=
  exec_firstLevel (decode_firstLevel w) (encode_decode w) s

/-- An operation that has a word means what the first-level operation of the word means. -/
theorem exec_of_encode {i : Instr} {w : Word} (h : encode i = some w) (s : State) : exec i s = exec (decode w) s := by
  cases hfirst : i.firstLevel
  · cases i
    case bc6hMode0 p f | bc6hMode1 p f | bc6hMode2 p f | bc6hMode3 p f | bc6hMode4 p f | bc6hMode5 p f |
        bc6hMode6 p f | bc6hMode7 p f | bc6hMode8 p f | bc6hMode9 p f | bc6hMode10 p f | bc6hMode11 p f |
        bc6hMode12 p f | bc6hMode13 p f | bc6hReserved p k rest => cases h; cases p <;> rfl
    case bc7Mode0 | bc7Mode1 | bc7Mode2 | bc7Mode3 | bc7Mode4 | bc7Mode5 | bc7Mode6 | bc7Mode7 | bc7Mode8 =>
      cases h; rfl
    case rdbits | rdbit => cases h
    all_goals cases hfirst
  · rw [decode_of_encode hfirst h]

/-- Settles O8: the form of a word encodes to the word. -/
theorem formsMeanOperation : Obligations.FormsMeanOperation :=
  fun w s => exec_of_encode (everyWordReencodes w).2 s

/-- Settles O10: the piece that an operation runs is tame. -/
theorem decodeOperationsFrame : Obligations.DecodeOperationsFrame := by
  intro i w s t hword hrun
  rw [exec_of_encode hword, exec_decode] at hrun
  exact decodeFrame_of_runDecode (Tame.pieceOf _) hrun

/-! ### Independence of history (R46, R82) -/

/-- Two states of one configuration that have sampled one word differ outside the decode only. -/
theorem latch_eq_withOuter {s u : State} (h : s.cfg = u.cfg) (w : Word) :
    u.latch w = (s.latch w).withOuter (u.latch w).outer := by
  unfold State.latch State.withOuter State.outer
  rw [h]

/-- Settles O9: a tame piece runs alike on both, up to what it does not touch. -/
theorem historyIndependence : Obligations.HistoryIndependence := by
  intro w s u hcfg
  rw [exec_decode, exec_decode, latch_eq_withOuter hcfg w, runDecode, runDecode, (Tame.pieceOf _).outer]
  cases pieceOf (decode w) (s.latch w) with
  | ok x t => exact ⟨rfl, rfl, rfl, rfl, rfl⟩
  | error e t =>
    cases e with
    | event e => exact ⟨rfl, rfl, rfl, rfl, rfl⟩
    | fault f => rfl
    | refused r => rfl

/-! ### Steps and resets (R31, R48, R450, R451) -/

theorem step_reset {s : State} (h : s.port.rst = true) : step s = .next s.resetBlock := by
  rw [step, if_pos h]

theorem step_start {s : State} (hrst : s.port.rst = false) (hstart : s.port.start = true) :
    step s = exec (decode (portWord s)) (s.setPort { s.port with start := false }) := by
  rw [step, if_neg (by rw [hrst]; decide), if_pos hstart]

theorem step_host {s : State} (hrst : s.port.rst = false) (hstart : s.port.start = false) : step s = hostStep s := by
  rw [step, if_neg (by rw [hrst]; decide), if_neg (by rw [hstart]; decide)]

theorem wellFormed_of_firstLevel {i : Instr} (h : i.firstLevel = true) : i.wellFormed = true := by
  cases i
  case rdbits n => cases h
  all_goals rfl

/-- Settles O7: the ports without their `START` are the ports that the step leaves. -/
theorem stepRunsDecoded : Obligations.StepRunsDecoded := by
  rintro s i hrst hstart rfl
  refine ⟨wellFormed_of_firstLevel (decode_firstLevel _), ?_⟩
  rw [step_start hrst hstart, ← hrst]
  rfl

/-- Settles O11: the values of `State.reset`, the step of a reset request, and the idle host. -/
theorem resetBehaviour : Obligations.ResetBehaviour := by
  refine ⟨⟨rfl, rfl, rfl, rfl, rfl, rfl, rfl⟩, fun s h => ?_, fun s hrst hstart hidle => ?_⟩
  · exact ⟨_, step_reset h, rfl, rfl, rfl, rfl, rfl, rfl, rfl, rfl⟩
  · rw [step_host hrst hstart, hostStep, hidle]

/-- Settles O46: each event by its entry of the table. -/
theorem eventTable : Obligations.EventTable := by
  intro s
  refine ⟨fun e he => ?_, fun e he => ?_, rfl, rfl, rfl, fun e => ⟨rfl, rfl, rfl, rfl, rfl, rfl, rfl⟩⟩
  · simp only [List.mem_cons, List.not_mem_nil, or_false] at he
    obtain rfl | rfl | rfl := he
    all_goals rfl
  · simp only [List.mem_cons, List.not_mem_nil, or_false] at he
    obtain rfl | rfl := he
    all_goals rfl

end Sys2Proof.Machine
end

section
/-!
PROOF. The bit cursor (R200 to R205). A read that fits delivers the block bits at the cursor and moves it; one that does not
fit takes the error-fill entry. A read of several bits is its first bit and the rest, so single-bit reads in a row give one
longer read.
-/

namespace Sys2Proof.Machine

theorem exec_rdbits (n : Nat) (s : State) : exec (.rdbits n) s = runMicro (rdBits n) s := rfl

theorem runMicro_ok {p : Dec Nat} {s t : State} {v : Nat} (h : p s = .ok v t) :
    runMicro p s = .next (t.setRd (BitVec.ofNat 8 v)) := by simp [runMicro, h]

theorem runMicro_event {p : Dec Nat} {s t : State} {e : Event} (h : p s = .error (.event e) t) :
    runMicro p s = .next (takeEvent e t) := by simp [runMicro, h]

/-- The cursor moved by a number of bits. -/
theorem ofNat_pos_add (p : BitVec 8) (n : Nat) : BitVec.ofNat 8 (p.toNat + n) = p + BitVec.ofNat 8 n := by
  rw [BitVec.ofNat_add, BitVec.ofNat_toNat, BitVec.setWidth_eq]

/-- Settles O24: the read of R200 with its result in `rd`. -/
theorem cursorRead : Obligations.CursorRead := by
  intro n s hn hfit
  rw [exec_rdbits, runMicro_ok (rdBits_ok hn hfit), ofNat_pos_add, memRead_eq_div_mod]
  rfl

/-- Settles O25: the overflow consumes nothing and is taken as an event (R202, R412). -/
theorem cursorOverflow : Obligations.CursorOverflow := by
  intro n s hn hover
  rw [exec_rdbits, runMicro_event (rdBits_overflow hn hover)]
  rfl

/-- The bit at the cursor, taken from its byte (R201). -/
theorem ofNat_bit_eq_blockByte (blk : Block) (k : Nat) :
    BitVec.ofNat 8 (blk.toNat / 2 ^ k % 2 ^ 1) = (blockByte blk (k / 8) >>> (k % 8)) &&& 1 := by
  have hbit : blk.toNat / 2 ^ k % 2 ^ 1 = (blockByte blk (k / 8)).toNat / 2 ^ (k % 8) % 2 := by
    rw [← getLsbD_eq_blockByte, BitVec.getLsbD, Nat.testBit_eq_decide_div_mod_eq, pow_one]
    rcases Nat.mod_two_eq_zero_or_one (blk.toNat / 2 ^ k) with h | h
    · rw [h]; rfl
    · rw [h]; rfl
  apply BitVec.eq_of_toNat_eq
  have hlt : (blockByte blk (k / 8)).toNat / 2 ^ (k % 8) % 2 < 2 := Nat.mod_lt _ (by decide)
  rw [hbit, BitVec.toNat_ofNat, Nat.mod_eq_of_lt (by omega), BitVec.toNat_and, BitVec.toNat_ushiftRight,
    Nat.shiftRight_eq_div_pow]
  exact (Nat.and_one_is_mod _).symm

/-- `RDBIT` inside the block (R201). -/
theorem exec_rdbit_ok {s : State} (h : s.pos.toNat < lenBits s.fmt) :
    exec .rdbit s = .next { s with
      pos := s.pos + 1
      rd := (blockByte s.blk (s.pos.toNat / 8) >>> (s.pos.toNat % 8)) &&& 1 } := by
  rw [← ofNat_bit_eq_blockByte]
  exact cursorRead 1 s (by decide) h

/-- Settles O26: `RDBIT` is a read of one bit, and the example is its value. -/
theorem cursorBit : Obligations.CursorBit := by
  refine ⟨fun s => rfl, fun s h => exec_rdbit_ok h, fun s h => ?_, fun s hfmt hpos hbyte => ?_⟩
  · exact ⟨_, cursorOverflow 1 s (by decide) (by omega), rfl, rfl⟩
  · refine ⟨_, exec_rdbit_ok (by rw [hfmt, hpos]; decide), ?_, ?_⟩
    · show (blockByte s.blk (s.pos.toNat / 8) >>> (s.pos.toNat % 8)) &&& 1 = 1#8
      rw [hpos, show (6#8 : BitVec 8).toNat / 8 = 0 from rfl, hbyte]
      rfl
    · show s.pos + 1 = 7#8
      rw [hpos]
      rfl

/-! ### The cursor law (R205) -/

/-- The values of `n` single-bit reads from bit `pos` on. -/
def bitReads (blk : Block) : Nat → Nat → List Nat
  | _, 0 => []
  | pos, n + 1 => memRead blk pos 1 :: bitReads blk (pos + 1) n

theorem bitReads_length (blk : Block) (pos n : Nat) : (bitReads blk pos n).length = n := by
  induction n generalizing pos with
  | zero => rfl
  | succ n ih => rw [bitReads, List.length_cons, ih]

/-- A read is its bits, the first one lowest. -/
theorem memRead_eq_foldr (blk : Block) (pos n : Nat) :
    memRead blk pos n = (bitReads blk pos n).foldr (fun b acc => b + 2 * acc) 0 := by
  induction n generalizing pos with
  | zero => exact Nat.mod_one _
  | succ n ih =>
    rw [bitReads, List.foldr_cons, ← ih, memRead_tail_eq_div, memRead_one_eq_mod blk pos n]
    omega

/-- Single-bit reads, as many as a list has elements. -/
theorem mapM_rdBit {α : Type} (l : List α) {s : State} (h : s.pos.toNat + l.length ≤ lenBits s.fmt) :
    l.mapM (fun _ => rdBit) s =
      .ok (bitReads s.blk s.pos.toNat l.length) (s.setPos (BitVec.ofNat 8 (s.pos.toNat + l.length))) := by
  induction l generalizing s with
  | nil => simp [bitReads]
  | cons a l ih =>
    rw [List.length_cons] at h
    have hfit : s.pos.toNat + 1 ≤ lenBits s.fmt := by omega
    have hread : rdBit s = _ := rdBits_ok (by decide) hfit
    have hpos := pos_after hfit
    have hrest := ih (s := s.setPos (BitVec.ofNat 8 (s.pos.toNat + 1))) (by rw [State.setPos_pos, hpos, State.setPos_fmt]; omega)
    rw [State.setPos_pos, hpos, State.setPos_setPos, State.setPos_blk] at hrest
    rw [List.mapM_cons, dec_bind_ok hread, dec_bind_ok hrest, dec_pure, List.length_cons, bitReads,
      show s.pos.toNat + 1 + l.length = s.pos.toNat + (l.length + 1) by omega]

/-- Settles O27: a read splits at any bit, and is its single bits. -/
theorem cursorLaw : Obligations.CursorLaw := by
  refine ⟨fun n m s hnm hfit => ?_, fun n s hn hfit => ?_⟩
  · have hfirst : s.pos.toNat + n ≤ lenBits s.fmt := by omega
    have hpos := pos_after hfirst
    have hsecond := rdBits_ok (n := m) (s := s.setPos (BitVec.ofNat 8 (s.pos.toNat + n))) (by omega)
      (by rw [State.setPos_pos, hpos, State.setPos_fmt]; exact hfit)
    rw [State.setPos_pos, hpos, State.setPos_setPos, State.setPos_blk, Nat.add_assoc] at hsecond
    exact ⟨_, _, _, _, _, rdBits_ok (by omega) hfirst, hsecond, rdBits_ok hnm (by omega), memRead_add _ _ _ _⟩
  · refine ⟨_, _, _, rdBits_ok hn hfit, ?_, bitReads_length _ _ _, memRead_eq_foldr _ _ _⟩
    have hbits := mapM_rdBit (List.range n) (s := s) (by rwa [List.length_range])
    rwa [List.length_range] at hbits

end Sys2Proof.Machine
end

section
/-!
PROOF. Properties of the fixed-layout formats (R225, R226, R244, R261, R263, R270). The results of the decodes are known
texel by texel, so each property is one of the palette or of the ramp at the selected index: the first two entries are the
endpoints, an interpolated entry is a weighted mean of them, and the rounding modes differ by the remainder.
-/

namespace Sys2Proof.Machine

open Sys2Proof.Reference

/-! ### The texel that an index selects -/

/-- The colour of a texel whose index is known. -/
theorem colorAt_of_selAt {c : Config} {four : Bool} {f : ColorFields} {i : Fin 16} {k : BitVec 2} (h : selAt f.sel i = k) :
    colorAt c four f i = colorOf c four f k.toNat := by
  rw [colorAt, ← selAt_toFin_val, h]
  rfl

theorem colorOf_zero (c : Config) (four : Bool) (f : ColorFields) : colorOf c four f 0 = rgb565 c.exp6Shift f.c0 := rfl
theorem colorOf_one (c : Config) (four : Bool) (f : ColorFields) : colorOf c four f 1 = rgb565 c.exp6Shift f.c1 := rfl

/-- Indices 2 and 3 with four colours (R223). -/
theorem colorOf_four {c : Config} {f : ColorFields} (h : f.c1.toNat < f.c0.toNat) :
    colorOf c false f 2 = blendRgb c.roundMode 2 1 3 (rgb565 c.exp6Shift f.c0) (rgb565 c.exp6Shift f.c1) ∧
      colorOf c false f 3 = blendRgb c.roundMode 1 2 3 (rgb565 c.exp6Shift f.c0) (rgb565 c.exp6Shift f.c1) := by
  constructor
  all_goals
    rw [colorOf, if_neg (by decide), if_neg (by decide), if_pos (.inr h)]
    rfl

/-- Indices 2 and 3 with three colours (R223). -/
theorem colorOf_three {c : Config} {f : ColorFields} (h : f.c0.toNat ≤ f.c1.toNat) :
    colorOf c false f 2 = blendRgb c.roundMode 1 1 2 (rgb565 c.exp6Shift f.c0) (rgb565 c.exp6Shift f.c1) ∧
      colorOf c false f 3 = ⟨0, 0, 0⟩ := by
  have hbranch : ¬ (false = true ∨ f.c1.toNat < f.c0.toNat) := by
    rintro (h' | h')
    · cases h'
    · omega
  constructor
  all_goals
    rw [colorOf, if_neg (by decide), if_neg (by decide), if_neg hbranch]
    rfl

/-! ### Where the rounding modes differ (R226) -/

theorem rdiv_truncate_natCast (n : Nat) {den : Int} : rdiv .truncate n den = (n : Int) / den :=
  Int.tdiv_eq_ediv_of_nonneg (Int.natCast_nonneg n)

theorem rdiv_three_modes (n : Nat) :
    (n % 3 = 2 → rdiv .nearest n 3 = rdiv .truncate n 3 + 1) ∧ (n % 3 ≠ 2 → rdiv .nearest n 3 = rdiv .truncate n 3) := by
  rw [rdiv_nearest, rdiv_truncate_natCast]
  omega

theorem rdiv_two_modes (n : Nat) :
    (n % 2 = 1 → rdiv .nearest n 2 = rdiv .truncate n 2 + 1) ∧ (n % 2 ≠ 1 → rdiv .nearest n 2 = rdiv .truncate n 2) := by
  rw [rdiv_nearest, rdiv_truncate_natCast]
  omega

/-- Settles O15: the result of `DEC.BC1`, with the entry of the palette that each index selects. -/
theorem bc1Properties : Obligations.Bc1Properties := by
  refine ⟨fun col hi s i => ?_, rdiv_three_modes, rdiv_two_modes, by decide, by decide, fun m => by cases m <;> decide⟩
  obtain ⟨t, hrun, -, -, -, -, htile⟩ := bc1Result col hi s
  have hget : ∀ {k : BitVec 2}, selAt col.sel i = k → t.tile.get i = texelOf (colorOf s.cfg false col k.toNat) none := by
    intro k hk
    rw [htile, Vector.get_ofFn, colorAt_of_selAt hk]
  refine ⟨t, hrun, fun h => hget h, fun h => hget h, fun h hlt => ?_, fun h hlt => ?_, fun h hle => ?_, fun h hle => ?_,
    fun h => ?_⟩
  · exact (hget h).trans (congrArg (texelOf · none) (colorOf_four hlt).1)
  · exact (hget h).trans (congrArg (texelOf · none) (colorOf_four hlt).2)
  · exact (hget h).trans (congrArg (texelOf · none) (colorOf_three hle).1)
  · exact (hget h).trans (congrArg (texelOf · none) (colorOf_three hle).2)
  · have hzero : ∀ j, selAt col.sel j = 0#2 := fun j => by rw [h, selAt, BitVec.extractLsb'_zero]
    rw [htile]
    refine Vector.ext fun j hj => ?_
    rw [Vector.getElem_ofFn, Vector.getElem_replicate, colorAt_of_selAt (hzero ⟨j, hj⟩)]
    rfl

/-! ### Gradient entries (R261, R263, R270) -/

/-- Texel `i` of an unsigned gradient block whose index there is known. -/
theorem unsignedOf_of_gselAt {c : Config} {f : GradFields} {i : Fin 16} {k : BitVec 3} (h : gselAt f.gsel i = k) :
    unsignedOf c f i = BitVec.ofInt 8 (rampOf c 0 255 f.e0.toNat f.e1.toNat k.toNat) := by
  rw [unsignedOf, ← gselAt_toFin_val, h]
  rfl

theorem ofInt_toNat_byte (b : Byte) : BitVec.ofInt 8 b.toNat = b := by
  rw [BitVec.ofInt_natCast, BitVec.ofNat_toNat, BitVec.setWidth_eq]

/-- Index 0 of an unsigned gradient block gives the first endpoint. -/
theorem unsignedOf_zero {c : Config} {f : GradFields} {i : Fin 16} (h : gselAt f.gsel i = 0#3) :
    unsignedOf c f i = f.e0 := (unsignedOf_of_gselAt h).trans (ofInt_toNat_byte f.e0)

/-- Index 1 of an unsigned gradient block gives the second endpoint. -/
theorem unsignedOf_one {c : Config} {f : GradFields} {i : Fin 16} (h : gselAt f.gsel i = 1#3) :
    unsignedOf c f i = f.e1 := (unsignedOf_of_gselAt h).trans (ofInt_toNat_byte f.e1)

theorem ramp_get_zero (m : RoundMode) (lo hi e0 e1 : Int) : (ramp m lo hi e0 e1).get 0 = e0 := by
  unfold ramp
  split <;> rfl

theorem ramp_get_one (m : RoundMode) (lo hi e0 e1 : Int) : (ramp m lo hi e0 e1).get 1 = e1 := by
  unfold ramp
  split <;> rfl

/-- Index 0 of a signed gradient block gives the remapped first endpoint. -/
theorem signedGradOf_zero {c : Config} {f : GradFields} {i : Fin 16} (h : gselAt f.gsel i = 0#3) :
    signedGradOf c f i = BitVec.ofInt 8 (remapS (sEndpoint f.e0)) := by
  rw [← remapS_gradientS_get_gselAt, h, gradientS]
  exact congrArg (fun x => BitVec.ofInt 8 (remapS x)) (ramp_get_zero _ _ _ _ _)

/-- Index 1 of a signed gradient block gives the remapped second endpoint. -/
theorem signedGradOf_one {c : Config} {f : GradFields} {i : Fin 16} (h : gselAt f.gsel i = 1#3) :
    signedGradOf c f i = BitVec.ofInt 8 (remapS (sEndpoint f.e1)) := by
  rw [← remapS_gradientS_get_gselAt, h, gradientS]
  exact congrArg (fun x => BitVec.ofInt 8 (remapS x)) (ramp_get_one _ _ _ _ _)

/-- Settles O18: the results of the three decodes, channel by channel. -/
theorem bc2Bc3Independence : Obligations.Bc2Bc3Independence := by
  intro a b al be c d hi s i
  obtain ⟨t, ht, -, -, -, -, xt⟩ := bc2Result a c s
  obtain ⟨u, hu, -, -, -, -, xu⟩ := bc3Result al c s
  obtain ⟨⟨v, hv, -, -, -, -, xv⟩, -⟩ := bc4Result al hi s
  obtain ⟨w, hw, -, -, -, -, xw⟩ := bc2Result a d s
  obtain ⟨x, hx, -, -, -, -, xx⟩ := bc3Result al d s
  obtain ⟨t', ht', -, -, -, -, xt'⟩ := bc2Result b c s
  obtain ⟨u', hu', -, -, -, -, xu'⟩ := bc3Result be c s
  refine ⟨t, u, v, w, x, ht, hu, hv, hw, hx, ⟨t', ht', ?_⟩, ⟨u', hu', ?_⟩, ?_⟩
  · simp only [xt, xt', Vector.get_ofFn, texelOf, and_self]
  · simp only [xu, xu', Vector.get_ofFn, texelOf, and_self]
  · simp only [xt, xu, xv, xw, xx, Vector.get_ofFn, texelOf, true_and]
    exact ⟨fun h => congrArg some (unsignedOf_zero h), fun h => congrArg some (unsignedOf_one h)⟩

/-- Settles O20: the ramp entry by entry, and its bounds. -/
theorem gradientEntries : Obligations.GradientEntries := by
  refine ⟨fun c e0 e1 k => ⟨ramp_get c _ _ _ _ k, ?_⟩, fun c e0 e1 k h0 h0' h1 h1' => ⟨ramp_get c _ _ _ _ k, ?_⟩⟩
  · have hbyte : ∀ b : Byte, (0 : Int) ≤ b.toNat ∧ (b.toNat : Int) ≤ 255 := fun b => by have := b.isLt; omega
    exact rampOf_bounds c (hbyte e0) (hbyte e1) k.isLt
  · exact rampOf_bounds c ⟨h0, h0'⟩ ⟨h1, h1'⟩ k.isLt

/-- A configuration of the given rounding mode, to state a ramp by its rule. -/
def configOfMode (m : RoundMode) : Config := { configDefault with roundMode := m }

/-- An interpolated entry lies between the endpoints, in either branch. -/
theorem ramp_between (m : RoundMode) (lo hi e0 e1 : Int) (k : Fin 8) (h : e1 < e0 ∨ k.val < 6) :
    min e0 e1 ≤ (ramp m lo hi e0 e1).get k ∧ (ramp m lo hi e0 e1).get k ≤ max e0 e1 := by
  have h0 : min e0 e1 ≤ e0 ∧ e0 ≤ max e0 e1 := ⟨min_le_left _ _, le_max_left _ _⟩
  have h1 : min e0 e1 ≤ e1 ∧ e1 ≤ max e0 e1 := ⟨min_le_right _ _, le_max_right _ _⟩
  have hk := k.isLt
  rw [show m = (configOfMode m).roundMode from rfl, ramp_get, rampOf]
  split_ifs
  · exact h0
  · exact h1
  · exact rdiv_mean_bounds _ (by omega) (by omega) (by omega) (by decide) h0 h1
  · exact rdiv_mean_bounds _ (by omega) (by omega) (by omega) (by decide) h0 h1
  · omega
  · omega

/-- An interpolated entry of the 7-step ramp. -/
theorem rampOf_seven {c : Config} {lo hi e0 e1 : Int} {k : Nat} (he : e1 < e0) (hk : 2 ≤ k) :
    rampOf c lo hi e0 e1 k = rdiv c.roundMode ((8 - k) * e0 + (k - 1) * e1) 7 := by
  rw [rampOf, if_neg (by omega), if_neg (by omega), if_pos he]

/-- The interpolated entries of the 7-step ramp do not increase. -/
theorem ramp_antitone (m : RoundMode) (lo hi : Int) {e0 e1 : Int} {k l : Fin 8} (he : e1 < e0) (hk : 2 ≤ k.val)
    (hkl : k.val < l.val) : (ramp m lo hi e0 e1).get l ≤ (ramp m lo hi e0 e1).get k := by
  rw [show m = (configOfMode m).roundMode from rfl, ramp_get, ramp_get, rampOf_seven he hk,
    rampOf_seven he (by omega)]
  have hstep : 0 ≤ ((l.val : Int) - k.val) * (e0 - e1) := mul_nonneg (by omega) (by omega)
  exact rdiv_mono _ (by decide) (by linarith)

/-- Settles O23: the endpoints by their indices, and the order of the ramp. -/
theorem bc4Properties : Obligations.Bc4Properties := by
  refine ⟨fun g hi s i => ?_, ramp_between, fun m lo hi e0 e1 k l he hk hkl => ramp_antitone m lo hi he hk hkl⟩
  obtain ⟨⟨t, ht, -, -, -, -, xt⟩, u, hu, -, -, -, -, xu⟩ := bc4Result g hi s
  refine ⟨t, u, ht, hu, ?_⟩
  simp only [xt, xu, Vector.get_ofFn]
  exact ⟨fun h => ⟨congrArg some (unsignedOf_zero h), congrArg some (signedGradOf_zero h)⟩,
    fun h => ⟨congrArg some (unsignedOf_one h), congrArg some (signedGradOf_one h)⟩⟩

end Sys2Proof.Machine
end

section
/-!
PROOF. The arithmetic of BC6H and BC7 texels (R303 to R308, R310, R312, R347, R353). Each formula of the model is brought to the
form that its rule gives on the rule's range, where it is linear arithmetic; bounds and fixed points follow.
-/

namespace Sys2Proof.Machine

/-! ### The 64-weight interpolation (R304, R353) -/

theorem lerp64_eq_fdiv (a b w : Int) : lerp64 a b w = (a * (64 - w) + b * w + 32).fdiv 64 := by
  rw [lerp64, Int.fdiv_eq_ediv_of_nonneg _ (by decide)]

theorem lerp64_zero (a b : Int) : lerp64 a b 0 = a := by
  rw [lerp64]
  omega

theorem lerp64_last (a b : Int) : lerp64 a b 64 = b := by
  rw [lerp64]
  omega

/-- A weighted mean of two values of a range is in the range. -/
theorem lerp64_mem {lo hi a b w : Int} (hw : 0 ≤ w) (hw' : w ≤ 64) (ha : lo ≤ a ∧ a ≤ hi) (hb : lo ≤ b ∧ b ≤ hi) :
    lo ≤ lerp64 a b w ∧ lerp64 a b w ≤ hi := by
  have hlow : lo * 64 ≤ a * (64 - w) + b * w := by
    linarith [mul_le_mul_of_nonneg_right ha.1 (by omega : 0 ≤ 64 - w), mul_le_mul_of_nonneg_right hb.1 hw]
  have hhigh : a * (64 - w) + b * w ≤ hi * 64 := by
    linarith [mul_le_mul_of_nonneg_right ha.2 (by omega : 0 ≤ 64 - w), mul_le_mul_of_nonneg_right hb.2 hw]
  rw [lerp64]
  omega

theorem lerp64_between {a b w : Int} (hw : 0 ≤ w) (hw' : w ≤ 64) :
    min a b ≤ lerp64 a b w ∧ lerp64 a b w ≤ max a b :=
  lerp64_mem hw hw' ⟨min_le_left _ _, le_max_left _ _⟩ ⟨min_le_right _ _, le_max_right _ _⟩

/-! ### BC7 channels (R347, R353) -/

theorem toNat_ofInt_byte {x : Int} (h0 : 0 ≤ x) (h1 : x ≤ 255) : (BitVec.ofInt 8 x).toNat = x.toNat := by
  rw [BitVec.toNat_ofInt]
  omega

/-- The byte form of the interpolation does not wrap. -/
theorem lerp7_toNat (a b : Byte) {w : Nat} (hw : w ≤ 64) : ((lerp7 a b w).toNat : Int) = lerp64 a.toNat b.toNat w := by
  have ha := a.isLt
  have hb := b.isLt
  obtain ⟨hlow, hhigh⟩ := lerp64_mem (lo := 0) (hi := 255) (a := a.toNat) (b := b.toNat) (w := w) (by omega) (by omega)
    (by omega) (by omega)
  rw [lerp7, toNat_ofInt_byte hlow hhigh, Int.toNat_of_nonneg hlow]

/-- The expansion of R347 is the shifted value plus its replication. -/
theorem unq7_toNat {v : Byte} {p : Nat} (hp : 4 ≤ p) (hp' : p ≤ 8) (hv : v.toNat < 2 ^ p) :
    (unq7 v p).toNat = v.toNat * 2 ^ (8 - p) + v.toNat * 2 ^ (8 - p) / 2 ^ p := by
  have hpow : 2 ^ p * 2 ^ (8 - p) = 256 := by rw [← pow_add, Nat.add_sub_cancel' hp']; rfl
  have hshift : v.toNat * 2 ^ (8 - p) < 256 := by
    rw [← hpow]
    exact Nat.mul_lt_mul_of_pos_right hv (by positivity)
  have hlow : v.toNat * 2 ^ (8 - p) / 2 ^ p < 2 ^ (8 - p) := by
    rw [Nat.div_lt_iff_lt_mul (by positivity), Nat.mul_comm (2 ^ (8 - p)), hpow]
    exact hshift
  rw [unq7, if_pos ⟨hp, hp'⟩, BitVec.toNat_or, BitVec.toNat_ushiftRight, BitVec.toNat_shiftLeft, Nat.shiftLeft_eq,
    Nat.mod_eq_of_lt hshift, Nat.shiftRight_eq_div_pow]
  exact mul_two_pow_or_eq_add v.toNat hlow

theorem unq7_eight (v : Byte) : unq7 v 8 = v := by
  have hv := v.isLt
  apply BitVec.eq_of_toNat_eq
  rw [unq7_toNat (by decide) (by decide) hv]
  omega

/-- Settles O44: the expansion as a sum, its ends, and the interpolation without a wrap. -/
theorem bc7Arithmetic : Obligations.Bc7Arithmetic := by
  refine ⟨fun v p => unq7_toNat, unq7_eight, fun p hp hp' => ?_, by decide, by decide, by decide, by decide, by decide,
    by decide, fun a b w hw => ⟨?_, ?_, ?_⟩⟩
  · interval_cases p
    all_goals exact ⟨by decide, by decide⟩
  · apply BitVec.eq_of_toNat_eq
    have := lerp7_toNat a b (w := 0) (by decide)
    rw [Int.natCast_zero, lerp64_zero] at this
    omega
  · apply BitVec.eq_of_toNat_eq
    have := lerp7_toNat a b (w := 64) (by decide)
    rw [show ((64 : Nat) : Int) = 64 from rfl, lerp64_last] at this
    omega
  · have hbetween := lerp64_between (a := a.toNat) (b := b.toNat) (w := w) (by omega) (by omega)
    have := lerp7_toNat a b hw
    omega

/-! ### Unquantizing (R303) -/

/-- The unsigned form on its range. -/
theorem unq6Unsigned_range {c : Int} {p : Nat} (hp' : p ≤ 16) (hc : 0 ≤ c) (hc' : c < 2 ^ p) :
    0 ≤ unq6Unsigned c p ∧ unq6Unsigned c p ≤ 0xFFFF := by
  rw [unq6Unsigned]
  split
  next hwide =>
    have hpow : (2 : Int) ^ p ≤ 2 ^ 16 := pow_le_pow_right₀ (by decide) hp'
    omega
  next hnarrow =>
    have hpos : (0 : Int) < 2 ^ p := by positivity
    split_ifs
    · omega
    · omega
    · exact ⟨Int.ediv_nonneg (by omega) hpos.le,
        Int.le_of_lt_add_one (Int.ediv_lt_of_lt_mul hpos (by omega))⟩

/-- The magnitude of the signed form on its range. -/
theorem unq6Magnitude_natCast {m p : Nat} (hm : 0 < m) :
    unq6Magnitude m p = ((if 2 ^ (p - 1) ≤ m + 1 then 32767 else (m * 32768 + 16384) / 2 ^ (p - 1) : Nat) : Int) := by
  have hpow : (2 : Int) ^ (p - 1) - 1 ≤ m ↔ 2 ^ (p - 1) ≤ m + 1 := by
    have hcast : ((2 ^ (p - 1) : Nat) : Int) = 2 ^ (p - 1) := by norm_cast
    rw [← hcast]
    omega
  rw [unq6Magnitude, if_neg (by omega)]
  simp only [hpow]
  split
  · rfl
  · push_cast
    rfl

/-- The magnitude stays below the largest half. -/
theorem unq6Magnitude_le (m q : Nat) : (if 2 ^ q ≤ m + 1 then 32767 else (m * 32768 + 16384) / 2 ^ q) ≤ 32767 := by
  split
  · exact le_rfl
  · refine Nat.le_of_lt_succ (Nat.div_lt_of_lt_mul ?_)
    omega

/-- The signed form below 16 bits: the sign, and the magnitude of the rule. -/
theorem unq6Signed_eq {c : Int} {p : Nat} (hp : p < 16) :
    unq6Signed c p = c.sign * ((if 2 ^ (p - 1) ≤ c.natAbs + 1 then 32767
      else (c.natAbs * 32768 + 16384) / 2 ^ (p - 1) : Nat) : Int) := by
  rw [unq6Signed, if_neg (by omega)]
  rcases lt_trichotomy c 0 with h | rfl | h
  · rw [if_pos h, Int.sign_eq_neg_one_of_neg h, ← unq6Magnitude_natCast (by omega), show (c.natAbs : Int) = -c by omega]
    ring
  · simp [unq6Magnitude]
  · rw [if_neg (by omega), Int.sign_eq_one_of_pos h, ← unq6Magnitude_natCast (by omega), show (c.natAbs : Int) = c by omega,
      one_mul]

theorem unq6Signed_range {c : Int} {p : Nat} (hp : p < 16) :
    -0x7FFF ≤ unq6Signed c p ∧ unq6Signed c p ≤ 0x7FFF := by
  rw [unq6Signed_eq hp]
  have hle := unq6Magnitude_le c.natAbs (p - 1)
  generalize (if 2 ^ (p - 1) ≤ c.natAbs + 1 then 32767 else (c.natAbs * 32768 + 16384) / 2 ^ (p - 1)) = m at hle ⊢
  rcases lt_trichotomy c 0 with h | rfl | h
  · rw [Int.sign_eq_neg_one_of_neg h]
    omega
  · simp
  · rw [Int.sign_eq_one_of_pos h]
    omega

/-! ### Finishing (R305) and half patterns (R306) -/

theorem finish6_unsigned (v : Int) : finish6 false v = (31 * v).fdiv 64 := by
  rw [Int.fdiv_eq_ediv_of_nonneg _ (by decide), mul_comm]
  rfl

/-- The signed form truncates toward zero. -/
theorem finish6_signed (v : Int) : finish6 true v = (31 * v).tdiv 32 := by
  rw [finish6, if_pos rfl]
  split
  next h =>
    rw [show 31 * v = -(-v * 31) by ring, Int.neg_tdiv, Int.tdiv_eq_ediv_of_nonneg (by omega)]
  next h =>
    rw [mul_comm v, Int.tdiv_eq_ediv_of_nonneg (by omega)]

theorem finish6_unsigned_range {v : Int} (h : 0 ≤ v) (h' : v ≤ 0xFFFF) :
    0 ≤ finish6 false v ∧ finish6 false v ≤ 0x7BFF := by
  show 0 ≤ v * 31 / 64 ∧ v * 31 / 64 ≤ 0x7BFF
  omega

theorem finish6_signed_range {v : Int} (h : -32768 ≤ v) (h' : v ≤ 32767) :
    -0x7C00 ≤ finish6 true v ∧ finish6 true v ≤ 0x7BFF ∧ (finish6 true v = -0x7C00 ↔ v = -32768) := by
  rw [finish6, if_pos rfl]
  split <;> omega

theorem halfBits_unsigned_toNat {f : Int} (h : 0 ≤ f) (h' : f ≤ 0x7BFF) : ((halfBits false f).toNat : Int) = f := by
  have hfin : finished false f = true := decide_eq_true ⟨h, h'⟩
  rw [halfBits, if_pos hfin, Bool.false_and, if_neg (by decide), BitVec.toNat_ofInt]
  omega

theorem halfBits_signed_toNat {f : Int} (h : -0x7C00 ≤ f) (h' : f ≤ 0x7C00) :
    (halfBits true f).toNat = f.natAbs + if f < 0 then 0x8000 else 0 := by
  have hfin : finished true f = true := decide_eq_true ⟨h, h'⟩
  rw [halfBits, if_pos hfin, Bool.true_and]
  by_cases hneg : f < 0
  · have hmag : (BitVec.ofInt 16 (-f)).toNat = f.natAbs := by
      rw [BitVec.toNat_ofInt]
      omega
    have hor := mul_two_pow_or_eq_add 1 (b := f.natAbs) (i := 15) (by omega)
    rw [if_pos (decide_eq_true hneg), if_pos hneg, BitVec.toNat_or, hmag]
    exact hor.trans (Nat.add_comm _ _)
  · rw [if_neg (by simpa using hneg), if_neg hneg, BitVec.toNat_ofInt]
    omega

theorem halfExp_eq (h : BitVec 16) : halfExp h = h.toNat / 1024 % 32 := by
  rw [halfExp, BitVec.extractLsb'_toNat, Nat.shiftRight_eq_div_pow]

theorem halfMant_eq (h : BitVec 16) : halfMant h = h.toNat % 1024 := by
  rw [halfMant, BitVec.extractLsb'_toNat, Nat.shiftRight_zero]

/-- No finished signed pattern is negative zero or a NaN; minus infinity is at the least value only (R310, R312). -/
theorem halfBits_finish6_signed {v : Int} (h : -32768 ≤ v) (h' : v ≤ 32767) :
    halfBits true (finish6 true v) ≠ 0x8000#16 ∧ (halfExp (halfBits true (finish6 true v)) = 31 ↔ v = -32768) ∧
      (v = -32768 → halfBits true (finish6 true v) = 0xFC00#16) := by
  obtain ⟨hlow, hhigh, hleast⟩ := finish6_signed_range h h'
  have hnat := halfBits_signed_toNat hlow (by omega)
  refine ⟨fun heq => ?_, ?_, fun hv => ?_⟩
  · rw [heq, show (0x8000#16).toNat = 0x8000 from rfl] at hnat
    split at hnat <;> omega
  · rw [halfExp_eq, hnat, ← hleast]
    split <;> omega
  · rw [hv]
    decide

/-- Settles O37: each formula in its rule's terms, with the ranges. -/
theorem bc6hRanges : Obligations.Bc6hRanges := by
  refine ⟨fun a b w hw hw' => ⟨lerp64_eq_fdiv a b w, (lerp64_between hw hw').1, (lerp64_between hw hw').2,
      lerp64_zero a b, lerp64_last a b⟩, fun c p _ hp hc hc' => ⟨?_, unq6Unsigned_range hp hc hc'⟩,
    fun c p _ hp _ _ => ⟨unq6Signed_eq hp, unq6Signed_range hp⟩, fun c _ _ => rfl, by decide,
    fun v h h' => ⟨finish6_unsigned v, finish6_unsigned_range h h'⟩, fun v h h' => ⟨finish6_signed v, ?_⟩, by decide,
    fun f => halfBits_unsigned_toNat, fun f => halfBits_signed_toNat, fun v h h' => ?_,
    fun v => halfBits_finish6_signed⟩
  · rw [Int.fdiv_eq_ediv_of_nonneg _ (by positivity)]
    rfl
  · have := finish6_signed_range h h'
    omega
  · obtain ⟨hlow, hhigh⟩ := finish6_unsigned_range h h'
    have := halfBits_unsigned_toNat hlow hhigh
    omega

/-! ### Half pattern to byte (R307, R308) -/

/-- `M·2^E` of a pattern without a sign (R308). -/
def halfValue (n : Nat) : Nat := if n / 1024 = 0 then 2 * (n % 1024) else (1024 + n % 1024) * 2 ^ (n / 1024)

/-- The value does not decrease with the pattern: in one exponent by the mantissa, across exponents by the factor of 2. -/
theorem halfValue_mono {g h : Nat} (hgh : g ≤ h) : halfValue g ≤ halfValue h := by
  have hexp : g / 1024 ≤ h / 1024 := Nat.div_le_div_right hgh
  rcases Nat.eq_or_lt_of_le hexp with heq | hlt
  · have hmant : g % 1024 ≤ h % 1024 := by omega
    rw [halfValue, halfValue, ← heq]
    split
    · omega
    · exact Nat.mul_le_mul_right _ (by omega)
  · have hpow : 2 ^ (g / 1024 + 1) ≤ 2 ^ (h / 1024) := Nat.pow_le_pow_right (by decide) hlt
    have hlow : halfValue g ≤ 1024 * 2 ^ (g / 1024 + 1) := by
      rw [halfValue]
      split
      next hzero => rw [hzero]; omega
      next => rw [pow_succ]; nlinarith [Nat.mod_lt g (by decide : 1024 > 0), Nat.two_pow_pos (g / 1024)]
    have hhigh : 1024 * 2 ^ (h / 1024) ≤ halfValue h := by
      rw [halfValue, if_neg (by omega)]
      exact Nat.mul_le_mul_right _ (by omega)
    omega

/-- The exponent is below that of 1.0 exactly when the value is. -/
theorem halfValue_lt_iff (n : Nat) : halfValue n < 2 ^ 25 ↔ n < 0x3C00 := by
  have hone : halfValue 0x3C00 = 2 ^ 25 := by decide
  constructor
  · intro h
    by_contra hge
    have := halfValue_mono (Nat.le_of_not_lt hge)
    omega
  · intro h
    have hmono := halfValue_mono (Nat.le_pred_of_lt h)
    have hlast : halfValue (0x3C00 - 1) < 2 ^ 25 := by decide
    exact lt_of_le_of_lt hmono hlast

theorem halfScaled_eq {h : BitVec 16} (hh : h.toNat ≤ 0x7C00) : halfScaled h = halfValue h.toNat := by
  rw [halfScaled, halfValue, halfExp_eq, halfMant_eq, Nat.mod_eq_of_lt (by omega : h.toNat / 1024 < 32)]
  split <;> split <;> omega

theorem h2b_negative {h : BitVec 16} (hnan : h.toNat % 0x8000 ≤ 0x7C00) (hsign : 0x8000 ≤ h.toNat) : h2b h = 0#8 := by
  have hlt := h.isLt
  have hbit : h.getLsbD 15 = true := by
    rw [BitVec.getLsbD, Nat.testBit_eq_decide_div_mod_eq, decide_eq_true_eq]
    omega
  rw [h2b, halfExp_eq, halfMant_eq, if_neg (by omega), if_pos hbit]
  rfl

/-- The byte of a pattern without a sign: the nearest integer to 255 times the value, clamped to 1. -/
theorem h2b_toNat {h : BitVec 16} (hh : h.toNat ≤ 0x7C00) :
    (h2b h).toNat = (2 * 255 * min (halfValue h.toNat) (2 ^ 25) + 2 ^ 25) / 2 ^ 26 := by
  have hbit : ¬ h.getLsbD 15 = true := by
    rw [BitVec.getLsbD, Nat.testBit_eq_decide_div_mod_eq, decide_eq_true_eq]
    omega
  have hiff := halfValue_lt_iff h.toNat
  rw [h2b, halfExp_eq, halfMant_eq, if_neg (by omega), if_neg hbit]
  split
  · rw [min_eq_right (by omega)]
    rfl
  · have hvalue : halfValue h.toNat < 2 ^ 25 := hiff.mpr (by omega)
    have hbyte : (255 * halfValue h.toNat + 2 ^ 24) / 2 ^ 25 < 2 ^ 8 := by omega
    have hdouble : 2 * 255 * halfValue h.toNat + 2 ^ 25 = 2 * (255 * halfValue h.toNat + 2 ^ 24) := by omega
    rw [halfScaled_eq hh, BitVec.toNat_ofNat, Nat.mod_eq_of_lt hbyte, min_eq_left (by omega), hdouble,
      show 2 ^ 26 = 2 * 2 ^ 25 from rfl, Nat.mul_div_mul_left _ _ (by decide)]

/-- Settles O38: the value of the pattern, its order, and the samples. -/
theorem halfToByte : Obligations.HalfToByte := by
  refine ⟨fun h => h2b_negative, fun h hh => h2b_toNat hh, fun g h hgh hh => ?_, by decide, by decide⟩
  have := halfValue_mono hgh
  rw [h2b_toNat (hgh.trans hh), h2b_toNat hh]
  omega

end Sys2Proof.Machine
end

section
/-!
PROOF. What a decode delivers (R292, R293, R342, R411 to R415). The mode selector of a BC6H or BC7 block is read at the latch, and
the ROM's entry for it decides what runs next; an entry without a mode raises its event there, with the cursor after the
selector. With an admissible ROM the two bit-packed decoders deliver a whole tile or an event, and the others always a tile.
-/

namespace Sys2Proof.Machine

open Sys2Proof.Reference

/-! ### The entry of the BC6H mode map (R290, R292, R293) -/

/-- What `DEC.BC6H` runs after its mode: the event of the entry, or the body of its mode. -/
def runEntry6 (signed : Bool) : Bc6MapEntry → Dec Tile
  | .reserved => raise .reserved6
  | .invalid => raise .invalid6
  | .mode mi => body6 signed mi

/-- The working registers after the mode of a BC6H block. -/
def workAfterMode6 (code : Nat) : Work :=
  { Work.unwritten with bc6 := { Bc6Regs.unwritten with m6 := some (BitVec.ofNat 5 code) } }

/-- Where the cursor stands after the mode of a BC6H block (R291). -/
def posAfterMode6 (blk : Block) : Nat := if blk.toNat % 4 < 2 then 2 else 5

theorem readMode6_latch (p : Profile) (blk : Block) (s : State) :
    readMode6 (s.latch ⟨p.fmt, blk⟩) =
      .ok (bc6Code blk) ((s.latch ⟨p.fmt, blk⟩).setPos (BitVec.ofNat 8 (posAfterMode6 blk))) := by
  obtain ⟨hshort, hlong⟩ := modeSelectors.1 (s.latch ⟨p.fmt, blk⟩) p rfl rfl
  unfold bc6Code posAfterMode6
  split
  next h => exact hshort h
  next h => exact hlong (Nat.le_of_not_lt h)

/-- `DEC.BC6H` on a block whose mode code has an entry. -/
theorem decodeBc6_latch {p : Profile} {signed : Bool} {blk : Block} {s : State} {e : Bc6MapEntry}
    (h : s.cfg.rom.bc6map[bc6Code blk]? = some e) :
    decodeBc6 signed (s.latch ⟨p.fmt, blk⟩) =
      runEntry6 signed e (((s.latch ⟨p.fmt, blk⟩).setPos (BitVec.ofNat 8 (posAfterMode6 blk))).setWork
        (workAfterMode6 (bc6Code blk))) := by
  rw [decodeBc6, dec_bind_ok (readMode6_latch p blk s), dec_bind_ok (writeWork_apply _ _), dec_bind_ok (romGet_some h)]
  cases e <;> rfl

/-- `DEC.BC6H` on a block whose entry raises an event: the cursor stands after the code, the registers are discarded. -/
theorem runBc6_event {p : Profile} {blk : Block} {s : State} {entry : Bc6MapEntry} {e : Event}
    (h : s.cfg.rom.bc6map[bc6Code blk]? = some entry) (he : ∀ signed, runEntry6 signed entry = raise e) :
    ∃ t, runBc6 p blk s = .next t ∧ DecodeFrame ⟨p.fmt, blk⟩ s t ∧ t.status = eventStatus e ∧
      t.pos = BitVec.ofNat 8 (posAfterMode6 blk) ∧ t.work = Work.unwritten ∧ t.tile = eventTile s.cfg e := by
  have hrun : runBc6 p blk s = _ :=
    runDecode_event ((decodeBc6_latch h).trans ((congrFun (he _) _).trans (raise_apply _ _)))
  exact ⟨_, hrun, decodeFrame_of_runDecode (Tame.decodeBc6 _) hrun, rfl, rfl, rfl, rfl⟩

/-- The default map has the reserved entry for the four reserved codes (R107, R140). -/
theorem romBc6map_reserved {blk : Block} (h : blk.toNat % 32 ∈ [0x13, 0x17, 0x1B, 0x1F]) :
    romBc6map[bc6Code blk]? = some .reserved ∧ posAfterMode6 blk = 5 := by
  have hlow : ¬ blk.toNat % 4 < 2 := by
    have := (mem_reserved_codes_iff.mp h).1
    omega
  refine ⟨?_, if_neg hlow⟩
  rw [bc6Code, if_neg hlow]
  revert h
  generalize blk.toNat % 32 = c
  revert c
  simp only [List.forall_mem_cons]
  decide

/-- Settles O35: the entry of a reserved code, under the form and under both operations. -/
theorem bc6hReservedFill : Obligations.Bc6hReservedFill := by
  intro s hmap
  have hfill : ∀ (p : Profile) {blk : Block}, blk.toNat % 32 ∈ [0x13, 0x17, 0x1B, 0x1F] →
      ∃ t, runBc6 p blk s = .next t ∧ DecodeFrame ⟨p.fmt, blk⟩ s t ∧ t.status = .bc6hReserved ∧ t.pos = 5#8 ∧
        t.work = Work.unwritten ∧ t.tile = Vector.replicate 16 ⟨some 0, some 0, some 0, some 255⟩ := by
    intro p blk h
    obtain ⟨hentry, hpos⟩ := romBc6map_reserved h
    rw [← hmap] at hentry
    have := runBc6_event (p := p) (e := .reserved6) hentry fun _ => rfl
    rwa [hpos] at this
  exact ⟨fun p k rest => hfill p (reserved_code_of_block k rest), fun blk h => ⟨hfill .unsigned h, hfill .signed h⟩⟩

/-- Settles O36: the entry of an invalid code, and the default map's entries. -/
theorem bc6hInvalidFill : Obligations.Bc6hInvalidFill := by
  refine ⟨fun blk s h => ?_, fun blk => ?_⟩
  · have hfill : ∀ p, ∃ t, runBc6 p blk s = .next t ∧ t.status = .bc6hInvalid ∧
        t.tile = Vector.replicate 16 ⟨some 0, some 0, some 0, some 255⟩ := by
      intro p
      obtain ⟨t, hrun, -, hstatus, -, -, htile⟩ := runBc6_event (p := p) (e := .invalid6) h fun _ => rfl
      exact ⟨t, hrun, hstatus, htile⟩
    exact ⟨hfill .unsigned, hfill .signed⟩
  · have hcodes : ∀ c < 32, romBc6map[if c % 4 < 2 then c % 4 else c]? ≠ some .invalid := by decide
    have := hcodes (blk.toNat % 32) (Nat.mod_lt _ (by decide))
    rwa [Nat.mod_mod_of_dvd _ (by decide : 4 ∣ 32)] at this

/-! ### BC7 mode 8 (R342) -/

/-- `DEC.BC7` on a block whose first byte is 0: nothing after bit 7 is read, and no register stays. -/
theorem runBc7_reserved {blk : Block} (s : State) (h : blk.toNat % 256 = 0) :
    ∃ t, runBc7 blk s = .next t ∧ DecodeFrame ⟨9#4, blk⟩ s t ∧ t.status = .bc7Reserved ∧ t.pos = 8#8 ∧
      t.work = Work.unwritten ∧ t.tile = Vector.replicate 16 ⟨some 0, some 0, some 0, some 0⟩ := by
  have hmode := (modeSelectors.2 (s.latch ⟨9#4, blk⟩) rfl rfl).2 h
  have hdecode : decodeBc7 (s.latch ⟨9#4, blk⟩) =
      .error (.event .reserved7) (((s.latch ⟨9#4, blk⟩).setPos 8#8).setWork
        { Work.unwritten with bc7 := { Work.unwritten.bc7 with m7 := some 8 } }) := by
    rw [decodeBc7, dec_bind_ok hmode, dec_bind_ok (writeWork_apply _ _), if_pos rfl]
    exact raise_apply _ _
  have hrun : runBc7 blk s = _ := runDecode_event hdecode
  exact ⟨_, hrun, decodeFrame_of_runDecode Tame.decodeBc7 hrun, rfl, rfl, rfl, rfl⟩

/-- Settles O43: the first byte of the form's block is 0. -/
theorem bc7ReservedFill : Obligations.Bc7ReservedFill := by
  refine ⟨fun rest s => runBc7_reserved s (toNat_append_mod rest 0#8), fun blk s h => ?_⟩
  obtain ⟨t, hrun, -, hstatus, hpos, -, htile⟩ := runBc7_reserved s h
  exact ⟨t, hrun, hstatus, hpos, htile⟩

/-! ### No word faults (R415) -/

/-- The outputs of a completion: the channels of the format, and a status that says so. -/
theorem outputInv_of_completion {t : State} {f : Fmt} (hdone : t.done = true) (hfmt : fmtOfCode t.fmt = some f)
    (htile : CarriesChannels f t.tile) (hun : t.status ≠ .unsupported) (hidle : t.status ≠ .idle) : OutputInv t := by
  refine ⟨fun h => absurd (hdone.symm.trans h) (by decide), fun _ => ?_⟩
  rw [hfmt]
  exact ⟨htile, hun, hidle⟩

/-- The outputs of a refused format select. -/
theorem outputInv_of_refusal {t : State} (hdone : t.done = true) (hfmt : fmtOfCode t.fmt = none)
    (htile : t.tile = Tile.noValue) (hstatus : t.status = .unsupported) : OutputInv t := by
  refine ⟨fun h => absurd (hdone.symm.trans h) (by decide), fun _ => ?_⟩
  rw [hfmt]
  exact ⟨htile, hstatus⟩

/-- A tile given texel by texel carries the channels that every texel carries. -/
theorem carriesChannels_ofFn {f : Fmt} {g : Fin 16 → Texel}
    (h : ∀ i c, ((g i).channel c).isSome = (fmtDesc f).channels.contains c) : CarriesChannels f (Vector.ofFn g) := by
  intro i c
  rw [Vector.get_ofFn]
  exact h i c

/-- A tile with a value in every channel, for a format of four channels. -/
theorem carriesChannels_of_full {f : Fmt} {x : Tile} (hf : ∀ c, (fmtDesc f).channels.contains c = true)
    (h : ∀ i, (x.get i).full) : CarriesChannels f x := by
  intro i c
  obtain ⟨hr, hg, hb, ha⟩ := h i
  rw [hf c]
  cases c
  · exact hr
  · exact hg
  · exact hb
  · exact ha

theorem fillTile_full (p : Rgba) (i : Fin 16) : ((fillTile p).get i).full := by
  rw [fillTile_get]
  exact ⟨rfl, rfl, rfl, rfl⟩

/-- Every event but a refused format delivers a whole tile, with a status of its own (R411). -/
theorem eventTile_full (c : Config) {e : Event} (h : e ≠ .unsupported) :
    (∀ i, ((eventTile c e).get i).full) ∧ eventStatus e ≠ .unsupported ∧ eventStatus e ≠ .idle := by
  cases e
  case unsupported => exact absurd rfl h
  all_goals exact ⟨fillTile_full _, by decide, by decide⟩

/-- A decode of a four-channel format that never stops completes with good outputs. -/
theorem runDecode_of_runs {p : Dec Tile} {w : Word} {s : State} {f : Fmt} (htame : Tame p)
    (hruns : Runs (fun t => t.cfg.rom = s.cfg.rom) p fun x _ => ∀ i, (x.get i).full) (hw : fmtOfCode w.fmt = some f)
    (hf : ∀ c, (fmtDesc f).channels.contains c = true) :
    ∃ t, runDecode p (s.latch w) = .next t ∧ t.done = true ∧ OutputInv t := by
  have hres := hruns (s.latch w) rfl
  have hinside := htame.inside (s.latch w)
  cases hp : p (s.latch w) with
  | ok x t =>
    rw [hp] at hres hinside
    have hfmt : t.fmt = w.fmt := hinside.2.1
    exact ⟨_, runDecode_ok hp, rfl, outputInv_of_completion rfl ((congrArg fmtOfCode hfmt).trans hw)
      (carriesChannels_of_full hf hres) (by simp) (by simp)⟩
  | error e t =>
    rw [hp] at hres hinside
    have hfmt : t.fmt = w.fmt := hinside.2.1
    cases e with
    | event e =>
      obtain ⟨htile, hun, hidle⟩ := eventTile_full t.cfg hres
      exact ⟨_, runDecode_event hp, rfl, outputInv_of_completion rfl ((congrArg fmtOfCode hfmt).trans hw)
        (carriesChannels_of_full hf htile) hun hidle⟩
    | fault f => exact hres.elim
    | refused r => exact hres.elim

/-- A completed decode whose tile is given texel by texel has good outputs. -/
theorem outputInv_of_result {t s : State} {w : Word} {f : Fmt} {g : Fin 16 → Texel} (hframe : DecodeFrame w s t)
    (hstatus : t.status = .ok) (htile : t.tile = Vector.ofFn g) (hw : fmtOfCode w.fmt = some f)
    (hg : ∀ i c, ((g i).channel c).isSome = (fmtDesc f).channels.contains c) : t.done = true ∧ OutputInv t := by
  obtain ⟨-, -, -, -, -, hfmt, -, hdone⟩ := hframe
  refine ⟨hdone, outputInv_of_completion hdone (hfmt ▸ hw) (htile ▸ carriesChannels_ofFn hg) ?_ ?_⟩
  all_goals
    rw [hstatus]
    decide

/-- The outputs of a refusal, whatever the code. -/
theorem outputInv_of_refused_frame {t s : State} {w : Word} (hframe : DecodeFrame w s t) (hw : fmtOfCode w.fmt = none)
    (htile : t.tile = Tile.noValue) (hstatus : t.status = .unsupported) : t.done = true ∧ OutputInv t := by
  obtain ⟨-, -, -, -, -, hfmt, -, hdone⟩ := hframe
  exact ⟨hdone, outputInv_of_refusal hdone (hfmt ▸ hw) htile hstatus⟩

theorem fmtOfCode_refused10 : ∀ f : BitVec 1, fmtOfCode (5#3 ++ f) = none := by decide

theorem fmtOfCode_refused12 : ∀ f : BitVec 2, fmtOfCode (3#2 ++ f) = none := by decide

/-- Settles O47: the fixed layouts by their results, the bit-packed ones by their runs, the refused codes by their event. -/
theorem noHardFailure : Obligations.NoHardFailure := by
  intro w s hrom
  have hfirst := decode_firstLevel w
  have hword := encode_decode w
  have hr := RomHas.of_admissible hrom
  revert hfirst hword
  generalize decode w = i
  intro hfirst hword
  cases i
  case decBC1 col hi =>
    cases hword
    obtain ⟨t, hrun, hframe, hstatus, -, -, htile⟩ := bc1Result col hi s
    exact ⟨t, hrun, outputInv_of_result (f := .bc1) hframe hstatus htile rfl fun i c => by cases c <;> rfl⟩
  case decBC2 a4 col =>
    cases hword
    obtain ⟨t, hrun, hframe, hstatus, -, -, htile⟩ := bc2Result a4 col s
    exact ⟨t, hrun, outputInv_of_result (f := .bc2) hframe hstatus htile rfl fun i c => by cases c <;> rfl⟩
  case decBC3 al col =>
    cases hword
    obtain ⟨t, hrun, hframe, hstatus, -, -, htile⟩ := bc3Result al col s
    exact ⟨t, hrun, outputInv_of_result (f := .bc3) hframe hstatus htile rfl fun i c => by cases c <;> rfl⟩
  case decBC4U g hi =>
    cases hword
    obtain ⟨t, hrun, hframe, hstatus, -, -, htile⟩ := (bc4Result g hi s).1
    exact ⟨t, hrun, outputInv_of_result (f := .bc4u) hframe hstatus htile rfl fun i c => by cases c <;> rfl⟩
  case decBC4S g hi =>
    cases hword
    obtain ⟨t, hrun, hframe, hstatus, -, -, htile⟩ := (bc4Result g hi s).2
    exact ⟨t, hrun, outputInv_of_result (f := .bc4s) hframe hstatus htile rfl fun i c => by cases c <;> rfl⟩
  case decBC5U g k =>
    cases hword
    obtain ⟨t, hrun, hframe, hstatus, -, -, htile⟩ := (bc5Result g k s).1
    exact ⟨t, hrun, outputInv_of_result (f := .bc5u) hframe hstatus htile rfl fun i c => by cases c <;> rfl⟩
  case decBC5S g k =>
    cases hword
    obtain ⟨t, hrun, hframe, hstatus, -, -, htile⟩ := (bc5Result g k s).2
    exact ⟨t, hrun, outputInv_of_result (f := .bc5s) hframe hstatus htile rfl fun i c => by cases c <;> rfl⟩
  case decBC6HU blk =>
    cases hword
    exact runDecode_of_runs (f := .bc6hu) (Tame.decodeBc6 false) (decodeBc6_runs hr false) rfl fun c => by cases c <;> rfl
  case decBC6HS blk =>
    cases hword
    exact runDecode_of_runs (f := .bc6hs) (Tame.decodeBc6 true) (decodeBc6_runs hr true) rfl fun c => by cases c <;> rfl
  case decBC7 blk =>
    cases hword
    exact runDecode_of_runs (f := .bc7) Tame.decodeBc7 (decodeBc7_runs hr) rfl fun c => by cases c <;> rfl
  case unsupportedFmt10_11 f blk =>
    cases hword
    obtain ⟨t, hrun, hframe, htile, hstatus, -⟩ := (unsupportedRefused blk s).1 f
    exact ⟨t, hrun, outputInv_of_refused_frame hframe (fmtOfCode_refused10 f) htile hstatus⟩
  case unsupportedFmt12_15 f blk =>
    cases hword
    obtain ⟨t, hrun, hframe, htile, hstatus, -⟩ := (unsupportedRefused blk s).2 f
    exact ⟨t, hrun, outputInv_of_refused_frame hframe (fmtOfCode_refused12 f) htile hstatus⟩
  all_goals cases hfirst

/-! ### The default ROM and the worked geometry -/

theorem romAdmissible_default : romAdmissible romDefault = true := by decide +kernel

/-- Settles O49: the checks are evaluated on the default ROM, and on the one with a region id above the count. -/
theorem defaultRomInvariants : Obligations.DefaultRomInvariants := by
  refine ⟨by decide +kernel, ?_, ?_⟩
  · have hbuilt : (romAdmissible configDefault.rom && decide (configDefault.byteOrder.Perm [.R, .G, .B, .A])) = true := by
      rw [show configDefault.rom = romDefault from rfl, romAdmissible_default]
      decide
    rw [configure, if_pos hbuilt]
    rfl
  · rw [configure, if_neg (by decide +kernel)]

/-- Settles O51: the numbers of R395 are evaluated. -/
theorem workedGeometry : Obligations.WorkedGeometry := by
  refine ⟨by decide, by decide, by decide, by decide, by decide, by decide, by decide, by decide, by decide, by decide,
    by decide, by decide, fun t => rfl⟩

end Sys2Proof.Machine
end

section
/-!
PROOF. The host's buffer (R79, R386 to R389): the levels of an image lie one after the other and fill the buffer, a tile's bytes go
to the addresses of its own texels, and two blocks of a level have no address in common.
-/

namespace Sys2Proof.Machine

/-! ### Levels (R386 to R388) -/

/-- Level `k` of an image: its halved size, and its place after the earlier levels. -/
theorem imageLevels_getElem? {f : Fmt} {r : ImageRequest} {k : Nat} {l : LevelDesc} (h : (imageLevels f r)[k]? = some l) :
    l = levelDesc f (max 1 (r.width.toNat >>> k)) (max 1 (r.height.toNat >>> k))
      (((imageLevels f r).take k).map (·.dataLength)).sum := by
  have := levelsFrom_getElem? h
  rwa [Nat.zero_add, Nat.zero_add] at this

/-- A level has the shape of R386 wherever it lies. -/
theorem levelInv_levelDesc {f : Fmt} {w h o size : Nat} (hfits : o + (levelDesc f w h o).dataLength ≤ size) :
    LevelInv f size (levelDesc f w h o) := ⟨rfl, rfl, hfits⟩

/-- The blocks of a positive size cover it, and none is to spare. -/
theorem calcBlocks_covers {n : Nat} (h : 0 < n) :
    0 < calcBlocks n ∧ 4 * (calcBlocks n - 1) < n ∧ n ≤ 4 * calcBlocks n := by
  rw [calcBlocks_eq]
  omega

/-- Settles O52: each level by its place in the list. -/
theorem levelsAreSequential : Obligations.LevelsAreSequential := by
  intro f r k l hl
  have hfits := sum_take_le hl
  have hplace := imageLevels_getElem? hl
  have hoffset : l.dataOffset = (((imageLevels f r).take k).map (·.dataLength)).sum := by rw [hplace]; rfl
  have hwidth : 0 < max 1 (r.width.toNat >>> k) := by omega
  have hheight : 0 < max 1 (r.height.toNat >>> k) := by omega
  rw [← hoffset] at hfits hplace
  refine ⟨hoffset, hfits, ?_, ?_⟩
  · rw [hplace] at hfits ⊢
    exact levelInv_levelDesc hfits
  · rw [hplace]
    exact ⟨(calcBlocks_covers hwidth).2.1, (calcBlocks_covers hwidth).2.2, (calcBlocks_covers hheight).2⟩

/-- Every level of an image's plan lies inside its buffer and has a block. -/
theorem imageLevels_inv {f : Fmt} {r : ImageRequest} {l : LevelDesc} (h : l ∈ imageLevels f r) :
    LevelInv f (bufferSize (imageLevels f r)) l ∧ 0 < l.blockCount := by
  obtain ⟨k, hk⟩ := List.mem_iff_getElem?.1 h
  obtain ⟨-, -, hinv, hw, hw', hh, hh'⟩ := levelsAreSequential f r k l hk
  exact ⟨hinv, Nat.mul_pos (by omega) (by omega)⟩

/-! ### Storing a tile (R79, R389) -/

section
variable {order : List Channel} {f : Fmt} {size k : Nat} {l : LevelDesc} {x : Tile}

/-- A byte of a tile lies at a byte of a texel. -/
theorem channel_index_lt {j : Nat} {c : Channel} (ho : order.Perm [.R, .G, .B, .A])
    (h : (orderedChannels order f)[j]? = some c) : j < (fmtDesc f).pixelDepthBytes := by
  rw [← orderedChannels_length ho f]
  exact (List.getElem?_eq_some_iff.1 h).1

/-- Every byte of a tile that carries the format's channels has a value and an address inside the buffer. -/
theorem tileBytes_storable (ho : order.Perm [.R, .G, .B, .A]) (hl : LevelInv f size l) (hk : k < l.blockCount)
    (hx : CarriesChannels f x) {c : Nat × Option Byte} (hc : c ∈ tileBytes order f l k x) : c.2.isSome ∧ c.1 < size := by
  obtain ⟨i, j, ch, hch, rfl⟩ := mem_tileBytes.1 hc
  have hmem : ch ∈ orderedChannels order f := List.mem_of_getElem? hch
  obtain ⟨-, -, hfits⟩ := id hl
  exact ⟨(hx i ch).trans (List.mem_filter.1 hmem).2,
    Nat.lt_of_lt_of_le (texelAddr_lt hl hk i (channel_index_lt ho hch)) hfits⟩

end

/-- Settles O53: the bytes of a tile can all be stored, lie at distinct addresses, and are at no others. -/
theorem tileStored : Obligations.TileStored := by
  intro order f l k x m ho hm hl hk hx
  obtain ⟨m', hstore⟩ := storeBytes_ok fun c hc => tileBytes_storable ho hl hk hx hc
  refine ⟨m', hstore, storeBytes_wf hm hstore, storeBytes_size hstore, fun i j c hc => ?_, fun a ha => ?_⟩
  · exact storeBytes_read (tileBytes_nodup ho hl hk x) hstore (mem_tileBytes.2 ⟨i, j, c, hc, rfl⟩)
  · refine storeBytes_read_other hstore fun c hc => ?_
    obtain ⟨i, j, ch, hch, rfl⟩ := mem_tileBytes.1 hc
    exact (ha i j (channel_index_lt ho hch)).symm

/-- Settles O54: an address determines its block. -/
theorem tilesDisjoint : Obligations.TilesDisjoint := by
  intro order f size l k k' x y a b ho hl hk hk' hne ha hb heq
  obtain ⟨i, j, ch, hch, rfl⟩ := mem_tileBytes.1 ha
  obtain ⟨i', j', ch', hch', rfl⟩ := mem_tileBytes.1 hb
  exact hne (texelAddr_inj hl hk hk' (channel_index_lt ho hch) (channel_index_lt ho hch') heq).1

end Sys2Proof.Machine
end

section
/-!
PROOF. The host's moves (R380 to R394, R452) and the invariant of the machine. Each move is said once; from these, and from what a
decode delivers, every state that meets the invariant has a next one, and that one meets it too. O59 and O60 are the two halves
of this.
-/

namespace Sys2Proof.Machine

/-! ### The structural checks (R391, R452) -/

theorem hostStep_submitted {s : State} (h : s.host.phase = .submitted) :
    hostStep s = .next (s.setHost (openImage s.host)) := by rw [hostStep, h]

theorem openImage_fail {h : HostRec} {e : StructuralError} (hcheck : checkRequest h.request = .error e) :
    openImage h = failImage e h := by rw [openImage, hcheck]

theorem openImage_ok {h : HostRec} {f : Fmt} {r : ImageRequest} (hcheck : checkRequest h.request = .ok (f, r)) :
    openImage h = { h with
      phase := .ready
      fmt := fmtCode f
      levels := imageLevels f r
      level := 0
      index := 0
      window := []
      buffer := ⟨bufferSize (imageLevels f r), []⟩ } := by rw [openImage, hcheck]

theorem checkRequest_unsupported {r : ImageRequest} (h : dispatch r.code = none) :
    checkRequest (some r) = .error (.unsupportedFormat r.code) := by rw [checkRequest, h]

theorem checkRequest_dispatched {r : ImageRequest} {f : Fmt} (h : dispatch r.code = some f) :
    checkRequest (some r) = if r.width = 0 ∨ r.height = 0 then .error .nonPositiveSize else .ok (f, r) := by
  rw [checkRequest, h]

/-- Settles O55: each outcome of the checks, and the host's move on it. -/
theorem structuralErrors : Obligations.StructuralErrors := by
  intro s r hrst hstart hphase
  have hstep : step s = .next (s.setHost (openImage s.host)) :=
    (step_host hrst hstart).trans (hostStep_submitted hphase)
  refine ⟨fun hreq => ?_, fun hreq hcode => ?_, fun hreq hcode hsize => ?_, fun e => ?_, fun f hreq hcode hw hh => ?_⟩
  · rw [hstep, openImage_fail (by rw [hreq]; rfl)]
    rfl
  · rw [hstep, openImage_fail (by rw [hreq]; exact checkRequest_unsupported hcode)]
    rfl
  · obtain ⟨f, hf⟩ := Option.ne_none_iff_exists'.1 hcode
    rw [hstep, openImage_fail (by rw [hreq, checkRequest_dispatched hf, if_pos hsize])]
    rfl
  · exact step_host hrst hstart
  · have hsize : ¬(r.width = 0 ∨ r.height = 0) := fun h => h.elim hw hh
    rw [hstep, openImage_ok (by rw [hreq, checkRequest_dispatched hcode, if_neg hsize])]
    rfl

/-! ### Presenting a block (R381, R384, R388, R390) -/

/-- All that the host's move on a level can do: present the next whole block, or end the image. -/
theorem present_spec (s : State) {f : Fmt} {l : LevelDesc} (hrow : fmtBlockBytes f ≤ l.blocksPerRow * fmtBlockBytes f) :
    (fmtBlockBytes f ≤ (s.host.window ++ s.host.stream).length →
      ∃ w st, present s f l = (s.setHost { s.host with phase := .waiting, window := w, stream := st }).setPort
          { s.port with
            fmt := s.host.fmt
            blk := blockOfBytes ((s.host.window ++ s.host.stream).take (fmtBlockBytes f))
            start := true } ∧
        w ++ st = (s.host.window ++ s.host.stream).drop (fmtBlockBytes f) ∧
        (s.host.window.length ≤ l.blocksPerRow * fmtBlockBytes f →
          w.length + fmtBlockBytes f ≤ l.blocksPerRow * fmtBlockBytes f)) ∧
    ((s.host.window ++ s.host.stream).length < fmtBlockBytes f → present s f l = s.setHost (finishImage s.host)) := by
  obtain ⟨w, st, hrefill, hbytes, hwindow, hused⟩ := refill_spec hrow s.host
  have hlen := congrArg List.length hbytes
  rw [List.length_append] at hlen
  rw [← hbytes]
  by_cases hshort : w.length < fmtBlockBytes f
  · have hst := hused hshort
    subst hst
    refine ⟨fun h => absurd h (by simpa using hshort), fun _ => ?_⟩
    unfold present
    simp only [hrefill]
    rw [if_pos hshort, ← hrefill, finishImage_refill]
  · have htake : (w ++ st).take (fmtBlockBytes f) = w.take (fmtBlockBytes f) :=
      List.take_append_of_le_length (by omega)
    have hdrop : (w ++ st).drop (fmtBlockBytes f) = w.drop (fmtBlockBytes f) ++ st :=
      List.drop_append_of_le_length (by omega)
    refine ⟨fun _ => ⟨w.drop (fmtBlockBytes f), st, ?_, hdrop.symm, fun h => ?_⟩, fun h => ?_⟩
    · unfold present
      simp only [hrefill]
      rw [if_neg hshort, htake]
    · have := hwindow h
      rw [List.length_drop]
      omega
    · rw [List.length_append] at h
      omega

theorem hostStep_ready {s : State} (h : s.host.phase = .ready) : hostStep s = .next (hostReady s) := by rw [hostStep, h]

theorem hostReady_level {s : State} {f : Fmt} {l : LevelDesc} (hf : fmtOfCode s.host.fmt = some f)
    (hl : s.host.levels[s.host.level]? = some l) : hostReady s = present s f l := by rw [hostReady, hf, hl]

theorem hostReady_noLevel {s : State} (hl : s.host.levels[s.host.level]? = none) :
    hostReady s = s.setHost (finishImage s.host) := by
  rw [hostReady, hl]
  cases fmtOfCode s.host.fmt <;> rfl

/-- Settles O56: the move on the level, and the end of the image. -/
theorem hostPresents : Obligations.HostPresents := by
  intro s f hrst hstart hphase hf
  have hstep : step s = .next (hostReady s) := (step_host hrst hstart).trans (hostStep_ready hphase)
  have hended : finishImage s.host = { s.host with
      phase := .finished
      stream := []
      window := []
      buffer := ⟨0, []⟩
      output := some ⟨(fmtDesc f).layout, s.host.levels, s.host.buffer⟩ } := by
    rw [← finishImage_output hf]
    rfl
  refine ⟨fun l hl hpos => ?_, fun hl => ?_⟩
  · obtain ⟨hblock, hend⟩ := present_spec s (Nat.le_mul_of_pos_left (fmtBlockBytes f) hpos)
    rw [hstep, hostReady_level hf hl]
    refine ⟨fun h => ?_, fun h => ?_⟩
    · obtain ⟨w, st, hpresent, hrest, hwindow⟩ := hblock h
      exact ⟨_, by rw [hpresent], rfl, hrest, hwindow⟩
    · rw [hend h, hended]
  · rw [hstep, hostReady_noLevel hl, hended]

/-! ### Collecting a block (R381, R385, R393, R460) -/

theorem hostStep_waiting {s : State} (h : s.host.phase = .waiting) : hostStep s = hostWaiting s := by rw [hostStep, h]

theorem hostWaiting_busy {s : State} (h : s.done = false) : hostWaiting s = .next s := by
  rw [hostWaiting, if_neg (by rw [h]; decide)]

theorem hostWaiting_done {s : State} {f : Fmt} {l : LevelDesc} (h : s.done = true) (hf : fmtOfCode s.host.fmt = some f)
    (hl : s.host.levels[s.host.level]? = some l) : hostWaiting s = collect s f l := by
  rw [hostWaiting, if_pos h, hf, hl]

theorem hostWaiting_noLevel {s : State} (h : s.done = true) (hl : s.host.levels[s.host.level]? = none) :
    hostWaiting s = .next (s.setHost (finishImage s.host)) := by
  rw [hostWaiting, if_pos h, hl]
  cases fmtOfCode s.host.fmt <;> rfl

/-- The host's record after a block of `l` has been collected, with the buffer `m`. -/
def collected (s : State) (l : LevelDesc) (m : Memory) : HostRec :=
  { s.host with
    phase := .ready
    buffer := m
    delivered := s.host.delivered ++ [(s.tile, s.status)]
    index := if s.host.index + 1 < l.blockCount then s.host.index + 1 else 0
    level := if s.host.index + 1 < l.blockCount then s.host.level else s.host.level + 1 }

theorem advance_eq_collected (s : State) (l : LevelDesc) (m : Memory) :
    advance l { s.host with phase := .ready, buffer := m, delivered := s.host.delivered ++ [(s.tile, s.status)] } =
      collected s l m := advance_spec l _

theorem collect_next {s : State} {f : Fmt} {l : LevelDesc} {m : Memory}
    (h : if s.status = .unsupported then m = s.host.buffer
      else storeTile s.cfg.byteOrder f l s.host.index s.tile s.host.buffer = .ok m) :
    collect s f l = .next (s.setHost (collected s l m)) := by
  rw [← advance_eq_collected]
  unfold collect
  split at h
  next hun =>
    rw [if_pos hun, h]
  next hun =>
    rw [if_neg hun, h]

/-- Settles O57: the wait, and the collection. -/
theorem hostCollects : Obligations.HostCollects := by
  intro s f l hrst hstart hphase hf hl
  have hstep : step s = hostWaiting s := (step_host hrst hstart).trans (hostStep_waiting hphase)
  refine ⟨fun hdone => ?_, fun m hdone hm => ?_⟩
  · rw [hstep, hostWaiting_busy hdone]
  · rw [hstep, hostWaiting_done hdone hf hl, collect_next hm]
    rfl

/-! ### The host's record in the invariant -/

/-- The plan of a call in progress: its levels lie inside the buffer, and the position is a block of the plan. -/
def HostRec.Planned (h : HostRec) : Prop :=
  ∃ f, fmtOfCode h.fmt = some f ∧ (∀ l ∈ h.levels, LevelInv f h.buffer.size l ∧ 0 < l.blockCount) ∧
    ∀ l, h.levels[h.level]? = some l → h.index < l.blockCount

/-- What the invariant says of the host's record alone. -/
def HostRec.Sound (h : HostRec) : Prop :=
  h.buffer.wf ∧ (∀ o, h.output = some o → o.buffer.wf) ∧
  (∀ e, h.phase = .finished ∨ h.phase = .failed e → h.stream = [] ∧ h.window = [] ∧ h.buffer = ⟨0, []⟩) ∧
  (h.phase = .ready ∨ h.phase = .waiting → h.Planned)

/-- What the invariant says of a wait: the started or finished decode is of the image's format. -/
def WaitInv (s : State) : Prop :=
  s.host.phase = .waiting → (s.port.start = true → s.port.fmt = s.host.fmt) ∧
    (s.port.start = false → s.done = true → s.fmt = s.host.fmt)

theorem hostInv_iff {s : State} : HostInv s ↔ s.host.Sound ∧ WaitInv s :=
  ⟨fun ⟨hb, ho, he, hp, hw⟩ => ⟨⟨hb, ho, he, hp⟩, hw⟩, fun ⟨⟨hb, ho, he, hp⟩, hw⟩ => ⟨hb, ho, he, hp, hw⟩⟩

theorem waitInv_of_phase {s : State} (h : s.host.phase ≠ .waiting) : WaitInv s := fun h' => absurd h' h

/-- While a call runs, the record is sound when its memories are canonical and its plan stands. -/
theorem HostRec.Sound.of_planned {h : HostRec} (hphase : h.phase = .ready ∨ h.phase = .waiting) (hb : h.buffer.wf)
    (ho : ∀ o, h.output = some o → o.buffer.wf) (hp : h.Planned) : h.Sound := by
  refine ⟨hb, ho, fun e he => ?_, fun _ => hp⟩
  obtain hphase | hphase := hphase <;> simp [hphase] at he

/-- A host that is idle, or has been handed an image, holds no memory. -/
theorem soundHost_none : HostRec.none.Sound := by
  refine ⟨Memory.empty_wf 0, fun o ho => (by cases ho), fun e he => ⟨rfl, rfl, rfl⟩, fun h => ?_⟩
  obtain h | h := h <;> cases h

/-- The end of a call leaves no buffer, and hands out the one that was held. -/
theorem HostRec.Sound.finishImage {h : HostRec} (hs : h.Sound) : (finishImage h).Sound := by
  obtain ⟨hb, -, -, -⟩ := hs
  refine ⟨Memory.empty_wf 0, fun o ho => ?_, fun _ _ => ⟨rfl, rfl, rfl⟩, fun h' => ?_⟩
  · rw [finishImage_output_buffer ho]
    exact hb
  · obtain h' | h' := h' <;> cases h'

theorem soundHost_failImage (e : StructuralError) (h : HostRec) : (failImage e h).Sound := by
  refine ⟨Memory.empty_wf 0, fun o ho => (by cases ho), fun _ _ => ⟨rfl, rfl, rfl⟩, fun h' => ?_⟩
  obtain h' | h' := h' <;> cases h'

/-- The structural checks fail, or plan an image whose levels fill the new buffer. -/
theorem HostRec.Sound.openImage {h : HostRec} (hs : h.Sound) :
    (openImage h).Sound ∧ (openImage h).phase ≠ .waiting := by
  obtain ⟨-, ho, -, -⟩ := hs
  cases hcheck : checkRequest h.request with
  | error e =>
    rw [openImage_fail hcheck]
    exact ⟨soundHost_failImage e h, fun h' => by cases h'⟩
  | ok fr =>
    obtain ⟨f, r⟩ := fr
    rw [openImage_ok hcheck]
    refine ⟨.of_planned (.inl rfl) (Memory.empty_wf _) ho
      ⟨f, fmtOfCode_fmtCode f, fun l hl => imageLevels_inv hl, fun l hl => ?_⟩, fun h' => by cases h'⟩
    exact (imageLevels_inv (List.mem_of_getElem? hl)).2

/-- After a block has been collected the position is the next block of the plan. -/
theorem soundHost_collected {s : State} {l : LevelDesc} {m : Memory} (hs : s.host.Sound) (hplan : s.host.Planned)
    (hl : s.host.levels[s.host.level]? = some l) (hm : m.wf) (hsize : m.size = s.host.buffer.size) :
    (collected s l m).Sound := by
  obtain ⟨-, ho, -, -⟩ := hs
  obtain ⟨f, hf, hlevels, -⟩ := hplan
  refine .of_planned (.inl rfl) hm ho ⟨f, hf, fun l' hl' => ?_, fun l' hl' => ?_⟩
  · have hbuffer : (collected s l m).buffer.size = s.host.buffer.size := hsize
    rw [hbuffer]
    exact hlevels l' hl'
  · by_cases hnext : s.host.index + 1 < l.blockCount
    · have hlevel : (collected s l m).level = s.host.level := if_pos hnext
      have hindex : (collected s l m).index = s.host.index + 1 := if_pos hnext
      rw [hlevel] at hl'
      obtain rfl := Option.some.inj (hl.symm.trans hl')
      rwa [hindex]
    · have hindex : (collected s l m).index = 0 := if_neg hnext
      rw [hindex]
      exact (hlevels l' (List.mem_of_getElem? hl')).2

/-! ### The invariant (R34, R37, R84, R86, R384 to R394, R415) -/

/-- Settles O58: the values after reset, and the record of a submitted image. -/
theorem invariantStarts : Obligations.InvariantStarts := by
  refine ⟨⟨⟨romAdmissible_default, by decide⟩, Nat.zero_le _, ⟨fun _ => rfl, fun h => (by cases h)⟩,
    hostInv_iff.2 ⟨soundHost_none, waitInv_of_phase (by decide)⟩⟩, ?_⟩
  rintro s r bs ⟨hcfg, hcursor, hout, -⟩
  refine ⟨hcfg, hcursor, hout, hostInv_iff.2 ⟨⟨Memory.empty_wf 0, fun o ho => (by cases ho), fun e he => ?_, fun h => ?_⟩,
    waitInv_of_phase fun h => by cases h⟩⟩
  · obtain he | he := he <;> cases he
  · obtain h | h := h <;> cases h

/-- A move that changes the host's record only keeps the invariant when the record stays sound. -/
theorem inv_setHost {s : State} {h : HostRec} (hinv : Inv s) (hs : h.Sound) (hphase : h.phase ≠ .waiting) :
    Inv (s.setHost h) := by
  obtain ⟨hcfg, hcursor, hout, -⟩ := hinv
  exact ⟨hcfg, hcursor, hout, hostInv_iff.2 ⟨hs, waitInv_of_phase hphase⟩⟩

/-- A block is presented with the image's format, and the plan stands. -/
theorem inv_hostReady {s : State} (hinv : Inv s) (hphase : s.host.phase = .ready) : Inv (hostReady s) := by
  obtain ⟨hcfg, hcursor, hout, hhost⟩ := id hinv
  obtain ⟨hs, -⟩ := hostInv_iff.1 hhost
  obtain ⟨hb, ho, -, hplan⟩ := id hs
  have hended : Inv (s.setHost (finishImage s.host)) := inv_setHost hinv hs.finishImage fun h => by cases h
  obtain ⟨f, hf, hlevels, hindex⟩ := hplan (.inl hphase)
  cases hl : s.host.levels[s.host.level]? with
  | none =>
    rw [hostReady_noLevel hl]
    exact hended
  | some l =>
    rw [hostReady_level hf hl]
    have hpos : 0 < l.blocksPerRow := Nat.pos_of_mul_pos_right (hlevels l (List.mem_of_getElem? hl)).2
    obtain ⟨hblock, hend⟩ := present_spec s (Nat.le_mul_of_pos_left (fmtBlockBytes f) hpos)
    obtain hwhole | hpart := le_or_gt (fmtBlockBytes f) (s.host.window ++ s.host.stream).length
    · obtain ⟨w, st, hpresent, -, -⟩ := hblock hwhole
      rw [hpresent]
      refine ⟨hcfg, hcursor, hout, hostInv_iff.2 ⟨.of_planned (.inr rfl) hb ho ⟨f, hf, hlevels, hindex⟩, fun _ => ?_⟩⟩
      exact ⟨fun _ => rfl, fun h => (by cases h)⟩
    · rw [hend hpart]
      exact hended

/-- A finished decode is collected: its tile has the image's channels, and its block lies inside the buffer. -/
theorem hostWaiting_runs {s : State} (hinv : Inv s) (hstart : s.port.start = false) (hphase : s.host.phase = .waiting) :
    ∃ t, hostWaiting s = .next t ∧ Inv t := by
  obtain ⟨⟨-, horder⟩, -, ⟨-, hout⟩, hhost⟩ := id hinv
  obtain ⟨hs, hwait⟩ := hostInv_iff.1 hhost
  obtain ⟨hb, -, -, hplan⟩ := id hs
  cases hdone : s.done with
  | false => exact ⟨s, hostWaiting_busy hdone, hinv⟩
  | true =>
    cases hl : s.host.levels[s.host.level]? with
    | none => exact ⟨_, hostWaiting_noLevel hdone hl, inv_setHost hinv hs.finishImage fun h => by cases h⟩
    | some l =>
      obtain ⟨f, hf, hlevels, hindex⟩ := hplan (.inr hphase)
      have hchannels : CarriesChannels f s.tile ∧ s.status ≠ .unsupported ∧ s.status ≠ .idle := by
        have := hout hdone
        rwa [(hwait hphase).2 hstart hdone, hf] at this
      obtain ⟨htile, hun, -⟩ := hchannels
      obtain ⟨m, hstore, hm, hsize, -, -⟩ := tileStored s.cfg.byteOrder f l s.host.index s.tile s.host.buffer horder hb
        (hlevels l (List.mem_of_getElem? hl)).1 (hindex l hl) htile
      refine ⟨s.setHost (collected s l m), ?_, inv_setHost hinv
        (soundHost_collected hs (hplan (.inr hphase)) hl hm hsize) fun h => by cases h⟩
      rw [hostWaiting_done hdone hf hl]
      exact collect_next (by rwa [if_neg hun])

/-- Every move of the host answers a next state, which meets the invariant. -/
theorem hostStep_runs {s : State} (hinv : Inv s) (hstart : s.port.start = false) : ∃ t, hostStep s = .next t ∧ Inv t := by
  obtain ⟨-, -, -, hhost⟩ := id hinv
  obtain ⟨hs, -⟩ := hostInv_iff.1 hhost
  cases hphase : s.host.phase with
  | idle | finished | failed e => exact ⟨s, by rw [hostStep, hphase], hinv⟩
  | submitted => exact ⟨_, hostStep_submitted hphase, inv_setHost hinv hs.openImage.1 hs.openImage.2⟩
  | ready => exact ⟨_, hostStep_ready hphase, inv_hostReady hinv hphase⟩
  | waiting =>
    rw [hostStep_waiting hphase]
    exact hostWaiting_runs hinv hstart hphase

/-- The cursor of a decode stays inside the block. -/
theorem cursorInv_of_exec {w : Word} {s t : State} (h : exec (decode w) s = .next t) : CursorInv t := by
  rw [exec_decode] at h
  obtain ⟨-, -, -, -, -, -, -, hpos⟩ := runDecode_frame (Tame.pieceOf _) h
  exact hpos (Nat.zero_le _)

/-- A sampled `START` runs a decode that delivers good outputs and leaves the host alone. -/
theorem startStep_runs {s : State} (hinv : Inv s) (hstart : s.port.start = true) :
    ∃ t, exec (decode (portWord s)) (s.setPort { s.port with start := false }) = .next t ∧ Inv t := by
  obtain ⟨hcfg, -, -, hhost⟩ := hinv
  obtain ⟨hs, hwait⟩ := hostInv_iff.1 hhost
  obtain ⟨t, hrun, -, hout⟩ := noHardFailure (portWord s) (s.setPort { s.port with start := false }) hcfg.1
  obtain ⟨hcfg', hport, -, hhost', -, hfmt, -, -⟩ := decodeOperationsFrame _ _ _ t (encode_decode (portWord s)) hrun
  refine ⟨t, hrun, hcfg' ▸ hcfg, cursorInv_of_exec hrun, hout, hostInv_iff.2 ⟨hhost' ▸ hs, fun hphase => ?_⟩⟩
  rw [hhost'] at hphase ⊢
  rw [hport]
  exact ⟨fun h => (by cases h), fun _ _ => hfmt.trans ((hwait hphase).1 hstart)⟩

/-- A served reset request leaves the outputs as after reset, and the host's record alone. -/
theorem inv_resetBlock {s : State} (hinv : Inv s) : Inv s.resetBlock := by
  obtain ⟨hcfg, -, -, hhost⟩ := hinv
  obtain ⟨hs, -⟩ := hostInv_iff.1 hhost
  exact ⟨hcfg, Nat.zero_le _, ⟨fun _ => rfl, fun h => (by cases h)⟩,
    hostInv_iff.2 ⟨hs, fun _ => ⟨fun h => (by cases h), fun _ h => by cases h⟩⟩⟩

/-- From every state that meets the invariant a step answers a next state, which meets it too. -/
theorem step_runs {s : State} (hinv : Inv s) : ∃ t, step s = .next t ∧ Inv t := by
  cases hrst : s.port.rst with
  | true => exact ⟨_, step_reset hrst, inv_resetBlock hinv⟩
  | false =>
    cases hstart : s.port.start with
    | true =>
      rw [step_start hrst hstart]
      exact startStep_runs hinv hstart
    | false =>
      rw [step_host hrst hstart]
      exact hostStep_runs hinv hstart

/-- Settles O59: the next state is the one that `step_runs` gives. -/
theorem stepKeepsInvariant : Obligations.StepKeepsInvariant := by
  intro s t hinv hstep
  obtain ⟨t', hstep', ht'⟩ := step_runs hinv
  rw [hstep'] at hstep
  cases hstep
  exact ht'

/-- Settles O60. -/
theorem stepNeverStops : Obligations.StepNeverStops := by
  intro s hinv
  obtain ⟨t, hstep, -⟩ := step_runs hinv
  exact ⟨t, hstep⟩

end Sys2Proof.Machine
end

section
/-!
PROOF. The BC6H decode of a block that has a mode's pattern (R290 to R309). The header loop gathers what the layout's positions
hold, because the ROM's table and the layout place the same bits; the endpoints, the indices and the interpolation are the
reference's, step by step. One theorem for the two-region layouts and one for the one-region layouts then give every form (O31 to
O33), and the completion of every block without a reserved code (O34).
-/

namespace Sys2Proof.Machine

open Sys2Proof.Reference

/-! ### The endpoints (R297 to R299) -/

/-- The letters that a mode with `pc + 1` regions has. -/
def UsedLetter (pc : Nat) (l : Letter) : Prop := l = .W ∨ l = .X ∨ pc = 1

theorem extendEp_self (m : Bc6Mode) (l : Letter) (val : Letter → Rgb3 → Int) (c : Rgb3) :
    extendEp m l val l c = sext (prec6 m l c) (val l c) := if_pos rfl

theorem extendEp_other (m : Bc6Mode) {l l' : Letter} (h : l' ≠ l) (val : Letter → Rgb3 → Int) (c : Rgb3) :
    extendEp m l val l' c = val l' c := if_neg h

/-- An endpoint channel after `SignExtend`: the base is extended in the signed profile, a delta when signed or transformed. -/
theorem signedEp_apply {m : Bc6Mode} {l : Letter} (hl : UsedLetter m.pc l) (signed : Bool) (val : Letter → Rgb3 → Int)
    (c : Rgb3) :
    signedEp m signed val l c =
      if signed || (m.tr && l != .W) then sext (prec6 m l c) (val l c) else val l c := by
  unfold signedEp
  cases l with
  | W => split_ifs <;> simp_all [extendEp_self, extendEp_other]
  | X => split_ifs <;> simp_all [extendEp_self, extendEp_other]
  | Y =>
    have hpc : m.pc = 1 := by simpa [UsedLetter] using hl
    split_ifs <;> simp_all [extendEp_self, extendEp_other]
  | Z =>
    have hpc : m.pc = 1 := by simpa [UsedLetter] using hl
    split_ifs <;> simp_all [extendEp_self, extendEp_other]

/-- An endpoint channel after `InverseTransform`. -/
theorem transformedEp_apply {m : Bc6Mode} {l : Letter} (hl : UsedLetter m.pc l) (signed : Bool) (val : Letter → Rgb3 → Int)
    (c : Rgb3) :
    transformedEp m signed val l c =
      if l = .W then val .W c
      else if signed then sext (prec6 m .W c) ((val l c + val .W c) % 2 ^ prec6 m .W c)
      else (val l c + val .W c) % 2 ^ prec6 m .W c := by
  cases l with
  | W => by_cases hpc : m.pc = 1 <;> simp [transformedEp, transformEp, hpc]
  | X => by_cases hpc : m.pc = 1 <;> simp [transformedEp, transformEp, hpc]
  | Y =>
    have hpc : m.pc = 1 := by simpa [UsedLetter] using hl
    simp [transformedEp, transformEp, hpc]
  | Z =>
    have hpc : m.pc = 1 := by simpa [UsedLetter] using hl
    simp [transformedEp, transformEp, hpc]

/-- The reference's endpoint channel, the base and the deltas apart. -/
theorem endpointOf6_base (m : Bc6Mode) (signed : Bool) (raw : Letter → Rgb3 → Nat) (c : Rgb3) :
    endpointOf6 m signed raw .W c = if signed then signedOf (prec6 m .W c) (raw .W c) else (raw .W c : Int) := rfl

theorem endpointOf6_delta (m : Bc6Mode) (signed : Bool) (raw : Letter → Rgb3 → Nat) {l : Letter} (h : l ≠ .W) (c : Rgb3) :
    endpointOf6 m signed raw l c =
      let base := endpointOf6 m signed raw .W c
      let d : Int := if signed || m.tr then signedOf (prec6 m l c) (raw l c) else raw l c
      if m.tr then
        if signed then signedOf (prec6 m .W c) (base + d) else (base + d) % 2 ^ prec6 m .W c
      else d := by
  cases l with
  | W => exact absurd rfl h
  | X | Y | Z => rfl

/-- The machine's endpoints are the reference's. -/
theorem finalEp_eq {m : Bc6Mode} (hprec : ∀ l c, UsedLetter m.pc l → 1 ≤ prec6 m l c) {l : Letter}
    (hl : UsedLetter m.pc l) (signed : Bool) (acc : Letter → Rgb3 → Nat) (c : Rgb3) :
    finalEp m signed acc l c = endpointOf6 m signed acc l c := by
  have hW : UsedLetter m.pc .W := .inl rfl
  have hbase := sext_eq (hprec .W c hW)
  have hdelta := sext_eq (hprec l c hl)
  unfold finalEp
  by_cases hlW : l = .W
  · subst hlW
    cases m.tr <;> simp [transformedEp_apply hl, signedEp_apply hl, endpointOf6_base, hbase]
  · cases htr : m.tr with
    | false => simp [signedEp_apply hl, endpointOf6_delta m signed acc hlW, htr, hdelta]
    | true =>
      simp [transformedEp_apply hl, signedEp_apply hl, signedEp_apply hW, endpointOf6_delta m signed acc hlW,
        endpointOf6_base, htr, hlW, hbase, hdelta, signedOf_emod, Int.add_comm]

/-! ### The texels (R300 to R309) -/

theorem lerp64_eq_mix (a b w : Int) : lerp64 a b w = mix a b w := (Int.fdiv_eq_ediv_of_nonneg _ (by decide)).symm

/-- The endpoint letters of a texel's region (R302). -/
def pairOf (pc shape i : Nat) : Letter × Letter :=
  (if regionOf pc shape i = 0 then .W else .Y, if regionOf pc shape i = 0 then .X else .Z)

/-- The machine's texel is the reference's. -/
theorem texelBetween6_eq {m : Bc6Mode} (hprec : ∀ l c, UsedLetter m.pc l → 1 ≤ prec6 m l c) {shape : Nat} {i : Fin 16}
    (hregion : regionOf m.pc shape i.val = 0 ∨ m.pc = 1) (signed : Bool) (acc : Letter → Rgb3 → Nat) {n : Nat} (idx : BitVec n) :
    texelBetween6 m signed (finalEp m signed acc) (pairOf m.pc shape i.val)
        (weightOf (if m.pc = 1 then 3 else 4) (indexOf idx m.ip (anchorsOf m.pc shape) i.val)) =
      texelOf6 m signed acc shape idx i := by
  have hfirst : UsedLetter m.pc (pairOf m.pc shape i.val).1 := by
    unfold pairOf UsedLetter
    obtain h | h := hregion
    · exact .inl (if_pos h)
    · exact .inr (.inr h)
  have hsecond : UsedLetter m.pc (pairOf m.pc shape i.val).2 := by
    unfold pairOf UsedLetter
    obtain h | h := hregion
    · exact .inr (.inl (if_pos h))
    · exact .inr (.inr h)
  simp only [texelBetween6, channel6, finalEp_eq hprec hfirst, finalEp_eq hprec hsecond, lerp64_eq_mix]
  rfl

/-- The index of a texel, from the field that holds the stream. -/
theorem index6_eq {b : Block} {hb ip k : Nat} {idx : BitVec k} (h : b.extractLsb' hb k = idx) {anchors : List Nat}
    (hk : AnchorsOk ip anchors) (hlen : indexStart ip anchors 16 ≤ k) (i : Fin 16) :
    index6 b hb ip anchors i = indexOf idx ip anchors i.val := by
  have hfits := Nat.le_trans (indexStart_le hk i.isLt) hlen
  rw [index6, indexBits_eq]
  exact memRead_field h hfits

theorem indexOf_lt {k : Nat} (v : BitVec k) (ip : Nat) (anchors : List Nat) (i : Nat) : indexOf v ip anchors i < 2 ^ ip := by
  unfold indexOf bitsOf
  refine Nat.lt_of_lt_of_le (Nat.mod_lt _ (Nat.two_pow_pos _)) (Nat.pow_le_pow_right (by decide) ?_)
  split <;> omega

/-! ### The tables of the default ROM (R101 to R105) -/

/-- What the default ROM gives a shape of a BC6H mode: its anchors, each in its stream, and the regions of its texels. -/
def shape6Check (pc ip bits shape : Nat) : Bool :=
  romAnchors romDefault pc shape == some (anchorsOf pc shape) &&
  decide (anchorsOf pc shape).Nodup && indexStart ip (anchorsOf pc shape) 16 == bits &&
  texels.all fun i => romRegion romDefault pc shape i.val == some (regionOf pc shape i.val) &&
    regionPair (regionOf pc shape i.val) == some (pairOf pc shape i.val) &&
    (regionOf pc shape i.val == 0 || pc == 1)

theorem shape6Check_two : ∀ shape < 32, shape6Check 1 3 46 shape = true := by decide +kernel

theorem shape6Check_one : shape6Check 0 4 63 0 = true := by decide +kernel

theorem romWeight_default {p ix : Nat} (hp : p = 3 ∨ p = 4) (h : ix < 2 ^ p) :
    romWeight romDefault p ix = some (weightOf p ix) := by
  have h3 : ∀ ix < 2 ^ 3, romWeight romDefault 3 ix = some (weightOf 3 ix) := by decide
  have h4 : ∀ ix < 2 ^ 4, romWeight romDefault 4 ix = some (weightOf 4 ix) := by decide
  obtain rfl | rfl := hp
  · exact h3 ix h
  · exact h4 ix h

/-! ### The header (R180, R294, R295) -/

/-- The entries of the ROM for the header bits after the mode code. -/
def headerEntries (mi sel : Nat) (m : Bc6Mode) : List Desc :=
  (((romBc6desc[mi]?).getD []).drop sel).take (headerBits m - sel)

/-- The ROM's tables for a BC6H mode: its entry and record, and a header table that places the bits as a layout does. -/
structure Mode6Ok (mi code sel : Nat) (m : Bc6Mode) (places : Letter → Rgb3 → List Nat) (shape : List Nat) : Prop where
  selector : sel = 2 ∧ code < 2 ∨ sel = 5 ∧ 2 ≤ code % 4
  entry : romBc6map[code]? = some (.mode mi)
  record : romBc6mode[mi]? = some m
  length : sel + (headerEntries mi sel m).length = headerBits m
  placeable : ∀ d ∈ headerEntries mi sel m, placeable d = true
  shape : agrees isShape sel (headerEntries mi sel m) shape = true
  acc : ∀ l c, agrees (isAcc l c) sel (headerEntries mi sel m) (places l c) = true
  prec : ∀ l c, UsedLetter m.pc l → 1 ≤ prec6 m l c

/-- The ROM's tables for a BC6H mode are evaluated. -/
def mode6Check (mi code sel : Nat) (m : Bc6Mode) (places : Letter → Rgb3 → List Nat) (shape : List Nat) : Bool :=
  let ds := headerEntries mi sel m
  (sel == 2 && decide (code < 2) || sel == 5 && decide (2 ≤ code % 4)) &&
  romBc6map[code]? == some (.mode mi) && romBc6mode[mi]? == some m && sel + ds.length == headerBits m &&
  ds.all placeable && agrees isShape sel ds shape &&
  [Letter.W, .X, .Y, .Z].all fun l => [Rgb3.R, .G, .B].all fun c =>
    agrees (isAcc l c) sel ds (places l c) && (decide (1 ≤ prec6 m l c) || !(l == .W || l == .X || m.pc == 1))

theorem mode6Ok_of_check {mi code sel : Nat} {m : Bc6Mode} {places : Letter → Rgb3 → List Nat} {shape : List Nat}
    (h : mode6Check mi code sel m places shape = true) : Mode6Ok mi code sel m places shape := by
  simp only [mode6Check, Bool.and_eq_true, Bool.or_eq_true, beq_iff_eq, decide_eq_true_eq, List.all_eq_true] at h
  obtain ⟨⟨⟨⟨⟨⟨hsel, hentry⟩, hrecord⟩, hlength⟩, hplaceable⟩, hshape⟩, hletters⟩ := h
  have hletter : ∀ l c, _ := fun l c => hletters l (by cases l <;> decide) c (by cases c <;> decide)
  refine ⟨hsel, hentry, hrecord, hlength, hplaceable, hshape, fun l c => (hletter l c).1, fun l c hl => ?_⟩
  refine (hletter l c).2.resolve_right fun hun => ?_
  simp only [Bool.not_eq_true', Bool.or_eq_false_iff, beq_eq_false_iff_ne] at hun
  obtain ⟨⟨hW, hX⟩, hpc⟩ := hun
  exact hl.elim hW fun h => h.elim hX hpc

/-- When table and layout agree, the header loop gathers what the layout gathers, whatever the block. -/
theorem gathered_eq_gather {p : Desc → Bool} {k : Nat} {ds : List Desc} {ps : List Nat} (h : agrees p k ds ps = true)
    (b : Block) : gathered b p k ds 0 = gather b ps :=
  gathered_eq h (gather_lt b ps) fun _ _ hj => (gather_testBit b ps hj).symm

/-- The entries are those that the header loop looks up. -/
theorem romDesc_of_headerEntries {mi sel j : Nat} {m : Bc6Mode} {d : Desc} (h : (headerEntries mi sel m)[j]? = some d) :
    romDesc romDefault mi (sel + j) = some d := by
  unfold headerEntries at h
  rw [List.getElem?_take] at h
  split at h
  · rw [List.getElem?_drop] at h
    unfold romDesc
    cases ht : romBc6desc[mi]? with
    | none => rw [ht] at h; simp at h
    | some t => rw [ht] at h; simpa [romDefault, ht] using h
  · cases h

/-! ### The body on a block with the mode's pattern -/

section
variable {mi code sel : Nat} {m : Bc6Mode} {places : Letter → Rgb3 → List Nat} {shape : List Nat}

/-- The body of a mode: the reference's texel for each region and index, and the cursor at the end of the block. -/
theorem Mode6Ok.body {k : Nat} (h : Mode6Ok mi code sel m places shape) {b : Block} (signed : Bool)
    (hip : m.ip = 3 ∨ m.ip = 4) (hweight : (if m.pc = 1 then 3 else 4) = m.ip) (hlimit : 2 ^ m.ip ≤ indexLimit m.pc)
    (hend : headerBits m + k = 128) (hlow : gather b shape < 32) (hshape : shape6Check m.pc m.ip k (gather b shape) = true) :
    Goes (At romDefault b sel (W6 fun _ => True)) (body6 signed mi) fun x s =>
      (x = Vector.ofFn fun i => texelOf6 m signed (fun l c => gather b (places l c)) (gather b shape)
        (b.extractLsb' (headerBits m) k) i) ∧ At romDefault b 128 (W6 fun _ => True) s := by
  simp only [shape6Check, Bool.and_eq_true, beq_iff_eq, decide_eq_true_eq, List.all_eq_true, Bool.or_eq_true] at hshape
  obtain ⟨⟨⟨hanchors, hnodup⟩, hstream⟩, htexels⟩ := hshape
  have htexel : ∀ i : Fin 16, _ := fun i => htexels i (by revert i; decide)
  have hk : AnchorsOk m.ip (anchorsOf m.pc (gather b shape)) := ⟨hnodup, by omega⟩
  have hindex : ∀ i, index6 b (headerBits m) m.ip (anchorsOf m.pc (gather b shape)) i = _ :=
    index6_eq rfl hk (Nat.le_of_eq hstream)
  have hgshape := gathered_eq_gather h.shape b
  have hacc : (fun l c => gathered b (isAcc l c) sel (headerEntries mi sel m) 0) = fun l c => gather b (places l c) :=
    funext fun l => funext fun c => gathered_eq_gather (h.acc l c) b
  have hbody := At.body6 (rom := romDefault) (b := b) (n := sel) (signed := signed) (ds := headerEntries mi sel m)
    (reg := fun i => regionOf m.pc (gather b shape) i.val) (pair := fun i => pairOf m.pc (gather b shape) i.val)
    (wt := fun i => weightOf (if m.pc = 1 then 3 else 4)
      (indexOf (b.extractLsb' (headerBits m) k) m.ip (anchorsOf m.pc (gather b shape)) i.val))
    h.record h.length (fun j d hj => ⟨romDesc_of_headerEntries hj, h.placeable d (List.mem_of_getElem? hj)⟩)
    (hgshape ▸ hlow) (hgshape ▸ hanchors) hk (by omega) hlimit (by rw [hstream, hend])
    (fun i => by rw [hgshape]; exact (htexel i).1)
    (fun i => by
      rw [hindex, hweight]
      exact romWeight_default hip (indexOf_lt _ _ _ _))
  rw [hacc, hstream, hend, tab16_eq_ofFn] at hbody
  refine hbody.mono (fun _ hs => hs) fun x s hx => ⟨hx.1.trans (congrArg Vector.ofFn (funext fun i => ?_)), hx.2⟩
  exact texelBetween6_eq h.prec (htexel i).2 signed _ _

/-- The mode selector of a block that has the mode's pattern. -/
theorem Mode6Ok.select (h : Mode6Ok mi code sel m places shape) {b : Block} (hb : b.toNat % 2 ^ sel = code) :
    romBc6map[bc6Code b]? = some (.mode mi) ∧ posAfterMode6 b = sel := by
  obtain ⟨rfl, hc⟩ | ⟨rfl, hc⟩ := h.selector
  · exact ⟨(bc6Code_of_two hb hc).symm ▸ h.entry, if_pos (by omega)⟩
  · exact ⟨(bc6Code_of_five hb hc).symm ▸ h.entry, if_neg (by omega)⟩

/-- `DEC.BC6H` on a block that has the mode's pattern, when the body delivers `x`. -/
theorem Mode6Ok.run (h : Mode6Ok mi code sel m places shape) {b : Block} (hb : b.toNat % 2 ^ sel = code) {p : Profile}
    {x : Tile} {s : State} (hrom : s.cfg.rom = romDefault)
    (hbody : Goes (At romDefault b sel (W6 fun _ => True)) (body6 (isSigned p) mi) fun y t =>
      y = x ∧ At romDefault b 128 (W6 fun _ => True) t) :
    ∃ t, runBc6 p b s = .next t ∧ bc6hDone p b x s t := by
  obtain ⟨hentry, hpos⟩ := h.select hb
  have hmap : s.cfg.rom.bc6map[bc6Code b]? = some (.mode mi) := by rw [hrom]; exact hentry
  have hsel : (BitVec.ofNat 8 sel).toNat = sel := by
    obtain ⟨rfl, -⟩ | ⟨rfl, -⟩ := h.selector <;> rfl
  have hstart : At romDefault b sel (W6 fun _ => True)
      (((s.latch ⟨p.fmt, b⟩).setPos (BitVec.ofNat 8 (posAfterMode6 b))).setWork (workAfterMode6 (bc6Code b))) :=
    ⟨hrom, rfl, lenBits_profile p, by rw [hpos]; exact hsel, rfl, trivial⟩
  obtain ⟨y, t, hrun, rfl, ht⟩ := hbody _ hstart
  have hnext : runBc6 p b s = _ := runDecode_ok ((decodeBc6_latch hmap).trans hrun)
  exact ⟨_, hnext, decodeFrame_of_runDecode (Tame.decodeBc6 _) hnext, rfl, rfl, BitVec.eq_of_toNat_eq ht.pos, ht.work.1⟩

end

end Sys2Proof.Machine

namespace Sys2Proof

open Sys2Proof.Machine Sys2Proof.Reference

/-! ### The layouts (R142, R181 to R194) -/

/-- The positions of an endpoint channel in a two-region layout. -/
def placesTwo (l : TwoLayout) : Letter → Rgb3 → List Nat
  | .W, .R => l.rW
  | .W, .G => l.gW
  | .W, .B => l.bW
  | .X, .R => l.rX
  | .X, .G => l.gX
  | .X, .B => l.bX
  | .Y, .R => l.rY
  | .Y, .G => l.gY
  | .Y, .B => l.bY
  | .Z, .R => l.rZ
  | .Z, .G => l.gZ
  | .Z, .B => l.bZ

/-- The positions of an endpoint channel in a one-region layout, which has none for `Y` and `Z`. -/
def placesOne (l : OneLayout) : Letter → Rgb3 → List Nat
  | .W, .R => l.rW
  | .W, .G => l.gW
  | .W, .B => l.bW
  | .X, .R => l.rX
  | .X, .G => l.gX
  | .X, .B => l.bX
  | .Y, _ => []
  | .Z, _ => []

theorem toNat_ofNat_gather (b : Block) {ps : List Nat} {n : Nat} (h : ps.length = n) :
    (BitVec.ofNat n (gather b ps)).toNat = gather b ps := by
  subst h
  rw [BitVec.toNat_ofNat, Nat.mod_eq_of_lt (gather_lt b ps)]

section
variable {w r g b x code sel mi : Nat} {m : Bc6Mode}

/-- The accumulators of a two-region block are gathered at the layout's places. -/
theorem rawTwo_decodeTwo {l : TwoLayout} (h : TwoLayoutOk w r g b code sel l) (blk : Block) :
    rawTwo (decodeTwo w r g b l blk) = (fun i c => gather blk (placesTwo l i c)) ∧
      (decodeTwo w r g b l blk).d.toNat = gather blk l.d := by
  have hw := h.widths
  simp only [TwoLayout.all, List.map_cons, List.map_nil, List.cons.injEq, and_true] at hw
  obtain ⟨hrW, hgW, hbW, hrX, hgX, hbX, hrY, hgY, hbY, hrZ, hgZ, hbZ, hd⟩ := hw
  refine ⟨funext fun i => funext fun c => ?_, toNat_ofNat_gather blk hd⟩
  cases i
  all_goals cases c
  all_goals exact toNat_ofNat_gather blk ‹_›

/-- The accumulators of a one-region block are gathered at the layout's places. -/
theorem rawOne_decodeOne {l : OneLayout} (h : OneLayoutOk w x code sel l) (blk : Block) :
    rawOne (decodeOne w x l blk) = fun i c => gather blk (placesOne l i c) := by
  have hw := h.widths
  simp only [OneLayout.all, List.map_cons, List.map_nil, List.cons.injEq, and_true] at hw
  obtain ⟨hrW, hgW, hbW, hrX, hgX, hbX⟩ := hw
  refine funext fun i => funext fun c => ?_
  cases i
  case Y | Z => rfl
  all_goals cases c
  all_goals exact toNat_ofNat_gather blk ‹_›

/-- The tile of a BC6H block, given texel by texel. -/
theorem tileTwoOf6_eq {p : Profile} (h : romBc6mode[mi]? = some m) (f : Bc6Two w r g b) :
    tileTwoOf6 mi p f = Vector.ofFn fun i => texelOf6 m (isSigned p) (rawTwo f) f.d.toNat f.idx i := by
  rw [tileTwoOf6, h]

theorem tileOneOf6_eq {p : Profile} (h : romBc6mode[mi]? = some m) (f : Bc6One w x) :
    tileOneOf6 mi p f = Vector.ofFn fun i => texelOf6 m (isSigned p) (rawOne f) 0 f.idx i := by
  rw [tileOneOf6, h]

/-- A two-region mode of the default ROM has the given layout. -/
def twoCheck (mi code sel : Nat) (l : TwoLayout) : Bool :=
  (romBc6mode[mi]?).any fun m => m.pc == 1 && m.ip == 3 && mode6Check mi code sel m (placesTwo l) l.d

/-- A one-region mode of the default ROM has the given layout. -/
def oneCheck (mi code sel : Nat) (l : OneLayout) : Bool :=
  (romBc6mode[mi]?).any fun m => m.pc == 0 && m.ip == 4 && mode6Check mi code sel m (placesOne l) []

/-- A two-region form on every block that has its pattern. -/
theorem TwoLayoutOk.run {l : TwoLayout} (hl : TwoLayoutOk w r g b code sel l) (hcheck : twoCheck mi code sel l = true)
    {blk : Block} (hblk : blk.toNat % 2 ^ sel = code) (p : Profile) {s : State} (hrom : s.cfg.rom = romDefault) :
    ∃ t, runBc6 p blk s = .next t ∧ bc6hDone p blk (tileTwoOf6 mi p (decodeTwo w r g b l blk)) s t := by
  simp only [twoCheck, Option.any_eq_true, Bool.and_eq_true, beq_iff_eq] at hcheck
  obtain ⟨m, hm, ⟨hpc, hip⟩, hmode⟩ := hcheck
  have h := mode6Ok_of_check hmode
  obtain ⟨hraw, hd⟩ := rawTwo_decodeTwo hl blk
  have hlow : gather blk l.d < 32 := hd ▸ (decodeTwo w r g b l blk).d.isLt
  have hhb : headerBits m = 82 := by rw [headerBits, if_pos hpc]
  have hbody := h.body (b := blk) (k := 46) (isSigned p) (.inl hip) (by rw [if_pos hpc, hip]) (by rw [hip, hpc]; decide)
    (by rw [hhb]) hlow (by rw [hpc, hip]; exact shape6Check_two _ hlow)
  refine h.run hblk hrom ?_
  rw [tileTwoOf6_eq hm, hraw, hd]
  rwa [hhb] at hbody

/-- A one-region form on every block that has its pattern. -/
theorem OneLayoutOk.run {l : OneLayout} (hl : OneLayoutOk w x code sel l) (hcheck : oneCheck mi code sel l = true)
    {blk : Block} (hblk : blk.toNat % 2 ^ sel = code) (p : Profile) {s : State} (hrom : s.cfg.rom = romDefault) :
    ∃ t, runBc6 p blk s = .next t ∧ bc6hDone p blk (tileOneOf6 mi p (decodeOne w x l blk)) s t := by
  simp only [oneCheck, Option.any_eq_true, Bool.and_eq_true, beq_iff_eq] at hcheck
  obtain ⟨m, hm, ⟨hpc, hip⟩, hmode⟩ := hcheck
  have h := mode6Ok_of_check hmode
  have hpc1 : m.pc ≠ 1 := by omega
  have hhb : headerBits m = 65 := by rw [headerBits, if_neg hpc1]
  have hbody := h.body (b := blk) (k := 63) (isSigned p) (.inr hip) (by rw [if_neg hpc1, hip]) (by rw [hip, hpc]; decide)
    (by rw [hhb]) (show 0 < 32 by decide) (by rw [hpc, hip]; exact shape6Check_one)
  refine h.run hblk hrom ?_
  rw [tileOneOf6_eq hm, rawOne_decodeOne hl]
  rwa [hhb] at hbody

/-- A two-region form on every field value. -/
theorem TwoLayoutOk.result {l : TwoLayout} (hl : TwoLayoutOk w r g b code sel l) (hcheck : twoCheck mi code sel l = true)
    (p : Profile) {s : State} (hrom : s.cfg.rom = romDefault) (f : Bc6Two w r g b) :
    ∃ t, runBc6 p (encodeTwo code l f) s = .next t ∧ bc6hDone p (encodeTwo code l f) (tileTwoOf6 mi p f) s t := by
  have := hl.run hcheck (hl.code f) p hrom
  rwa [hl.fields f] at this

/-- A one-region form on every field value. -/
theorem OneLayoutOk.result {l : OneLayout} (hl : OneLayoutOk w x code sel l) (hcheck : oneCheck mi code sel l = true)
    (p : Profile) {s : State} (hrom : s.cfg.rom = romDefault) (f : Bc6One w x) :
    ∃ t, runBc6 p (encodeOne code l f) s = .next t ∧ bc6hDone p (encodeOne code l f) (tileOneOf6 mi p f) s t := by
  have := hl.run hcheck (hl.code f) p hrom
  rwa [hl.fields f] at this

end

/-- The two-region layouts are those of the default ROM. -/
theorem twoChecks :
    (twoCheck 0 0x00 2 layout6Mode0 = true ∧ twoCheck 1 0x01 2 layout6Mode1 = true ∧ twoCheck 2 0x02 5 layout6Mode2 = true ∧
      twoCheck 3 0x06 5 layout6Mode3 = true ∧ twoCheck 4 0x0A 5 layout6Mode4 = true) ∧
    twoCheck 5 0x0E 5 layout6Mode5 = true ∧ twoCheck 6 0x12 5 layout6Mode6 = true ∧ twoCheck 7 0x16 5 layout6Mode7 = true ∧
      twoCheck 8 0x1A 5 layout6Mode8 = true ∧ twoCheck 9 0x1E 5 layout6Mode9 = true := by decide +kernel

/-- The one-region layouts are those of the default ROM. -/
theorem oneChecks :
    oneCheck 10 0x03 5 layout6Mode10 = true ∧ oneCheck 11 0x07 5 layout6Mode11 = true ∧
      oneCheck 12 0x0B 5 layout6Mode12 = true ∧ oneCheck 13 0x0F 5 layout6Mode13 = true := by decide +kernel

/-- Settles O31: each form by its layout. -/
theorem bc6hOneRegionResult : Obligations.Bc6hOneRegionResult := by
  intro p s hrom
  obtain ⟨h10, h11, h12, h13⟩ := oneChecks
  exact ⟨layout6Mode10_ok.result h10 p hrom, layout6Mode11_ok.result h11 p hrom, layout6Mode12_ok.result h12 p hrom,
    layout6Mode13_ok.result h13 p hrom⟩

/-- Settles O32: each form by its layout. -/
theorem bc6hTwoRegionResultA : Obligations.Bc6hTwoRegionResultA := by
  intro p s hrom
  obtain ⟨⟨h0, h1, h2, h3, h4⟩, -⟩ := twoChecks
  exact ⟨layout6Mode0_ok.result h0 p hrom, layout6Mode1_ok.result h1 p hrom, layout6Mode2_ok.result h2 p hrom,
    layout6Mode3_ok.result h3 p hrom, layout6Mode4_ok.result h4 p hrom⟩

/-- Settles O33: each form by its layout. -/
theorem bc6hTwoRegionResultB : Obligations.Bc6hTwoRegionResultB := by
  intro p s hrom
  obtain ⟨-, h5, h6, h7, h8, h9⟩ := twoChecks
  exact ⟨layout6Mode5_ok.result h5 p hrom, layout6Mode6_ok.result h6 p hrom, layout6Mode7_ok.result h7 p hrom,
    layout6Mode8_ok.result h8 p hrom, layout6Mode9_ok.result h9 p hrom⟩

/-! ### Every block (R206, R309, R311) -/

/-- What O34 says of a completed BC6H decode. -/
def Completed6 (p : Profile) (blk : Block) (s t : State) : Prop :=
  DecodeFrame ⟨p.fmt, blk⟩ s t ∧ t.status = .ok ∧ t.pos = 128#8 ∧ (∀ i, (t.tile.get i).full) ∧
    ∀ i, (t.tile.get i).a = some 255

/-- A finished decode with a tile of the reference's texels has completed. -/
theorem completed6_of_done {p : Profile} {blk : Block} {x : Tile} {s t : State} (h : bc6hDone p blk x s t)
    {g : Fin 16 → Texel} (hx : x = Vector.ofFn g) (hg : ∀ i, (g i).full ∧ (g i).a = some 255) : Completed6 p blk s t := by
  obtain ⟨hframe, hstatus, htile, hpos, -⟩ := h
  rw [hx] at htile
  refine ⟨hframe, hstatus, hpos, fun i => ?_, fun i => ?_⟩
  all_goals rw [htile, Vector.get_ofFn]
  · exact (hg i).1
  · exact (hg i).2

theorem texelOf6_full {n : Nat} (m : Bc6Mode) (signed : Bool) (raw : Letter → Rgb3 → Nat) (shape : Nat) (idx : BitVec n)
    (i : Fin 16) : (texelOf6 m signed raw shape idx i).full ∧ (texelOf6 m signed raw shape idx i).a = some 255 :=
  ⟨⟨rfl, rfl, rfl, rfl⟩, rfl⟩

section
variable {w r g b x code sel mi : Nat} {blk : Block} {s : State}

theorem TwoLayoutOk.completes {l : TwoLayout} (hl : TwoLayoutOk w r g b code sel l) (hcheck : twoCheck mi code sel l = true)
    (hrom : s.cfg.rom = romDefault) (hblk : blk.toNat % 2 ^ sel = code) (p : Profile) :
    ∃ t, runBc6 p blk s = .next t ∧ Completed6 p blk s t := by
  obtain ⟨t, hrun, hdone⟩ := hl.run hcheck hblk p hrom
  simp only [twoCheck, Option.any_eq_true] at hcheck
  obtain ⟨m, hm, -⟩ := hcheck
  exact ⟨t, hrun, completed6_of_done hdone (tileTwoOf6_eq hm _) fun i => texelOf6_full m _ _ _ _ i⟩

theorem OneLayoutOk.completes {l : OneLayout} (hl : OneLayoutOk w x code sel l) (hcheck : oneCheck mi code sel l = true)
    (hrom : s.cfg.rom = romDefault) (hblk : blk.toNat % 2 ^ sel = code) (p : Profile) :
    ∃ t, runBc6 p blk s = .next t ∧ Completed6 p blk s t := by
  obtain ⟨t, hrun, hdone⟩ := hl.run hcheck hblk p hrom
  simp only [oneCheck, Option.any_eq_true] at hcheck
  obtain ⟨m, hm, -⟩ := hcheck
  exact ⟨t, hrun, completed6_of_done hdone (tileOneOf6_eq hm _) fun i => texelOf6_full m _ _ _ _ i⟩

end

/-- A block whose low five bits are no reserved code completes. -/
theorem runBc6_completes {blk : Block} {s : State} (hrom : s.cfg.rom = romDefault)
    (h : blk.toNat % 2 ^ 5 ∉ [0x13, 0x17, 0x1B, 0x1F]) (p : Profile) :
    ∃ t, runBc6 p blk s = .next t ∧ Completed6 p blk s t := by
  obtain ⟨⟨h0, h1, h2, h3, h4⟩, h5, h6, h7, h8, h9⟩ := twoChecks
  obtain ⟨h10, h11, h12, h13⟩ := oneChecks
  obtain hb | hb | hb | hb := bc6h_pattern_cases blk
  · exact layout6Mode0_ok.completes h0 hrom hb p
  · exact layout6Mode1_ok.completes h1 hrom hb p
  · simp only [List.mem_cons, List.not_mem_nil, or_false] at hb
    obtain hb | hb | hb | hb | hb | hb | hb | hb | hb | hb | hb | hb := hb
    · exact layout6Mode2_ok.completes h2 hrom hb p
    · exact layout6Mode3_ok.completes h3 hrom hb p
    · exact layout6Mode4_ok.completes h4 hrom hb p
    · exact layout6Mode5_ok.completes h5 hrom hb p
    · exact layout6Mode6_ok.completes h6 hrom hb p
    · exact layout6Mode7_ok.completes h7 hrom hb p
    · exact layout6Mode8_ok.completes h8 hrom hb p
    · exact layout6Mode9_ok.completes h9 hrom hb p
    · exact layout6Mode10_ok.completes h10 hrom hb p
    · exact layout6Mode11_ok.completes h11 hrom hb p
    · exact layout6Mode12_ok.completes h12 hrom hb p
    · exact layout6Mode13_ok.completes h13 hrom hb p
  · exact absurd hb h

/-- The reserved codes are those that have bits 0, 1 and 4 set (R292). -/
theorem reserved_code_iff_and {n : Nat} : n &&& 0x13 = 0x13 ↔ n % 2 ^ 5 ∈ [0x13, 0x17, 0x1B, 0x1F] := by
  have hcodes : ∀ c < 2 ^ 5, c &&& 0x13 = 0x13 ↔ c ∈ [0x13, 0x17, 0x1B, 0x1F] := by decide
  rw [← hcodes _ (Nat.mod_lt _ (by decide)), Nat.and_comm (n % 2 ^ 5), ← Nat.and_two_pow_sub_one_eq_mod, ← Nat.and_assoc,
    Nat.and_comm _ (2 ^ 5 - 1), ← Nat.and_assoc, Nat.and_comm n, show 2 ^ 5 - 1 &&& 0x13 = 0x13 by decide]

/-- Settles O34: both profiles on every block without a reserved code. -/
theorem bc6hCompletes : Obligations.Bc6hCompletes := by
  intro blk s hrom hcode
  have hnot : blk.toNat % 2 ^ 5 ∉ [0x13, 0x17, 0x1B, 0x1F] := fun h => hcode (reserved_code_iff_and.2 h)
  obtain ⟨t, hrun, hframe, hstatus, hpos, hfull, ha⟩ := runBc6_completes hrom hnot .unsigned
  obtain ⟨t', hrun', hframe', hstatus', hpos', hfull', ha'⟩ := runBc6_completes hrom hnot .signed
  exact ⟨⟨t, hrun, hframe, hstatus, hpos, carriesChannels_of_full (fun c => by cases c <;> rfl) hfull, ha⟩,
    ⟨t', hrun', hframe', hstatus', hpos', carriesChannels_of_full (fun c => by cases c <;> rfl) hfull', ha'⟩⟩

end Sys2Proof
end

section
/-!
PROOF. The BC7 decode of a block that has a mode's pattern (R340 to R355). The selectors, endpoints, P bits and index streams
stand at places that the mode's record gives, which are the places of the layout's fields; endpoints, tracks, interpolation and
rotation are the reference's. One theorem on records and places gives every form (O39 to O41), and with the patterns the
completion of every block whose first byte is not 0 (O42).
-/

namespace Sys2Proof.Machine

open Sys2Proof.Reference

/-! ### The tables of the default ROM (R101 to R106) -/

/-- What the decode rests on in a BC7 record: it is admissible, and the precisions after the P bits are 4 to 8 bits wide. -/
structure Record7Ok (m : Bc7Mode) : Prop where
  ok : bc7ModeOk m = true
  noP : m.npb = 0 → m.precp = m.prec
  prec : ∀ c, prec7 m.prec c = 0 ∧ prec7 m.precp c = 0 ∨
    0 < prec7 m.prec c ∧ 4 ≤ prec7 m.precp c ∧ prec7 m.precp c ≤ 8 ∧
      (prec7 m.precp c = prec7 m.prec c ∨ prec7 m.precp c = prec7 m.prec c + 1)

/-- The facts about a BC7 record are evaluated. -/
def record7Check (m : Bc7Mode) : Bool :=
  bc7ModeOk m && (m.npb != 0 || m.precp == m.prec) && channels7.all fun c =>
    prec7 m.prec c == 0 && prec7 m.precp c == 0 ||
    0 < prec7 m.prec c && 4 ≤ prec7 m.precp c && prec7 m.precp c ≤ 8 &&
      (prec7 m.precp c == prec7 m.prec c || prec7 m.precp c == prec7 m.prec c + 1)

theorem record7Ok_of_mem {m : Bc7Mode} (h : m ∈ romBc7mode) : Record7Ok m := by
  have hall : ∀ m ∈ romBc7mode, record7Check m = true := by decide
  have hm := hall m h
  simp only [record7Check, Bool.and_eq_true, Bool.or_eq_true, bne_iff_ne, beq_iff_eq, decide_eq_true_eq,
    List.all_eq_true] at hm
  obtain ⟨⟨hok, hnoP⟩, hprec⟩ := hm
  refine ⟨hok, fun h => hnoP.resolve_left (not_not_intro h), fun c => ?_⟩
  exact (hprec c (channels7_mem c)).imp id fun ⟨⟨⟨hpos, hfour⟩, height⟩, hq⟩ => ⟨hpos, hfour, height, hq⟩

/-- What the default ROM gives a shape: one anchor per region, and the regions of the texels. -/
def shape7Check (pc shape : Nat) : Bool :=
  romAnchors romDefault pc shape == some (anchorsOf pc shape) &&
  decide (anchorsOf pc shape).Nodup && (anchorsOf pc shape).countP (· < 16) == pc + 1 &&
  texels.all fun i => romRegion romDefault pc shape i.val == some (regionOf pc shape i.val) &&
    decide (regionOf pc shape i.val ≤ pc)

theorem shape7Check_default : ∀ pc < 3, ∀ shape < 64, shape7Check pc shape = true := by decide +kernel

theorem romWeight_default7 {p ix : Nat} (hp : p = 2 ∨ p = 3 ∨ p = 4) (h : ix < 2 ^ p) :
    romWeight romDefault p ix = some (weightOf p ix) := by
  have h2 : ∀ ix < 2 ^ 2, romWeight romDefault 2 ix = some (weightOf 2 ix) := by decide
  obtain rfl | hp := hp
  · exact h2 ix h
  · exact romWeight_default hp h

/-- The default ROM holds what the decode of a shape needs, and its first index stream has one bit fewer per region. -/
theorem shapeRom_default {m : Bc7Mode} (h : Mode7Has m) {shape : Nat} (hs : shape < 64) :
    ShapeRom romDefault m shape (anchorsOf m.pc shape) (fun i => regionOf m.pc shape i.val) weightOf ∧
      indexStart m.ip1 (anchorsOf m.pc shape) 16 = 16 * m.ip1 - (m.pc + 1) := by
  have hpc := h.pc
  have hip := h.ip1
  have hcheck := shape7Check_default m.pc (by omega) shape hs
  simp only [shape7Check, Bool.and_eq_true, beq_iff_eq, decide_eq_true_eq, List.all_eq_true] at hcheck
  obtain ⟨⟨⟨hanchors, hnodup⟩, hcount⟩, htexels⟩ := hcheck
  refine ⟨⟨hanchors, ⟨hnodup, by omega⟩, fun i => htexels i (by revert i; decide), fun p ix => romWeight_default7⟩, ?_⟩
  rw [indexStart, hcount, Nat.mul_comm]

/-! ### The places of the fields (R145) -/

section
variable {sb rb ib ch al np i1 i2 n : Nat} {m : Bc7Mode} {b : Block}

/-- The widths of a layout's fields are those of the record, and its fields fill the block from bit `n` on. -/
structure Sizes7 (m : Bc7Mode) (n sb rb ib ch al np i1 i2 : Nat) : Prop where
  shape : sb = m.pb
  rot : rb = m.rb
  isel : ib = m.isb
  rgb : ch = endpointCount m * m.prec.r ∧ m.prec.g = m.prec.r ∧ m.prec.b = m.prec.r
  alpha : al = endpointCount m * m.prec.a
  pbits : np = m.npb
  idx1 : i1 = 16 * m.ip1 - (m.pc + 1)
  idx2 : i2 = secondLength m
  total : n + sb + rb + ib + 3 * ch + al + np + i1 + i2 = 128

/-- The fields of a layout stand in a block where the record puts them. -/
structure Placed7 (m : Bc7Mode) (n : Nat) (b : Block) (f : Bc7Fields sb rb ib ch al np i1 i2) : Prop where
  shape : b.extractLsb' n sb = f.shape
  rot : b.extractLsb' (n + m.pb) rb = f.rot
  isel : b.extractLsb' (n + m.pb + m.rb) ib = f.isel
  red : b.extractLsb' (endsStart m n + endpointCount m * precBefore m .R) ch = f.r
  green : b.extractLsb' (endsStart m n + endpointCount m * precBefore m .G) ch = f.g
  blue : b.extractLsb' (endsStart m n + endpointCount m * precBefore m .B) ch = f.b
  alpha : b.extractLsb' (endsStart m n + endpointCount m * precBefore m .A) al = f.a
  pbits : b.extractLsb' (pStart m n) np = f.p
  idx1 : b.extractLsb' (firstStart m n) i1 = f.idx1
  idx2 : b.extractLsb' (firstStart m n + i1) i2 = f.idx2

/-- A field read whole. -/
theorem memRead_whole {base k : Nat} {v : BitVec k} (h : b.extractLsb' base k = v) : memRead b base k = v.toNat := by
  have := memRead_field h (j := 0) (Nat.le_of_eq (Nat.zero_add k))
  rwa [Nat.add_zero, bitsOf, pow_zero, Nat.div_one, Nat.mod_eq_of_lt v.isLt] at this

/-- A field of at most `w` bits, kept as a `w`-bit number. -/
theorem toNat_ofNat_memRead {base k w : Nat} {v : BitVec k} (h : b.extractLsb' base k = v) (hw : k ≤ w) :
    (BitVec.ofNat w (memRead b base k)).toNat = v.toNat := by
  rw [memRead_whole h, BitVec.toNat_ofNat]
  exact Nat.mod_eq_of_lt (Nat.lt_of_lt_of_le v.isLt (Nat.pow_le_pow_right (by decide) hw))

variable {f : Bc7Fields sb rb ib ch al np i1 i2}

/-! ### Endpoints (R344 to R347) -/

/-- The stored bits of an endpoint channel are those of its field. -/
theorem memRead_channel (hp : Placed7 m n b f) (hs : Sizes7 m n sb rb ib ch al np i1 i2) (c : Channel) {e : Nat}
    (he : e < endpointCount m) :
    memRead b (endsStart m n + endpointCount m * precBefore m c + prec7 m.prec c * e) (prec7 m.prec c) =
      channelBits f c (prec7 m.prec c * e) (prec7 m.prec c) := by
  have hfits : prec7 m.prec c * e + prec7 m.prec c ≤ endpointCount m * prec7 m.prec c := by
    calc prec7 m.prec c * e + prec7 m.prec c = prec7 m.prec c * (e + 1) := (Nat.mul_succ _ _).symm
      _ ≤ prec7 m.prec c * endpointCount m := Nat.mul_le_mul_left _ he
      _ = endpointCount m * prec7 m.prec c := Nat.mul_comm _ _
  obtain ⟨hr, hg, hb⟩ := hs.rgb
  cases c with
  | R => exact memRead_field hp.red (Nat.le_trans hfits (Nat.le_of_eq hr.symm))
  | G => exact memRead_field hp.green (Nat.le_trans hfits (Nat.le_of_eq (by rw [hr, ← hg]; rfl)))
  | B => exact memRead_field hp.blue (Nat.le_trans hfits (Nat.le_of_eq (by rw [hr, ← hb]; rfl)))
  | A => exact memRead_field hp.alpha (Nat.le_trans hfits (Nat.le_of_eq hs.alpha.symm))

theorem withPBit_toNat {v : Byte} (h : v.toNat < 2 ^ 7) (p : BitVec 1) : (withPBit v p).toNat = 2 * v.toNat + p.toNat := by
  have hp := p.isLt
  have hor := Nat.two_pow_add_eq_or_of_lt (i := 1) hp v.toNat
  rw [withPBit, BitVec.toNat_or, BitVec.toNat_shiftLeft, BitVec.toNat_setWidth, Nat.shiftLeft_eq,
    Nat.mod_eq_of_lt (by omega), Nat.mod_eq_of_lt (by omega), Nat.mul_comm, ← hor, pow_one]

theorem channelBits_lt (f : Bc7Fields sb rb ib ch al np i1 i2) (c : Channel) (pos w : Nat) : channelBits f c pos w < 2 ^ w := by
  cases c <;> exact Nat.mod_lt _ (Nat.two_pow_pos w)

theorem storedAt_toNat (hm : Record7Ok m) (hp : Placed7 m n b f) (hs : Sizes7 m n sb rb ib ch al np i1 i2) {c : Channel}
    (hpos : prec7 m.prec c ≠ 0) {e : Fin 6} (he : e.val < endpointCount m) :
    (storedAt m b (endsStart m n) e.val c).toNat = channelBits f c (prec7 m.prec c * e.val) (prec7 m.prec c) := by
  have hle : prec7 m.prec c ≤ 8 := (Mode7Has.of_ok hm.ok).prec c
  rw [storedAt, if_neg hpos, memRead_channel hp hs c he, BitVec.toNat_ofNat]
  exact Nat.mod_eq_of_lt (Nat.lt_of_lt_of_le (channelBits_lt _ _ _ _) (Nat.pow_le_pow_right (by decide) hle))

/-- The P bit of an endpoint is that of the field. -/
theorem pBitAt_toNat (hp : Placed7 m n b f) (hnp : np = m.npb) {e : Nat} (he : e < endpointCount m) (hnpb : 0 < m.npb) :
    (pBitAt b (pStart m n) (pBitIndex e m.npb (endpointCount m))).toNat =
      bitsOf f.p (e * m.npb / (2 * (m.pc + 1))) 1 := by
  have hj := pBitIndex_lt he hnpb
  rw [pBitAt, memRead_field hp.pbits (by omega), BitVec.toNat_ofNat]
  exact Nat.mod_eq_of_lt (Nat.mod_lt _ (by decide))

/-- A stored channel with its P bit, if it has one, is the reference's, and has the width after the P bits. -/
theorem pBitted_toNat (hm : Record7Ok m) (hp : Placed7 m n b f) (hs : Sizes7 m n sb rb ib ch al np i1 i2) {c : Channel}
    (hpos : prec7 m.prec c ≠ 0) {e : Fin 6} (he : e.val < endpointCount m) :
    (pBitted m b (pStart m n) e c (storedAt m b (endsStart m n) e.val c)).toNat =
        (if prec7 m.precp c = prec7 m.prec c then channelBits f c (prec7 m.prec c * e.val) (prec7 m.prec c)
          else 2 * channelBits f c (prec7 m.prec c * e.val) (prec7 m.prec c) +
            bitsOf f.p (e.val * m.npb / (2 * (m.pc + 1))) 1) ∧
      (pBitted m b (pStart m n) e c (storedAt m b (endsStart m n) e.val c)).toNat < 2 ^ prec7 m.precp c := by
  have hstored := storedAt_toNat hm hp hs hpos he
  have hlt := channelBits_lt f c (prec7 m.prec c * e.val) (prec7 m.prec c)
  obtain ⟨hzero, -⟩ | ⟨-, -, height, hq | hq⟩ := hm.prec c
  · exact absurd hzero hpos
  · rw [pBitted, if_neg (not_not_intro hq), if_pos hq, hstored]
    exact ⟨rfl, hq ▸ hlt⟩
  · have hne : prec7 m.precp c ≠ prec7 m.prec c := by omega
    have hnpb : 0 < m.npb := Nat.pos_of_ne_zero fun h0 => hne (by rw [hm.noP h0])
    have hlow : (storedAt m b (endsStart m n) e.val c).toNat < 2 ^ 7 := by
      rw [hstored]
      exact Nat.lt_of_lt_of_le hlt (Nat.pow_le_pow_right (by decide) (by omega))
    have hbit : bitsOf f.p (e.val * m.npb / (2 * (m.pc + 1))) 1 < 2 := Nat.mod_lt _ (by decide)
    rw [pBitted, if_pos hne, if_neg hne, withPBit_toNat hlow, hstored, pBitAt_toNat hp hs.pbits he hnpb, hq, pow_succ]
    exact ⟨rfl, by omega⟩

/-- An endpoint channel as 8 bits is the reference's. -/
theorem endAt_toNat (hm : Record7Ok m) (hp : Placed7 m n b f) (hs : Sizes7 m n sb rb ib ch al np i1 i2) (c : Channel)
    {e : Fin 6} (he : e.val < endpointCount m) : (endAt m b n e c).toNat = endpointOf7 m f e.val c := by
  obtain ⟨hzero, hzero'⟩ | ⟨hpos, hfour, height, -⟩ := hm.prec c
  · rw [endAt, expanded, if_neg (by omega), endpointOf7, if_pos hzero]
    rfl
  · obtain ⟨hvalue, hlt⟩ := pBitted_toNat hm hp hs hpos.ne' he
    rw [endAt, expanded, if_pos (by omega), unq7_toNat hfour height hlt, hvalue, endpointOf7, if_neg hpos.ne']

/-! ### Indices and tracks (R348 to R352) -/

theorem indexAt_toNat {base ip k : Nat} {idx : BitVec k} (h : b.extractLsb' base k = idx) {anchors : List Nat}
    (hk : AnchorsOk ip anchors) (hip : ip ≤ 4) (hlen : indexStart ip anchors 16 ≤ k) (i : Fin 16) :
    (indexAt b base ip anchors i).toNat = indexOf idx ip anchors i.val := by
  have hlt := indexOf_lt idx ip anchors i.val
  rw [indexAt, ← index6, index6_eq h hk hlen, BitVec.toNat_ofNat]
  exact Nat.mod_eq_of_lt (Nat.lt_of_lt_of_le hlt (Nat.pow_le_pow_right (by decide) hip))

/-- The weights of a texel's tracks are the reference's. -/
theorem weights_tracksAt (hm : Mode7Has m) (hp : Placed7 m n b f) (hs : Sizes7 m n sb rb ib ch al np i1 i2)
    {anchors : List Nat} (hk : AnchorsOk m.ip1 anchors) (hlen : indexStart m.ip1 anchors 16 = i1) (i : Fin 16) :
    let one := weightOf m.ip1 (indexOf f.idx1 m.ip1 anchors i.val)
    let two := weightOf m.ip2 (indexOf f.idx2 m.ip2 [0] i.val)
    weightOf (tracksAt m b n anchors i).pcw (tracksAt m b n anchors i).wc =
        (if m.ip2 = 0 ∨ f.isel.toNat = 0 then one else two) ∧
      weightOf (tracksAt m b n anchors i).paw (tracksAt m b n anchors i).wa =
        (if m.ip2 = 0 ∨ f.isel.toNat = 1 then one else two) := by
  have hip1 := hm.ip1
  have hip2 := hm.ip2
  have hib : ib ≤ 1 := hs.isel ▸ hm.isb
  have hsel : (BitVec.ofNat 1 (memRead b (n + m.pb + m.rb) m.isb)).toNat = f.isel.toNat := by
    rw [← hs.isel]
    exact toNat_ofNat_memRead hp.isel hib
  have hfirst := indexAt_toNat hp.idx1 hk (by omega) (Nat.le_of_eq hlen) i
  unfold tracksAt pickTracks
  by_cases hzero : m.ip2 = 0
  · simp only [hzero, true_or, if_true, hfirst, and_self]
  · have hstart : secondStart m n anchors = firstStart m n + i1 := by rw [secondStart, hlen]
    have hsecond : (secondAt m b (secondStart m n anchors) i).toNat = indexOf f.idx2 m.ip2 [0] i.val := by
      rw [secondAt, if_neg hzero, hstart]
      exact indexAt_toNat hp.idx2 ⟨by decide, by omega⟩ (by omega) (by rw [hs.idx2, secondLength, if_neg hzero]) i
    have hone := (BitVec.ofNat 1 (memRead b (n + m.pb + m.rb) m.isb)).isLt
    by_cases hsel0 : BitVec.ofNat 1 (memRead b (n + m.pb + m.rb) m.isb) = 0
    · have h0 : f.isel.toNat = 0 := by rw [← hsel, hsel0]; rfl
      simp only [hzero, hsel0, h0, hfirst, hsecond, false_or, if_true, if_false, Nat.zero_ne_one, and_self]
    · have h1 : f.isel.toNat = 1 := by
        have : f.isel.toNat ≠ 0 := fun h => hsel0 (BitVec.eq_of_toNat_eq (hsel.trans h))
        omega
      simp only [hzero, hsel0, h1, hfirst, hsecond, false_or, if_true, if_false, Nat.one_ne_zero, and_self]

/-! ### Texels (R351 to R355) -/

theorem rotate_eq (px : Rgba) (rot : BitVec 2) :
    rotate px rot = if rot.toNat = 1 then ⟨px.a, px.g, px.b, px.r⟩
      else if rot.toNat = 2 then ⟨px.r, px.a, px.b, px.g⟩
      else if rot.toNat = 3 then ⟨px.r, px.g, px.a, px.b⟩ else px := by
  unfold rotate
  split
  · next h => rw [if_pos h]
  · next h => rw [if_neg (by omega), if_pos h]
  · next h => rw [if_neg (by omega), if_neg (by omega), if_pos h]
  · next h1 h2 h3 => rw [if_neg h1, if_neg h2, if_neg h3]

/-- The endpoints of a region are `2r` and `2r + 1` (R351). -/
theorem regionEnds_val {r : Nat} (h : r ≤ 2) : (lowEnd r).val = 2 * r ∧ (highEnd r).val = 2 * r + 1 := by
  have hall : ∀ r < 3, (lowEnd r).val = 2 * r ∧ (highEnd r).val = 2 * r + 1 := by decide
  exact hall r (by omega)

/-- One interpolated channel is the reference's. -/
theorem lerp7_endAt (hm : Record7Ok m) (hp : Placed7 m n b f) (hs : Sizes7 m n sb rb ib ch al np i1 i2) (c : Channel)
    {r : Nat} (hr : r ≤ m.pc) (hpc : m.pc ≤ 2) (w : Nat) :
    lerp7 (endAt m b n (lowEnd r) c) (endAt m b n (highEnd r) c) w = channelOf7 m f r w c := by
  obtain ⟨hlow, hhigh⟩ := regionEnds_val (Nat.le_trans hr hpc)
  rw [lerp7, lerp64_eq_mix, endAt_toNat hm hp hs c (by rw [hlow, endpointCount]; omega),
    endAt_toNat hm hp hs c (by rw [hhigh, endpointCount]; omega), hlow, hhigh]
  rfl

/-- The texel that a tile of the reference holds. -/
def texelAt7 (m : Bc7Mode) (f : Bc7Fields sb rb ib ch al np i1 i2) (i : Fin 16) : Texel :=
  ⟨some (texelOf7 m f i).r, some (texelOf7 m f i).g, some (texelOf7 m f i).b, some (texelOf7 m f i).a⟩

theorem tileOf7_eq {k : Nat} (h : romBc7mode[k]? = some m) (f : Bc7Fields sb rb ib ch al np i1 i2) :
    tileOf7 k f = Vector.ofFn (texelAt7 m f) := by
  rw [tileOf7, h]
  rfl

/-- The body of a mode: the reference's texels, and the cursor at the end of the block. -/
theorem body7_goes (hm : Record7Ok m) (hp : Placed7 m n b f) (hs : Sizes7 m n sb rb ib ch al np i1 i2) :
    Goes (At romDefault b n (W7 fun _ => True)) (body7 m) fun x s =>
      x = Vector.ofFn (texelAt7 m f) ∧ At romDefault b 128 (W7 fun _ => True) s := by
  have hhas := Mode7Has.of_ok hm.ok
  have hshape : memRead b n m.pb = f.shape.toNat := by
    rw [← hs.shape]
    exact memRead_whole hp.shape
  have hsmall : f.shape.toNat < 64 :=
    Nat.lt_of_lt_of_le f.shape.isLt (Nat.pow_le_pow_right (by decide) (hs.shape ▸ hhas.pb))
  have hrot : (BitVec.ofNat 2 (memRead b (n + m.pb) m.rb)).toNat = f.rot.toNat := by
    rw [← hs.rot]
    exact toNat_ofNat_memRead hp.rot (hs.rot ▸ hhas.rb)
  obtain ⟨hrom, hstream⟩ := shapeRom_default hhas hsmall
  rw [← hs.idx1] at hstream
  have hend : secondStart m n (anchorsOf m.pc f.shape.toNat) + secondLength m = 128 := by
    obtain ⟨hr, hg, hb⟩ := hs.rgb
    have htotal := hs.total
    have hall : endpointCount m * precAll m = 3 * ch + al := by
      rw [hr, hs.alpha, precAll, hg, hb]
      ring
    rw [secondStart, firstStart, pStart, endsStart, hstream, hall, ← hs.idx2, ← hs.shape, ← hs.rot, ← hs.isel, ← hs.pbits]
    omega
  have hbody := At.body7 (rom := romDefault) (b := b) (n := n) hhas hm.noP (by rw [hshape]; exact hrom)
    (Nat.le_of_eq hend)
  rw [hend, tab16_eq_ofFn] at hbody
  refine hbody.mono (fun _ h => h) fun x s hx => ⟨hx.1.trans (congrArg Vector.ofFn (funext fun i => ?_)), hx.2⟩
  obtain ⟨hcolor, halpha⟩ := weights_tracksAt hhas hp hs hrom.ok hstream i
  have hregion := (hrom.reg i).2
  simp only [texelBetween, lerp7_endAt hm hp hs _ hregion hhas.pc, hcolor, halpha, rotate_eq, hrot]
  rfl

/-! ### The decode (R340, R341) -/

/-- `DEC.BC7` after the mode `k` has been read. -/
theorem decodeBc7_latch {k : Nat} {blk : Block} {s : State} (hk : k < 8) (hblk : blk.toNat % 2 ^ (k + 1) = 2 ^ k)
    (hrec : s.cfg.rom.bc7mode[k]? = some m) :
    decodeBc7 (s.latch ⟨9#4, blk⟩) = body7 m (((s.latch ⟨9#4, blk⟩).setPos (BitVec.ofNat 8 (k + 1))).setWork
      { Work.unwritten with bc7 := { Work.unwritten.bc7 with m7 := some k } }) := by
  have hmode := (modeSelectors.2 (s.latch ⟨9#4, blk⟩) rfl rfl).1 k hk hblk
  rw [decodeBc7, dec_bind_ok hmode, dec_bind_ok (writeWork_apply _ _), if_neg (by omega), dec_bind_ok (romGet_some hrec)]
  rfl

/-- `DEC.BC7` on a block that has a mode's pattern and the fields in their places. -/
theorem runBc7_done {k : Nat} {blk : Block} (hblk : blk.toNat % 2 ^ (k + 1) = 2 ^ k) (hrec : romBc7mode[k]? = some m)
    (hp : Placed7 m (k + 1) blk f) (hs : Sizes7 m (k + 1) sb rb ib ch al np i1 i2) {s : State}
    (hrom : s.cfg.rom = romDefault) : ∃ t, runBc7 blk s = .next t ∧ bc7Done blk (tileOf7 k f) s t := by
  have hk : k < 8 := (List.getElem?_eq_some_iff.1 hrec).1
  have hpos : (BitVec.ofNat 8 (k + 1)).toNat = k + 1 := by
    rw [BitVec.toNat_ofNat]
    exact Nat.mod_eq_of_lt (by omega)
  have hstart : At romDefault blk (k + 1) (W7 fun _ => True)
      (((s.latch ⟨9#4, blk⟩).setPos (BitVec.ofNat 8 (k + 1))).setWork
        { Work.unwritten with bc7 := { Work.unwritten.bc7 with m7 := some k } }) :=
    ⟨hrom, rfl, rfl, hpos, rfl, trivial⟩
  obtain ⟨x, t, hrun, rfl, ht⟩ := body7_goes (record7Ok_of_mem (List.mem_of_getElem? hrec)) hp hs _ hstart
  have hnext : runBc7 blk s = _ :=
    runDecode_ok ((decodeBc7_latch hk hblk (by rw [hrom]; exact hrec)).trans hrun)
  exact ⟨_, hnext, decodeFrame_of_runDecode Tame.decodeBc7 hnext, rfl, (tileOf7_eq hrec f).symm,
    BitVec.eq_of_toNat_eq ht.pos, ht.work.1⟩

end

/-! ### The forms (R145) -/

/-- A field of no bits. -/
theorem absentField {b : Block} {base : Nat} {v : BitVec 0} : b.extractLsb' base 0 = v := Subsingleton.elim _ _

section
variable {blk : Block} {s : State}

theorem runBc7_mode0 (hrom : s.cfg.rom = romDefault) (h : blk.toNat % 2 ^ 1 = 2 ^ 0) :
    ∃ t, runBc7 blk s = .next t ∧ bc7Done blk (tileOf7 0 (bc7Fields0 blk)) s t :=
  runBc7_done h rfl ⟨rfl, absentField, absentField, rfl, rfl, rfl, absentField, rfl, rfl, absentField⟩
    ⟨rfl, rfl, rfl, ⟨rfl, rfl, rfl⟩, rfl, rfl, rfl, rfl, rfl⟩ hrom

theorem runBc7_mode1 (hrom : s.cfg.rom = romDefault) (h : blk.toNat % 2 ^ 2 = 2 ^ 1) :
    ∃ t, runBc7 blk s = .next t ∧ bc7Done blk (tileOf7 1 (bc7Fields1 blk)) s t :=
  runBc7_done h rfl ⟨rfl, absentField, absentField, rfl, rfl, rfl, absentField, rfl, rfl, absentField⟩
    ⟨rfl, rfl, rfl, ⟨rfl, rfl, rfl⟩, rfl, rfl, rfl, rfl, rfl⟩ hrom

theorem runBc7_mode2 (hrom : s.cfg.rom = romDefault) (h : blk.toNat % 2 ^ 3 = 2 ^ 2) :
    ∃ t, runBc7 blk s = .next t ∧ bc7Done blk (tileOf7 2 (bc7Fields2 blk)) s t :=
  runBc7_done h rfl ⟨rfl, absentField, absentField, rfl, rfl, rfl, absentField, absentField, rfl, absentField⟩
    ⟨rfl, rfl, rfl, ⟨rfl, rfl, rfl⟩, rfl, rfl, rfl, rfl, rfl⟩ hrom

theorem runBc7_mode3 (hrom : s.cfg.rom = romDefault) (h : blk.toNat % 2 ^ 4 = 2 ^ 3) :
    ∃ t, runBc7 blk s = .next t ∧ bc7Done blk (tileOf7 3 (bc7Fields3 blk)) s t :=
  runBc7_done h rfl ⟨rfl, absentField, absentField, rfl, rfl, rfl, absentField, rfl, rfl, absentField⟩
    ⟨rfl, rfl, rfl, ⟨rfl, rfl, rfl⟩, rfl, rfl, rfl, rfl, rfl⟩ hrom

theorem runBc7_mode4 (hrom : s.cfg.rom = romDefault) (h : blk.toNat % 2 ^ 5 = 2 ^ 4) :
    ∃ t, runBc7 blk s = .next t ∧ bc7Done blk (tileOf7 4 (bc7Fields4 blk)) s t :=
  runBc7_done h rfl ⟨absentField, rfl, rfl, rfl, rfl, rfl, rfl, absentField, rfl, rfl⟩
    ⟨rfl, rfl, rfl, ⟨rfl, rfl, rfl⟩, rfl, rfl, rfl, rfl, rfl⟩ hrom

theorem runBc7_mode5 (hrom : s.cfg.rom = romDefault) (h : blk.toNat % 2 ^ 6 = 2 ^ 5) :
    ∃ t, runBc7 blk s = .next t ∧ bc7Done blk (tileOf7 5 (bc7Fields5 blk)) s t :=
  runBc7_done h rfl ⟨absentField, rfl, absentField, rfl, rfl, rfl, rfl, absentField, rfl, rfl⟩
    ⟨rfl, rfl, rfl, ⟨rfl, rfl, rfl⟩, rfl, rfl, rfl, rfl, rfl⟩ hrom

theorem runBc7_mode6 (hrom : s.cfg.rom = romDefault) (h : blk.toNat % 2 ^ 7 = 2 ^ 6) :
    ∃ t, runBc7 blk s = .next t ∧ bc7Done blk (tileOf7 6 (bc7Fields6 blk)) s t :=
  runBc7_done h rfl ⟨absentField, absentField, absentField, rfl, rfl, rfl, rfl, rfl, rfl, absentField⟩
    ⟨rfl, rfl, rfl, ⟨rfl, rfl, rfl⟩, rfl, rfl, rfl, rfl, rfl⟩ hrom

theorem runBc7_mode7 (hrom : s.cfg.rom = romDefault) (h : blk.toNat % 2 ^ 8 = 2 ^ 7) :
    ∃ t, runBc7 blk s = .next t ∧ bc7Done blk (tileOf7 7 (bc7Fields7 blk)) s t :=
  runBc7_done h rfl ⟨rfl, absentField, absentField, rfl, rfl, rfl, rfl, rfl, rfl, absentField⟩
    ⟨rfl, rfl, rfl, ⟨rfl, rfl, rfl⟩, rfl, rfl, rfl, rfl, rfl⟩ hrom

end

/-! ### Patterns of the forms (R143) -/

theorem bc7Block0_mod (f : Bc7Fields 4 0 0 24 0 6 45 0) : (bc7Block0 f).toNat % 2 ^ 1 = 2 ^ 0 :=
  toNat_append_mod _ _

theorem bc7Block1_mod (f : Bc7Fields 6 0 0 24 0 2 46 0) : (bc7Block1 f).toNat % 2 ^ 2 = 2 ^ 1 :=
  toNat_append_mod _ _

theorem bc7Block2_mod (f : Bc7Fields 6 0 0 30 0 0 29 0) : (bc7Block2 f).toNat % 2 ^ 3 = 2 ^ 2 :=
  toNat_append_mod _ _

theorem bc7Block3_mod (f : Bc7Fields 6 0 0 28 0 4 30 0) : (bc7Block3 f).toNat % 2 ^ 4 = 2 ^ 3 :=
  toNat_append_mod _ _

theorem bc7Block4_mod (f : Bc7Fields 0 2 1 10 12 0 31 47) : (bc7Block4 f).toNat % 2 ^ 5 = 2 ^ 4 :=
  toNat_append_mod _ _

theorem bc7Block5_mod (f : Bc7Fields 0 2 0 14 16 0 31 31) : (bc7Block5 f).toNat % 2 ^ 6 = 2 ^ 5 :=
  toNat_append_mod _ _

theorem bc7Block6_mod (f : Bc7Fields 0 0 0 14 14 2 63 0) : (bc7Block6 f).toNat % 2 ^ 7 = 2 ^ 6 :=
  toNat_append_mod _ _

theorem bc7Block7_mod (f : Bc7Fields 6 0 0 20 20 4 30 0) : (bc7Block7 f).toNat % 2 ^ 8 = 2 ^ 7 :=
  toNat_append_mod _ _

/-- The result on the fields of an encoded block is the result on the fields that were encoded. -/
theorem results7_of_fields {α : Type} {enc : α → Block} {fields : Block → α} {tile : α → Tile} {s : State}
    (hback : ∀ f, fields (enc f) = f)
    (hrun : ∀ f, ∃ t, runBc7 (enc f) s = .next t ∧ bc7Done (enc f) (tile (fields (enc f))) s t) (f : α) :
    ∃ t, runBc7 (enc f) s = .next t ∧ bc7Done (enc f) (tile f) s t := by
  have := hrun f
  rwa [hback f] at this

/-- Settles O39: each form by the fields of its block. -/
theorem bc7OneRegionResult : Obligations.Bc7OneRegionResult := by
  intro s hrom
  exact ⟨results7_of_fields bc7Fields4_block fun f => runBc7_mode4 hrom (bc7Block4_mod f),
    results7_of_fields bc7Fields5_block fun f => runBc7_mode5 hrom (bc7Block5_mod f),
    results7_of_fields bc7Fields6_block fun f => runBc7_mode6 hrom (bc7Block6_mod f)⟩

/-- Settles O40: each form by the fields of its block. -/
theorem bc7TwoRegionResult : Obligations.Bc7TwoRegionResult := by
  intro s hrom
  exact ⟨results7_of_fields bc7Fields1_block fun f => runBc7_mode1 hrom (bc7Block1_mod f),
    results7_of_fields bc7Fields3_block fun f => runBc7_mode3 hrom (bc7Block3_mod f),
    results7_of_fields bc7Fields7_block fun f => runBc7_mode7 hrom (bc7Block7_mod f)⟩

/-- Settles O41: each form by the fields of its block. -/
theorem bc7ThreeRegionResult : Obligations.Bc7ThreeRegionResult := by
  intro s hrom
  exact ⟨results7_of_fields bc7Fields0_block fun f => runBc7_mode0 hrom (bc7Block0_mod f),
    results7_of_fields bc7Fields2_block fun f => runBc7_mode2 hrom (bc7Block2_mod f)⟩

/-! ### Every block (R206, R357) -/

/-- What O42 says of a completed BC7 decode. -/
def Completed7 (blk : Block) (s t : State) : Prop :=
  DecodeFrame ⟨9#4, blk⟩ s t ∧ t.status = .ok ∧ t.pos = 128#8 ∧ CarriesChannels .bc7 t.tile

theorem completed7_of_done {sb rb ib ch al np i1 i2 k : Nat} {f : Bc7Fields sb rb ib ch al np i1 i2} {blk : Block} {s : State}
    (hk : k < 8) (h : ∃ t, runBc7 blk s = .next t ∧ bc7Done blk (tileOf7 k f) s t) :
    ∃ t, runBc7 blk s = .next t ∧ Completed7 blk s t := by
  obtain ⟨t, hrun, hframe, hstatus, htile, hpos, -⟩ := h
  refine ⟨t, hrun, hframe, hstatus, hpos, ?_⟩
  rw [htile, tileOf7_eq (List.getElem?_eq_getElem hk)]
  exact carriesChannels_ofFn fun i c => by cases c <;> rfl

/-- Settles O42: a block whose first byte is not 0 has one of the eight patterns. -/
theorem bc7Completes : Obligations.Bc7Completes := by
  intro blk s hrom hbyte
  obtain ⟨k, hk, hpattern⟩ := (bc7_pattern_cases blk).resolve_right hbyte
  show ∃ t, runBc7 blk s = .next t ∧ Completed7 blk s t
  match k, hk, hpattern with
  | 0, hk, h => exact completed7_of_done hk (runBc7_mode0 hrom h)
  | 1, hk, h => exact completed7_of_done hk (runBc7_mode1 hrom h)
  | 2, hk, h => exact completed7_of_done hk (runBc7_mode2 hrom h)
  | 3, hk, h => exact completed7_of_done hk (runBc7_mode3 hrom h)
  | 4, hk, h => exact completed7_of_done hk (runBc7_mode4 hrom h)
  | 5, hk, h => exact completed7_of_done hk (runBc7_mode5 hrom h)
  | 6, hk, h => exact completed7_of_done hk (runBc7_mode6 hrom h)
  | 7, hk, h => exact completed7_of_done hk (runBc7_mode7 hrom h)

/-! ### Statuses (R422) -/

/-- A status is one that a word delivers with the default ROM. -/
def Delivered (w : Word) (st : Status) : Prop :=
  st ∈ deliverable w.fmt ∧ (st = .unsupported ↔ 10 ≤ w.fmt.toNat) ∧
    (st = .bc6hReserved ↔ (w.fmt = 7#4 ∨ w.fmt = 8#4) ∧ w.blk.toNat % 32 ∈ [0x13, 0x17, 0x1B, 0x1F]) ∧
    (st = .bc7Reserved ↔ w.fmt = 9#4 ∧ w.blk.toNat % 256 = 0)

/-- The formats 0 to 6 deliver `OK`. -/
theorem delivered_plain {f : FmtCode} (h : f.toNat < 7) (blk : Block) : Delivered ⟨f, blk⟩ .ok := by
  have hall : ∀ f : FmtCode, f.toNat < 7 → .ok ∈ deliverable f ∧ f ≠ 7 ∧ f ≠ 8 ∧ f ≠ 9 := by decide
  obtain ⟨hmem, h7, h8, h9⟩ := hall f h
  exact ⟨hmem, iff_of_false (by decide) (show ¬ 10 ≤ f.toNat by omega),
    iff_of_false (by decide) fun h => h.1.elim h7 h8, iff_of_false (by decide) fun h => h9 h.1⟩

/-- The formats 10 to 15 deliver `UNSUPPORTED`. -/
theorem delivered_refused {f : FmtCode} (h : 10 ≤ f.toNat) (blk : Block) : Delivered ⟨f, blk⟩ .unsupported := by
  have hall : ∀ f : FmtCode, 10 ≤ f.toNat → .unsupported ∈ deliverable f ∧ f ≠ 7 ∧ f ≠ 8 ∧ f ≠ 9 := by decide
  obtain ⟨hmem, h7, h8, h9⟩ := hall f h
  exact ⟨hmem, iff_of_true rfl h, iff_of_false (by decide) fun h => h.1.elim h7 h8, iff_of_false (by decide) fun h => h9 h.1⟩

/-- A BC6H format delivers its reserved status exactly for the reserved codes, and `OK` otherwise. -/
theorem runBc6_delivers {s : State} (hrom : s.cfg.rom = romDefault) (p : Profile) (blk : Block) :
    ∃ t, runBc6 p blk s = .next t ∧ Delivered ⟨p.fmt, blk⟩ t.status := by
  have hfmt : (.ok ∈ deliverable p.fmt ∧ .bc6hReserved ∈ deliverable p.fmt) ∧ ¬ 10 ≤ p.fmt.toNat ∧
      (p.fmt = 7#4 ∨ p.fmt = 8#4) ∧ p.fmt ≠ 9#4 := by cases p <;> decide
  obtain ⟨⟨hok, hres⟩, hten, hbc6, hbc7⟩ := hfmt
  by_cases h : blk.toNat % 32 ∈ [0x13, 0x17, 0x1B, 0x1F]
  · have hentry : s.cfg.rom.bc6map[bc6Code blk]? = some .reserved := by
      rw [hrom]
      exact (romBc6map_reserved h).1
    obtain ⟨t, hrun, -, hstatus, -⟩ := runBc6_event (p := p) (e := .reserved6) hentry fun _ => rfl
    rw [show eventStatus .reserved6 = .bc6hReserved from rfl] at hstatus
    refine ⟨t, hrun, ?_⟩
    rw [hstatus]
    exact ⟨hres, iff_of_false (by decide) hten, iff_of_true rfl ⟨hbc6, h⟩, iff_of_false (by decide) fun h => hbc7 h.1⟩
  · obtain ⟨t, hrun, -, hstatus, -⟩ := runBc6_completes hrom h p
    refine ⟨t, hrun, ?_⟩
    rw [hstatus]
    exact ⟨hok, iff_of_false (by decide) hten, iff_of_false (by decide) fun h' => h h'.2,
      iff_of_false (by decide) fun h => hbc7 h.1⟩

/-- BC7 delivers its reserved status exactly for a first byte of 0, and `OK` otherwise. -/
theorem runBc7_delivers {s : State} (hrom : s.cfg.rom = romDefault) (blk : Block) :
    ∃ t, runBc7 blk s = .next t ∧ Delivered ⟨9#4, blk⟩ t.status := by
  have hfmt : (.ok ∈ deliverable 9#4 ∧ .bc7Reserved ∈ deliverable 9#4) ∧ ¬ 10 ≤ (9#4).toNat ∧
      ¬ ((9#4 : FmtCode) = 7#4 ∨ (9#4 : FmtCode) = 8#4) := by decide
  obtain ⟨⟨hok, hres⟩, hten, hbc6⟩ := hfmt
  by_cases h : blk.toNat % 256 = 0
  · obtain ⟨t, hrun, -, hstatus, -⟩ := runBc7_reserved s h
    refine ⟨t, hrun, ?_⟩
    rw [hstatus]
    exact ⟨hres, iff_of_false (by decide) hten, iff_of_false (by decide) fun h => hbc6 h.1, iff_of_true rfl ⟨rfl, h⟩⟩
  · obtain ⟨t, hrun, -, hstatus, -⟩ := bc7Completes blk s hrom h
    refine ⟨t, hrun, ?_⟩
    rw [hstatus]
    exact ⟨hok, iff_of_false (by decide) hten, iff_of_false (by decide) fun h => hbc6 h.1,
      iff_of_false (by decide) fun h' => h h'.2⟩

theorem ten_le_refused10 : ∀ f : BitVec 1, 10 ≤ (5#3 ++ f).toNat := by decide

theorem ten_le_refused12 : ∀ f : BitVec 2, 10 ≤ (3#2 ++ f).toNat := by decide

/-- Settles O48: each first-level operation by what it delivers. -/
theorem deliveredStatus : Obligations.DeliveredStatus := by
  intro w s hrom
  show ∃ t, exec (decode w) s = .next t ∧ Delivered w t.status
  have hfirst := decode_firstLevel w
  have hword := encode_decode w
  revert hfirst hword
  generalize decode w = i
  intro hfirst hword
  cases i
  case decBC1 col hi =>
    cases hword
    obtain ⟨t, hrun, -, hstatus, -⟩ := bc1Result col hi s
    exact ⟨t, hrun, hstatus ▸ delivered_plain (by decide) _⟩
  case decBC2 a4 col =>
    cases hword
    obtain ⟨t, hrun, -, hstatus, -⟩ := bc2Result a4 col s
    exact ⟨t, hrun, hstatus ▸ delivered_plain (by decide) _⟩
  case decBC3 al col =>
    cases hword
    obtain ⟨t, hrun, -, hstatus, -⟩ := bc3Result al col s
    exact ⟨t, hrun, hstatus ▸ delivered_plain (by decide) _⟩
  case decBC4U g hi =>
    cases hword
    obtain ⟨t, hrun, -, hstatus, -⟩ := (bc4Result g hi s).1
    exact ⟨t, hrun, hstatus ▸ delivered_plain (by decide) _⟩
  case decBC4S g hi =>
    cases hword
    obtain ⟨t, hrun, -, hstatus, -⟩ := (bc4Result g hi s).2
    exact ⟨t, hrun, hstatus ▸ delivered_plain (by decide) _⟩
  case decBC5U g k =>
    cases hword
    obtain ⟨t, hrun, -, hstatus, -⟩ := (bc5Result g k s).1
    exact ⟨t, hrun, hstatus ▸ delivered_plain (by decide) _⟩
  case decBC5S g k =>
    cases hword
    obtain ⟨t, hrun, -, hstatus, -⟩ := (bc5Result g k s).2
    exact ⟨t, hrun, hstatus ▸ delivered_plain (by decide) _⟩
  case decBC6HU blk =>
    cases hword
    exact runBc6_delivers hrom .unsigned blk
  case decBC6HS blk =>
    cases hword
    exact runBc6_delivers hrom .signed blk
  case decBC7 blk =>
    cases hword
    exact runBc7_delivers hrom blk
  case unsupportedFmt10_11 f blk =>
    cases hword
    obtain ⟨t, hrun, -, -, hstatus, -⟩ := (unsupportedRefused blk s).1 f
    exact ⟨t, hrun, hstatus ▸ delivered_refused (ten_le_refused10 f) blk⟩
  case unsupportedFmt12_15 f blk =>
    cases hword
    obtain ⟨t, hrun, -, -, hstatus, -⟩ := (unsupportedRefused blk s).2 f
    exact ⟨t, hrun, hstatus ▸ delivered_refused (ten_le_refused12 f) blk⟩
  all_goals cases hfirst

end Sys2Proof.Machine
end
